-- ==== Sys2Proof/Word.lean ====
section
/-! DEFINITION. The two word types of the block: bytes of the address spaces, and 32-bit words of the CSR space
(10_state.md R40, 20_memory.md R50). -/

namespace Sys2Proof

/-- One byte of an address space (20_memory.md R50). -/
abbrev Byte := BitVec 8

/-- One CSR word (10_state.md R40). -/
abbrev Word := BitVec 32

end Sys2Proof
end

