-- ==== Sys2Proof/Config.lean ====
section
/-! DEFINITION. What an implementation fixes (00_scope.md section 4: "Every parameter below is an argument of the
model"), as plain data, and the free values. What the parameters compute stands in Machine/Agents.lean. -/

namespace Sys2Proof

/-- `P_MAXCOMP` (00_scope.md R7), a function 0..B to naturals, as plain data: the default formula, or the list of the
bounds of 0, 1, 2, … (log entry 2). -/
inductive MaxComp where
  | linear
  | table (bounds : List Nat)
deriving DecidableEq, Repr

/-- `Compress` (00_scope.md R12, 60_exceptions.md R231): the answers known of it; every other block has the
uninterpreted answer `Config.compress` (log entry 3). -/
structure Compressor where
  known : List (List Byte × Option (List Byte))
deriving DecidableEq, Repr

/-- `MaskedCrc` (00_scope.md R12, 60_exceptions.md R232): the masked Castagnoli CRC of R12, or a unit of which only
the listed answers are known (log entry 4). -/
inductive ChecksumUnit where
  | castagnoli
  | given (known : List (List Byte × Word))
deriving DecidableEq, Repr

/-- The implementation parameters of one instance (00_scope.md section 4, 93_implementation_defined.md U22, U23;
log entry 1). -/
structure Params where
  /-- `P_BLOCK` (R6). -/
  block : Nat
  /-- `P_PREAMBLE` (R9). -/
  preamble : List Byte
  /-- `P_CTYPE` (R10). -/
  ctype : Byte
  /-- `P_MAXCOMP` (R7). -/
  maxComp : MaxComp
  /-- `Compress` (R12). -/
  compressor : Compressor
  /-- `MaskedCrc` (R12). -/
  checksum : ChecksumUnit
  /-- `P_CSR_BASE` (20_memory.md R64). -/
  csrBase : Nat
deriving DecidableEq, Repr

namespace Config

/-- FREE VALUE (log entry 10): the byte at an address of a buffer that nothing has written since the draw of that
number (10_state.md R34, R35; 93_implementation_defined.md U5, U7, U9). -/
opaque freeByte (draw address : Nat) : Byte

/-- FREE VALUE (log entry 3): the compressor's answer for a block of which the parameters list none
(60_exceptions.md R231). -/
opaque compress (blk : List Byte) : Option (List Byte)

/-- FREE VALUE (log entry 4): the checksum unit's answer for a block of which the parameters list none
(60_exceptions.md R232). -/
opaque maskedCrc (blk : List Byte) : Word

end Config

end Sys2Proof
end

