-- ==== Sys2Proof/Machine/Agents.lean ====
section
/-! DEFINITION. What the parameters compute: byte orders, the derived sizes, the compression bound, the compressor and
the checksum unit as functions of a block (00_scope.md R7 to R15, 60_exceptions.md R231, R232). -/

namespace Sys2Proof

/-- The `n`-byte little-endian representation of a natural (00_scope.md R16 `MemWrite`, 20_memory.md R56). -/
def leBytes : Nat → Nat → List Byte
  | 0, _ => []
  | n + 1, v => BitVec.ofNat 8 v :: leBytes n (v / 256)

/-- `le24` of 00_scope.md R15. -/
def le24 (v : Nat) : List Byte := leBytes 3 v

/-- `le32` of 00_scope.md R15. -/
def le32 (v : Word) : List Byte := leBytes 4 v.toNat

/-- `P_PRELEN` (00_scope.md R9). -/
def preLen : Nat := 10

/-- `P_HDRLEN` (00_scope.md R11). -/
def hdrLen : Nat := 8

/-- `P_MAXCOMP(n)` (00_scope.md R7). Beyond a table's end the last bound stands. -/
def MaxComp.bound : MaxComp → Nat → Nat
  | .linear, n => 32 + n + n / 6
  | .table l, n => l.getD n (l.getLastD 0)

/-- The bound is monotone on 0..b (00_scope.md R7). -/
def MaxComp.monotoneUpTo : MaxComp → Nat → Bool
  | .linear, _ => true
  | .table l, b => decide ((l.take (b + 1)).Pairwise (· ≤ ·))

/-- `P_STAGE` (00_scope.md R11). -/
def Params.stageSize (p : Params) : Nat := preLen + hdrLen + p.maxComp.bound p.block

/-- The compressor's answer for a block (60_exceptions.md R231): it depends on the block's bytes alone (R12). -/
def Params.compress (p : Params) (blk : List Byte) : Option (List Byte) :=
  match p.compressor.known.lookup blk with
  | some answer => answer
  | none => Config.compress blk

/-- One bit of the reflected CRC with polynomial 0x82F63B78 (00_scope.md R12). -/
def crcBit (c : Word) : Word :=
  if c.getLsbD 0 then (c >>> 1) ^^^ 0x82F63B78#32 else c >>> 1

/-- One byte of the CRC, least significant bit first. -/
def crcByte (c : Word) (b : Byte) : Word :=
  Nat.repeat crcBit 8 (c ^^^ b.setWidth 32)

/-- CRC-32C of a byte span (00_scope.md R12): initial value and final XOR 0xFFFFFFFF. -/
def crc32c (bs : List Byte) : Word :=
  bs.foldl crcByte 0xFFFFFFFF#32 ^^^ 0xFFFFFFFF#32

/-- `mask` of 00_scope.md R12. -/
def maskCrc (c : Word) : Word :=
  ((c >>> 15) ||| (c <<< 17)) + 0xA282EAD8#32

/-- The checksum unit's answer for a block (60_exceptions.md R232): total, it cannot fail. -/
def Params.maskedCrc (p : Params) (blk : List Byte) : Word :=
  match p.checksum with
  | .castagnoli => maskCrc (crc32c blk)
  | .given known =>
    match known.lookup blk with
    | some c => c
    | none => Config.maskedCrc blk

/-- The chunk of a block and its payload on the wire (30_encoding.md R93). -/
def Params.chunk (p : Params) (blk payload : List Byte) : List Byte :=
  p.ctype :: (le24 (payload.length + 4) ++ le32 (p.maskedCrc blk) ++ payload)

/-- The defaults of 00_scope.md R6, R7, R9, R10 and R12; no answer of the compressor is known, and `P_CSR_BASE` is 0
(DESIGN CHOICE, log entry 6). -/
def Params.default : Params where
  block := 65536
  preamble := [0xFF#8, 0x06#8, 0x00#8, 0x00#8, 0x73#8, 0x4E#8, 0x61#8, 0x50#8, 0x70#8, 0x59#8]
  ctype := 0x00#8
  maxComp := .linear
  compressor := ⟨[]⟩
  checksum := .castagnoli
  csrBase := 0

end Sys2Proof
end

