-- ==== Sys2Proof/Syntax.lean ====
section
/-! DEFINITION. The commands: one constructor per row of spec/opcode_table.json (30_encoding.md R80 to R90), and the
lines of a host program (R91). -/

namespace Sys2Proof

/-- The five commands (30_encoding.md R81, R82). `snk` is the SNK bit (R83): a sink is attached. -/
inductive Instr where
  /-- `WRITE` (40_write.md R110). -/
  | write (snk : Bool)
  /-- `WRITE.A` (40_write.md R111). -/
  | writeA (snk : Bool)
  /-- `FLUSH` (41_flush.md R140). -/
  | flush (snk : Bool)
  /-- `FLUSH.A` (41_flush.md R141). -/
  | flushA (snk : Bool)
  /-- `DISPOSE` (43_lifecycle.md R194); its SNK bit is ignored but is a bit of the word. -/
  | dispose (snk : Bool)
deriving DecidableEq, Repr

/-- One line of a host program (30_encoding.md R91, R92): the mnemonics, and the pseudo-operations `WAIT`, `CANCEL`
and `UNCANCEL`. `async` chooses the `.A` form and `nosink` clears SNK. -/
inductive Line where
  | write (async : Bool) (len : Nat) (data : List Byte) (nosink : Bool)
  | flush (async : Bool) (nosink : Bool)
  | dispose
  | wait
  | cancel
  | uncancel
deriving DecidableEq, Repr

end Sys2Proof
end

