-- ==== Sys2Proof/WellFormed.lean ====
section
/-! DEFINITION. Which terms are well formed: commands, lines of a host program, and parameter sets. -/

namespace Sys2Proof

/-- A command's only field is its SNK bit and every value of it is encodable (30_encoding.md R83, R90), so every term
of `Instr` is well formed. -/
def Instr.wf : Instr → Bool
  | .write _ => true
  | .writeA _ => true
  | .flush _ => true
  | .flushA _ => true
  | .dispose _ => true

/-- A line is well formed when its operand is the length of the data it lends and fits `SRC_LEN`
(30_encoding.md R92 `|data| = len`, 00_scope.md R13). -/
def Line.wf : Line → Bool
  | .write _ len data _ => decide (len = data.length) && decide (len < 2 ^ 32)
  | .flush _ _ => true
  | .dispose => true
  | .wait => true
  | .cancel => true
  | .uncancel => true

/-- A parameter set of which an instance exists: a positive block (00_scope.md R6), a ten-byte preamble (R9), a
monotone bound (R7), and room in the length field (R8; 93_implementation_defined.md U21). -/
def Params.wf (p : Params) : Bool :=
  decide (0 < p.block) && decide (p.preamble.length = preLen) && p.maxComp.monotoneUpTo p.block
    && decide (p.maxComp.bound p.block + 4 < 2 ^ 24)

end Sys2Proof
end

