-- ==== Sys2Proof/Decode.lean ====
section
/-! DEFINITION. The command word (30_encoding.md section 1): its fields, the decoder, total on 32-bit words and on byte
strings, rejecting by name, and the encoder. -/

namespace Sys2Proof

/-- Why a word is illegal (30_encoding.md R87). -/
inductive Reject where
  /-- `w[31:6]` is not zero (R84). -/
  | reservedBits
  /-- OPC is 0x0 or one of 0x4 to 0xF (R81). -/
  | reservedOpcode
  /-- DISPOSE with ASYNC = 1 (R82). -/
  | disposeAsync
  /-- Not four bytes (R89: every command is 32 bits). -/
  | notOneWord
deriving DecidableEq, Repr

/-- `w[3:0]` (30_encoding.md R80). -/
def opcField (w : Word) : BitVec 4 := w.extractLsb' 0 4

/-- `w[4]`. -/
def asyncField (w : Word) : Bool := w.getLsbD 4

/-- `w[5]`. -/
def snkField (w : Word) : Bool := w.getLsbD 5

/-- `w[31:6]`. -/
def reservedField (w : Word) : BitVec 26 := w.extractLsb' 6 26

/-- `decode` of 30_encoding.md R86, with the reason of a rejection. -/
def decode (w : Word) : Except Reject Instr :=
  if reservedField w ≠ 0#26 then .error .reservedBits
  else if opcField w = 0x1#4 then
    .ok (if asyncField w then .writeA (snkField w) else .write (snkField w))
  else if opcField w = 0x2#4 then
    .ok (if asyncField w then .flushA (snkField w) else .flush (snkField w))
  else if opcField w = 0x3#4 then
    if asyncField w then .error .disposeAsync else .ok (.dispose (snkField w))
  else .error .reservedOpcode

/-- The four bytes of a CSR word, least significant first (20_memory.md R56). -/
def wordOfBytes (b0 b1 b2 b3 : Byte) : Word := b3 ++ b2 ++ b1 ++ b0

/-- The decoder on bytes: the command word's four bytes and what is left. -/
def decodeBytes : List Byte → Except Reject (Instr × List Byte)
  | b0 :: b1 :: b2 :: b3 :: rest =>
    match decode (wordOfBytes b0 b1 b2 b3) with
    | .ok i => .ok (i, rest)
    | .error r => .error r
  | _ => .error .notOneWord

/-- A command word from its fields (30_encoding.md R80). -/
def commandWord (opc : BitVec 4) (async snk : Bool) : Word :=
  0#26 ++ BitVec.ofBool snk ++ BitVec.ofBool async ++ opc

/-- The word of a command (30_encoding.md R81, R90). -/
def encode : Instr → Word
  | .write snk => commandWord 0x1#4 false snk
  | .writeA snk => commandWord 0x1#4 true snk
  | .flush snk => commandWord 0x2#4 false snk
  | .flushA snk => commandWord 0x2#4 true snk
  | .dispose snk => commandWord 0x3#4 false snk

/-- The word whose `nbits` low bits are `w`'s and whose other bits are zero. -/
def tableWord (nbits w : Nat) : Word := BitVec.ofNat 32 (w % 2 ^ nbits)

/-- The command the decoder reads from the word laid out as four bytes, least significant at the lowest address. -/
def decodeTableWord (nbits w : Nat) : Option Instr :=
  match decodeBytes (leBytes 4 (tableWord nbits w).toNat) with
  | .ok (i, _) => some i
  | .error _ => none

end Sys2Proof
end

