-- ==== Sys2Proof/Machine/Memory.lean ====
section
/-! DEFINITION. Byte memory in one canonical form, and the buffers SRC, ACC and STG made of it (20_memory.md R51 to R53).
An address that nothing has written has no value in the memory; a buffer reads it as a free value (log entry 10). -/

namespace Sys2Proof.Machine

/-- Byte memory: the written bytes, addresses strictly rising. -/
structure Memory where
  cells : List Host.Cell
deriving DecidableEq, Repr

namespace Memory

/-- Nothing written. -/
def empty : Memory := ⟨[]⟩

/-- The canonical form: addresses strictly rising. An unlisted address has no value, so no entry can equal it. -/
def wf (m : Memory) : Bool := decide (m.cells.Pairwise fun c d => c.1 < d.1)

/-- The byte at an address, if it has been written. -/
def read (m : Memory) (a : Nat) : Option Byte := m.cells.lookup a

/-- The cells of a byte string laid out from an address. -/
def cellsFrom : Nat → List Byte → List Host.Cell
  | _, [] => []
  | a, b :: bs => (a, b) :: cellsFrom (a + 1) bs

/-- `MemWrite` (00_scope.md R16): the bytes `bs` at `a`, `a + 1`, …; every other address keeps its byte. -/
def write (m : Memory) (a : Nat) (bs : List Byte) : Memory :=
  ⟨m.cells.filter (fun c => decide (c.1 < a)) ++ cellsFrom a bs
    ++ m.cells.filter (fun c => decide (a + bs.length ≤ c.1))⟩

/-- The bytes at `lo` to `hi - 1` become unwritten. -/
def erase (m : Memory) (lo hi : Nat) : Memory :=
  ⟨m.cells.filter (fun c => decide (c.1 < lo) || decide (hi ≤ c.1))⟩

end Memory

/-- A buffer: its written bytes, and the number of the draw that gives its other bytes (10_state.md R34, R35). -/
structure Buffer where
  mem : Memory
  draw : Nat
deriving DecidableEq, Repr

namespace Buffer

/-- A buffer of which nothing is known: its bytes are those of draw `d`. -/
def fresh (d : Nat) : Buffer := ⟨.empty, d⟩

/-- The byte at an address. -/
def byte (b : Buffer) (a : Nat) : Byte := (b.mem.read a).getD (Config.freeByte b.draw a)

/-- `MemRead` (00_scope.md R16): the `n` bytes from `a` on. -/
def bytes (b : Buffer) (a n : Nat) : List Byte := (List.range n).map fun i => b.byte (a + i)

/-- `MemWrite` (00_scope.md R16). -/
def write (b : Buffer) (a : Nat) (bs : List Byte) : Buffer := { b with mem := b.mem.write a bs }

/-- The bytes at `lo` to `hi - 1` take any value (93_implementation_defined.md U5, U9): those of draw `d`. -/
def scribble (b : Buffer) (lo hi d : Nat) : Buffer := ⟨b.mem.erase lo hi, d⟩

/-- `bytes` in one pass over the written bytes; `bytes_eq_bytesInOnePass` proves it the same, so that compiled runs use it. -/
def bytesInOnePass (b : Buffer) (a n : Nat) : List Byte :=
  (b.mem.cells.foldr (fun c (out : Array Byte) => if a ≤ c.1 then out.setIfInBounds (c.1 - a) c.2 else out)
    ((List.range n).map fun i => Config.freeByte b.draw (a + i)).toArray).toList

theorem onePass_spec (cells : List Host.Cell) (free : Nat → Byte) (a n : Nat) :
    cells.foldr (fun c (out : Array Byte) => if a ≤ c.1 then out.setIfInBounds (c.1 - a) c.2 else out)
      ((List.range n).map fun i => free (a + i)).toArray
    = ((List.range n).map fun i => (cells.lookup (a + i)).getD (free (a + i))).toArray := by
  induction cells with
  | nil => simp
  | cons c t ih =>
    obtain ⟨x, v⟩ := c
    rw [List.foldr_cons, ih]
    apply Array.ext
    · split <;> simp
    · intro i h1 h2
      have hi : i < n := by simpa using h2
      by_cases hx : a + i = x
      · subst hx
        simp [List.lookup_cons]
      · have hne : (a + i == x) = false := by simpa using hx
        have hne' : a ≤ x → x - a ≠ i := by omega
        simp only [List.lookup_cons]
        split
        · rw [Array.getElem_setIfInBounds_ne (by simpa using hi) (hne' ‹_›)]
          simp [hne]
        · simp [hne]

@[csimp] theorem bytes_eq_bytesInOnePass : @bytes = @bytesInOnePass := by
  funext b a n
  unfold bytesInOnePass
  rw [onePass_spec b.mem.cells (Config.freeByte b.draw)]
  simp [bytes, byte, Memory.read]

end Buffer

end Sys2Proof.Machine
end

