-- ==== Sys2Proof/Machine/State.lean ====
section
/-! DEFINITION. The state of the machine as plain data (10_state.md), the events of its history (20_memory.md R60), the
reasons a step can stop, and the state after reset (70_reset_and_hazards.md R251). -/

namespace Sys2Proof.Machine

/-- The address spaces of buffers (20_memory.md R50). -/
inductive Space where
  | src | acc | stg
deriving DecidableEq, Repr

/-- The sequencing state (10_state.md R27). -/
inductive Fsm where
  | idle | ensure | segment | emit | drain
deriving DecidableEq, Repr

/-- The operations a latched command has (10_state.md R33). -/
inductive Op where
  | write | flush | dispose
deriving DecidableEq, Repr

/-- The latched command `cur` (10_state.md R33). -/
structure Command where
  op : Op
  async : Bool
  snk : Bool
  len : Word
deriving DecidableEq, Repr

/-- The one request that may be outstanding (60_exceptions.md R230; 00_scope.md R16 `await`). `checksum cl` keeps the
payload length the compressor answered. -/
inductive Pending where
  | none | pool | compressor | checksum (cl : Nat) | sink
deriving DecidableEq, Repr

/-- The pool's answer to `acquire` (60_exceptions.md R234). -/
inductive PoolAnswer where
  | granted | refused
deriving DecidableEq, Repr

/-- The sink's answer to `transfer` (60_exceptions.md R233). A failing sink has kept the first `kept` bytes of the
transfer (93_implementation_defined.md U6; log entry 22). -/
inductive SinkAnswer where
  | ok | err (kept : Nat)
deriving DecidableEq, Repr

/-- The error kinds (60_exceptions.md R210). -/
inductive ErrorKind where
  | illegal | disposed | nullSink | compress | sink | cancelled | poisoned | alloc
deriving DecidableEq, Repr

/-- The events of the history (20_memory.md R60). -/
inductive Event where
  | accept (word len : Word)
  | poolAcquire (accSize stgSize : Nat)
  | poolAnswer (answer : PoolAnswer)
  | compressReq (source : Space) (n dst : Nat)
  /-- `some cl` is Ok(cl), `none` is Fail (60_exceptions.md R231). -/
  | compressAnswer (answer : Option Nat)
  | crcReq (source : Space) (n : Nat)
  | crcAnswer (crc : Word)
  | sinkTransfer (bytes : List Byte)
  /-- Whether the sink accepted the transfer (60_exceptions.md R233). -/
  | sinkAnswer (accepted : Bool)
  | cancelSampled (value : Bool)
  | compressorTeardown
  | poolRelease
  | done (code : BitVec 8)
deriving DecidableEq, Repr

/-- What the world outside does (INVENTORY.md, Host interface; log entry 15). -/
inductive Input where
  /-- The host writes a CSR: bus address, width in bytes, value (10_state.md R40). -/
  | csrWrite (address width : Nat) (value : Word)
  /-- The host reads a CSR (10_state.md R46). -/
  | csrRead (address width : Nat)
  /-- The host lends the SRC span (20_memory.md R51). -/
  | lend (data : List Byte)
  /-- The host drives `cancel_req` (10_state.md R36). -/
  | cancel (value : Bool)
  /-- The host constructs a new instance (70_reset_and_hazards.md R250, R252). -/
  | construct
  /-- The pool's answer to its next request comes (60_exceptions.md R234). -/
  | pool (answer : PoolAnswer)
  /-- The sink's answer to its next request comes (60_exceptions.md R233). -/
  | sink (answer : SinkAnswer)
  /-- From now on the compressor answers at once, or not yet (60_exceptions.md R231; log entry 8). -/
  | compressor (ready : Bool)
  /-- From now on the checksum unit answers at once, or not yet (60_exceptions.md R232; log entry 8). -/
  | checksum (ready : Bool)
  /-- Whether the sequencer runs on without pause from now on (20_memory.md R68; log entry 9). -/
  | pace (eager : Bool)
  /-- The sequencer takes one step (70_reset_and_hazards.md R262; log entry 9). -/
  | tick
deriving DecidableEq, Repr

/-- The state of the machine. -/
structure State where
  /-- The parameters of the instance (00_scope.md section 4); no command changes them. -/
  params : Params
  /-- `alloc` (10_state.md R21). -/
  alloc : Bool
  /-- `hdr_written` (R22). -/
  hdrWritten : Bool
  /-- `disposed` (R23). -/
  disposed : Bool
  /-- `poisoned` (R24). -/
  poisoned : Bool
  /-- `busy` (R25). -/
  busy : Bool
  /-- `err` (R26). -/
  err : BitVec 8
  /-- `fsm` (R27). -/
  fsm : Fsm
  /-- `acc_len` (R28). -/
  accLen : Nat
  /-- `stage_len` (R29). -/
  stageLen : Nat
  /-- `src_len` (R30). -/
  srcLen : Word
  /-- `consumed` (R31). -/
  consumed : Word
  /-- `chunks` (R32). -/
  chunks : Word
  /-- `cur` (R33). -/
  cur : Command
  /-- `ACC` (R34); it exists while `alloc` holds. -/
  acc : Buffer
  /-- `STG` (R35); it exists while `alloc` holds. -/
  stg : Buffer
  /-- The lent SRC span (20_memory.md R51). -/
  src : Buffer
  /-- The outstanding request (60_exceptions.md R230). -/
  pending : Pending
  /-- The input `cancel_req` (10_state.md R36). -/
  cancelReq : Bool
  /-- The sink stream (20_memory.md R55), an observation. -/
  sinkStream : List Byte
  /-- The event history (20_memory.md R60), oldest first, an observation. -/
  history : List Event
  /-- MODEL: what the world outside does next, oldest first (log entry 15). -/
  inputs : List Input
  /-- MODEL: the pool's next answers (log entry 7). -/
  poolAnswers : List PoolAnswer
  /-- MODEL: the sink's next answers (log entry 7). -/
  sinkAnswers : List SinkAnswer
  /-- MODEL: the compressor answers at once (log entry 8). -/
  compressorReady : Bool
  /-- MODEL: the checksum unit answers at once (log entry 8). -/
  checksumReady : Bool
  /-- MODEL: the sequencer runs on without pause (log entry 9). -/
  eager : Bool
  /-- MODEL: the next unused draw of free bytes (log entry 10). -/
  draws : Nat
  /-- MODEL: what the host's last CSR read returned (log entry 20). -/
  readData : Word
deriving DecidableEq, Repr

/-- Why the machine stops with a fault. -/
inductive Fault where
  /-- An access to an address the space does not have: outside 0..B-1 of ACC, 0..P_STAGE-1 of STG, or 0..len-1 of SRC,
  or of a buffer that is not leased (20_memory.md R51 to R53). Raised by the buffer accesses of Machine/Ops.lean. Safe:
  no state with the invariant of Safety.lean reaches it (log entry 25). -/
  | noSuchAddress (space : Space)
deriving DecidableEq, Repr

/-- Why a step is refused. -/
inductive Refusal where
  /-- An arm of exec without a meaning; raised by none. -/
  | notModelled (mnemonic : String)
  /-- No instance exists with these parameters (00_scope.md R8; 93_implementation_defined.md U21). Raised by every
  command and input. Safe. -/
  | badParameters
  /-- CMD written while `busy = 1` (60_exceptions.md R228). Raised by every command. Safe. -/
  | commandWhileBusy
  /-- SRC_LEN written while `busy = 1` (60_exceptions.md R228). Raised by the CSR write. Safe. -/
  | srcLenWhileBusy
  /-- A CSR access of another width, misaligned, or outside 0x00..0x20 (20_memory.md R59). Raised by CSR accesses. Safe. -/
  | reservedCsr
  /-- SRC lent anew during a WRITE form (70_reset_and_hazards.md R256; 93_implementation_defined.md U19). Raised by the
  input `lend`. Safe. -/
  | srcWhileBusy
  /-- An instance that holds a lease or is busy is reset (70_reset_and_hazards.md R252). Raised by the input `construct`.
  Safe. -/
  | resetOfLiveInstance
deriving DecidableEq, Repr

/-- The state right after reset (70_reset_and_hazards.md R250, R251): FRESH, idle, nothing leased, no request. The
parameters are the spec's defaults; `cur` and the model's own fields are DESIGN CHOICE (log entries 7 to 10, 12, 20). -/
def State.reset : State where
  params := .default
  alloc := false
  hdrWritten := false
  disposed := false
  poisoned := false
  busy := false
  err := 0x00#8
  fsm := .idle
  accLen := 0
  stageLen := 0
  srcLen := 0#32
  consumed := 0#32
  chunks := 0#32
  cur := ⟨.write, false, false, 0#32⟩
  acc := .fresh 0
  stg := .fresh 0
  src := .fresh 0
  pending := .none
  cancelReq := false
  sinkStream := []
  history := []
  inputs := []
  poolAnswers := []
  sinkAnswers := []
  compressorReady := true
  checksumReady := true
  eager := true
  draws := 1
  readData := 0#32

end Sys2Proof.Machine
end

