-- ==== Sys2Proof/Machine/Flags.lean ====
section
/-! DEFINITION. The completion codes, the STATUS word and the lifecycle states computed from the flags
(60_exceptions.md R210, 10_state.md R43, 43_lifecycle.md R200). -/

namespace Sys2Proof.Machine

/-- The code of an error (60_exceptions.md R210). -/
def ErrorKind.code : ErrorKind → BitVec 8
  | .illegal => 0x01#8
  | .disposed => 0x02#8
  | .nullSink => 0x03#8
  | .compress => 0x04#8
  | .sink => 0x05#8
  | .cancelled => 0x06#8
  | .poisoned => 0x07#8
  | .alloc => 0x08#8

/-- The errors that poison the instance (60_exceptions.md R210, R220). -/
def ErrorKind.poisons : ErrorKind → Bool
  | .compress => true
  | .sink => true
  | .alloc => true
  | .illegal => false
  | .disposed => false
  | .nullSink => false
  | .cancelled => false
  | .poisoned => false

/-- `STATUS` (10_state.md R43). -/
def State.status (s : State) : Word :=
  0#16 ++ s.err ++ 0#3 ++ BitVec.ofBool s.poisoned ++ BitVec.ofBool s.disposed ++ BitVec.ofBool s.hdrWritten
    ++ BitVec.ofBool s.alloc ++ BitVec.ofBool s.busy

/-- The lifecycle states (43_lifecycle.md R200). -/
inductive Lifecycle where
  | fresh | active | poisoned | disposed | disposedPoisoned
deriving DecidableEq, Repr

/-- The lifecycle state as a function of the flags (43_lifecycle.md R200); `none` for flag values the table has not. -/
def State.lifecycle (s : State) : Option Lifecycle :=
  match s.alloc, s.hdrWritten, s.disposed, s.poisoned with
  | false, false, false, false => some .fresh
  | true, true, false, false => some .active
  | _, _, false, true => some .poisoned
  | false, _, true, false => some .disposed
  | false, _, true, true => some .disposedPoisoned
  | _, _, _, _ => none

end Sys2Proof.Machine
end

