-- ==== Sys2Proof/Machine/Ops.lean ====
section
/-! DEFINITION. The operations every command is made of: events, requests, accesses of the buffers, the lease, error
completion (`raise`, 60_exceptions.md R220) and normal completion (`complete`, R222). -/

namespace Sys2Proof.Machine

namespace State

/-- `emit Event(args)` (00_scope.md R16, 20_memory.md R60). -/
def log (e : Event) (s : State) : State := { s with history := s.history ++ [e] }

/-- A request to an agent goes out (00_scope.md R16 `await`): its event, and that it is outstanding. -/
def request (p : Pending) (e : Event) (s : State) : State := { s.log e with pending := p }

/-- The outstanding request is answered: the answer's event, and none is outstanding. -/
def answered (e : Event) (s : State) : State := { s.log e with pending := .none }

/-- The addresses `a .. a+n-1` exist in a space (20_memory.md R51 to R53): ACC and STG while they are leased, SRC in a WRITE
form, for the latched length. -/
def hasAddresses (s : State) : Space → Nat → Nat → Bool
  | .src, a, n => decide (s.cur.op = .write) && decide (a + n ≤ s.cur.len.toNat)
  | .acc, a, n => s.alloc && decide (a + n ≤ s.params.block)
  | .stg, a, n => s.alloc && decide (a + n ≤ s.params.stageSize)

/-- The buffer of a space. -/
def buffer (s : State) : Space → Buffer
  | .src => s.src
  | .acc => s.acc
  | .stg => s.stg

/-- `MemRead(S, a, n)` (00_scope.md R16). -/
def memRead (s : State) (sp : Space) (a n : Nat) : Except Fault (List Byte) :=
  if s.hasAddresses sp a n then .ok ((s.buffer sp).bytes a n) else .error (.noSuchAddress sp)

/-- `MemWrite(ACC, a, |bs|, bs)` (00_scope.md R16). -/
def accWrite (a : Nat) (bs : List Byte) (s : State) : Except Fault State :=
  if s.hasAddresses .acc a bs.length then .ok { s with acc := s.acc.write a bs } else .error (.noSuchAddress .acc)

/-- `MemWrite(STG, a, |bs|, bs)` (00_scope.md R16). -/
def stgWrite (a : Nat) (bs : List Byte) (s : State) : Except Fault State :=
  if s.hasAddresses .stg a bs.length then .ok { s with stg := s.stg.write a bs } else .error (.noSuchAddress .stg)

/-- The compressor has had `STG[a .. P_STAGE)` in its hands: what it left there beyond its payload is any value
(93_implementation_defined.md U5, U9). -/
def stgScribble (a : Nat) (s : State) : State :=
  { s with stg := s.stg.scribble a s.params.stageSize s.draws, draws := s.draws + 1 }

/-- The pool's grant: two buffers of arbitrary content (43_lifecycle.md R190, R191; 93_implementation_defined.md U7). -/
def lease (s : State) : State :=
  { s with acc := .fresh s.draws, stg := .fresh (s.draws + 1), draws := s.draws + 2, alloc := true }

/-- The end of the loan of SRC, which lasts for a WRITE form only (20_memory.md R51; log entry 13). -/
def releaseSrc (s : State) : State :=
  match s.cur.op with
  | .write => { s with src := .fresh s.draws, draws := s.draws + 1 }
  | .flush => s
  | .dispose => s

/-- A command ends: `fsm <- IDLE`, `busy <- 0`, `Done(err)` (60_exceptions.md R220, R222). -/
def close (s : State) : State := { s.log (.done s.err) with fsm := .idle, busy := false, pending := .none }

/-- `err <- code(E)`, and `poisoned <- 1` where the error poisons (60_exceptions.md R220). -/
def setError (e : ErrorKind) (s : State) : State :=
  { s with err := e.code, poisoned := s.poisoned || e.poisons }

/-- `raise E`: error completion of a latched command (60_exceptions.md R220). There is no handler and no saved program
counter; the host reads `STATUS` and goes on (R224). -/
def raise (e : ErrorKind) (s : State) : State := (s.setError e).releaseSrc.close

/-- `complete(OK)`: normal completion (60_exceptions.md R222). -/
def complete (s : State) : State := s.releaseSrc.close

end State

end Sys2Proof.Machine
end

