-- ==== Sys2Proof/Machine/Checkpoint.lean ====
section
/-! DEFINITION. CHECKPOINT, the cancellation check of the suspendable forms (42_chunk_emit.md R176, 60_exceptions.md
R214), and what one sequencer step can answer. -/

namespace Sys2Proof.Machine

/-- What one step of the sequencer inside a command answers. -/
inductive Progress where
  /-- The command went on, or ended, in this state. -/
  | moved (s : State)
  /-- The agent asked has not answered: the state stays as it is (00_scope.md R16 `await`). -/
  | waits
  /-- The machine stops. -/
  | stops (f : Fault)
deriving DecidableEq, Repr

/-- The progress of a computation that may stop. -/
def Progress.of : Except Fault State → Progress
  | .ok s => .moved s
  | .error f => .stops f

/-- CHECKPOINT: `cancel_req` is sampled; 1 ends the command with E_CANCELLED, 0 goes on with `k`. -/
def State.checkpoint (k : State → State) (s : State) : State :=
  if s.cancelReq then (s.log (.cancelSampled s.cancelReq)).raise .cancelled
  else k (s.log (.cancelSampled s.cancelReq))

end Sys2Proof.Machine
end

