-- ==== Sys2Proof/Machine/Operands.lean ====
section
/-! DEFINITION. Operands: what a command latches (30_encoding.md R85, R86), the input that remains, and the block that
EMIT takes (42_chunk_emit.md R177). -/

namespace Sys2Proof

/-- The operation a command latches (30_encoding.md R86). -/
def Instr.op : Instr → Machine.Op
  | .write _ => .write
  | .writeA _ => .write
  | .flush _ => .flush
  | .flushA _ => .flush
  | .dispose _ => .dispose

/-- The ASYNC field (30_encoding.md R82). -/
def Instr.async : Instr → Bool
  | .write _ => false
  | .writeA _ => true
  | .flush _ => false
  | .flushA _ => true
  | .dispose _ => false

/-- The SNK field (30_encoding.md R83). -/
def Instr.snk : Instr → Bool
  | .write snk => snk
  | .writeA snk => snk
  | .flush snk => snk
  | .flushA snk => snk
  | .dispose snk => snk

namespace Machine.State

/-- `cur <- d with len <- src_len` (60_exceptions.md R219, 30_encoding.md R85). -/
def latch (i : Instr) (s : State) : State := { s with cur := ⟨i.op, i.async, i.snk, s.srcLen⟩ }

/-- `len - consumed` (40_write.md R112). -/
def remaining (s : State) : Nat := s.cur.len.toNat - s.consumed.toNat

/-- Where the block of an EMIT lies (42_chunk_emit.md R177): in SRC on the fast path, which is the one EMIT of a WRITE
form with an empty ACC (40_write.md R113), else in ACC (log entry 18). -/
def blockSpace (s : State) : Space :=
  match s.cur.op with
  | .write => if s.accLen = 0 then .src else .acc
  | .flush => .acc
  | .dispose => .acc

/-- The length `n` of that block (42_chunk_emit.md R160). -/
def blockLen (s : State) : Nat :=
  match s.blockSpace with
  | .src => s.params.block
  | .acc => s.accLen
  | .stg => 0

/-- The address of its first byte: `SRC[consumed..)` or `ACC[0..)` (42_chunk_emit.md R177). -/
def blockStart (s : State) : Nat :=
  match s.blockSpace with
  | .src => s.consumed.toNat
  | .acc => 0
  | .stg => 0

/-- The block's bytes. -/
def block (s : State) : Except Fault (List Byte) := s.memRead s.blockSpace s.blockStart s.blockLen

end Machine.State

end Sys2Proof
end

