-- ==== Sys2Proof/Machine/Drain.lean ====
section
/-! DEFINITION. DRAIN, the stage-flush controller (42_chunk_emit.md R171 to R175), and what follows it. -/

namespace Sys2Proof.Machine

namespace State

/-- What follows DRAIN: a FLUSH form completes (41_flush.md R140); a WRITE form goes on with SEGMENT, a WRITE.A with
input remaining after a CHECKPOINT (40_write.md R112, 60_exceptions.md R214). -/
def afterDrain (s : State) : State :=
  match s.cur.op with
  | .write =>
    if s.cur.async && decide (s.consumed.toNat < s.cur.len.toNat) then
      s.checkpoint fun t => { t with fsm := .segment }
    else { s with fsm := .segment }
  | .flush => s.complete
  | .dispose => s.complete

/-- The sink accepted: the bytes are part of the sink stream and nothing is staged (42_chunk_emit.md R174). -/
def delivered (bytes : List Byte) (s : State) : State :=
  { s with sinkStream := s.sinkStream ++ bytes, stageLen := 0 }

/-- The sink failed: it has kept a front part of the bytes; `stage_len` stays (42_chunk_emit.md R175). -/
def keptByFailingSink (bytes : List Byte) (kept : Nat) (s : State) : State :=
  { s with sinkStream := s.sinkStream ++ bytes.take kept }

/-- The sink's answer to the transfer of `bytes` is taken (42_chunk_emit.md R171), and what follows DRAIN, a check point
at a chunk boundary among it, in the same step (DESIGN CHOICE, log entry 30). -/
def sinkAnswered (bytes : List Byte) (a : SinkAnswer) (s : State) : State :=
  match a with
  | .ok => ((s.answered (.sinkAnswer true)).delivered bytes).afterDrain
  | .err kept => ((s.answered (.sinkAnswer false)).keptByFailingSink bytes kept).raise .sink

end State

/-- DRAIN with no request outstanding: nothing staged means no transfer (42_chunk_emit.md R172); else the whole of
`STG[0..stage_len)` goes out in one transfer (20_memory.md R61). -/
def drainStep (s : State) : Progress :=
  if s.stageLen = 0 then .moved s.afterDrain
  else
    match s.memRead .stg 0 s.stageLen with
    | .ok bytes => .moved (s.request .sink (.sinkTransfer bytes))
    | .error f => .stops f

/-- DRAIN when the sink has been asked: the only suspension point (42_chunk_emit.md R173). -/
def sinkStep (s : State) : Progress :=
  match s.sinkAnswers with
  | [] => .waits
  | a :: rest =>
    match s.memRead .stg 0 s.stageLen with
    | .ok bytes => .moved ({ s with sinkAnswers := rest }.sinkAnswered bytes a)
    | .error f => .stops f

end Sys2Proof.Machine
end

