-- ==== Sys2Proof/Machine/Emit.lean ====
section
/-! DEFINITION. EMIT: compress one block and pack its header (42_chunk_emit.md R160 to R168), in three steps: the
request to the compressor, its answer, and the checksum unit's answer. -/

namespace Sys2Proof.Machine

namespace State

/-- The header's first two fields and the payload, and the request for the checksum: type at `p`, the 4-byte length
write at `p + 1` (42_chunk_emit.md R163, R164), payload at `p + 8` (R161), in one step (DESIGN CHOICE, log entry 30). -/
def packPayload (payload : List Byte) (s : State) : Except Fault State := do
  let s ← s.stgWrite (s.stageLen + 8) payload
  let s ← s.stgWrite s.stageLen [s.params.ctype]
  let s ← s.stgWrite (s.stageLen + 1) (leBytes 4 (payload.length + 4))
  return s.request (.checksum payload.length) (.crcReq s.blockSpace s.blockLen)

/-- What follows EMIT's last statement: on the fast path `consumed` advances by one block (40_write.md R113), else ACC
is empty again (40_write.md R115, 41_flush.md R140); then DRAIN. -/
def blockTaken (s : State) : State :=
  match s.blockSpace with
  | .src => { s with consumed := s.consumed + BitVec.ofNat 32 s.params.block, fsm := .drain }
  | .acc => { s with accLen := 0, fsm := .drain }
  | .stg => { s with accLen := 0, fsm := .drain }

/-- The staging advance and the count of a finished chunk (42_chunk_emit.md R167, R168). -/
def chunkStaged (cl : Nat) (s : State) : State :=
  { s with stageLen := s.stageLen + 8 + cl, chunks := s.chunks + 1#32 }

/-- The checksum write at `p + 4`, after the length write (42_chunk_emit.md R165, 70_reset_and_hazards.md R257), the
staging advance (R167), the count (R168) and what follows EMIT, in one step (DESIGN CHOICE, log entry 30). -/
def packChecksum (cl : Nat) (crc : Word) (s : State) : Except Fault State := do
  let s ← (s.answered (.crcAnswer crc)).stgWrite (s.stageLen + 4) (leBytes 4 crc.toNat)
  return (s.chunkStaged cl).blockTaken

end State

/-- EMIT with no request outstanding: `compress(blk, STG, p + 8)` goes out (42_chunk_emit.md R160). -/
def emitStep (s : State) : Progress :=
  .moved (s.request .compressor (.compressReq s.blockSpace s.blockLen (s.stageLen + 8)))

/-- The compressor's answer for a block is taken: Fail and an over-long answer end the command with E_COMPRESS
(42_chunk_emit.md R162, 60_exceptions.md R215), no header byte written. -/
def compressAnswered (blk : List Byte) (s : State) : Progress :=
  match s.params.compress blk with
  | none => .moved (((s.answered (.compressAnswer none)).stgScribble (s.stageLen + 8)).raise .compress)
  | some payload =>
    if s.params.maxComp.bound blk.length < payload.length then
      .moved (((s.answered (.compressAnswer (some payload.length))).stgScribble (s.stageLen + 8)).raise .compress)
    else
      .of (((s.answered (.compressAnswer (some payload.length))).stgScribble (s.stageLen + 8)).packPayload payload)

/-- EMIT when the compressor has been asked. -/
def compressorStep (s : State) : Progress :=
  if s.compressorReady then
    match s.block with
    | .ok blk => compressAnswered blk s
    | .error f => .stops f
  else .waits

/-- EMIT when the checksum unit has been asked (42_chunk_emit.md R165: over the same uncompressed block). -/
def checksumStep (cl : Nat) (s : State) : Progress :=
  if s.checksumReady then
    match s.block with
    | .ok blk => .of (s.packChecksum cl (s.params.maskedCrc blk))
    | .error f => .stops f
  else .waits

end Sys2Proof.Machine
end

