-- ==== Sys2Proof/Machine/Ensure.lean ====
section
/-! DEFINITION. ENSURE: lease the buffers and stage the preamble (43_lifecycle.md R190 to R192). -/

namespace Sys2Proof.Machine

namespace State

/-- The procedure that follows ENSURE: SEGMENT in a WRITE form (40_write.md R110); in a FLUSH form EMIT if the
accumulation buffer holds bytes, else DRAIN (41_flush.md R140). -/
def afterEnsure (s : State) : Fsm :=
  match s.cur.op with
  | .write => .segment
  | .flush => if 0 < s.accLen then .emit else .drain
  | .dispose => .idle

/-- The preamble is staged (43_lifecycle.md R192), in one step (DESIGN CHOICE, log entry 30). -/
def stagePreamble (s : State) : Except Fault State := do
  let s ← s.stgWrite 0 s.params.preamble
  return { s with stageLen := preLen, hdrWritten := true, fsm := s.afterEnsure }

end State

/-- ENSURE with no request outstanding: ask the pool if nothing is leased, stage the preamble if it never was, else go
on (43_lifecycle.md R190). -/
def ensureStep (s : State) : Progress :=
  if s.alloc then
    if s.hdrWritten then .moved { s with fsm := s.afterEnsure } else .of s.stagePreamble
  else .moved (s.request .pool (.poolAcquire s.params.block s.params.stageSize))

/-- ENSURE when the pool has been asked (43_lifecycle.md R190, 60_exceptions.md R218). -/
def poolStep (s : State) : Progress :=
  match s.poolAnswers with
  | [] => .waits
  | .granted :: rest => .moved ({ s with poolAnswers := rest }.answered (.poolAnswer .granted)).lease
  | .refused :: rest => .moved (({ s with poolAnswers := rest }.answered (.poolAnswer .refused)).raise .alloc)

end Sys2Proof.Machine
end

