-- ==== Sys2Proof/Machine/Segment.lean ====
section
/-! DEFINITION. SEGMENT, the block-boundary detector (40_write.md R112 to R115). -/

namespace Sys2Proof.Machine

namespace State

/-- `k` of the copy path (40_write.md R114). -/
def copyLen (s : State) : Nat := min s.remaining (s.params.block - s.accLen)

/-- The copy path: `k` bytes from SRC to ACC (40_write.md R114); a full ACC is emitted at once (R115).
The bytes, `acc_len` and `consumed` change in one step (DESIGN CHOICE, log entry 30). -/
def copyToAcc (s : State) : Except Fault State := do
  let bytes ← s.memRead .src s.consumed.toNat s.copyLen
  let t ← s.accWrite s.accLen bytes
  return { t with
    accLen := s.accLen + s.copyLen
    consumed := s.consumed + BitVec.ofNat 32 s.copyLen
    fsm := if s.accLen + s.copyLen = s.params.block then .emit else .segment }

end State

/-- One turn of the loop of a WRITE form: complete when all input is consumed (40_write.md R110), else the fast path
(R113) or the copy path (R114). -/
def segmentStep (s : State) : Progress :=
  if s.consumed.toNat < s.cur.len.toNat then
    if s.accLen = 0 ∧ s.params.block ≤ s.remaining then .moved { s with fsm := .emit }
    else .of s.copyToAcc
  else .moved s.complete

end Sys2Proof.Machine
end

