-- ==== Sys2Proof/Machine/Sequencer.lean ====
section
/-! DEFINITION. One step of the sequencer inside a command, by `fsm` and the outstanding request (10_state.md R27), and
a command run to its end or to its next wait (log entries 9, 21). -/

namespace Sys2Proof.Machine

/-- One step of the sequencer. How many statements of the pseudocode one step covers the spec leaves open (10_state.md R46,
20_memory.md R66, R68), and the model settles it (DESIGN CHOICE, log entry 30). A pair of `fsm` and request that no
command makes has no step. -/
def tick (s : State) : Progress :=
  match s.fsm, s.pending with
  | .ensure, .none => ensureStep s
  | .ensure, .pool => poolStep s
  | .segment, .none => segmentStep s
  | .emit, .none => emitStep s
  | .emit, .compressor => compressorStep s
  | .emit, .checksum cl => checksumStep cl s
  | .drain, .none => drainStep s
  | .drain, .sink => sinkStep s
  | _, _ => .waits

/-- At most `n` steps of the sequencer: it stops when the command has ended, waits, or faults. -/
def run : Nat → State → Host.Outcome State Fault Refusal
  | 0, s => .next s
  | n + 1, s =>
    if s.busy then
      match tick s with
      | .moved t => run n t
      | .waits => .next s
      | .stops f => .fault f
    else .next s

/-- As many steps as a command can take: every turn of its loop consumes a byte and takes at most six steps
(40_write.md R116). -/
def State.fuel (s : State) : Nat := 6 * s.remaining + 24

/-- The command in progress goes on: to its end or its next wait where the sequencer runs without pause. -/
def resume (s : State) : Host.Outcome State Fault Refusal :=
  if s.eager then run s.fuel s else .next s

/-- The sequencer takes one step (70_reset_and_hazards.md R262: its steps are always enabled); idle it stays as it is. -/
def oneTick (s : State) : Host.Outcome State Fault Refusal := run 1 s

end Sys2Proof.Machine
end

