-- ==== Sys2Proof/Machine/Accept.lean ====
section
/-! DEFINITION. Acceptance of a command (60_exceptions.md R219). -/

namespace Sys2Proof.Machine

/-- What acceptance answers: the command goes on in a state, or it is over. -/
inductive Accepted where
  | goesOn (s : State)
  | isOver (o : Host.Outcome State Fault Refusal)

namespace State

/-- The first statements of `accept`: the event, `busy <- 1`, `err <- 0x00`, `consumed <- 0`, `chunks <- 0`
(60_exceptions.md R219). -/
def opened (w : Word) (s : State) : State :=
  { s.log (.accept w s.srcLen) with busy := true, err := 0x00#8, consumed := 0#32, chunks := 0#32 }

/-- The first statements and the latch, for the word of a command. -/
def accepted (i : Instr) (s : State) : State := (s.opened (encode i)).latch i

end State

/-- A command word reaches an instance that exists and is not busy, or is refused (00_scope.md R8, 60_exceptions.md
R228). -/
def refusal (s : State) : Option Refusal :=
  if s.params.wf then
    if s.busy then some .commandWhileBusy else none
  else some .badParameters

/-- The acceptance checks of a WRITE or FLUSH form, in their order (60_exceptions.md R219): E_DISPOSED, E_POISONED,
E_NULL_SINK. At either pace acceptance, the checks and the ending of a command that fails one are one step
(DESIGN CHOICE, log entry 30). -/
def acceptChecks (i : Instr) (s : State) : Accepted :=
  match refusal s with
  | some r => .isOver (.refused r)
  | none =>
    if s.disposed then .isOver (.next ((s.accepted i).raise .disposed))
    else if s.poisoned then .isOver (.next ((s.accepted i).raise .poisoned))
    else if i.snk then .goesOn (s.accepted i)
    else .isOver (.next ((s.accepted i).raise .nullSink))

/-- The accepted command starts with ENSURE (43_lifecycle.md R190). -/
def launch (s : State) : Host.Outcome State Fault Refusal := resume { s with fsm := .ensure }

/-- A suspendable form starts with check point 0 (60_exceptions.md R214). At either pace it is
sampled in the step of the `CMD` write, so that no host move falls between acceptance and check point 0 (DESIGN CHOICE,
log entry 30). -/
def launchSuspendable (s : State) : Host.Outcome State Fault Refusal :=
  if s.cancelReq then .next ((s.log (.cancelSampled s.cancelReq)).raise .cancelled)
  else launch (s.log (.cancelSampled s.cancelReq))

/-- An illegal word ends with E_ILLEGAL in every lifecycle state, and latches nothing (60_exceptions.md R211, R219).
It is one step (DESIGN CHOICE, log entry 30). -/
def illegalCommand (w : Word) (s : State) : Host.Outcome State Fault Refusal :=
  match refusal s with
  | some r => .refused r
  | none => .next ((s.opened w).setError .illegal).close

end Sys2Proof.Machine
end

