-- ==== Sys2Proof/Machine/Dispose.lean ====
section
/-! DEFINITION. DISPOSE (43_lifecycle.md R194 to R199). -/

namespace Sys2Proof.Machine

namespace State

/-- The leased buffers go back to the pool and are gone (43_lifecycle.md R199). -/
def returnBuffers (s : State) : State :=
  if s.alloc then
    { s.log .poolRelease with alloc := false, acc := .fresh s.draws, stg := .fresh s.draws, draws := s.draws + 1 }
  else s

/-- The release effect of the first DISPOSE (43_lifecycle.md R194): teardown, return of the buffers, and nothing
accumulated or staged any more (R196). -/
def disposeInstance (s : State) : State :=
  { (s.log .compressorTeardown).returnBuffers with accLen := 0, stageLen := 0, disposed := true }

end State

/-- DISPOSE (43_lifecycle.md R194): accepted in every lifecycle state; a second one only completes (R195).
At either pace it is one step, from acceptance to `Done` (DESIGN CHOICE, log entry 30). -/
def execDispose (snk : Bool) (s : State) : Host.Outcome State Fault Refusal :=
  match refusal s with
  | some r => .refused r
  | none =>
    if s.disposed then .next (s.accepted (.dispose snk)).complete
    else .next (s.accepted (.dispose snk)).disposeInstance.complete

end Sys2Proof.Machine
end

