-- ==== Sys2Proof/Machine/Flush.lean ====
section
/-! DEFINITION. The FLUSH family (41_flush.md R140, R141). -/

namespace Sys2Proof.Machine

/-- FLUSH (41_flush.md R140): acceptance checks, ENSURE, EMIT the short block if any, DRAIN, complete. -/
def execFlush (snk : Bool) (s : State) : Host.Outcome State Fault Refusal :=
  match acceptChecks (.flush snk) s with
  | .goesOn t => launch t
  | .isOver o => o

/-- FLUSH.A (41_flush.md R141): as FLUSH, with check point 0 before ENSURE. -/
def execFlushA (snk : Bool) (s : State) : Host.Outcome State Fault Refusal :=
  match acceptChecks (.flushA snk) s with
  | .goesOn t => launchSuspendable t
  | .isOver o => o

end Sys2Proof.Machine
end

