-- ==== Sys2Proof/Machine/Write.lean ====
section
/-! DEFINITION. The WRITE family (40_write.md R110, R111). -/

namespace Sys2Proof.Machine

/-- WRITE (40_write.md R110): acceptance checks, ENSURE, SEGMENT while input remains, complete. -/
def execWrite (snk : Bool) (s : State) : Host.Outcome State Fault Refusal :=
  match acceptChecks (.write snk) s with
  | .goesOn t => launch t
  | .isOver o => o

/-- WRITE.A (40_write.md R111): as WRITE, with check point 0 before ENSURE. -/
def execWriteA (snk : Bool) (s : State) : Host.Outcome State Fault Refusal :=
  match acceptChecks (.writeA snk) s with
  | .goesOn t => launchSuspendable t
  | .isOver o => o

end Sys2Proof.Machine
end

