-- ==== Sys2Proof/Machine/Dispatch.lean ====
section
/-! DEFINITION. The meaning of every command: one arm per constructor of Instr. -/

namespace Sys2Proof.Machine

def exec (i : Instr) (s : State) : Host.Outcome State Fault Refusal :=
  match i with
  | .write snk => Sys2Proof.Machine.execWrite snk s
  | .writeA snk => Sys2Proof.Machine.execWriteA snk s
  | .flush snk => Sys2Proof.Machine.execFlush snk s
  | .flushA snk => Sys2Proof.Machine.execFlushA snk s
  | .dispose snk => Sys2Proof.Machine.execDispose snk s

end Sys2Proof.Machine
end

