-- ==== Sys2Proof/Machine/Csr.lean ====
section
/-! DEFINITION. The CSR space (10_state.md R40 to R46, 20_memory.md R59): reads and writes of registers. -/

namespace Sys2Proof.Machine

/-- The registers of the map (10_state.md R40). -/
inductive Csr where
  | cmd | srcLen | status | accLen | stageLen | consumed | chunks | paramBlock | paramStage
deriving DecidableEq, Repr

/-- The register at an offset (10_state.md R40). -/
def Csr.at : Nat → Option Csr
  | 0x00 => some .cmd
  | 0x04 => some .srcLen
  | 0x08 => some .status
  | 0x0C => some .accLen
  | 0x10 => some .stageLen
  | 0x14 => some .consumed
  | 0x18 => some .chunks
  | 0x1C => some .paramBlock
  | 0x20 => some .paramStage
  | _ => none

/-- The register's offset (10_state.md R40). -/
def Csr.offset : Csr → Nat
  | .cmd => 0x00
  | .srcLen => 0x04
  | .status => 0x08
  | .accLen => 0x0C
  | .stageLen => 0x10
  | .consumed => 0x14
  | .chunks => 0x18
  | .paramBlock => 0x1C
  | .paramStage => 0x20

/-- The register that an access of a width at a bus address names; `none` for a reserved access (20_memory.md R59, R64:
offsets count from `P_CSR_BASE`). -/
def State.csrAt (s : State) (address width : Nat) : Option Csr :=
  if width = 4 ∧ s.params.csrBase ≤ address then Csr.at (address - s.params.csrBase) else none

/-- What a read returns (10_state.md R41 to R45). `ACC_LEN` and `PARAM_BLOCK` are the low 32 bits of values that R170
takes to fit (DESIGN CHOICE, log entry 31). -/
def State.csrValue (s : State) : Csr → Word
  | .cmd => 0#32
  | .srcLen => s.srcLen
  | .status => s.status
  | .accLen => BitVec.ofNat 32 s.accLen
  | .stageLen => BitVec.ofNat 32 s.stageLen
  | .consumed => s.consumed
  | .chunks => s.chunks
  | .paramBlock => BitVec.ofNat 32 s.params.block
  | .paramStage => BitVec.ofNat 32 s.params.stageSize

/-- A read of a CSR: allowed at any time, without side effect (10_state.md R46, 20_memory.md R63). -/
def csrRead (address width : Nat) (s : State) : Host.Outcome State Fault Refusal :=
  match s.csrAt address width with
  | some r => .next { s with readData := s.csrValue r }
  | none => .refused .reservedCsr

/-- A write of `SRC_LEN` (10_state.md R42): refused while busy (60_exceptions.md R228). -/
def srcLenWrite (value : Word) (s : State) : Host.Outcome State Fault Refusal :=
  if s.busy then .refused .srcLenWhileBusy else .next { s with srcLen := value }

end Sys2Proof.Machine
end

