-- ==== Sys2Proof/Machine/HostMoves.lean ====
section
/-! DEFINITION. What the world outside does between two steps of the sequencer, and which of its moves is a command
word (log entries 7 to 9, 13 to 17). -/

namespace Sys2Proof.Machine

/-- What the next input is: a command word written to `CMD`, in the state that receives it, or a move already made. -/
inductive Fetched where
  | command (w : Word) (s : State)
  | settled (o : Host.Outcome State Fault Refusal)

/-- A write of a CSR (10_state.md R40 to R42): `CMD` issues a command; a read-only register ignores it (log entry 14). -/
def csrWrite (address width : Nat) (value : Word) (s : State) : Fetched :=
  match s.csrAt address width with
  | some .cmd => .command value s
  | some .srcLen => .settled (srcLenWrite value s)
  | some .status => .settled (.next s)
  | some .accLen => .settled (.next s)
  | some .stageLen => .settled (.next s)
  | some .consumed => .settled (.next s)
  | some .chunks => .settled (.next s)
  | some .paramBlock => .settled (.next s)
  | some .paramStage => .settled (.next s)
  | none => .settled (.refused .reservedCsr)

/-- The host lends `data` as SRC (20_memory.md R51), not during a WRITE form (70_reset_and_hazards.md R256). -/
def lendSrc (data : List Byte) (s : State) : Host.Outcome State Fault Refusal :=
  if s.busy ∧ s.cur.op = .write then .refused .srcWhileBusy
  else .next { s with src := (Buffer.fresh s.draws).write 0 data, draws := s.draws + 1 }

/-- A new instance (70_reset_and_hazards.md R250, R252): the state after reset, with the same parameters and the same
world outside (log entry 17). -/
def constructInstance (s : State) : Host.Outcome State Fault Refusal :=
  if s.alloc ∨ s.busy then .refused .resetOfLiveInstance
  else .next { State.reset with
    params := s.params
    src := s.src
    cancelReq := s.cancelReq
    inputs := s.inputs
    poolAnswers := s.poolAnswers
    sinkAnswers := s.sinkAnswers
    compressorReady := s.compressorReady
    checksumReady := s.checksumReady
    eager := s.eager
    draws := s.draws
    readData := s.readData }

/-- The next input is taken. An agent's answer lets the command that waits for it go on; with no input the sequencer's
own steps go on (70_reset_and_hazards.md R262). -/
def nextMove (s : State) : Fetched :=
  if s.params.wf then
    match s.inputs with
    | [] => .settled (if s.eager then resume s else oneTick s)
    | .csrWrite address width value :: rest => csrWrite address width value { s with inputs := rest }
    | .csrRead address width :: rest => .settled (csrRead address width { s with inputs := rest })
    | .lend data :: rest => .settled (lendSrc data { s with inputs := rest })
    | .cancel value :: rest => .settled (.next { s with inputs := rest, cancelReq := value })
    | .construct :: rest => .settled (constructInstance { s with inputs := rest })
    | .pool answer :: rest =>
      .settled (resume { s with inputs := rest, poolAnswers := s.poolAnswers ++ [answer] })
    | .sink answer :: rest =>
      .settled (resume { s with inputs := rest, sinkAnswers := s.sinkAnswers ++ [answer] })
    | .compressor ready :: rest => .settled (resume { s with inputs := rest, compressorReady := ready })
    | .checksum ready :: rest => .settled (resume { s with inputs := rest, checksumReady := ready })
    | .pace eager :: rest => .settled (resume { s with inputs := rest, eager := eager })
    | .tick :: rest => .settled (oneTick { s with inputs := rest })
  else .settled (.refused .badParameters)

end Sys2Proof.Machine
end

