-- ==== Sys2Proof/Machine/HostProgram.lean ====
section
/-! DEFINITION. The expansions of the host's lines to CSR operations (30_encoding.md R92). -/

namespace Sys2Proof

open Machine

/-- The bus address of a register (20_memory.md R64). -/
def Params.csrAddress (p : Params) (r : Csr) : Nat := p.csrBase + r.offset

/-- `WAIT` (30_encoding.md R92): reads of STATUS; how many the host makes until BUSY is 0 is given as `polls`. -/
def Params.waitInputs (p : Params) (polls : Nat) : List Input :=
  List.replicate polls (.csrRead (p.csrAddress .status) 4)

/-- The CSR operations of a line (30_encoding.md R92), with `polls` reads for each `WAIT`. -/
def Params.expand (p : Params) (polls : Nat) : Line → List Input
  | .write async len data nosink =>
    [.lend data, .csrWrite (p.csrAddress .srcLen) 4 (BitVec.ofNat 32 len),
      .csrWrite (p.csrAddress .cmd) 4 (commandWord 0x1#4 async (!nosink))] ++ p.waitInputs polls
  | .flush async nosink =>
    [.csrWrite (p.csrAddress .cmd) 4 (commandWord 0x2#4 async (!nosink))] ++ p.waitInputs polls
  | .dispose => [.csrWrite (p.csrAddress .cmd) 4 (commandWord 0x3#4 false false)] ++ p.waitInputs polls
  | .wait => p.waitInputs polls
  | .cancel => [.cancel true]
  | .uncancel => [.cancel false]

end Sys2Proof
end

