-- ==== Sys2Proof/Machine/Step.lean ====
section
/-! DEFINITION. The step: the next input is taken; a command word is decoded and executed, an illegal one ends with
E_ILLEGAL (10_state.md R41, 30_encoding.md R86, 60_exceptions.md R219). -/

namespace Sys2Proof.Machine

/-- One step of the machine. -/
def step (s : State) : Host.Outcome State Fault Refusal :=
  match nextMove s with
  | .command w t =>
    match decode w with
    | .ok i => exec i t
    | .error _ => illegalCommand w t
  | .settled o => o

/-- The state whose next input is the write of that word to `CMD` (10_state.md R41; log entry 15). -/
def State.withFetchWord (s : State) (nbits w : Nat) : State :=
  { s with inputs := .csrWrite (s.params.csrAddress .cmd) 4 (tableWord nbits w) :: s.inputs }

end Sys2Proof.Machine
end

