-- ==== Sys2Proof/Safety.lean ====
section
/-! DEFINITION. What a safe state is, in the terms the statements use: the invariants of 10_state.md R38 with their
forms inside a command, the framed stream of 20_memory.md R67, and when an instance is ready for a command. -/

namespace Sys2Proof

/-- A block and its payload as EMIT makes them (42_chunk_emit.md R160 to R162): `1 <= |b| <= B`, the compressor's answer,
within the bound. -/
def Params.IsChunk (p : Params) (c : List Byte × List Byte) : Prop :=
  1 ≤ c.1.length ∧ c.1.length ≤ p.block ∧ p.compress c.1 = some c.2 ∧ c.2.length ≤ p.maxComp.bound c.1.length

/-- The chunks of a list of blocks with their payloads, one after the other (30_encoding.md R93). -/
def Params.wire (p : Params) (cs : List (List Byte × List Byte)) : List Byte :=
  (cs.map fun c => p.chunk c.1 c.2).flatten

/-- A stream in the wire format (30_encoding.md R93): the preamble, then chunks. -/
def Params.IsStream (p : Params) (bs : List Byte) : Prop :=
  ∃ cs : List (List Byte × List Byte), (∀ c ∈ cs, p.IsChunk c) ∧ bs = p.preamble ++ p.wire cs

/-- A block with the compressor's payload for it. -/
def Params.withPayload (p : Params) (blk : List Byte) : List Byte × List Byte := (blk, (p.compress blk).getD [])

/-- The full blocks of a byte string, in order (40_write.md R118). -/
def fullBlocks (B : Nat) (bs : List Byte) : List (List Byte) :=
  (List.range (bs.length / B)).map fun k => (bs.drop (k * B)).take B

/-- What remains of a byte string after its full blocks (40_write.md R123). -/
def tailBytes (B : Nat) (bs : List Byte) : List Byte := bs.drop (bs.length / B * B)

namespace Machine

/-- A request to the sink (20_memory.md R60, R61). -/
def Event.isTransfer : Event → Bool
  | .sinkTransfer _ => true
  | _ => false

/-- The bytes of the transfers that the sink accepted, in their order (20_memory.md R55). -/
def acceptedBytes : List Event → List Byte
  | [] => []
  | .sinkTransfer bs :: .sinkAnswer true :: rest => bs ++ acceptedBytes rest
  | _ :: rest => acceptedBytes rest

/-- The lifecycle transitions (43_lifecycle.md R200), the state that stays among them. -/
def Lifecycle.mayBecome : Lifecycle → Lifecycle → Bool
  | .fresh, l => decide (l ≠ .disposedPoisoned)
  | .active, l => decide (l = .active ∨ l = .poisoned ∨ l = .disposed)
  | .poisoned, l => decide (l = .poisoned ∨ l = .disposedPoisoned)
  | .disposed, l => decide (l = .disposed)
  | .disposedPoisoned, l => decide (l = .disposedPoisoned)

/-- The outcome of a step given to the next one: a fault or a refusal stays. -/
def thenDo (o : Host.Outcome State Fault Refusal) (k : State → Host.Outcome State Fault Refusal) :
    Host.Outcome State Fault Refusal :=
  match o with
  | .next s => k s
  | .fault f => .fault f
  | .refused r => .refused r

namespace State

/-- The staged bytes `STG[0..stage_len)`. -/
def staged (s : State) : List Byte := s.stg.bytes 0 s.stageLen

/-- The accumulated bytes `ACC[0..acc_len)`. -/
def accumulated (s : State) : List Byte := s.acc.bytes 0 s.accLen

/-- The input bytes `SRC[0..src_len)` of the next WRITE form. -/
def lent (s : State) : List Byte := s.src.bytes 0 s.srcLen.toNat

/-- The block EMIT takes in this state, its addresses taken to exist (42_chunk_emit.md R177). -/
def blockBytes (s : State) : List Byte := (s.buffer s.blockSpace).bytes s.blockStart s.blockLen

/-- How many preamble bytes are staged and undelivered once the preamble has been staged: all until the first transfer,
then none (42_chunk_emit.md R169). -/
def preambleDue (s : State) : Nat := if s.sinkStream = [] then preLen else 0

/-- What holds in every phase: canonical memories, a legal completion code, lengths within their buffers, and every byte
that can be read has been written in this lease (10_state.md R26 to R29, R38 b, 20_memory.md R73). -/
structure BaseInv (s : State) : Prop where
  paramsWf : s.params.wf = true
  accWf : s.acc.mem.wf = true
  stgWf : s.stg.mem.wf = true
  srcWf : s.src.mem.wf = true
  errCode : s.err.toNat ≤ 8
  accRoom : s.accLen ≤ s.params.block
  stageRoom : s.stageLen ≤ s.params.stageSize
  unstaged : s.hdrWritten = false → s.accLen = 0 ∧ s.stageLen = 0 ∧ s.sinkStream = []
  unleased : s.alloc = false → s.disposed = false → s.hdrWritten = false
  accWritten : ∀ a, a < s.accLen → (s.acc.mem.read a).isSome
  stgWritten : ∀ a, a < s.stageLen → (s.stg.mem.read a).isSome

/-- A command runs: a WRITE or FLUSH form on an instance neither disposed nor poisoned, its input not overrun
(60_exceptions.md R219, 40_write.md R116). -/
structure Running (s : State) : Prop where
  busy : s.busy = true
  live : s.disposed = false
  sound : s.poisoned = false
  form : s.cur.op ≠ .dispose
  consumedLe : s.cur.op = .write → s.consumed.toNat ≤ s.cur.len.toNat

/-- Between commands: 10_state.md R38 (a), (c), (d), (e). -/
structure IdleInv (s : State) : Prop where
  idle : s.busy = false
  quiet : s.pending = .none
  disposedClear : s.disposed = true → s.alloc = false ∧ s.accLen = 0 ∧ s.stageLen = 0
  leased : s.alloc = true → s.hdrWritten = true
  accPart : s.poisoned = false → s.accLen < s.params.block
  stageBase : s.poisoned = false → s.disposed = false → s.hdrWritten = true → s.stageLen = s.preambleDue

/-- In ENSURE (43_lifecycle.md R190). -/
structure EnsureInv (s : State) : Prop where
  run : s.Running
  asks : s.pending = .none ∨ (s.pending = .pool ∧ s.alloc = false)
  accPart : s.accLen < s.params.block
  stageBase : s.hdrWritten = true → s.stageLen = s.preambleDue

/-- What the later phases of a command share: a lease, the preamble staged once. -/
structure Leased (s : State) : Prop where
  run : s.Running
  leased : s.alloc = true
  hdr : s.hdrWritten = true

/-- In SEGMENT (40_write.md R112). -/
structure SegmentInv (s : State) : Prop where
  lease : s.Leased
  quiet : s.pending = .none
  writes : s.cur.op = .write
  accPart : s.accLen < s.params.block
  stageBase : s.stageLen = s.preambleDue

/-- The block EMIT takes: a short block of a FLUSH form (41_flush.md R142), or a full one of a WRITE form, in ACC
(40_write.md R115) or in SRC (R113). -/
def BlockReady (s : State) : Prop :=
  (s.cur.op = .flush ∧ 0 < s.accLen ∧ s.accLen < s.params.block) ∨
  (s.cur.op = .write ∧ s.accLen = s.params.block) ∨
  (s.cur.op = .write ∧ s.accLen = 0 ∧ s.params.block ≤ s.remaining)

/-- While the checksum unit is asked, the payload and the fields before the checksum are written. -/
def HeaderWritten (s : State) (cl : Nat) : Prop :=
  cl ≤ s.params.maxComp.bound s.params.block ∧
  ∀ a, (s.stageLen ≤ a ∧ a < s.stageLen + 5) ∨ (s.stageLen + 8 ≤ a ∧ a < s.stageLen + 8 + cl) →
    (s.stg.mem.read a).isSome

/-- In EMIT (42_chunk_emit.md R160, R169). -/
structure EmitInv (s : State) : Prop where
  lease : s.Leased
  asks : s.pending = .none ∨ s.pending = .compressor ∨ ∃ cl, s.pending = .checksum cl ∧ s.HeaderWritten cl
  block : s.BlockReady
  stageBase : s.stageLen = s.preambleDue

/-- In DRAIN (42_chunk_emit.md R171): a WRITE form has a chunk to transfer (40_write.md R117), a FLUSH form has emptied the
accumulation buffer (41_flush.md R140). -/
structure DrainInv (s : State) : Prop where
  lease : s.Leased
  asks : s.pending = .none ∨ (s.pending = .sink ∧ 0 < s.stageLen)
  accPart : s.accLen < s.params.block
  stageBase : s.preambleDue ≤ s.stageLen
  chunkStaged : s.cur.op = .write → s.preambleDue + 8 ≤ s.stageLen
  flushed : s.cur.op = .flush → s.accLen = 0

/-- The invariant of the lengths, flags and memories, phase by phase (10_state.md R27, R38). -/
def Inv (s : State) : Prop :=
  s.BaseInv ∧
  match s.fsm with
  | .idle => s.IdleInv
  | .ensure => s.EnsureInv
  | .segment => s.SegmentInv
  | .emit => s.EmitInv
  | .drain => s.DrainInv

/-- The invariant of the stream (20_memory.md R67, 30_encoding.md R99): what the sink has is in the wire format, and so
is what it has with what is staged; after a failed transfer it has a front part of such a stream. -/
structure Framed (s : State) : Prop where
  delivered : s.poisoned = false → s.sinkStream = [] ∨ s.params.IsStream s.sinkStream
  whole : s.poisoned = false → s.alloc = true → s.hdrWritten = true → s.params.IsStream (s.sinkStream ++ s.staged)
  front : s.sinkStream = [] ∨ ∃ rest, s.params.IsStream (s.sinkStream ++ rest)
  /-- While the checksum unit is asked, type, length and payload of the block's chunk stand at `stage_len`
  (42_chunk_emit.md R163, R164). -/
  header : ∀ cl, s.pending = .checksum cl → ∃ payload : List Byte,
    payload.length = cl ∧ s.params.IsChunk (s.blockBytes, payload) ∧
    s.stg.byte s.stageLen = s.params.ctype ∧
    s.stg.bytes (s.stageLen + 1) 3 = le24 (cl + 4) ∧
    s.stg.bytes (s.stageLen + 8) cl = payload

/-- A safe state: both invariants. -/
def Safe (s : State) : Prop := s.Inv ∧ s.Framed

/-- An instance ready for a command whose agents answer: safe, idle, neither disposed nor poisoned, a lease held or
granted when asked, and no agent but the sink to wait for (70_reset_and_hazards.md R253, R262). -/
structure Ready (s : State) : Prop where
  safe : s.Safe
  idle : s.busy = false
  live : s.disposed = false
  sound : s.poisoned = false
  eager : s.eager = true
  compressor : s.compressorReady = true
  checksum : s.checksumReady = true
  lease : s.alloc = true ∨ ∃ rest, s.poolAnswers = .granted :: rest

/-- The compressor succeeds on these blocks, within the bound (60_exceptions.md R231, 42_chunk_emit.md R162). -/
def Compresses (p : Params) (blks : List (List Byte)) : Prop :=
  ∀ b ∈ blks, ∃ c, p.compress b = some c ∧ c.length ≤ p.maxComp.bound b.length

/-- Everything of the instance but `busy`, `err`, `consumed`, `chunks` and the latched command is the same: flags,
lengths, operand, buffers, parameters and the sink stream. -/
structure SameInstance (s t : State) : Prop where
  params : t.params = s.params
  alloc : t.alloc = s.alloc
  hdrWritten : t.hdrWritten = s.hdrWritten
  disposed : t.disposed = s.disposed
  poisoned : t.poisoned = s.poisoned
  accLen : t.accLen = s.accLen
  stageLen : t.stageLen = s.stageLen
  srcLen : t.srcLen = s.srcLen
  acc : t.acc = s.acc
  stg : t.stg = s.stg
  sinkStream : t.sinkStream = s.sinkStream

/-- The world outside is the same: the inputs to come, the agents' answers to come, the host's signals. -/
structure SameWorld (s t : State) : Prop where
  cancelReq : t.cancelReq = s.cancelReq
  inputs : t.inputs = s.inputs
  poolAnswers : t.poolAnswers = s.poolAnswers
  sinkAnswers : t.sinkAnswers = s.sinkAnswers
  compressorReady : t.compressorReady = s.compressorReady
  checksumReady : t.checksumReady = s.checksumReady
  eager : t.eager = s.eager
  readData : t.readData = s.readData

/-- A command has ended: idle, no request outstanding. -/
def Ended (t : State) : Prop := t.busy = false ∧ t.fsm = .idle ∧ t.pending = .none

/-- The command ended at its acceptance with code `e`: nothing changed but `err`, `consumed`, `chunks`
(60_exceptions.md R221), and the history has `Accept` and `Done`. -/
structure EndsAtOnce (i : Instr) (e : BitVec 8) (s t : State) : Prop where
  ended : t.Ended
  err : t.err = e
  consumed : t.consumed = 0#32
  chunks : t.chunks = 0#32
  same : s.SameInstance t
  world : s.SameWorld t
  events : t.history = s.history ++ [.accept (encode i) s.srcLen, .done e]

/-- A read of the register at an offset returns `v` and has no other effect (10_state.md R46, 20_memory.md R63). -/
def ReadsAs (s : State) (off : Nat) (v : Word) : Prop :=
  ∀ rest : List Input, step { s with inputs := .csrRead (s.params.csrBase + off) 4 :: rest }
    = .next { s with inputs := rest, readData := v }

/-- How many sink transfers the history records. -/
def transfers (s : State) : Nat := s.history.countP Event.isTransfer

/-- The awaited agent has not answered (00_scope.md R16, 93_implementation_defined.md U18). -/
def Waiting (s : State) : Prop :=
  (s.pending = .pool ∧ s.poolAnswers = []) ∨ (s.pending = .compressor ∧ s.compressorReady = false) ∨
  (∃ cl, s.pending = .checksum cl ∧ s.checksumReady = false) ∨ (s.pending = .sink ∧ s.sinkAnswers = [])

/-- The host has lent `data` and written its length to `SRC_LEN` (30_encoding.md R92). -/
def lends (data : List Byte) (s : State) : State :=
  { s with
    src := (Buffer.fresh s.draws).write 0 data
    draws := s.draws + 1
    srcLen := BitVec.ofNat 32 data.length }

/-- The bytes ready for the wire when a transfer is due: the preamble if it has not been delivered
(42_chunk_emit.md R169). -/
def duePreamble (s : State) : List Byte := if s.sinkStream = [] then s.params.preamble else []

/-- The bytes that stand before any chunk still to come: what is staged, or the preamble that ENSURE will stage
(43_lifecycle.md R192). -/
def undelivered (s : State) : List Byte := if s.hdrWritten then s.staged else s.params.preamble

/-- The block that a FLUSH form has to emit, if any (41_flush.md R140). -/
def accumulatedBlocks (s : State) : List (List Byte) := if s.accLen = 0 then [] else [s.accumulated]

/-- How many bytes a running WRITE form has accumulated or has still to take (40_write.md R118). -/
def bytesAhead (s : State) : Nat := s.accLen + s.remaining

/-- The ACC addresses that a WRITE form can store to while it takes `len` more bytes: the copy path fills `ACC[acc_len..B)`,
and what is left after the last full block goes to `ACC[0..)` (40_write.md R114, R121). -/
def accStores (s : State) (len x : Nat) : Prop :=
  if s.accLen = 0 then x < len % s.params.block
  else (s.accLen ≤ x ∧ x < min (s.accLen + len) s.params.block) ∨
    (s.params.block ≤ s.accLen + len ∧ x < (s.accLen + len) % s.params.block)

/-- The STG addresses that a command can store to while it packs `n` more chunks: those of the preamble where it is not yet
staged (43_lifecycle.md R192); with one chunk those from `stage_len` on, all where a drain comes before it; all with more
(42_chunk_emit.md R161, R169). -/
def stgStores (s : State) (n x : Nat) : Prop :=
  x < s.params.stageSize ∧
    ((s.hdrWritten = false ∧ x < preLen) ∨ (1 ≤ n ∧ (2 ≤ n ∨ s.fsm = .drain ∨ s.stageLen ≤ x)))

/-- A sequencer that runs without pause rests only where it has nothing to do, or waits for an agent (log entry 9). -/
def Settled (s : State) : Prop := s.eager = true → s.busy = false ∨ (s.busy = true ∧ s.Waiting)

/-- The next input, if any, lets the command in progress go on: an agent's answer, or the sequencer's own pace. -/
def GoesOn (s : State) : Prop :=
  s.inputs = [] ∨ (∃ a rest, s.inputs = .pool a :: rest) ∨ (∃ a rest, s.inputs = .sink a :: rest) ∨
    (∃ r rest, s.inputs = .compressor r :: rest) ∨ (∃ r rest, s.inputs = .checksum r :: rest) ∨
    ∃ rest, s.inputs = .pace true :: rest

/-- A step takes one input, and each field of the world outside changes by its own input only. -/
structure WorldByInput (s t : State) : Prop where
  inputs : t.inputs = s.inputs.tail
  cancelReq : (∀ v, s.inputs.head? ≠ some (.cancel v)) → t.cancelReq = s.cancelReq
  compressorReady : (∀ r, s.inputs.head? ≠ some (.compressor r)) → t.compressorReady = s.compressorReady
  checksumReady : (∀ r, s.inputs.head? ≠ some (.checksum r)) → t.checksumReady = s.checksumReady
  eager : (∀ e, s.inputs.head? ≠ some (.pace e)) → t.eager = s.eager
  readData : (∀ a w, s.inputs.head? ≠ some (.csrRead a w)) → t.readData = s.readData

end State

/-- WRITE commands one after the other, each with its own input (40_write.md R125). -/
def writeAll : List (List Byte) → State → Host.Outcome State Fault Refusal
  | [], s => .next s
  | d :: ds, s => thenDo (exec (.write true) (s.lends d)) (writeAll ds)

/-- WRITE commands, then one FLUSH (40_write.md R125). -/
def writeAllThenFlush (ds : List (List Byte)) (s : State) : Host.Outcome State Fault Refusal :=
  thenDo (writeAll ds s) (exec (.flush true))

end Machine

end Sys2Proof
end

