-- ==== Sys2Proof/Certificates/Slice0/Obligations.lean ====
section
/-! DEFINITION. The statements for the provers, each about the machine for every state, operand and parameter set that meets
its hypotheses. `Safe` is the invariant of Safety.lean; that every step keeps it and that reset has it are statements of
their own. -/

open Sys2Proof Sys2Proof.Machine Sys2Proof.Machine.State

/-! ### Encoding -/

/-- 30_encoding.md R86, R90: no bit of an encoding is dropped. -/
def Obligations.DecodeOfEncode : Prop :=
  ∀ i : Instr, i.wf = true → decode (encode i) = .ok i ∧ decodeTableWord 32 (encode i).toNat = some i

/-- 30_encoding.md R86, R89: one word is one command, and the decoder takes exactly its four bytes. That there is a decoder on
bytes, least significant byte first as 20_memory.md R56 orders the bytes of a field, is the model's reading (log entry
27). -/
def Obligations.BytesDecodeToExactlyTheirCommand : Prop :=
  ∀ (bs rest : List Byte) (i : Instr),
    decodeBytes bs = .ok (i, rest) ↔ bs = leBytes 4 (encode i).toNat ++ rest

/-- 30_encoding.md R90: the legal words; 0x23 is DISPOSE with its ignored SNK bit set, the same command but for the word in
its `Accept` event and the latched bit: the events behind `Accept` are the same. -/
def Obligations.LegalEncodings : Prop :=
  decode 0x00000021#32 = .ok (.write true) ∧ decode 0x00000031#32 = .ok (.writeA true) ∧
  decode 0x00000022#32 = .ok (.flush true) ∧ decode 0x00000032#32 = .ok (.flushA true) ∧
  decode 0x00000003#32 = .ok (.dispose false) ∧ decode 0x00000023#32 = .ok (.dispose true) ∧
  decode 0x00000001#32 = .ok (.write false) ∧ decode 0x00000011#32 = .ok (.writeA false) ∧
  decode 0x00000002#32 = .ok (.flush false) ∧ decode 0x00000012#32 = .ok (.flushA false) ∧
  (∀ (w : Word) (i : Instr), decode w = .ok i →
    w ∈ [0x21#32, 0x31#32, 0x22#32, 0x32#32, 0x03#32, 0x23#32, 0x01#32, 0x11#32, 0x02#32, 0x12#32]) ∧
  ∀ s t : State, exec (.dispose true) s = .next t →
    ∃ u events, exec (.dispose false) s = .next u ∧
      t.history = s.history ++ .accept 0x00000023#32 s.srcLen :: events ∧
      u.history = s.history ++ .accept 0x00000003#32 s.srcLen :: events ∧
      t = { u with cur := { u.cur with snk := true }, history := t.history }

/-- 30_encoding.md R87, 60_exceptions.md R211: which words are illegal, and all that an illegal word does. -/
def Obligations.IllegalWordEndsWithoutEffect : Prop :=
  ∀ (s : State) (w : Word) (rest : List Input), s.params.wf = true → s.Ended →
    s.inputs = .csrWrite (s.params.csrBase + 0x00) 4 w :: rest →
    (w.extractLsb' 6 26 ≠ 0#26 ∨ w.extractLsb' 0 4 = 0x0#4 ∨ 0x4#4 ≤ w.extractLsb' 0 4 ∨
      (w.extractLsb' 0 4 = 0x3#4 ∧ w.getLsbD 4 = true)) →
    step s = .next { s with
      inputs := rest
      err := 0x01#8
      consumed := 0#32
      chunks := 0#32
      history := s.history ++ [.accept w s.srcLen, .done 0x01#8] }

/-! ### The step, the host and the registers -/

/-- 10_state.md R41, 30_encoding.md R86: a step whose input is a write of a command's word to `CMD` runs that command; so
does the step after `withFetchWord`. -/
def Obligations.StepRunsDecodedCommand : Prop :=
  (∀ (s : State) (w : Word) (i : Instr) (rest : List Input), s.params.wf = true →
    s.inputs = .csrWrite (s.params.csrBase + 0x00) 4 w :: rest → decode w = .ok i →
    step s = exec i { s with inputs := rest }) ∧
  ∀ (s : State) (w : Nat) (i : Instr), s.params.wf = true → decodeTableWord 32 w = some i →
    step (s.withFetchWord 32 w) = exec i s

/-- 60_exceptions.md R235, log entry 16: with no input an idle machine stays as it is. -/
def Obligations.IdleStaysAsItIs : Prop :=
  ∀ s : State, s.params.wf = true → s.busy = false → s.inputs = [] → step s = .next s

/-- 60_exceptions.md R228, 70_reset_and_hazards.md R254: `CMD` or `SRC_LEN` written while `busy = 1` is refused. -/
def Obligations.WritesWhileBusyRefused : Prop :=
  ∀ (s : State) (v : Word) (rest : List Input), s.params.wf = true → s.busy = true →
    (s.inputs = .csrWrite (s.params.csrBase + 0x00) 4 v :: rest → step s = .refused .commandWhileBusy) ∧
    (s.inputs = .csrWrite (s.params.csrBase + 0x04) 4 v :: rest → step s = .refused .srcLenWhileBusy)

/-- 20_memory.md R59: a CSR access is a 32-bit access at an offset that is a multiple of 4 and at most 0x20; any other is
refused. -/
def Obligations.ReservedCsrAccessRefused : Prop :=
  ∀ (s : State) (a width : Nat), s.params.wf = true →
    ((s.csrAt a width).isSome = true ↔ width = 4 ∧ ∃ off, a = s.params.csrBase + off ∧ off % 4 = 0 ∧ off ≤ 0x20) ∧
    (¬ (width = 4 ∧ ∃ off, a = s.params.csrBase + off ∧ off % 4 = 0 ∧ off ≤ 0x20) →
      ∀ (v : Word) (rest : List Input),
        (s.inputs = .csrWrite a width v :: rest → step s = .refused .reservedCsr) ∧
        (s.inputs = .csrRead a width :: rest → step s = .refused .reservedCsr))

/-- 10_state.md R41 to R46: what each register reads as, at any time, without side effect. That the parameters are a field
that no step changes, a construction among them, is the model's choice (log entries 1, 17); a block of 2^32 bytes or more
reads as its low 32 bits (log entry 31). -/
def Obligations.CsrReads : Prop :=
  ∀ s : State, s.params.wf = true →
    s.ReadsAs 0x00 0#32 ∧ s.ReadsAs 0x04 s.srcLen ∧ s.ReadsAs 0x08 s.status ∧
    s.ReadsAs 0x0C (BitVec.ofNat 32 s.accLen) ∧ s.ReadsAs 0x10 (BitVec.ofNat 32 s.stageLen) ∧
    s.ReadsAs 0x14 s.consumed ∧ s.ReadsAs 0x18 s.chunks ∧
    s.ReadsAs 0x1C (BitVec.ofNat 32 s.params.block) ∧
    s.ReadsAs 0x20 (BitVec.ofNat 32 (10 + 8 + s.params.maxComp.bound s.params.block)) ∧
    ∀ t, step s = .next t → t.params = s.params

/-- 10_state.md R43: the fields of `STATUS`. That a write of it has no effect while `busy = 1` too is the model's reading
(log entry 14). -/
def Obligations.StatusFields : Prop :=
  State.reset.status = 0x00000000#32 ∧
  ∀ s : State, s.params.wf = true → ∃ w : Word, s.ReadsAs 0x08 w ∧
    w.getLsbD 0 = s.busy ∧ w.getLsbD 1 = s.alloc ∧ w.getLsbD 2 = s.hdrWritten ∧ w.getLsbD 3 = s.disposed ∧
    w.getLsbD 4 = s.poisoned ∧ w.extractLsb' 5 3 = 0#3 ∧ w.extractLsb' 8 8 = s.err ∧ w.extractLsb' 16 16 = 0#16 ∧
    ∀ (v : Word) (rest : List Input), s.inputs = .csrWrite (s.params.csrBase + 0x08) 4 v :: rest →
      step s = .next { s with inputs := rest }

/-- 10_state.md R40: a write to a read-only register has no effect. While `busy = 1` this is the model's reading
(log entry 14). -/
def Obligations.ReadOnlyWritesIgnored : Prop :=
  ∀ (s : State) (off : Nat) (v : Word) (rest : List Input), s.params.wf = true →
    off ∈ [0x08, 0x0C, 0x10, 0x14, 0x18, 0x1C, 0x20] →
    s.inputs = .csrWrite (s.params.csrBase + off) 4 v :: rest → step s = .next { s with inputs := rest }

/-- 10_state.md R42: `SRC_LEN` takes every value, is read back, cannot be written while busy, and is 0 after reset. -/
def Obligations.SrcLenRegister : Prop :=
  State.reset.srcLen = 0#32 ∧
  ∀ (s : State) (v : Word) (rest : List Input), s.params.wf = true →
    s.inputs = .csrWrite (s.params.csrBase + 0x04) 4 v :: rest →
    (s.busy = false → step s = .next { s with inputs := rest, srcLen := v } ∧
      ({ s with inputs := rest, srcLen := v } : State).ReadsAs 0x04 v) ∧
    (s.busy = true → step s = .refused .srcLenWhileBusy)

/-- 70_reset_and_hazards.md R251: the reset values, what every register then reads as, and that nothing masks
`cancel_req`. `PARAM_BLOCK` and `PARAM_STAGE` (10_state.md R40) have the values of the default parameters: B of 00_scope.md R6,
and the default bound of R7, which is general knowledge (log entry 5). -/
def Obligations.ResetValues : Prop :=
  State.reset.alloc = false ∧ State.reset.hdrWritten = false ∧ State.reset.disposed = false ∧
  State.reset.poisoned = false ∧ State.reset.busy = false ∧ State.reset.err = 0x00#8 ∧ State.reset.fsm = .idle ∧
  State.reset.accLen = 0 ∧ State.reset.stageLen = 0 ∧ State.reset.srcLen = 0#32 ∧ State.reset.consumed = 0#32 ∧
  State.reset.chunks = 0#32 ∧
  (∀ a n, 0 < n → State.reset.hasAddresses .acc a n = false ∧ State.reset.hasAddresses .stg a n = false) ∧
  (∀ off ∈ [0x00, 0x04, 0x08, 0x0C, 0x10, 0x14, 0x18], State.reset.ReadsAs off 0x00000000#32) ∧
  State.reset.ReadsAs 0x1C 0x00010000#32 ∧ State.reset.ReadsAs 0x20 0x00012ADC#32 ∧
  State.reset.status = 0x00000000#32 ∧ State.reset.lifecycle = some .fresh ∧
  ∀ (v : Bool) (rest : List Input), step { State.reset with inputs := .cancel v :: rest } =
    .next { State.reset with inputs := rest, cancelReq := v }

/-- 70_reset_and_hazards.md R252: a reset of an instance that holds a lease or is busy is refused. -/
def Obligations.ResetOfLiveInstanceRefused : Prop :=
  ∀ (s : State) (rest : List Input), s.params.wf = true → s.inputs = .construct :: rest →
    (step s = .refused .resetOfLiveInstance ↔ s.alloc = true ∨ s.busy = true)

/-- 70_reset_and_hazards.md R250, R251: a new instance is FRESH and idle, with the reset values, and issues no request; that
the parameters and the world outside stay is the model's choice (log entry 17). -/
def Obligations.NewInstanceIsFresh : Prop :=
  ∀ (s : State) (rest : List Input), s.params.wf = true → s.inputs = .construct :: rest → s.alloc = false →
    s.busy = false → ∃ t, step s = .next t ∧ t.Ended ∧ t.lifecycle = some .fresh ∧ t.err = 0x00#8 ∧
      t.accLen = 0 ∧ t.stageLen = 0 ∧ t.srcLen = 0#32 ∧ t.consumed = 0#32 ∧ t.chunks = 0#32 ∧
      t.sinkStream = [] ∧ t.history = [] ∧ t.params = s.params ∧ ({ s with inputs := rest } : State).SameWorld t

/-- 00_scope.md R8: the constraint on the parameters, met by the defaults; a set that violates it is refused. -/
def Obligations.BadParametersRefused : Prop :=
  Params.default.wf = true ∧ Params.default.maxComp.bound Params.default.block + 4 = 76494 ∧ (76494 : Nat) < 2 ^ 24 ∧
  ∀ s : State, ¬ s.params.maxComp.bound s.params.block + 4 < 2 ^ 24 →
    step s = .refused .badParameters ∧ ∀ i, exec i s = .refused .badParameters

/-- 30_encoding.md R85, 70_reset_and_hazards.md R256: the operand of a running command is latched, and SRC cannot change
during a WRITE form. -/
def Obligations.OperandsStableWhileBusy : Prop :=
  ∀ s : State, s.params.wf = true → s.busy = true →
    (∀ t, step s = .next t → t.cur = s.cur ∧ t.srcLen = s.srcLen ∧
      (s.cur.op = .write → t.busy = true → t.src = s.src)) ∧
    ∀ (data : List Byte) (rest : List Input), s.cur.op = .write → s.inputs = .lend data :: rest →
      step s = .refused .srcWhileBusy

/-- 30_encoding.md R92: the CSR operations of a WRITE line, then of the FLUSH and DISPOSE lines, run the line's command on the
input lent. -/
def Obligations.HostLinesRunTheirCommand : Prop :=
  ∀ (s : State) (polls : Nat) (rest : List Input), s.params.wf = true → s.busy = false →
    (∀ (async nosink : Bool) (data : List Byte), (Line.write async data.length data nosink).wf = true →
      s.inputs = s.params.expand polls (.write async data.length data nosink) ++ rest →
      thenDo (step s) (fun u => thenDo (step u) step) =
        exec (if async then .writeA (!nosink) else .write (!nosink))
          { s.lends data with inputs := s.params.waitInputs polls ++ rest }) ∧
    (∀ async nosink : Bool, s.inputs = s.params.expand polls (.flush async nosink) ++ rest →
      step s = exec (if async then .flushA (!nosink) else .flush (!nosink))
        { s with inputs := s.params.waitInputs polls ++ rest }) ∧
    (s.inputs = s.params.expand polls .dispose ++ rest →
      step s = exec (.dispose false) { s with inputs := s.params.waitInputs polls ++ rest })

/-! ### Acceptance errors and cancellation -/

/-- 60_exceptions.md R212: E_DISPOSED, whatever else holds, and nothing else changes; DISPOSE never raises it. -/
def Obligations.FormsAfterDisposeEnd : Prop :=
  (∀ (i : Instr) (s : State), i.op ≠ .dispose → s.params.wf = true → s.busy = false → s.disposed = true →
    ∃ t, exec i s = .next t ∧ s.EndsAtOnce i 0x02#8 t) ∧
  ∀ (s t : State) (snk : Bool), exec (.dispose snk) s = .next t → t.err = 0x00#8

/-- 60_exceptions.md R217: E_POISONED, and nothing else changes. -/
def Obligations.FormsOnPoisonedInstanceEnd : Prop :=
  ∀ (i : Instr) (s : State), i.op ≠ .dispose → s.params.wf = true → s.busy = false → s.disposed = false →
    s.poisoned = true → ∃ t, exec i s = .next t ∧ s.EndsAtOnce i 0x07#8 t

/-- 60_exceptions.md R213: E_NULL_SINK, and nothing else changes: nothing is leased or staged, whatever `src_len` is. -/
def Obligations.FormsWithoutSinkEnd : Prop :=
  ∀ (i : Instr) (s : State), i.op ≠ .dispose → i.snk = false → s.params.wf = true → s.busy = false →
    s.disposed = false → s.poisoned = false → ∃ t, exec i s = .next t ∧ s.EndsAtOnce i 0x03#8 t

/-- 40_write.md R111, 41_flush.md R141, 60_exceptions.md R221: a suspendable form cancelled at check point 0 does
nothing. That check point 0 samples `cancel_req` as it is when the `CMD` write comes is the model's choice (log entry 30). -/
def Obligations.CheckPointZeroCancels : Prop :=
  ∀ (i : Instr) (s : State), i.async = true → i.snk = true → s.params.wf = true → s.busy = false →
    s.disposed = false → s.poisoned = false → s.cancelReq = true →
    ∃ t, exec i s = .next t ∧ t.Ended ∧ t.err = 0x06#8 ∧ t.consumed = 0#32 ∧ t.chunks = 0#32 ∧
      s.SameInstance t ∧ s.SameWorld t ∧
      t.history = s.history ++ [.accept (encode i) s.srcLen, .cancelSampled true, .done 0x06#8]

/-- 60_exceptions.md R214, 42_chunk_emit.md R176: WRITE.A is cancelled at a chunk boundary with input remaining, its chunk
delivered, and is not cancelled after its last chunk: where the answer comes to a sequencer that runs without pause, and where
a paced one takes an answer that is there. That the check point is in the step of the sink's answer is the model's choice (log
entry 30). -/
def Obligations.ChunkBoundaryCancels : Prop :=
  ∀ s : State, s.Safe → s.fsm = .drain → s.pending = .sink → s.cur.op = .write → s.cur.async = true →
    s.cancelReq = true →
    ((s.eager = true ∧ s.sinkAnswers = [] ∧ ∃ rest, s.inputs = .sink .ok :: rest) ∨
      (s.eager = false ∧ (∃ rest, s.sinkAnswers = .ok :: rest) ∧ (s.inputs = [] ∨ ∃ rest, s.inputs = .tick :: rest))) →
    (s.consumed.toNat < s.cur.len.toNat →
      ∃ t, step s = .next t ∧ t.Ended ∧ t.err = 0x06#8 ∧ t.poisoned = false ∧ t.alloc = true ∧ t.hdrWritten = true ∧
        t.stageLen = 0 ∧ t.accLen = s.accLen ∧ t.accumulated = s.accumulated ∧ t.consumed = s.consumed ∧
        t.chunks = s.chunks ∧ t.sinkStream = s.sinkStream ++ s.staged ∧
        t.history = s.history ++ [.sinkAnswer true, .cancelSampled true, .done 0x06#8]) ∧
    (s.consumed = s.cur.len →
      ∃ t, step s = .next t ∧ t.err = s.err ∧ t.stageLen = 0 ∧ t.sinkStream = s.sinkStream ++ s.staged ∧
        (s.eager = true → t.Ended ∧ t.history = s.history ++ [.sinkAnswer true, .done s.err]) ∧
        (s.eager = false → t.busy = true ∧ t.fsm = .segment ∧ t.history = s.history ++ [.sinkAnswer true] ∧
          ∃ u, run 1 t = .next u ∧ u.Ended ∧ u.history = t.history ++ [.done s.err]))

/-- 60_exceptions.md R226: the blocking forms and DISPOSE ignore `cancel_req`: in the step that starts them, and in every
later step of a form held by an agent or paced (42_chunk_emit.md R173), whenever it rises. A move of the host on
the signal itself sets it and nothing else. -/
def Obligations.BlockingFormsIgnoreCancellation : Prop :=
  (∀ (i : Instr) (s t : State) (v : Bool), i.async = false → exec i s = .next t →
    exec i { s with cancelReq := v } = .next { t with cancelReq := v }) ∧
  (∀ (s t : State) (v : Bool), s.busy = true → s.cur.async = false → (∀ w, s.inputs.head? ≠ some (.cancel w)) →
    step s = .next t →
    t.cur.async = false ∧ step { s with cancelReq := v } = .next { t with cancelReq := v }) ∧
  ∀ (s : State) (v w : Bool) (rest : List Input), s.params.wf = true → s.busy = true → s.cur.async = false →
    s.inputs = .cancel w :: rest →
    step { s with cancelReq := v } = .next { s with cancelReq := w, inputs := rest }

/-! ### ENSURE, SEGMENT, EMIT and DRAIN -/

/-- 43_lifecycle.md R192: the preamble is staged, as the first staged bytes. -/
def Obligations.PreambleStaged : Prop :=
  ∀ s : State, s.Safe → s.fsm = .ensure → s.pending = .none → s.alloc = true → s.hdrWritten = false →
    s.stageLen = 0 ∧ ∃ t, tick s = .moved t ∧ t.staged = s.params.preamble ∧ t.stageLen = 10 ∧
      t.hdrWritten = true ∧ t.acc = s.acc ∧ t.accLen = s.accLen ∧ t.history = s.history ∧
      ∀ x, 10 ≤ x → t.stg.byte x = s.stg.byte x

/-- 60_exceptions.md R218, R221: the pool refuses the lease of any form that asks for it. -/
def Obligations.PoolRefusalPoisons : Prop :=
  ∀ (i : Instr) (s : State) (rest : List PoolAnswer), i.op ≠ .dispose → i.snk = true →
    (i.async = true → s.cancelReq = false) → s.Safe → s.busy = false → s.disposed = false → s.poisoned = false →
    s.eager = true → s.alloc = false → s.poolAnswers = .refused :: rest →
    ∃ t, exec i s = .next t ∧ t.Ended ∧ t.err = 0x08#8 ∧ t.poisoned = true ∧ t.alloc = false ∧
      t.hdrWritten = false ∧ t.stageLen = 0 ∧ t.accLen = 0 ∧ t.disposed = false ∧ t.sinkStream = [] ∧
      t.consumed = 0#32 ∧ t.chunks = 0#32 ∧ t.poolAnswers = rest

/-- 00_scope.md R16, 93_implementation_defined.md U18: a command waits in ENSURE for a pool that has not answered, and goes on
when the answer comes. -/
def Obligations.HeldUntilThePoolAnswers : Prop :=
  ∀ (i : Instr) (s : State), i.op ≠ .dispose → i.snk = true → (i.async = true → s.cancelReq = false) → s.Safe →
    s.busy = false → s.disposed = false → s.poisoned = false → s.alloc = false → s.eager = true →
    s.poolAnswers = [] → s.inputs = [] →
    ∃ t, exec i s = .next t ∧ t.busy = true ∧ t.fsm = .ensure ∧ t.pending = .pool ∧ t.alloc = false ∧
      step t = .next t ∧
      ∀ answer, ∃ u, exec i { s with poolAnswers := [answer] } = .next u ∧
        step { t with inputs := [.pool answer] } = .next u

/-- 42_chunk_emit.md R171, R173, 00_scope.md R16, 93_implementation_defined.md U18: a command waits in DRAIN for a sink that has
not answered, and goes on when the answer comes: a paced sequencer at its next step, one that runs without pause at once, to
its end or its next wait; and an answer that comes late has the effect of one that was there. -/
def Obligations.HeldUntilTheSinkAnswers : Prop :=
  (∀ s : State, s.Safe → s.busy = true → s.pending = .sink → s.sinkAnswers = [] →
    s.fsm = .drain ∧ (s.inputs = [] → step s = .next s) ∧
    ∀ (answer : SinkAnswer) (rest : List Input), s.inputs = .sink answer :: rest →
      (s.eager = false → step s = .next { s with inputs := rest, sinkAnswers := [answer] }) ∧
      (s.eager = true → ∃ t, step s = .next t ∧ (t.Ended ∨ (t.busy = true ∧ t.Waiting)) ∧ t.inputs = rest ∧
        t.sinkAnswers = [] ∧ s.history ++ [.sinkAnswer (decide (answer = .ok))] <+: t.history ∧
        (answer = .ok → s.sinkStream ++ s.staged <+: t.sinkStream) ∧
        ∀ kept, answer = .err kept → t.Ended ∧ t.err = 0x05#8 ∧ t.poisoned = true ∧
          t.sinkStream = s.sinkStream ++ s.staged.take kept)) ∧
  ∀ (i : Instr) (s t : State) (answer : SinkAnswer) (rest : List Input), s.Safe → s.busy = false → s.eager = true →
    exec i s = .next t → t.busy = true → t.pending = .sink →
    ∃ u, exec i { s with sinkAnswers := s.sinkAnswers ++ [answer] } = .next u ∧
      step { t with inputs := .sink answer :: rest } = .next { u with inputs := rest }

/-- 00_scope.md R16, 60_exceptions.md R230 to R232, 93_implementation_defined.md U18: a command waits in EMIT for a compressor or
a checksum unit that has not answered, and goes on when the answer comes; and an answer that comes late has the effect of one
that was there. -/
def Obligations.HeldUntilTheUnitsAnswer : Prop :=
  (∀ s : State, s.Safe → s.busy = true → s.pending = .compressor → s.compressorReady = false →
    s.fsm = .emit ∧ (s.inputs = [] → step s = .next s) ∧
    ∀ rest : List Input, s.inputs = .compressor true :: rest →
      (s.eager = false → step s = .next { s with inputs := rest, compressorReady := true }) ∧
      (s.eager = true → ∃ t, step s = .next t ∧ (t.Ended ∨ (t.busy = true ∧ t.Waiting)) ∧ t.inputs = rest ∧
        t.compressorReady = true ∧
        s.history ++ [.compressAnswer ((s.params.compress s.blockBytes).map List.length)] <+: t.history)) ∧
  (∀ (s : State) (cl : Nat), s.Safe → s.busy = true → s.pending = .checksum cl → s.checksumReady = false →
    s.fsm = .emit ∧ (s.inputs = [] → step s = .next s) ∧
    ∀ rest : List Input, s.inputs = .checksum true :: rest →
      (s.eager = false → step s = .next { s with inputs := rest, checksumReady := true }) ∧
      (s.eager = true → ∃ t, step s = .next t ∧ (t.Ended ∨ (t.busy = true ∧ t.Waiting)) ∧ t.inputs = rest ∧
        t.checksumReady = true ∧ s.history ++ [.crcAnswer (s.params.maskedCrc s.blockBytes)] <+: t.history)) ∧
  ∀ (i : Instr) (s t : State) (rest : List Input), s.Safe → s.busy = false → s.eager = true → exec i s = .next t →
    t.busy = true →
    (t.pending = .compressor →
      ∃ u, exec i { s with compressorReady := true } = .next u ∧
        step { t with inputs := .compressor true :: rest } = .next { u with inputs := rest }) ∧
    (∀ cl, t.pending = .checksum cl →
      ∃ u, exec i { s with checksumReady := true } = .next u ∧
        step { t with inputs := .checksum true :: rest } = .next { u with inputs := rest })

/-- 40_write.md R114: the copy path. -/
def Obligations.CopyPath : Prop :=
  ∀ s : State, s.Safe → s.fsm = .segment → s.consumed.toNat < s.cur.len.toNat →
    ¬ (s.accLen = 0 ∧ s.params.block ≤ s.cur.len.toNat - s.consumed.toNat) →
    ∃ t k, tick s = .moved t ∧ k = min (s.cur.len.toNat - s.consumed.toNat) (s.params.block - s.accLen) ∧ 1 ≤ k ∧
      t.accLen = s.accLen + k ∧ t.consumed.toNat = s.consumed.toNat + k ∧
      t.acc.bytes s.accLen k = s.src.bytes s.consumed.toNat k ∧
      (∀ x, x < s.accLen ∨ s.accLen + k ≤ x → t.acc.byte x = s.acc.byte x) ∧
      t.fsm = (if s.accLen + k = s.params.block then .emit else .segment) ∧
      t.stg = s.stg ∧ t.stageLen = s.stageLen ∧ t.sinkStream = s.sinkStream ∧ t.history = s.history ∧
      t.chunks = s.chunks ∧ t.err = s.err

/-- 40_write.md R113: the fast path up to its DRAIN, the agents answering. -/
def Obligations.FastPath : Prop :=
  ∀ (s : State) (c : List Byte), s.Safe → s.fsm = .segment → s.accLen = 0 →
    s.params.block ≤ s.cur.len.toNat - s.consumed.toNat → s.compressorReady = true → s.checksumReady = true →
    s.params.compress (s.src.bytes s.consumed.toNat s.params.block) = some c →
    c.length ≤ s.params.maxComp.bound s.params.block →
    ∃ t, run 4 s = .next t ∧ t.fsm = .drain ∧ t.acc = s.acc ∧ t.accLen = 0 ∧
      t.consumed.toNat = s.consumed.toNat + s.params.block ∧ t.chunks = s.chunks + 1#32 ∧
      t.staged = s.staged ++ s.params.chunk (s.src.bytes s.consumed.toNat s.params.block) c ∧
      t.sinkStream = s.sinkStream

/-- 42_chunk_emit.md R166, R167: what EMIT leaves in the staging buffer, whatever the block's source. -/
def Obligations.EmitWritesTheChunk : Prop :=
  ∀ (s : State) (c : List Byte), s.Safe → s.fsm = .emit → s.pending = .none → s.compressorReady = true →
    s.checksumReady = true → s.params.compress s.blockBytes = some c →
    c.length ≤ s.params.maxComp.bound s.blockBytes.length →
    ∃ t, run 3 s = .next t ∧ t.fsm = .drain ∧
      t.stg.bytes s.stageLen 8 =
        s.params.ctype :: (le24 (c.length + 4) ++ le32 (s.params.maskedCrc s.blockBytes)) ∧
      t.stg.bytes (s.stageLen + 8) c.length = c ∧
      t.stg.bytes s.stageLen (8 + c.length) = s.params.chunk s.blockBytes c ∧
      (∀ x, x < s.stageLen → t.stg.byte x = s.stg.byte x) ∧
      t.stageLen = s.stageLen + 8 + c.length ∧ t.chunks = s.chunks + 1#32 ∧ t.accLen = 0 ∧ t.acc = s.acc ∧
      t.sinkStream = s.sinkStream ∧ t.err = s.err ∧ t.poisoned = s.poisoned

/-- 20_memory.md R60, R66, 42_chunk_emit.md R160, R162, R165, R171, R177: in every command form EMIT asks the compressor, then the
checksum unit over the same block, and DRAIN the sink: the events, their order, and where the block lies, in SRC on the fast
path of a WRITE form and else in ACC. That the model tells the fast path by an empty ACC is its reading (log entry 18). -/
def Obligations.EmitAndDrainAskInOrder : Prop :=
  (∀ (s : State) (source : Space) (n : Nat) (blk : List Byte), s.Safe → s.fsm = .emit → s.pending = .none →
    s.compressorReady = true → s.checksumReady = true →
    (source, n, blk) = (if s.cur.op = .write ∧ s.accLen = 0 then
        (.src, s.params.block, s.src.bytes s.consumed.toNat s.params.block)
      else (.acc, s.accLen, s.accumulated)) →
    (∀ c, s.params.compress blk = some c → c.length ≤ s.params.maxComp.bound n →
      ∃ t, run 3 s = .next t ∧ t.fsm = .drain ∧ t.pending = .none ∧ t.staged = s.staged ++ s.params.chunk blk c ∧
        t.history = s.history ++ [.compressReq source n (s.stageLen + 8), .compressAnswer (some c.length),
          .crcReq source n, .crcAnswer (s.params.maskedCrc blk)]) ∧
    ((s.params.compress blk = none ∨ ∃ c, s.params.compress blk = some c ∧ s.params.maxComp.bound n < c.length) →
      ∃ t, run 2 s = .next t ∧ t.Ended ∧
        t.history = s.history ++ [.compressReq source n (s.stageLen + 8),
          .compressAnswer ((s.params.compress blk).map List.length), .done 0x04#8])) ∧
  ∀ s : State, s.Safe → s.fsm = .drain → s.pending = .none → 0 < s.stageLen →
    ∃ t, tick s = .moved t ∧ t.fsm = .drain ∧ t.pending = .sink ∧ t.staged = s.staged ∧
      t.history = s.history ++ [.sinkTransfer s.staged]

/-- 60_exceptions.md R215, 42_chunk_emit.md R162: a compressor that fails, or answers more than the bound, ends the command
with E_COMPRESS and poisons. Of the registers that 93_implementation_defined.md U4 leaves open nothing is stated. -/
def Obligations.CompressionFailurePoisons : Prop :=
  ∀ s : State, s.Safe → s.fsm = .emit → s.pending = .none → s.compressorReady = true →
    (s.params.compress s.blockBytes = none ∨ ∃ c, s.params.compress s.blockBytes = some c ∧
      s.params.maxComp.bound s.blockBytes.length < c.length) →
    ∃ t, run 2 s = .next t ∧ t.Ended ∧ t.err = 0x04#8 ∧ t.poisoned = true ∧ t.alloc = true ∧ t.hdrWritten = true ∧
      t.disposed = false ∧ t.sinkStream = s.sinkStream ∧ t.transfers = s.transfers

/-- 42_chunk_emit.md R174: an accepted transfer. -/
def Obligations.SinkAccepts : Prop :=
  ∀ (s : State) (rest : List SinkAnswer), s.Safe → s.fsm = .drain → s.pending = .sink → s.sinkAnswers = .ok :: rest →
    ∃ t, tick s = .moved t ∧ t.stageLen = 0 ∧ t.sinkStream = s.sinkStream ++ s.staged ∧ t.staged = [] ∧
      t.sinkAnswers = rest

/-- 42_chunk_emit.md R175, 60_exceptions.md R216: a failed transfer; the sink has kept a front part of it
(93_implementation_defined.md U6), and there is no retry. -/
def Obligations.SinkFailurePoisons : Prop :=
  ∀ (s : State) (kept : Nat) (rest : List SinkAnswer), s.Safe → s.fsm = .drain → s.pending = .sink →
    s.sinkAnswers = .err kept :: rest →
    ∃ t, tick s = .moved t ∧ t.Ended ∧ t.err = 0x05#8 ∧ t.poisoned = true ∧ t.stageLen = s.stageLen ∧
      t.accLen = s.accLen ∧ t.consumed = s.consumed ∧ t.chunks = s.chunks ∧ t.alloc = true ∧ t.disposed = false ∧
      t.sinkStream = s.sinkStream ++ s.staged.take kept ∧
      t.history = s.history ++ [.sinkAnswer false, .done 0x05#8]

/-! ### WRITE and WRITE.A -/

/-- 40_write.md R110, R111, R122 to R124: a WRITE form on a ready instance whose agents answer completes, and all it
leaves. That a transfer has happened (R124) is read as a sink stream that is not empty (log entry 28). -/
def Obligations.WriteCompletes : Prop :=
  ∀ (i : Instr) (s : State) (rest : List SinkAnswer), (i = .write true ∨ (i = .writeA true ∧ s.cancelReq = false)) →
    s.Ready →
    Compresses s.params (fullBlocks s.params.block (s.accumulated ++ s.lent)) →
    s.sinkAnswers = List.replicate ((s.accLen + s.srcLen.toNat) / s.params.block) .ok ++ rest →
    ∃ t, exec i s = .next t ∧ t.Ended ∧ t.err = 0x00#8 ∧ t.poisoned = false ∧ t.disposed = false ∧ t.alloc = true ∧
      t.hdrWritten = true ∧ t.consumed = s.srcLen ∧ t.srcLen = s.srcLen ∧
      t.chunks = BitVec.ofNat 32 ((s.accLen + s.srcLen.toNat) / s.params.block) ∧
      t.transfers = s.transfers + (s.accLen + s.srcLen.toNat) / s.params.block ∧
      t.accLen = (s.accLen + s.srcLen.toNat) % s.params.block ∧
      t.accumulated = tailBytes s.params.block (s.accumulated ++ s.lent) ∧
      t.stageLen = (if t.sinkStream = [] then 10 else 0) ∧
      t.sinkStream = s.sinkStream ++
        (if (s.accLen + s.srcLen.toNat) / s.params.block = 0 then []
        else s.duePreamble ++
          s.params.wire ((fullBlocks s.params.block (s.accumulated ++ s.lent)).map s.params.withPayload)) ∧
      t.sinkAnswers = rest ∧ t.params = s.params ∧ t.inputs = s.inputs ∧ t.cancelReq = s.cancelReq ∧
      t.compressorReady = true ∧ t.checksumReady = true ∧ t.eager = true

/-- 40_write.md R119: `len = 0`. -/
def Obligations.EmptyWriteStagesOnly : Prop :=
  ∀ (i : Instr) (s : State), (i = .write true ∨ (i = .writeA true ∧ s.cancelReq = false)) → s.Ready →
    s.srcLen = 0#32 →
    ∃ t, exec i s = .next t ∧ t.Ended ∧ t.err = 0x00#8 ∧ t.consumed = 0#32 ∧ t.chunks = 0#32 ∧ t.alloc = true ∧
      t.hdrWritten = true ∧ t.staged = s.duePreamble ∧ t.accLen = s.accLen ∧ t.accumulated = s.accumulated ∧
      t.sinkStream = s.sinkStream ∧ t.transfers = s.transfers

/-- 40_write.md R120: `len = B` on an empty accumulation buffer. -/
def Obligations.OneBlockWriteEmitsOneChunk : Prop :=
  ∀ (i : Instr) (s : State) (c : List Byte) (rest : List SinkAnswer),
    (i = .write true ∨ (i = .writeA true ∧ s.cancelReq = false)) → s.Ready → s.accLen = 0 →
    s.srcLen.toNat = s.params.block → s.params.compress s.lent = some c →
    c.length ≤ s.params.maxComp.bound s.params.block → s.sinkAnswers = .ok :: rest →
    ∃ t, exec i s = .next t ∧ t.Ended ∧ t.err = 0x00#8 ∧ t.chunks = 1#32 ∧ t.accLen = 0 ∧ t.stageLen = 0 ∧
      t.consumed.toNat = s.params.block ∧ t.transfers = s.transfers + 1 ∧ t.acc.mem = (if s.alloc then s.acc.mem else .empty) ∧
      t.sinkStream = s.sinkStream ++ s.duePreamble ++ s.params.chunk s.lent c

/-- 10_state.md R31, 40_write.md R116, R118, R122 to R124: whatever the agents answer, and in whichever step it ends, a WRITE form
that ends with OK has consumed all its input and cut it at the block boundaries; every step of one that is held or paced keeps
the sum of its chunks and of those ahead. That a transfer has happened (R124) is read as a sink stream that is not empty (log
entry 28). -/
def Obligations.WriteThatEndsWellConsumesAll : Prop :=
  (∀ (i : Instr) (s t : State), i.op = .write → s.Safe → s.busy = false → exec i s = .next t →
    t.busy = true ∨ t.err = 0x00#8 →
    t.bytesAhead % s.params.block = (s.accLen + s.srcLen.toNat) % s.params.block ∧
    t.chunks + BitVec.ofNat 32 (t.bytesAhead / s.params.block)
      = BitVec.ofNat 32 ((s.accLen + s.srcLen.toNat) / s.params.block) ∧
    (t.busy = false →
      t.Ended ∧ t.consumed = s.srcLen ∧ t.accLen = (s.accLen + s.srcLen.toNat) % s.params.block ∧
      t.chunks = BitVec.ofNat 32 ((s.accLen + s.srcLen.toNat) / s.params.block) ∧
      t.stageLen = (if t.sinkStream = [] then 10 else 0))) ∧
  ∀ s t : State, s.Safe → s.busy = true → s.cur.op = .write → step s = .next t → t.busy = true ∨ t.err = 0x00#8 →
    t.cur = s.cur ∧ t.bytesAhead % s.params.block = s.bytesAhead % s.params.block ∧
    t.chunks + BitVec.ofNat 32 (t.bytesAhead / s.params.block) = s.chunks + BitVec.ofNat 32 (s.bytesAhead / s.params.block) ∧
    (t.busy = false →
      t.Ended ∧ t.consumed = s.cur.len ∧ t.accLen = s.bytesAhead % s.params.block ∧
      t.chunks = s.chunks + BitVec.ofNat 32 (s.bytesAhead / s.params.block) ∧
      t.stageLen = (if t.sinkStream = [] then 10 else 0))

/-- 40_write.md R125: however an input is split into WRITE commands, one FLUSH behind them gives the same stream. -/
def Obligations.ChunkingInvariance : Prop :=
  ∀ (s : State) (ds : List (List Byte)) (rest : List SinkAnswer), s.Ready → ds.flatten.length < 2 ^ 32 →
    Compresses s.params (fullBlocks s.params.block (s.accumulated ++ ds.flatten)) →
    (tailBytes s.params.block (s.accumulated ++ ds.flatten) ≠ [] →
      Compresses s.params [tailBytes s.params.block (s.accumulated ++ ds.flatten)]) →
    s.sinkAnswers = List.replicate ((s.accLen + ds.flatten.length) / s.params.block + 1) .ok ++ rest →
    ∃ t u, writeAllThenFlush ds s = .next t ∧ writeAllThenFlush [ds.flatten] s = .next u ∧ t.err = 0x00#8 ∧
      u.err = 0x00#8 ∧ t.Ended ∧ u.Ended ∧ t.sinkStream = u.sinkStream

/-- The frame of the WRITE forms, whatever the agents answer (40_write.md R110 to R115), in the step that starts one and in every
later step of one that is held or paced: registers and flags they do not write, and every byte of ACC and STG outside the
addresses they can still store to. -/
def Obligations.WriteFrame : Prop :=
  (∀ (i : Instr) (s t : State), i.op = .write → s.Safe → s.busy = false → exec i s = .next t →
    t.params = s.params ∧ t.srcLen = s.srcLen ∧ t.disposed = s.disposed ∧
    (s.hdrWritten = true → t.hdrWritten = true) ∧ (s.poisoned = true → t.poisoned = true) ∧
    t.cancelReq = s.cancelReq ∧ t.inputs = s.inputs ∧ t.compressorReady = s.compressorReady ∧
    t.checksumReady = s.checksumReady ∧ t.eager = s.eager ∧ t.readData = s.readData ∧
    (s.alloc = true → t.alloc = true ∧ t.hdrWritten = s.hdrWritten ∧ t.poolAnswers = s.poolAnswers ∧
      (∀ x, ¬ s.accStores s.srcLen.toNat x → t.acc.byte x = s.acc.byte x) ∧
      ∀ x, x < s.params.stageSize → ¬ s.stgStores ((s.accLen + s.srcLen.toNat) / s.params.block) x →
        t.stg.byte x = s.stg.byte x) ∧
    (t.busy = true → t.src = s.src) ∧ s.sinkStream <+: t.sinkStream) ∧
  ∀ s t : State, s.Safe → s.busy = true → s.cur.op = .write → step s = .next t →
    t.params = s.params ∧ t.srcLen = s.srcLen ∧ t.cur = s.cur ∧ t.disposed = s.disposed ∧
    (s.hdrWritten = true → t.hdrWritten = true) ∧ (s.poisoned = true → t.poisoned = true) ∧ s.WorldByInput t ∧
    (s.alloc = true → t.alloc = true ∧
      ((∀ a, s.inputs.head? ≠ some (.pool a)) → t.poolAnswers = s.poolAnswers) ∧
      (∀ x, ¬ s.accStores s.remaining x → t.acc.byte x = s.acc.byte x) ∧
      ∀ x, x < s.params.stageSize → ¬ s.stgStores (s.bytesAhead / s.params.block) x → t.stg.byte x = s.stg.byte x) ∧
    (t.busy = true → t.src = s.src) ∧ s.sinkStream <+: t.sinkStream

/-! ### FLUSH and FLUSH.A -/

/-- 41_flush.md R140, R141, 20_memory.md R60, R66: a FLUSH form on a ready instance whose agents answer completes, all it
leaves, and its events in their order. -/
def Obligations.FlushCompletes : Prop :=
  ∀ (i : Instr) (s : State) (rest : List SinkAnswer), (i = .flush true ∨ (i = .flushA true ∧ s.cancelReq = false)) →
    s.Ready → (s.accLen ≠ 0 → Compresses s.params [s.accumulated]) →
    s.sinkAnswers = (if s.accLen = 0 ∧ s.sinkStream ≠ [] then [] else [.ok]) ++ rest →
    ∃ t last, exec i s = .next t ∧
      last = (if s.accLen = 0 then [] else s.params.wire [s.params.withPayload s.accumulated]) ∧
      t.Ended ∧ t.err = 0x00#8 ∧ t.poisoned = false ∧ t.disposed = false ∧ t.alloc = true ∧ t.hdrWritten = true ∧
      t.consumed = 0#32 ∧ t.chunks = (if s.accLen = 0 then 0#32 else 1#32) ∧ t.accLen = 0 ∧ t.stageLen = 0 ∧
      t.sinkStream = s.sinkStream ++ s.duePreamble ++ last ∧ t.srcLen = s.srcLen ∧ t.sinkAnswers = rest ∧
      t.params = s.params ∧ t.inputs = s.inputs ∧ t.cancelReq = s.cancelReq ∧
      t.history = s.history ++ [.accept (encode i) s.srcLen] ++
        (if i.async then [.cancelSampled false] else []) ++
        (if s.alloc then [] else [.poolAcquire s.params.block s.params.stageSize, .poolAnswer .granted]) ++
        (if s.accLen = 0 then [] else
          [.compressReq .acc s.accLen (s.preambleDue + 8),
            .compressAnswer (some ((s.params.compress s.accumulated).getD []).length),
            .crcReq .acc s.accLen, .crcAnswer (s.params.maskedCrc s.accumulated)]) ++
        (if s.accLen = 0 ∧ s.sinkStream ≠ [] then [] else [.sinkTransfer (s.duePreamble ++ last), .sinkAnswer true]) ++
        [.done 0x00#8]

/-- 41_flush.md R145: FLUSH as the first command delivers the preamble alone. -/
def Obligations.FirstFlushDeliversThePreamble : Prop :=
  ∀ (i : Instr) (s : State) (rest : List SinkAnswer), (i = .flush true ∨ (i = .flushA true ∧ s.cancelReq = false)) →
    s.Ready → s.lifecycle = some .fresh → s.sinkAnswers = .ok :: rest →
    ∃ t, exec i s = .next t ∧ t.Ended ∧ t.err = 0x00#8 ∧ t.lifecycle = some .active ∧ t.chunks = 0#32 ∧
      t.accLen = 0 ∧ t.stageLen = 0 ∧ t.sinkStream = s.params.preamble ∧ t.transfers = s.transfers + 1

/-- 41_flush.md R144: FLUSH with nothing accumulated and nothing staged. -/
def Obligations.NoOpFlush : Prop :=
  ∀ (i : Instr) (s : State), (i = .flush true ∨ (i = .flushA true ∧ s.cancelReq = false)) → s.Safe →
    s.busy = false → s.disposed = false → s.poisoned = false → s.eager = true → s.accLen = 0 → s.stageLen = 0 →
    s.hdrWritten = true →
    ∃ t, exec i s = .next t ∧ t.Ended ∧ t.err = 0x00#8 ∧ t.consumed = 0#32 ∧ t.chunks = 0#32 ∧ s.SameInstance t ∧
      s.SameWorld t ∧ t.src = s.src ∧
      t.history = s.history ++ [.accept (encode i) s.srcLen] ++
        (if i.async then [.cancelSampled false] else []) ++ [.done 0x00#8]

/-- 20_memory.md R69, 41_flush.md R147: whatever the agents answer, and in whichever step it ends, a FLUSH form that ends with OK
leaves nothing accumulated or staged, and what was accumulated is in the stream as one chunk. While it is held or paced, what
the sink has, what it has not been given yet and the block still to emit make up the same stream. -/
def Obligations.FlushIsABarrier : Prop :=
  (∀ (i : Instr) (s t : State), i.op = .flush → s.Safe → s.busy = false → exec i s = .next t →
    (t.busy = false → t.err = 0x00#8 →
      t.Ended ∧ t.accLen = 0 ∧ t.stageLen = 0 ∧ t.hdrWritten = true ∧ t.alloc = true ∧ t.disposed = false ∧
      t.poisoned = false ∧
      ∃ cs, (∀ c ∈ cs, s.params.IsChunk c) ∧ cs.map Prod.fst = s.accumulatedBlocks ∧
        t.sinkStream = s.sinkStream ++ s.duePreamble ++ s.params.wire cs) ∧
    (t.busy = true →
      ∃ cs, (∀ c ∈ cs, s.params.IsChunk c) ∧ cs.map Prod.fst ++ t.accumulatedBlocks = s.accumulatedBlocks ∧
        t.sinkStream ++ t.undelivered = s.sinkStream ++ s.duePreamble ++ s.params.wire cs)) ∧
  ∀ s t : State, s.Safe → s.busy = true → s.cur.op = .flush → step s = .next t → t.busy = true ∨ t.err = 0x00#8 →
    (t.busy = false → t.Ended ∧ t.accLen = 0 ∧ t.stageLen = 0 ∧ t.hdrWritten = true ∧ t.alloc = true ∧
      t.disposed = false ∧ t.poisoned = false) ∧
    ∃ cs, (∀ c ∈ cs, s.params.IsChunk c) ∧ cs.map Prod.fst ++ t.accumulatedBlocks = s.accumulatedBlocks ∧
      t.sinkStream ++ t.undelivered = s.sinkStream ++ s.undelivered ++ s.params.wire cs

/-- 41_flush.md R148: a FLUSH form makes at most one sink transfer, and it carries at most one chunk, behind the preamble if
that is due: in the step that starts it, and in every later step of one that is held or paced, none being made once one is
outstanding, and a command that has made one staying at it until it ends. -/
def Obligations.OneTransferPerFlush : Prop :=
  (∀ (i : Instr) (s t : State), i.op = .flush → s.Safe → s.busy = false → exec i s = .next t →
    t.transfers ≤ s.transfers + 1 ∧ (t.busy = true → t.transfers = s.transfers + 1 → t.pending = .sink) ∧
    ∃ l, t.history = s.history ++ l ∧ ∀ bs, .sinkTransfer bs ∈ l →
      ∃ cs, cs.length ≤ 1 ∧ (∀ c ∈ cs, s.params.IsChunk c) ∧ bs = s.duePreamble ++ s.params.wire cs) ∧
  ∀ s t : State, s.Safe → s.busy = true → s.cur.op = .flush → step s = .next t →
    t.transfers ≤ s.transfers + (if s.pending = .sink then 0 else 1) ∧
    (t.busy = true → s.pending = .sink ∨ t.transfers = s.transfers + 1 → t.pending = .sink) ∧
    ∃ l, t.history = s.history ++ l ∧ ∀ bs, .sinkTransfer bs ∈ l →
      ∃ cs, (∀ c ∈ cs, s.params.IsChunk c) ∧ cs.map Prod.fst = s.accumulatedBlocks ∧
        bs = s.undelivered ++ s.params.wire cs

/-- The frame of the FLUSH forms, whatever the agents answer (41_flush.md R140), in the step that starts one and in every later
step of one that is held or paced: SRC, ACC and the registers they do not write, and every byte of STG outside the addresses
they can still store to. -/
def Obligations.FlushFrame : Prop :=
  (∀ (i : Instr) (s t : State), i.op = .flush → s.Safe → s.busy = false → exec i s = .next t →
    t.params = s.params ∧ t.srcLen = s.srcLen ∧ t.src = s.src ∧ t.consumed = 0#32 ∧ t.disposed = s.disposed ∧
    (s.hdrWritten = true → t.hdrWritten = true) ∧ (s.poisoned = true → t.poisoned = true) ∧
    t.cancelReq = s.cancelReq ∧ t.inputs = s.inputs ∧ t.compressorReady = s.compressorReady ∧
    t.checksumReady = s.checksumReady ∧ t.eager = s.eager ∧ t.readData = s.readData ∧
    (s.alloc = true → t.alloc = true ∧ t.hdrWritten = s.hdrWritten ∧ t.poolAnswers = s.poolAnswers ∧ t.acc = s.acc ∧
      ∀ x, x < s.params.stageSize → ¬ s.stgStores s.accumulatedBlocks.length x → t.stg.byte x = s.stg.byte x) ∧
    s.sinkStream <+: t.sinkStream) ∧
  ∀ s t : State, s.Safe → s.busy = true → s.cur.op = .flush → step s = .next t →
    t.params = s.params ∧ t.srcLen = s.srcLen ∧ t.consumed = s.consumed ∧ t.cur = s.cur ∧ t.disposed = s.disposed ∧
    ((∀ d, s.inputs.head? ≠ some (.lend d)) → t.src = s.src) ∧
    (s.hdrWritten = true → t.hdrWritten = true) ∧ (s.poisoned = true → t.poisoned = true) ∧ s.WorldByInput t ∧
    (s.alloc = true → t.alloc = true ∧
      ((∀ a, s.inputs.head? ≠ some (.pool a)) → t.poolAnswers = s.poolAnswers) ∧ t.acc = s.acc ∧
      ∀ x, x < s.params.stageSize → ¬ s.stgStores s.accumulatedBlocks.length x → t.stg.byte x = s.stg.byte x) ∧
    s.sinkStream <+: t.sinkStream

/-! ### DISPOSE and the lifecycle -/

/-- 43_lifecycle.md R194, R196, R198, R199: the first DISPOSE, in every lifecycle state: what it releases, that it delivers
nothing, and its frame. -/
def Obligations.DisposeCompletes : Prop :=
  ∀ (s : State) (snk : Bool), s.params.wf = true → s.busy = false → s.disposed = false →
    ∃ t, exec (.dispose snk) s = .next t ∧ t.Ended ∧ t.err = 0x00#8 ∧ t.disposed = true ∧ t.alloc = false ∧
      t.accLen = 0 ∧ t.stageLen = 0 ∧ t.consumed = 0#32 ∧ t.chunks = 0#32 ∧ t.hdrWritten = s.hdrWritten ∧
      t.poisoned = s.poisoned ∧ t.sinkStream = s.sinkStream ∧ t.srcLen = s.srcLen ∧ t.src = s.src ∧
      t.params = s.params ∧ s.SameWorld t ∧
      (∀ a n, 0 < n → t.hasAddresses .acc a n = false ∧ t.hasAddresses .stg a n = false) ∧
      t.history = s.history ++ [.accept (encode (.dispose snk)) s.srcLen, .compressorTeardown] ++
        (if s.alloc then [.poolRelease] else []) ++ [.done 0x00#8]

/-- 43_lifecycle.md R195: a second DISPOSE completes and does nothing. -/
def Obligations.SecondDisposeDoesNothing : Prop :=
  ∀ (s : State) (snk : Bool), s.params.wf = true → s.busy = false → s.disposed = true →
    ∃ t, exec (.dispose snk) s = .next t ∧ s.EndsAtOnce (.dispose snk) 0x00#8 t

/-- 10_state.md R21 to R24, 43_lifecycle.md R193, 60_exceptions.md R223: no step but a new instance clears `hdr_written`,
`disposed` or `poisoned`, and a lease ends with DISPOSE only and never comes back. -/
def Obligations.FlagsAreSticky : Prop :=
  ∀ s t : State, s.Safe → s.inputs.head? ≠ some .construct → step s = .next t →
    (s.hdrWritten = true → t.hdrWritten = true) ∧ (s.disposed = true → t.disposed = true ∧ t.alloc = false) ∧
    (s.poisoned = true → t.poisoned = true) ∧ (s.alloc = true → t.alloc = true ∨ t.disposed = true)

/-- 43_lifecycle.md R200: the lifecycle state over steps and over whole commands, the transitions being those of the table
(log entry 29). Between commands the flags are one of the five states, and a command that ends in the step that starts it goes
to a state of the table. A command held by an agent, or paced, starts in FRESH or ACTIVE, keeps the instance neither disposed
nor poisoned while it runs, and ends, in whatever step, in ACTIVE or POISONED; it ends without
a lease with E_ALLOC only, and in POISONED with E_COMPRESS, E_SINK or E_ALLOC only. -/
def Obligations.LifecycleTransitions : Prop :=
  ∀ s t : State, s.Safe → s.inputs.head? ≠ some .construct → step s = .next t →
    (s.busy = false → t.busy = false →
      ∃ a b, s.lifecycle = some a ∧ t.lifecycle = some b ∧ a.mayBecome b = true) ∧
    (s.busy = false → t.busy = true →
      (s.lifecycle = some .fresh ∨ s.lifecycle = some .active) ∧ t.disposed = false ∧ t.poisoned = false ∧
        (s.alloc = true → t.lifecycle = some .active)) ∧
    (s.busy = true → t.busy = true →
      t.disposed = false ∧ t.poisoned = false ∧ (s.lifecycle = some .active → t.lifecycle = some .active)) ∧
    (s.busy = true → t.busy = false →
      (t.lifecycle = some .active ∨ t.lifecycle = some .poisoned) ∧
        (t.alloc = false → s.alloc = false ∧ t.hdrWritten = false ∧ t.err = 0x08#8) ∧
        (t.lifecycle = some .poisoned → t.err = 0x04#8 ∨ t.err = 0x05#8 ∨ t.err = 0x08#8))

/-! ### The whole machine -/

/-- The state after reset is safe. -/
def Obligations.ResetIsSafe : Prop := State.reset.Safe

/-- 20_memory.md R67, R73, 10_state.md R38, 30_encoding.md R99: every step of the machine, whatever its input, keeps the
invariants of the lengths, the flags, the memories and the stream. -/
def Obligations.StepKeepsSafe : Prop :=
  ∀ s t : State, s.Safe → step s = .next t → t.Safe

/-- 10_state.md R38: the invariants between commands, (a) to (f); log entry 28 for (e). -/
def Obligations.BetweenCommands : Prop :=
  ∀ s : State, s.Safe → s.busy = false →
    (s.disposed = true → s.alloc = false ∧ s.accLen = 0 ∧ s.stageLen = 0) ∧
    (s.alloc = false → s.disposed = false → s.poisoned = false →
      s.hdrWritten = false ∧ s.accLen = 0 ∧ s.stageLen = 0) ∧
    (s.alloc = true → s.hdrWritten = true) ∧
    (s.poisoned = false → s.accLen < s.params.block) ∧
    (s.poisoned = false → (s.stageLen = 0 ∨ s.stageLen = 10) ∧ (s.stageLen = 10 → s.sinkStream = [])) ∧
    (s.poisoned = false → ∀ x, x < s.stageLen → s.params.preamble[x]? = some (s.stg.byte x))

/-- 40_write.md R116, 10_state.md R47, 70_reset_and_hazards.md R262: every command on an idle safe instance answers a next
state, and where the sequencer runs without pause it has ended there or waits for an agent that has not answered; so does every
step that lets a command in progress go on. No safe state faults, idle or busy (log entry 25), and a machine at rest, or
waiting, is so after every step. -/
def Obligations.EveryCommandEndsOrWaits : Prop :=
  (∀ (i : Instr) (s : State), s.Safe → s.busy = false →
    ∃ t, exec i s = .next t ∧ t.Safe ∧ (s.eager = true → t.Ended ∨ (t.busy = true ∧ t.Waiting))) ∧
  (∀ s : State, s.Safe → s.busy = true → s.GoesOn →
    ∃ t, step s = .next t ∧ t.Safe ∧ (t.eager = true → t.Ended ∨ (t.busy = true ∧ t.Waiting))) ∧
  (∀ (s : State) (f : Fault), s.Safe → step s ≠ .fault f) ∧
  ∀ s t : State, s.Safe → s.Settled → step s = .next t → t.Settled

/-- 20_memory.md R55, R60: the sink stream and the history are append-only, but for a new instance. -/
def Obligations.OutputOnlyGrows : Prop :=
  ∀ s t : State, s.inputs.head? ≠ some .construct → step s = .next t →
    s.sinkStream <+: t.sinkStream ∧ s.history <+: t.history

/-- 20_memory.md R55, R61: the sink stream of an instance that no error has poisoned is the bytes of the accepted transfers,
and a transfer that is outstanding carries all that is staged: an invariant that every step keeps. -/
def Obligations.StreamIsTheAcceptedTransfers : Prop :=
  (∀ s t : State, s.Safe → step s = .next t →
    ((s.poisoned = false → s.sinkStream = acceptedBytes s.history) ∧
      (s.pending = .sink → ∃ h, s.history = h ++ [.sinkTransfer s.staged])) →
    (t.poisoned = false → t.sinkStream = acceptedBytes t.history) ∧
      (t.pending = .sink → ∃ h, t.history = h ++ [.sinkTransfer t.staged])) ∧
  State.reset.sinkStream = acceptedBytes State.reset.history

/-- 20_memory.md R68, 70_reset_and_hazards.md R262, log entries 9 and 30: a command that the sequencer runs without pause and the same
command run step by step come to the same state. -/
def Obligations.PaceDoesNotMatter : Prop :=
  ∀ (i : Instr) (s t : State), s.eager = true → exec i s = .next t →
    ∃ u n, exec i { s with eager := false } = .next u ∧ run n u = .next { t with eager := false }
end

