-- ==== Sys2Proof/Laws/Memory.lean ====
section
/-! SUPPORT. The laws of memory and buffers: reading after writing, the canonical form, and what each operation leaves
alone (20_memory.md R50 to R53, R73). -/

namespace Sys2Proof.Machine

namespace Memory

theorem lookup_filter_of_keep {l : List Host.Cell} {q : Host.Cell → Bool} {a : Nat} (h : ∀ v, q (a, v) = true) :
    (l.filter q).lookup a = l.lookup a := by
  induction l with
  | nil => rfl
  | cons c t ih =>
    obtain ⟨b, w⟩ := c
    by_cases hab : a = b
    · subst hab; simp [h w]
    · have hne : (a == b) = false := by simpa using hab
      by_cases hq : q (b, w) = true
      · simp [hq, List.lookup_cons, hne, ih]
      · simp [hq, List.lookup_cons, hne, ih]

theorem lookup_filter_of_drop {l : List Host.Cell} {q : Host.Cell → Bool} {a : Nat} (h : ∀ v, q (a, v) = false) :
    (l.filter q).lookup a = none := by
  induction l with
  | nil => rfl
  | cons c t ih =>
    obtain ⟨b, w⟩ := c
    by_cases hq : q (b, w) = true
    · have hab : (a == b) = false := by
        rw [beq_eq_false_iff_ne]; rintro rfl; rw [h w] at hq; cases hq
      simp [hq, List.lookup_cons, hab, ih]
    · simp [hq, ih]

theorem lookup_append (l m : List Host.Cell) (a : Nat) :
    (l ++ m).lookup a = (l.lookup a).or (m.lookup a) := by
  induction l with
  | nil => rfl
  | cons c t ih =>
    obtain ⟨b, w⟩ := c
    by_cases hab : (a == b) = true
    · simp [List.lookup_cons, hab]
    · have hab' : (a == b) = false := by simpa using hab
      simp [List.lookup_cons, hab', ih]

theorem lookup_cellsFrom (bs : List Byte) (a x : Nat) :
    (cellsFrom a bs).lookup x = if a ≤ x then bs[x - a]? else none := by
  induction bs generalizing a with
  | nil => simp [cellsFrom]
  | cons b bs ih =>
    simp only [cellsFrom, List.lookup_cons]
    by_cases hx : x = a
    · subst hx; simp
    · have hne : (x == a) = false := by simpa using hx
      simp only [hne, ih]
      by_cases hle : a ≤ x
      · have h1 : a + 1 ≤ x := by omega
        have h2 : x - a = (x - (a + 1)) + 1 := by omega
        simp [hle, h1, h2]
      · have h1 : ¬ a + 1 ≤ x := by omega
        simp [hle, h1]

/-- Reading after writing: inside the written addresses the written byte, outside them the old one. -/
theorem read_write (m : Memory) (a x : Nat) (bs : List Byte) :
    (m.write a bs).read x = if a ≤ x ∧ x < a + bs.length then bs[x - a]? else m.read x := by
  simp only [read, write, lookup_append, lookup_cellsFrom]
  by_cases h1 : x < a
  · rw [lookup_filter_of_keep (by simp [h1]), lookup_filter_of_drop (by intro; simp; omega)]
    have : ¬ a ≤ x := by omega
    simp [this]
  · rw [lookup_filter_of_drop (by intro; simp; omega)]
    have hle : a ≤ x := by omega
    by_cases h2 : x < a + bs.length
    · rw [lookup_filter_of_drop (by intro; simp; omega)]
      simp [hle, h2]
    · rw [lookup_filter_of_keep (by intro; simp; omega)]
      have : bs[x - a]? = none := by simp; omega
      simp [hle, h2, this]

/-- Reading after erasing. -/
theorem read_erase (m : Memory) (lo hi x : Nat) :
    (m.erase lo hi).read x = if lo ≤ x ∧ x < hi then none else m.read x := by
  simp only [read, erase]
  split
  · exact lookup_filter_of_drop (by intro; simp; omega)
  · exact lookup_filter_of_keep (by intro; simp; omega)

@[simp] theorem read_empty (x : Nat) : Memory.empty.read x = none := rfl

@[simp] theorem wf_empty : Memory.empty.wf = true := rfl

theorem mem_cellsFrom {bs : List Byte} {a : Nat} {c : Host.Cell} (h : c ∈ cellsFrom a bs) :
    a ≤ c.1 ∧ c.1 < a + bs.length := by
  induction bs generalizing a with
  | nil => simp [cellsFrom] at h
  | cons b bs ih =>
    simp only [cellsFrom, List.mem_cons] at h
    rcases h with rfl | h
    · simp
    · have := ih h; simp only [List.length_cons]; omega

theorem pairwise_cellsFrom (bs : List Byte) (a : Nat) :
    (cellsFrom a bs).Pairwise fun c d => c.1 < d.1 := by
  induction bs generalizing a with
  | nil => exact List.Pairwise.nil
  | cons b bs ih =>
    refine List.Pairwise.cons (fun c hc => ?_) (ih _)
    have := mem_cellsFrom hc
    show a < c.1
    omega

/-- Writing keeps the canonical form. -/
theorem wf_write {m : Memory} (h : m.wf = true) (a : Nat) (bs : List Byte) : (m.write a bs).wf = true := by
  simp only [wf, decide_eq_true_eq] at h ⊢
  simp only [write, List.pairwise_append]
  refine ⟨⟨h.filter _, pairwise_cellsFrom _ _, ?_⟩, h.filter _, ?_⟩
  · intro c hc d hd
    have h1 := (List.mem_filter.1 hc).2
    have h2 := mem_cellsFrom hd
    simp only [decide_eq_true_eq] at h1
    omega
  · intro c hc d hd
    have h2 := (List.mem_filter.1 hd).2
    simp only [decide_eq_true_eq] at h2
    rcases List.mem_append.1 hc with hc | hc
    · have h1 := (List.mem_filter.1 hc).2
      simp only [decide_eq_true_eq] at h1
      omega
    · have h1 := mem_cellsFrom hc
      omega

/-- Erasing keeps the canonical form. -/
theorem wf_erase {m : Memory} (h : m.wf = true) (lo hi : Nat) : (m.erase lo hi).wf = true := by
  simp only [wf, decide_eq_true_eq] at h ⊢
  exact h.filter _

end Memory

namespace Buffer

@[simp] theorem length_bytes (b : Buffer) (a n : Nat) : (b.bytes a n).length = n := by simp [bytes]

@[simp] theorem bytes_zero (b : Buffer) (a : Nat) : b.bytes a 0 = [] := rfl

@[simp] theorem getElem_bytes (b : Buffer) (a n i : Nat) (h : i < (b.bytes a n).length) :
    (b.bytes a n)[i] = b.byte (a + i) := by
  simp [bytes]

/-- Two strings of bytes of buffers agree when the buffers agree address by address. -/
theorem bytes_congr {b c : Buffer} {a a' n : Nat} (h : ∀ i, i < n → b.byte (a + i) = c.byte (a' + i)) :
    b.bytes a n = c.bytes a' n := by
  apply List.ext_getElem
  · simp
  · intro i h1 h2
    simp only [getElem_bytes]
    exact h i (by simpa using h1)

/-- A string of bytes falls into two. -/
theorem bytes_append (b : Buffer) (a m n : Nat) : b.bytes a (m + n) = b.bytes a m ++ b.bytes (a + m) n := by
  apply List.ext_getElem
  · simp
  · intro i h1 h2
    simp only [getElem_bytes, List.getElem_append, length_bytes]
    split
    · rfl
    · congr 1; omega

theorem byte_write (b : Buffer) (a x : Nat) (bs : List Byte) :
    (b.write a bs).byte x = if h : a ≤ x ∧ x < a + bs.length then bs[x - a]'(by omega) else b.byte x := by
  simp only [byte, write, Memory.read_write]
  split
  · rename_i h
    rw [List.getElem?_eq_getElem (by omega)]
    rfl
  · rfl

/-- Outside the written addresses every byte stays. -/
theorem byte_write_outside {b : Buffer} {a x : Nat} {bs : List Byte} (h : x < a ∨ a + bs.length ≤ x) :
    (b.write a bs).byte x = b.byte x := by
  rw [byte_write, dif_neg (by omega)]

/-- Reading what was written. -/
@[simp] theorem bytes_write_same (b : Buffer) (a : Nat) (bs : List Byte) :
    (b.write a bs).bytes a bs.length = bs := by
  apply List.ext_getElem
  · simp
  · intro i h1 h2
    rw [getElem_bytes, byte_write, dif_pos (by omega)]
    congr 1
    omega

/-- A string of bytes away from the written addresses stays. -/
theorem bytes_write_outside {b : Buffer} {a x n : Nat} {bs : List Byte} (h : x + n ≤ a ∨ a + bs.length ≤ x) :
    (b.write a bs).bytes x n = b.bytes x n :=
  bytes_congr fun i hi => byte_write_outside (by omega)

/-- Outside the scribbled addresses every written byte stays. -/
theorem byte_scribble_outside {b : Buffer} {lo hi d x : Nat} {v : Byte} (h : x < lo ∨ hi ≤ x)
    (hv : b.mem.read x = some v) : (b.scribble lo hi d).byte x = b.byte x := by
  simp only [byte, scribble, Memory.read_erase]
  rw [if_neg (by omega), hv]
  rfl

/-- A written byte outside the scribbled addresses stays written. -/
theorem read_scribble_outside {b : Buffer} {lo hi d x : Nat} (h : x < lo ∨ hi ≤ x) :
    (b.scribble lo hi d).mem.read x = b.mem.read x := by
  simp only [scribble, Memory.read_erase]
  rw [if_neg (by omega)]

end Buffer

end Sys2Proof.Machine
end

