-- ==== Sys2Proof/Laws/State.lean ====
section
/-! SUPPORT. One lemma per field of State and operation on it, so that no later proof unfolds a record update. -/

namespace Sys2Proof.Machine.State

@[simp] theorem log_params (e : Event) (s : State) : (s.log e).params = s.params := rfl
@[simp] theorem log_alloc (e : Event) (s : State) : (s.log e).alloc = s.alloc := rfl
@[simp] theorem log_hdrWritten (e : Event) (s : State) : (s.log e).hdrWritten = s.hdrWritten := rfl
@[simp] theorem log_disposed (e : Event) (s : State) : (s.log e).disposed = s.disposed := rfl
@[simp] theorem log_poisoned (e : Event) (s : State) : (s.log e).poisoned = s.poisoned := rfl
@[simp] theorem log_busy (e : Event) (s : State) : (s.log e).busy = s.busy := rfl
@[simp] theorem log_err (e : Event) (s : State) : (s.log e).err = s.err := rfl
@[simp] theorem log_fsm (e : Event) (s : State) : (s.log e).fsm = s.fsm := rfl
@[simp] theorem log_accLen (e : Event) (s : State) : (s.log e).accLen = s.accLen := rfl
@[simp] theorem log_stageLen (e : Event) (s : State) : (s.log e).stageLen = s.stageLen := rfl
@[simp] theorem log_srcLen (e : Event) (s : State) : (s.log e).srcLen = s.srcLen := rfl
@[simp] theorem log_consumed (e : Event) (s : State) : (s.log e).consumed = s.consumed := rfl
@[simp] theorem log_chunks (e : Event) (s : State) : (s.log e).chunks = s.chunks := rfl
@[simp] theorem log_cur (e : Event) (s : State) : (s.log e).cur = s.cur := rfl
@[simp] theorem log_acc (e : Event) (s : State) : (s.log e).acc = s.acc := rfl
@[simp] theorem log_stg (e : Event) (s : State) : (s.log e).stg = s.stg := rfl
@[simp] theorem log_src (e : Event) (s : State) : (s.log e).src = s.src := rfl
@[simp] theorem log_pending (e : Event) (s : State) : (s.log e).pending = s.pending := rfl
@[simp] theorem log_cancelReq (e : Event) (s : State) : (s.log e).cancelReq = s.cancelReq := rfl
@[simp] theorem log_sinkStream (e : Event) (s : State) : (s.log e).sinkStream = s.sinkStream := rfl
@[simp] theorem log_history (e : Event) (s : State) : (s.log e).history = s.history ++ [e] := rfl
@[simp] theorem log_inputs (e : Event) (s : State) : (s.log e).inputs = s.inputs := rfl
@[simp] theorem log_poolAnswers (e : Event) (s : State) : (s.log e).poolAnswers = s.poolAnswers := rfl
@[simp] theorem log_sinkAnswers (e : Event) (s : State) : (s.log e).sinkAnswers = s.sinkAnswers := rfl
@[simp] theorem log_compressorReady (e : Event) (s : State) : (s.log e).compressorReady = s.compressorReady := rfl
@[simp] theorem log_checksumReady (e : Event) (s : State) : (s.log e).checksumReady = s.checksumReady := rfl
@[simp] theorem log_eager (e : Event) (s : State) : (s.log e).eager = s.eager := rfl
@[simp] theorem log_draws (e : Event) (s : State) : (s.log e).draws = s.draws := rfl
@[simp] theorem log_readData (e : Event) (s : State) : (s.log e).readData = s.readData := rfl

@[simp] theorem request_params (p : Pending) (e : Event) (s : State) : (s.request p e).params = s.params := rfl
@[simp] theorem request_alloc (p : Pending) (e : Event) (s : State) : (s.request p e).alloc = s.alloc := rfl
@[simp] theorem request_hdrWritten (p : Pending) (e : Event) (s : State) : (s.request p e).hdrWritten = s.hdrWritten := rfl
@[simp] theorem request_disposed (p : Pending) (e : Event) (s : State) : (s.request p e).disposed = s.disposed := rfl
@[simp] theorem request_poisoned (p : Pending) (e : Event) (s : State) : (s.request p e).poisoned = s.poisoned := rfl
@[simp] theorem request_busy (p : Pending) (e : Event) (s : State) : (s.request p e).busy = s.busy := rfl
@[simp] theorem request_err (p : Pending) (e : Event) (s : State) : (s.request p e).err = s.err := rfl
@[simp] theorem request_fsm (p : Pending) (e : Event) (s : State) : (s.request p e).fsm = s.fsm := rfl
@[simp] theorem request_accLen (p : Pending) (e : Event) (s : State) : (s.request p e).accLen = s.accLen := rfl
@[simp] theorem request_stageLen (p : Pending) (e : Event) (s : State) : (s.request p e).stageLen = s.stageLen := rfl
@[simp] theorem request_srcLen (p : Pending) (e : Event) (s : State) : (s.request p e).srcLen = s.srcLen := rfl
@[simp] theorem request_consumed (p : Pending) (e : Event) (s : State) : (s.request p e).consumed = s.consumed := rfl
@[simp] theorem request_chunks (p : Pending) (e : Event) (s : State) : (s.request p e).chunks = s.chunks := rfl
@[simp] theorem request_cur (p : Pending) (e : Event) (s : State) : (s.request p e).cur = s.cur := rfl
@[simp] theorem request_acc (p : Pending) (e : Event) (s : State) : (s.request p e).acc = s.acc := rfl
@[simp] theorem request_stg (p : Pending) (e : Event) (s : State) : (s.request p e).stg = s.stg := rfl
@[simp] theorem request_src (p : Pending) (e : Event) (s : State) : (s.request p e).src = s.src := rfl
@[simp] theorem request_pending (p : Pending) (e : Event) (s : State) : (s.request p e).pending = p := rfl
@[simp] theorem request_cancelReq (p : Pending) (e : Event) (s : State) : (s.request p e).cancelReq = s.cancelReq := rfl
@[simp] theorem request_sinkStream (p : Pending) (e : Event) (s : State) : (s.request p e).sinkStream = s.sinkStream := rfl
@[simp] theorem request_history (p : Pending) (e : Event) (s : State) : (s.request p e).history = s.history ++ [e] := rfl
@[simp] theorem request_inputs (p : Pending) (e : Event) (s : State) : (s.request p e).inputs = s.inputs := rfl
@[simp] theorem request_poolAnswers (p : Pending) (e : Event) (s : State) : (s.request p e).poolAnswers = s.poolAnswers := rfl
@[simp] theorem request_sinkAnswers (p : Pending) (e : Event) (s : State) : (s.request p e).sinkAnswers = s.sinkAnswers := rfl
@[simp] theorem request_compressorReady (p : Pending) (e : Event) (s : State) : (s.request p e).compressorReady = s.compressorReady := rfl
@[simp] theorem request_checksumReady (p : Pending) (e : Event) (s : State) : (s.request p e).checksumReady = s.checksumReady := rfl
@[simp] theorem request_eager (p : Pending) (e : Event) (s : State) : (s.request p e).eager = s.eager := rfl
@[simp] theorem request_draws (p : Pending) (e : Event) (s : State) : (s.request p e).draws = s.draws := rfl
@[simp] theorem request_readData (p : Pending) (e : Event) (s : State) : (s.request p e).readData = s.readData := rfl

@[simp] theorem answered_params (e : Event) (s : State) : (s.answered e).params = s.params := rfl
@[simp] theorem answered_alloc (e : Event) (s : State) : (s.answered e).alloc = s.alloc := rfl
@[simp] theorem answered_hdrWritten (e : Event) (s : State) : (s.answered e).hdrWritten = s.hdrWritten := rfl
@[simp] theorem answered_disposed (e : Event) (s : State) : (s.answered e).disposed = s.disposed := rfl
@[simp] theorem answered_poisoned (e : Event) (s : State) : (s.answered e).poisoned = s.poisoned := rfl
@[simp] theorem answered_busy (e : Event) (s : State) : (s.answered e).busy = s.busy := rfl
@[simp] theorem answered_err (e : Event) (s : State) : (s.answered e).err = s.err := rfl
@[simp] theorem answered_fsm (e : Event) (s : State) : (s.answered e).fsm = s.fsm := rfl
@[simp] theorem answered_accLen (e : Event) (s : State) : (s.answered e).accLen = s.accLen := rfl
@[simp] theorem answered_stageLen (e : Event) (s : State) : (s.answered e).stageLen = s.stageLen := rfl
@[simp] theorem answered_srcLen (e : Event) (s : State) : (s.answered e).srcLen = s.srcLen := rfl
@[simp] theorem answered_consumed (e : Event) (s : State) : (s.answered e).consumed = s.consumed := rfl
@[simp] theorem answered_chunks (e : Event) (s : State) : (s.answered e).chunks = s.chunks := rfl
@[simp] theorem answered_cur (e : Event) (s : State) : (s.answered e).cur = s.cur := rfl
@[simp] theorem answered_acc (e : Event) (s : State) : (s.answered e).acc = s.acc := rfl
@[simp] theorem answered_stg (e : Event) (s : State) : (s.answered e).stg = s.stg := rfl
@[simp] theorem answered_src (e : Event) (s : State) : (s.answered e).src = s.src := rfl
@[simp] theorem answered_pending (e : Event) (s : State) : (s.answered e).pending = .none := rfl
@[simp] theorem answered_cancelReq (e : Event) (s : State) : (s.answered e).cancelReq = s.cancelReq := rfl
@[simp] theorem answered_sinkStream (e : Event) (s : State) : (s.answered e).sinkStream = s.sinkStream := rfl
@[simp] theorem answered_history (e : Event) (s : State) : (s.answered e).history = s.history ++ [e] := rfl
@[simp] theorem answered_inputs (e : Event) (s : State) : (s.answered e).inputs = s.inputs := rfl
@[simp] theorem answered_poolAnswers (e : Event) (s : State) : (s.answered e).poolAnswers = s.poolAnswers := rfl
@[simp] theorem answered_sinkAnswers (e : Event) (s : State) : (s.answered e).sinkAnswers = s.sinkAnswers := rfl
@[simp] theorem answered_compressorReady (e : Event) (s : State) : (s.answered e).compressorReady = s.compressorReady := rfl
@[simp] theorem answered_checksumReady (e : Event) (s : State) : (s.answered e).checksumReady = s.checksumReady := rfl
@[simp] theorem answered_eager (e : Event) (s : State) : (s.answered e).eager = s.eager := rfl
@[simp] theorem answered_draws (e : Event) (s : State) : (s.answered e).draws = s.draws := rfl
@[simp] theorem answered_readData (e : Event) (s : State) : (s.answered e).readData = s.readData := rfl

@[simp] theorem stgScribble_params (a : Nat) (s : State) : (s.stgScribble a).params = s.params := rfl
@[simp] theorem stgScribble_alloc (a : Nat) (s : State) : (s.stgScribble a).alloc = s.alloc := rfl
@[simp] theorem stgScribble_hdrWritten (a : Nat) (s : State) : (s.stgScribble a).hdrWritten = s.hdrWritten := rfl
@[simp] theorem stgScribble_disposed (a : Nat) (s : State) : (s.stgScribble a).disposed = s.disposed := rfl
@[simp] theorem stgScribble_poisoned (a : Nat) (s : State) : (s.stgScribble a).poisoned = s.poisoned := rfl
@[simp] theorem stgScribble_busy (a : Nat) (s : State) : (s.stgScribble a).busy = s.busy := rfl
@[simp] theorem stgScribble_err (a : Nat) (s : State) : (s.stgScribble a).err = s.err := rfl
@[simp] theorem stgScribble_fsm (a : Nat) (s : State) : (s.stgScribble a).fsm = s.fsm := rfl
@[simp] theorem stgScribble_accLen (a : Nat) (s : State) : (s.stgScribble a).accLen = s.accLen := rfl
@[simp] theorem stgScribble_stageLen (a : Nat) (s : State) : (s.stgScribble a).stageLen = s.stageLen := rfl
@[simp] theorem stgScribble_srcLen (a : Nat) (s : State) : (s.stgScribble a).srcLen = s.srcLen := rfl
@[simp] theorem stgScribble_consumed (a : Nat) (s : State) : (s.stgScribble a).consumed = s.consumed := rfl
@[simp] theorem stgScribble_chunks (a : Nat) (s : State) : (s.stgScribble a).chunks = s.chunks := rfl
@[simp] theorem stgScribble_cur (a : Nat) (s : State) : (s.stgScribble a).cur = s.cur := rfl
@[simp] theorem stgScribble_acc (a : Nat) (s : State) : (s.stgScribble a).acc = s.acc := rfl
@[simp] theorem stgScribble_stg (a : Nat) (s : State) : (s.stgScribble a).stg = s.stg.scribble a s.params.stageSize s.draws := rfl
@[simp] theorem stgScribble_src (a : Nat) (s : State) : (s.stgScribble a).src = s.src := rfl
@[simp] theorem stgScribble_pending (a : Nat) (s : State) : (s.stgScribble a).pending = s.pending := rfl
@[simp] theorem stgScribble_cancelReq (a : Nat) (s : State) : (s.stgScribble a).cancelReq = s.cancelReq := rfl
@[simp] theorem stgScribble_sinkStream (a : Nat) (s : State) : (s.stgScribble a).sinkStream = s.sinkStream := rfl
@[simp] theorem stgScribble_history (a : Nat) (s : State) : (s.stgScribble a).history = s.history := rfl
@[simp] theorem stgScribble_inputs (a : Nat) (s : State) : (s.stgScribble a).inputs = s.inputs := rfl
@[simp] theorem stgScribble_poolAnswers (a : Nat) (s : State) : (s.stgScribble a).poolAnswers = s.poolAnswers := rfl
@[simp] theorem stgScribble_sinkAnswers (a : Nat) (s : State) : (s.stgScribble a).sinkAnswers = s.sinkAnswers := rfl
@[simp] theorem stgScribble_compressorReady (a : Nat) (s : State) : (s.stgScribble a).compressorReady = s.compressorReady := rfl
@[simp] theorem stgScribble_checksumReady (a : Nat) (s : State) : (s.stgScribble a).checksumReady = s.checksumReady := rfl
@[simp] theorem stgScribble_eager (a : Nat) (s : State) : (s.stgScribble a).eager = s.eager := rfl
@[simp] theorem stgScribble_draws (a : Nat) (s : State) : (s.stgScribble a).draws = s.draws + 1 := rfl
@[simp] theorem stgScribble_readData (a : Nat) (s : State) : (s.stgScribble a).readData = s.readData := rfl

@[simp] theorem lease_params (s : State) : s.lease.params = s.params := rfl
@[simp] theorem lease_alloc (s : State) : s.lease.alloc = true := rfl
@[simp] theorem lease_hdrWritten (s : State) : s.lease.hdrWritten = s.hdrWritten := rfl
@[simp] theorem lease_disposed (s : State) : s.lease.disposed = s.disposed := rfl
@[simp] theorem lease_poisoned (s : State) : s.lease.poisoned = s.poisoned := rfl
@[simp] theorem lease_busy (s : State) : s.lease.busy = s.busy := rfl
@[simp] theorem lease_err (s : State) : s.lease.err = s.err := rfl
@[simp] theorem lease_fsm (s : State) : s.lease.fsm = s.fsm := rfl
@[simp] theorem lease_accLen (s : State) : s.lease.accLen = s.accLen := rfl
@[simp] theorem lease_stageLen (s : State) : s.lease.stageLen = s.stageLen := rfl
@[simp] theorem lease_srcLen (s : State) : s.lease.srcLen = s.srcLen := rfl
@[simp] theorem lease_consumed (s : State) : s.lease.consumed = s.consumed := rfl
@[simp] theorem lease_chunks (s : State) : s.lease.chunks = s.chunks := rfl
@[simp] theorem lease_cur (s : State) : s.lease.cur = s.cur := rfl
@[simp] theorem lease_acc (s : State) : s.lease.acc = .fresh s.draws := rfl
@[simp] theorem lease_stg (s : State) : s.lease.stg = .fresh (s.draws + 1) := rfl
@[simp] theorem lease_src (s : State) : s.lease.src = s.src := rfl
@[simp] theorem lease_pending (s : State) : s.lease.pending = s.pending := rfl
@[simp] theorem lease_cancelReq (s : State) : s.lease.cancelReq = s.cancelReq := rfl
@[simp] theorem lease_sinkStream (s : State) : s.lease.sinkStream = s.sinkStream := rfl
@[simp] theorem lease_history (s : State) : s.lease.history = s.history := rfl
@[simp] theorem lease_inputs (s : State) : s.lease.inputs = s.inputs := rfl
@[simp] theorem lease_poolAnswers (s : State) : s.lease.poolAnswers = s.poolAnswers := rfl
@[simp] theorem lease_sinkAnswers (s : State) : s.lease.sinkAnswers = s.sinkAnswers := rfl
@[simp] theorem lease_compressorReady (s : State) : s.lease.compressorReady = s.compressorReady := rfl
@[simp] theorem lease_checksumReady (s : State) : s.lease.checksumReady = s.checksumReady := rfl
@[simp] theorem lease_eager (s : State) : s.lease.eager = s.eager := rfl
@[simp] theorem lease_draws (s : State) : s.lease.draws = s.draws + 2 := rfl
@[simp] theorem lease_readData (s : State) : s.lease.readData = s.readData := rfl

@[simp] theorem releaseSrc_params (s : State) : s.releaseSrc.params = s.params := by
  unfold releaseSrc; cases s.cur.op <;> rfl
@[simp] theorem releaseSrc_alloc (s : State) : s.releaseSrc.alloc = s.alloc := by
  unfold releaseSrc; cases s.cur.op <;> rfl
@[simp] theorem releaseSrc_hdrWritten (s : State) : s.releaseSrc.hdrWritten = s.hdrWritten := by
  unfold releaseSrc; cases s.cur.op <;> rfl
@[simp] theorem releaseSrc_disposed (s : State) : s.releaseSrc.disposed = s.disposed := by
  unfold releaseSrc; cases s.cur.op <;> rfl
@[simp] theorem releaseSrc_poisoned (s : State) : s.releaseSrc.poisoned = s.poisoned := by
  unfold releaseSrc; cases s.cur.op <;> rfl
@[simp] theorem releaseSrc_busy (s : State) : s.releaseSrc.busy = s.busy := by
  unfold releaseSrc; cases s.cur.op <;> rfl
@[simp] theorem releaseSrc_err (s : State) : s.releaseSrc.err = s.err := by
  unfold releaseSrc; cases s.cur.op <;> rfl
@[simp] theorem releaseSrc_fsm (s : State) : s.releaseSrc.fsm = s.fsm := by
  unfold releaseSrc; cases s.cur.op <;> rfl
@[simp] theorem releaseSrc_accLen (s : State) : s.releaseSrc.accLen = s.accLen := by
  unfold releaseSrc; cases s.cur.op <;> rfl
@[simp] theorem releaseSrc_stageLen (s : State) : s.releaseSrc.stageLen = s.stageLen := by
  unfold releaseSrc; cases s.cur.op <;> rfl
@[simp] theorem releaseSrc_srcLen (s : State) : s.releaseSrc.srcLen = s.srcLen := by
  unfold releaseSrc; cases s.cur.op <;> rfl
@[simp] theorem releaseSrc_consumed (s : State) : s.releaseSrc.consumed = s.consumed := by
  unfold releaseSrc; cases s.cur.op <;> rfl
@[simp] theorem releaseSrc_chunks (s : State) : s.releaseSrc.chunks = s.chunks := by
  unfold releaseSrc; cases s.cur.op <;> rfl
@[simp] theorem releaseSrc_cur (s : State) : s.releaseSrc.cur = s.cur := by
  unfold releaseSrc; cases s.cur.op <;> rfl
@[simp] theorem releaseSrc_acc (s : State) : s.releaseSrc.acc = s.acc := by
  unfold releaseSrc; cases s.cur.op <;> rfl
@[simp] theorem releaseSrc_stg (s : State) : s.releaseSrc.stg = s.stg := by
  unfold releaseSrc; cases s.cur.op <;> rfl
@[simp] theorem releaseSrc_pending (s : State) : s.releaseSrc.pending = s.pending := by
  unfold releaseSrc; cases s.cur.op <;> rfl
@[simp] theorem releaseSrc_cancelReq (s : State) : s.releaseSrc.cancelReq = s.cancelReq := by
  unfold releaseSrc; cases s.cur.op <;> rfl
@[simp] theorem releaseSrc_sinkStream (s : State) : s.releaseSrc.sinkStream = s.sinkStream := by
  unfold releaseSrc; cases s.cur.op <;> rfl
@[simp] theorem releaseSrc_history (s : State) : s.releaseSrc.history = s.history := by
  unfold releaseSrc; cases s.cur.op <;> rfl
@[simp] theorem releaseSrc_inputs (s : State) : s.releaseSrc.inputs = s.inputs := by
  unfold releaseSrc; cases s.cur.op <;> rfl
@[simp] theorem releaseSrc_poolAnswers (s : State) : s.releaseSrc.poolAnswers = s.poolAnswers := by
  unfold releaseSrc; cases s.cur.op <;> rfl
@[simp] theorem releaseSrc_sinkAnswers (s : State) : s.releaseSrc.sinkAnswers = s.sinkAnswers := by
  unfold releaseSrc; cases s.cur.op <;> rfl
@[simp] theorem releaseSrc_compressorReady (s : State) : s.releaseSrc.compressorReady = s.compressorReady := by
  unfold releaseSrc; cases s.cur.op <;> rfl
@[simp] theorem releaseSrc_checksumReady (s : State) : s.releaseSrc.checksumReady = s.checksumReady := by
  unfold releaseSrc; cases s.cur.op <;> rfl
@[simp] theorem releaseSrc_eager (s : State) : s.releaseSrc.eager = s.eager := by
  unfold releaseSrc; cases s.cur.op <;> rfl
@[simp] theorem releaseSrc_readData (s : State) : s.releaseSrc.readData = s.readData := by
  unfold releaseSrc; cases s.cur.op <;> rfl

@[simp] theorem close_params (s : State) : s.close.params = s.params := rfl
@[simp] theorem close_alloc (s : State) : s.close.alloc = s.alloc := rfl
@[simp] theorem close_hdrWritten (s : State) : s.close.hdrWritten = s.hdrWritten := rfl
@[simp] theorem close_disposed (s : State) : s.close.disposed = s.disposed := rfl
@[simp] theorem close_poisoned (s : State) : s.close.poisoned = s.poisoned := rfl
@[simp] theorem close_busy (s : State) : s.close.busy = false := rfl
@[simp] theorem close_err (s : State) : s.close.err = s.err := rfl
@[simp] theorem close_fsm (s : State) : s.close.fsm = .idle := rfl
@[simp] theorem close_accLen (s : State) : s.close.accLen = s.accLen := rfl
@[simp] theorem close_stageLen (s : State) : s.close.stageLen = s.stageLen := rfl
@[simp] theorem close_srcLen (s : State) : s.close.srcLen = s.srcLen := rfl
@[simp] theorem close_consumed (s : State) : s.close.consumed = s.consumed := rfl
@[simp] theorem close_chunks (s : State) : s.close.chunks = s.chunks := rfl
@[simp] theorem close_cur (s : State) : s.close.cur = s.cur := rfl
@[simp] theorem close_acc (s : State) : s.close.acc = s.acc := rfl
@[simp] theorem close_stg (s : State) : s.close.stg = s.stg := rfl
@[simp] theorem close_src (s : State) : s.close.src = s.src := rfl
@[simp] theorem close_pending (s : State) : s.close.pending = .none := rfl
@[simp] theorem close_cancelReq (s : State) : s.close.cancelReq = s.cancelReq := rfl
@[simp] theorem close_sinkStream (s : State) : s.close.sinkStream = s.sinkStream := rfl
@[simp] theorem close_history (s : State) : s.close.history = s.history ++ [.done s.err] := rfl
@[simp] theorem close_inputs (s : State) : s.close.inputs = s.inputs := rfl
@[simp] theorem close_poolAnswers (s : State) : s.close.poolAnswers = s.poolAnswers := rfl
@[simp] theorem close_sinkAnswers (s : State) : s.close.sinkAnswers = s.sinkAnswers := rfl
@[simp] theorem close_compressorReady (s : State) : s.close.compressorReady = s.compressorReady := rfl
@[simp] theorem close_checksumReady (s : State) : s.close.checksumReady = s.checksumReady := rfl
@[simp] theorem close_eager (s : State) : s.close.eager = s.eager := rfl
@[simp] theorem close_draws (s : State) : s.close.draws = s.draws := rfl
@[simp] theorem close_readData (s : State) : s.close.readData = s.readData := rfl

@[simp] theorem setError_params (e : ErrorKind) (s : State) : (s.setError e).params = s.params := rfl
@[simp] theorem setError_alloc (e : ErrorKind) (s : State) : (s.setError e).alloc = s.alloc := rfl
@[simp] theorem setError_hdrWritten (e : ErrorKind) (s : State) : (s.setError e).hdrWritten = s.hdrWritten := rfl
@[simp] theorem setError_disposed (e : ErrorKind) (s : State) : (s.setError e).disposed = s.disposed := rfl
@[simp] theorem setError_poisoned (e : ErrorKind) (s : State) : (s.setError e).poisoned = (s.poisoned || e.poisons) := rfl
@[simp] theorem setError_busy (e : ErrorKind) (s : State) : (s.setError e).busy = s.busy := rfl
@[simp] theorem setError_err (e : ErrorKind) (s : State) : (s.setError e).err = e.code := rfl
@[simp] theorem setError_fsm (e : ErrorKind) (s : State) : (s.setError e).fsm = s.fsm := rfl
@[simp] theorem setError_accLen (e : ErrorKind) (s : State) : (s.setError e).accLen = s.accLen := rfl
@[simp] theorem setError_stageLen (e : ErrorKind) (s : State) : (s.setError e).stageLen = s.stageLen := rfl
@[simp] theorem setError_srcLen (e : ErrorKind) (s : State) : (s.setError e).srcLen = s.srcLen := rfl
@[simp] theorem setError_consumed (e : ErrorKind) (s : State) : (s.setError e).consumed = s.consumed := rfl
@[simp] theorem setError_chunks (e : ErrorKind) (s : State) : (s.setError e).chunks = s.chunks := rfl
@[simp] theorem setError_cur (e : ErrorKind) (s : State) : (s.setError e).cur = s.cur := rfl
@[simp] theorem setError_acc (e : ErrorKind) (s : State) : (s.setError e).acc = s.acc := rfl
@[simp] theorem setError_stg (e : ErrorKind) (s : State) : (s.setError e).stg = s.stg := rfl
@[simp] theorem setError_src (e : ErrorKind) (s : State) : (s.setError e).src = s.src := rfl
@[simp] theorem setError_pending (e : ErrorKind) (s : State) : (s.setError e).pending = s.pending := rfl
@[simp] theorem setError_cancelReq (e : ErrorKind) (s : State) : (s.setError e).cancelReq = s.cancelReq := rfl
@[simp] theorem setError_sinkStream (e : ErrorKind) (s : State) : (s.setError e).sinkStream = s.sinkStream := rfl
@[simp] theorem setError_history (e : ErrorKind) (s : State) : (s.setError e).history = s.history := rfl
@[simp] theorem setError_inputs (e : ErrorKind) (s : State) : (s.setError e).inputs = s.inputs := rfl
@[simp] theorem setError_poolAnswers (e : ErrorKind) (s : State) : (s.setError e).poolAnswers = s.poolAnswers := rfl
@[simp] theorem setError_sinkAnswers (e : ErrorKind) (s : State) : (s.setError e).sinkAnswers = s.sinkAnswers := rfl
@[simp] theorem setError_compressorReady (e : ErrorKind) (s : State) : (s.setError e).compressorReady = s.compressorReady := rfl
@[simp] theorem setError_checksumReady (e : ErrorKind) (s : State) : (s.setError e).checksumReady = s.checksumReady := rfl
@[simp] theorem setError_eager (e : ErrorKind) (s : State) : (s.setError e).eager = s.eager := rfl
@[simp] theorem setError_draws (e : ErrorKind) (s : State) : (s.setError e).draws = s.draws := rfl
@[simp] theorem setError_readData (e : ErrorKind) (s : State) : (s.setError e).readData = s.readData := rfl

@[simp] theorem raise_params (e : ErrorKind) (s : State) : (s.raise e).params = s.params := by
  simp [raise, close, log, setError]
@[simp] theorem raise_alloc (e : ErrorKind) (s : State) : (s.raise e).alloc = s.alloc := by
  simp [raise, close, log, setError]
@[simp] theorem raise_hdrWritten (e : ErrorKind) (s : State) : (s.raise e).hdrWritten = s.hdrWritten := by
  simp [raise, close, log, setError]
@[simp] theorem raise_disposed (e : ErrorKind) (s : State) : (s.raise e).disposed = s.disposed := by
  simp [raise, close, log, setError]
@[simp] theorem raise_poisoned (e : ErrorKind) (s : State) : (s.raise e).poisoned = (s.poisoned || e.poisons) := by
  simp [raise, close, log, setError]
@[simp] theorem raise_busy (e : ErrorKind) (s : State) : (s.raise e).busy = false := by
  simp [raise, close, log, setError]
@[simp] theorem raise_err (e : ErrorKind) (s : State) : (s.raise e).err = e.code := by
  simp [raise, close, log, setError]
@[simp] theorem raise_fsm (e : ErrorKind) (s : State) : (s.raise e).fsm = .idle := by
  simp [raise, close, log, setError]
@[simp] theorem raise_accLen (e : ErrorKind) (s : State) : (s.raise e).accLen = s.accLen := by
  simp [raise, close, log, setError]
@[simp] theorem raise_stageLen (e : ErrorKind) (s : State) : (s.raise e).stageLen = s.stageLen := by
  simp [raise, close, log, setError]
@[simp] theorem raise_srcLen (e : ErrorKind) (s : State) : (s.raise e).srcLen = s.srcLen := by
  simp [raise, close, log, setError]
@[simp] theorem raise_consumed (e : ErrorKind) (s : State) : (s.raise e).consumed = s.consumed := by
  simp [raise, close, log, setError]
@[simp] theorem raise_chunks (e : ErrorKind) (s : State) : (s.raise e).chunks = s.chunks := by
  simp [raise, close, log, setError]
@[simp] theorem raise_cur (e : ErrorKind) (s : State) : (s.raise e).cur = s.cur := by
  simp [raise, close, log, setError]
@[simp] theorem raise_acc (e : ErrorKind) (s : State) : (s.raise e).acc = s.acc := by
  simp [raise, close, log, setError]
@[simp] theorem raise_stg (e : ErrorKind) (s : State) : (s.raise e).stg = s.stg := by
  simp [raise, close, log, setError]
@[simp] theorem raise_src (e : ErrorKind) (s : State) : (s.raise e).src = s.releaseSrc.src := by
  unfold raise close log setError releaseSrc; cases s.cur.op <;> simp
@[simp] theorem raise_pending (e : ErrorKind) (s : State) : (s.raise e).pending = .none := by
  simp [raise, close, log, setError]
@[simp] theorem raise_cancelReq (e : ErrorKind) (s : State) : (s.raise e).cancelReq = s.cancelReq := by
  simp [raise, close, log, setError]
@[simp] theorem raise_sinkStream (e : ErrorKind) (s : State) : (s.raise e).sinkStream = s.sinkStream := by
  simp [raise, close, log, setError]
@[simp] theorem raise_history (e : ErrorKind) (s : State) : (s.raise e).history = s.history ++ [.done e.code] := by
  simp [raise, close, log, setError]
@[simp] theorem raise_inputs (e : ErrorKind) (s : State) : (s.raise e).inputs = s.inputs := by
  simp [raise, close, log, setError]
@[simp] theorem raise_poolAnswers (e : ErrorKind) (s : State) : (s.raise e).poolAnswers = s.poolAnswers := by
  simp [raise, close, log, setError]
@[simp] theorem raise_sinkAnswers (e : ErrorKind) (s : State) : (s.raise e).sinkAnswers = s.sinkAnswers := by
  simp [raise, close, log, setError]
@[simp] theorem raise_compressorReady (e : ErrorKind) (s : State) : (s.raise e).compressorReady = s.compressorReady := by
  simp [raise, close, log, setError]
@[simp] theorem raise_checksumReady (e : ErrorKind) (s : State) : (s.raise e).checksumReady = s.checksumReady := by
  simp [raise, close, log, setError]
@[simp] theorem raise_eager (e : ErrorKind) (s : State) : (s.raise e).eager = s.eager := by
  simp [raise, close, log, setError]
@[simp] theorem raise_draws (e : ErrorKind) (s : State) : (s.raise e).draws = s.releaseSrc.draws := by
  unfold raise close log setError releaseSrc; cases s.cur.op <;> simp
@[simp] theorem raise_readData (e : ErrorKind) (s : State) : (s.raise e).readData = s.readData := by
  simp [raise, close, log, setError]

@[simp] theorem complete_params (s : State) : s.complete.params = s.params := by
  simp [complete, close, log]
@[simp] theorem complete_alloc (s : State) : s.complete.alloc = s.alloc := by
  simp [complete, close, log]
@[simp] theorem complete_hdrWritten (s : State) : s.complete.hdrWritten = s.hdrWritten := by
  simp [complete, close, log]
@[simp] theorem complete_disposed (s : State) : s.complete.disposed = s.disposed := by
  simp [complete, close, log]
@[simp] theorem complete_poisoned (s : State) : s.complete.poisoned = s.poisoned := by
  simp [complete, close, log]
@[simp] theorem complete_busy (s : State) : s.complete.busy = false := by
  simp [complete, close, log]
@[simp] theorem complete_err (s : State) : s.complete.err = s.err := by
  simp [complete, close, log]
@[simp] theorem complete_fsm (s : State) : s.complete.fsm = .idle := by
  simp [complete, close, log]
@[simp] theorem complete_accLen (s : State) : s.complete.accLen = s.accLen := by
  simp [complete, close, log]
@[simp] theorem complete_stageLen (s : State) : s.complete.stageLen = s.stageLen := by
  simp [complete, close, log]
@[simp] theorem complete_srcLen (s : State) : s.complete.srcLen = s.srcLen := by
  simp [complete, close, log]
@[simp] theorem complete_consumed (s : State) : s.complete.consumed = s.consumed := by
  simp [complete, close, log]
@[simp] theorem complete_chunks (s : State) : s.complete.chunks = s.chunks := by
  simp [complete, close, log]
@[simp] theorem complete_cur (s : State) : s.complete.cur = s.cur := by
  simp [complete, close, log]
@[simp] theorem complete_acc (s : State) : s.complete.acc = s.acc := by
  simp [complete, close, log]
@[simp] theorem complete_stg (s : State) : s.complete.stg = s.stg := by
  simp [complete, close, log]
@[simp] theorem complete_src (s : State) : s.complete.src = s.releaseSrc.src := rfl
@[simp] theorem complete_pending (s : State) : s.complete.pending = .none := by
  simp [complete, close, log]
@[simp] theorem complete_cancelReq (s : State) : s.complete.cancelReq = s.cancelReq := by
  simp [complete, close, log]
@[simp] theorem complete_sinkStream (s : State) : s.complete.sinkStream = s.sinkStream := by
  simp [complete, close, log]
@[simp] theorem complete_history (s : State) : s.complete.history = s.history ++ [.done s.err] := by
  simp [complete, close, log]
@[simp] theorem complete_inputs (s : State) : s.complete.inputs = s.inputs := by
  simp [complete, close, log]
@[simp] theorem complete_poolAnswers (s : State) : s.complete.poolAnswers = s.poolAnswers := by
  simp [complete, close, log]
@[simp] theorem complete_sinkAnswers (s : State) : s.complete.sinkAnswers = s.sinkAnswers := by
  simp [complete, close, log]
@[simp] theorem complete_compressorReady (s : State) : s.complete.compressorReady = s.compressorReady := by
  simp [complete, close, log]
@[simp] theorem complete_checksumReady (s : State) : s.complete.checksumReady = s.checksumReady := by
  simp [complete, close, log]
@[simp] theorem complete_eager (s : State) : s.complete.eager = s.eager := by
  simp [complete, close, log]
@[simp] theorem complete_draws (s : State) : s.complete.draws = s.releaseSrc.draws := rfl
@[simp] theorem complete_readData (s : State) : s.complete.readData = s.readData := by
  simp [complete, close, log]

@[simp] theorem latch_params (i : Instr) (s : State) : (s.latch i).params = s.params := rfl
@[simp] theorem latch_alloc (i : Instr) (s : State) : (s.latch i).alloc = s.alloc := rfl
@[simp] theorem latch_hdrWritten (i : Instr) (s : State) : (s.latch i).hdrWritten = s.hdrWritten := rfl
@[simp] theorem latch_disposed (i : Instr) (s : State) : (s.latch i).disposed = s.disposed := rfl
@[simp] theorem latch_poisoned (i : Instr) (s : State) : (s.latch i).poisoned = s.poisoned := rfl
@[simp] theorem latch_busy (i : Instr) (s : State) : (s.latch i).busy = s.busy := rfl
@[simp] theorem latch_err (i : Instr) (s : State) : (s.latch i).err = s.err := rfl
@[simp] theorem latch_fsm (i : Instr) (s : State) : (s.latch i).fsm = s.fsm := rfl
@[simp] theorem latch_accLen (i : Instr) (s : State) : (s.latch i).accLen = s.accLen := rfl
@[simp] theorem latch_stageLen (i : Instr) (s : State) : (s.latch i).stageLen = s.stageLen := rfl
@[simp] theorem latch_srcLen (i : Instr) (s : State) : (s.latch i).srcLen = s.srcLen := rfl
@[simp] theorem latch_consumed (i : Instr) (s : State) : (s.latch i).consumed = s.consumed := rfl
@[simp] theorem latch_chunks (i : Instr) (s : State) : (s.latch i).chunks = s.chunks := rfl
@[simp] theorem latch_cur (i : Instr) (s : State) : (s.latch i).cur = ⟨i.op, i.async, i.snk, s.srcLen⟩ := rfl
@[simp] theorem latch_acc (i : Instr) (s : State) : (s.latch i).acc = s.acc := rfl
@[simp] theorem latch_stg (i : Instr) (s : State) : (s.latch i).stg = s.stg := rfl
@[simp] theorem latch_src (i : Instr) (s : State) : (s.latch i).src = s.src := rfl
@[simp] theorem latch_pending (i : Instr) (s : State) : (s.latch i).pending = s.pending := rfl
@[simp] theorem latch_cancelReq (i : Instr) (s : State) : (s.latch i).cancelReq = s.cancelReq := rfl
@[simp] theorem latch_sinkStream (i : Instr) (s : State) : (s.latch i).sinkStream = s.sinkStream := rfl
@[simp] theorem latch_history (i : Instr) (s : State) : (s.latch i).history = s.history := rfl
@[simp] theorem latch_inputs (i : Instr) (s : State) : (s.latch i).inputs = s.inputs := rfl
@[simp] theorem latch_poolAnswers (i : Instr) (s : State) : (s.latch i).poolAnswers = s.poolAnswers := rfl
@[simp] theorem latch_sinkAnswers (i : Instr) (s : State) : (s.latch i).sinkAnswers = s.sinkAnswers := rfl
@[simp] theorem latch_compressorReady (i : Instr) (s : State) : (s.latch i).compressorReady = s.compressorReady := rfl
@[simp] theorem latch_checksumReady (i : Instr) (s : State) : (s.latch i).checksumReady = s.checksumReady := rfl
@[simp] theorem latch_eager (i : Instr) (s : State) : (s.latch i).eager = s.eager := rfl
@[simp] theorem latch_draws (i : Instr) (s : State) : (s.latch i).draws = s.draws := rfl
@[simp] theorem latch_readData (i : Instr) (s : State) : (s.latch i).readData = s.readData := rfl

@[simp] theorem opened_params (w : Word) (s : State) : (s.opened w).params = s.params := rfl
@[simp] theorem opened_alloc (w : Word) (s : State) : (s.opened w).alloc = s.alloc := rfl
@[simp] theorem opened_hdrWritten (w : Word) (s : State) : (s.opened w).hdrWritten = s.hdrWritten := rfl
@[simp] theorem opened_disposed (w : Word) (s : State) : (s.opened w).disposed = s.disposed := rfl
@[simp] theorem opened_poisoned (w : Word) (s : State) : (s.opened w).poisoned = s.poisoned := rfl
@[simp] theorem opened_busy (w : Word) (s : State) : (s.opened w).busy = true := rfl
@[simp] theorem opened_err (w : Word) (s : State) : (s.opened w).err = 0x00#8 := rfl
@[simp] theorem opened_fsm (w : Word) (s : State) : (s.opened w).fsm = s.fsm := rfl
@[simp] theorem opened_accLen (w : Word) (s : State) : (s.opened w).accLen = s.accLen := rfl
@[simp] theorem opened_stageLen (w : Word) (s : State) : (s.opened w).stageLen = s.stageLen := rfl
@[simp] theorem opened_srcLen (w : Word) (s : State) : (s.opened w).srcLen = s.srcLen := rfl
@[simp] theorem opened_consumed (w : Word) (s : State) : (s.opened w).consumed = 0#32 := rfl
@[simp] theorem opened_chunks (w : Word) (s : State) : (s.opened w).chunks = 0#32 := rfl
@[simp] theorem opened_cur (w : Word) (s : State) : (s.opened w).cur = s.cur := rfl
@[simp] theorem opened_acc (w : Word) (s : State) : (s.opened w).acc = s.acc := rfl
@[simp] theorem opened_stg (w : Word) (s : State) : (s.opened w).stg = s.stg := rfl
@[simp] theorem opened_src (w : Word) (s : State) : (s.opened w).src = s.src := rfl
@[simp] theorem opened_pending (w : Word) (s : State) : (s.opened w).pending = s.pending := rfl
@[simp] theorem opened_cancelReq (w : Word) (s : State) : (s.opened w).cancelReq = s.cancelReq := rfl
@[simp] theorem opened_sinkStream (w : Word) (s : State) : (s.opened w).sinkStream = s.sinkStream := rfl
@[simp] theorem opened_history (w : Word) (s : State) : (s.opened w).history = s.history ++ [.accept w s.srcLen] := rfl
@[simp] theorem opened_inputs (w : Word) (s : State) : (s.opened w).inputs = s.inputs := rfl
@[simp] theorem opened_poolAnswers (w : Word) (s : State) : (s.opened w).poolAnswers = s.poolAnswers := rfl
@[simp] theorem opened_sinkAnswers (w : Word) (s : State) : (s.opened w).sinkAnswers = s.sinkAnswers := rfl
@[simp] theorem opened_compressorReady (w : Word) (s : State) : (s.opened w).compressorReady = s.compressorReady := rfl
@[simp] theorem opened_checksumReady (w : Word) (s : State) : (s.opened w).checksumReady = s.checksumReady := rfl
@[simp] theorem opened_eager (w : Word) (s : State) : (s.opened w).eager = s.eager := rfl
@[simp] theorem opened_draws (w : Word) (s : State) : (s.opened w).draws = s.draws := rfl
@[simp] theorem opened_readData (w : Word) (s : State) : (s.opened w).readData = s.readData := rfl

@[simp] theorem accepted_params (i : Instr) (s : State) : (s.accepted i).params = s.params := rfl
@[simp] theorem accepted_alloc (i : Instr) (s : State) : (s.accepted i).alloc = s.alloc := rfl
@[simp] theorem accepted_hdrWritten (i : Instr) (s : State) : (s.accepted i).hdrWritten = s.hdrWritten := rfl
@[simp] theorem accepted_disposed (i : Instr) (s : State) : (s.accepted i).disposed = s.disposed := rfl
@[simp] theorem accepted_poisoned (i : Instr) (s : State) : (s.accepted i).poisoned = s.poisoned := rfl
@[simp] theorem accepted_busy (i : Instr) (s : State) : (s.accepted i).busy = true := rfl
@[simp] theorem accepted_err (i : Instr) (s : State) : (s.accepted i).err = 0x00#8 := rfl
@[simp] theorem accepted_fsm (i : Instr) (s : State) : (s.accepted i).fsm = s.fsm := rfl
@[simp] theorem accepted_accLen (i : Instr) (s : State) : (s.accepted i).accLen = s.accLen := rfl
@[simp] theorem accepted_stageLen (i : Instr) (s : State) : (s.accepted i).stageLen = s.stageLen := rfl
@[simp] theorem accepted_srcLen (i : Instr) (s : State) : (s.accepted i).srcLen = s.srcLen := rfl
@[simp] theorem accepted_consumed (i : Instr) (s : State) : (s.accepted i).consumed = 0#32 := rfl
@[simp] theorem accepted_chunks (i : Instr) (s : State) : (s.accepted i).chunks = 0#32 := rfl
@[simp] theorem accepted_cur (i : Instr) (s : State) : (s.accepted i).cur = ⟨i.op, i.async, i.snk, s.srcLen⟩ := rfl
@[simp] theorem accepted_acc (i : Instr) (s : State) : (s.accepted i).acc = s.acc := rfl
@[simp] theorem accepted_stg (i : Instr) (s : State) : (s.accepted i).stg = s.stg := rfl
@[simp] theorem accepted_src (i : Instr) (s : State) : (s.accepted i).src = s.src := rfl
@[simp] theorem accepted_pending (i : Instr) (s : State) : (s.accepted i).pending = s.pending := rfl
@[simp] theorem accepted_cancelReq (i : Instr) (s : State) : (s.accepted i).cancelReq = s.cancelReq := rfl
@[simp] theorem accepted_sinkStream (i : Instr) (s : State) : (s.accepted i).sinkStream = s.sinkStream := rfl
@[simp] theorem accepted_history (i : Instr) (s : State) : (s.accepted i).history = s.history ++ [.accept (encode i) s.srcLen] := rfl
@[simp] theorem accepted_inputs (i : Instr) (s : State) : (s.accepted i).inputs = s.inputs := rfl
@[simp] theorem accepted_poolAnswers (i : Instr) (s : State) : (s.accepted i).poolAnswers = s.poolAnswers := rfl
@[simp] theorem accepted_sinkAnswers (i : Instr) (s : State) : (s.accepted i).sinkAnswers = s.sinkAnswers := rfl
@[simp] theorem accepted_compressorReady (i : Instr) (s : State) : (s.accepted i).compressorReady = s.compressorReady := rfl
@[simp] theorem accepted_checksumReady (i : Instr) (s : State) : (s.accepted i).checksumReady = s.checksumReady := rfl
@[simp] theorem accepted_eager (i : Instr) (s : State) : (s.accepted i).eager = s.eager := rfl
@[simp] theorem accepted_draws (i : Instr) (s : State) : (s.accepted i).draws = s.draws := rfl
@[simp] theorem accepted_readData (i : Instr) (s : State) : (s.accepted i).readData = s.readData := rfl

@[simp] theorem delivered_params (bs : List Byte) (s : State) : (s.delivered bs).params = s.params := rfl
@[simp] theorem delivered_alloc (bs : List Byte) (s : State) : (s.delivered bs).alloc = s.alloc := rfl
@[simp] theorem delivered_hdrWritten (bs : List Byte) (s : State) : (s.delivered bs).hdrWritten = s.hdrWritten := rfl
@[simp] theorem delivered_disposed (bs : List Byte) (s : State) : (s.delivered bs).disposed = s.disposed := rfl
@[simp] theorem delivered_poisoned (bs : List Byte) (s : State) : (s.delivered bs).poisoned = s.poisoned := rfl
@[simp] theorem delivered_busy (bs : List Byte) (s : State) : (s.delivered bs).busy = s.busy := rfl
@[simp] theorem delivered_err (bs : List Byte) (s : State) : (s.delivered bs).err = s.err := rfl
@[simp] theorem delivered_fsm (bs : List Byte) (s : State) : (s.delivered bs).fsm = s.fsm := rfl
@[simp] theorem delivered_accLen (bs : List Byte) (s : State) : (s.delivered bs).accLen = s.accLen := rfl
@[simp] theorem delivered_stageLen (bs : List Byte) (s : State) : (s.delivered bs).stageLen = 0 := rfl
@[simp] theorem delivered_srcLen (bs : List Byte) (s : State) : (s.delivered bs).srcLen = s.srcLen := rfl
@[simp] theorem delivered_consumed (bs : List Byte) (s : State) : (s.delivered bs).consumed = s.consumed := rfl
@[simp] theorem delivered_chunks (bs : List Byte) (s : State) : (s.delivered bs).chunks = s.chunks := rfl
@[simp] theorem delivered_cur (bs : List Byte) (s : State) : (s.delivered bs).cur = s.cur := rfl
@[simp] theorem delivered_acc (bs : List Byte) (s : State) : (s.delivered bs).acc = s.acc := rfl
@[simp] theorem delivered_stg (bs : List Byte) (s : State) : (s.delivered bs).stg = s.stg := rfl
@[simp] theorem delivered_src (bs : List Byte) (s : State) : (s.delivered bs).src = s.src := rfl
@[simp] theorem delivered_pending (bs : List Byte) (s : State) : (s.delivered bs).pending = s.pending := rfl
@[simp] theorem delivered_cancelReq (bs : List Byte) (s : State) : (s.delivered bs).cancelReq = s.cancelReq := rfl
@[simp] theorem delivered_sinkStream (bs : List Byte) (s : State) : (s.delivered bs).sinkStream = s.sinkStream ++ bs := rfl
@[simp] theorem delivered_history (bs : List Byte) (s : State) : (s.delivered bs).history = s.history := rfl
@[simp] theorem delivered_inputs (bs : List Byte) (s : State) : (s.delivered bs).inputs = s.inputs := rfl
@[simp] theorem delivered_poolAnswers (bs : List Byte) (s : State) : (s.delivered bs).poolAnswers = s.poolAnswers := rfl
@[simp] theorem delivered_sinkAnswers (bs : List Byte) (s : State) : (s.delivered bs).sinkAnswers = s.sinkAnswers := rfl
@[simp] theorem delivered_compressorReady (bs : List Byte) (s : State) : (s.delivered bs).compressorReady = s.compressorReady := rfl
@[simp] theorem delivered_checksumReady (bs : List Byte) (s : State) : (s.delivered bs).checksumReady = s.checksumReady := rfl
@[simp] theorem delivered_eager (bs : List Byte) (s : State) : (s.delivered bs).eager = s.eager := rfl
@[simp] theorem delivered_draws (bs : List Byte) (s : State) : (s.delivered bs).draws = s.draws := rfl
@[simp] theorem delivered_readData (bs : List Byte) (s : State) : (s.delivered bs).readData = s.readData := rfl

@[simp] theorem keptByFailingSink_params (bs : List Byte) (k : Nat) (s : State) : (s.keptByFailingSink bs k).params = s.params := rfl
@[simp] theorem keptByFailingSink_alloc (bs : List Byte) (k : Nat) (s : State) : (s.keptByFailingSink bs k).alloc = s.alloc := rfl
@[simp] theorem keptByFailingSink_hdrWritten (bs : List Byte) (k : Nat) (s : State) : (s.keptByFailingSink bs k).hdrWritten = s.hdrWritten := rfl
@[simp] theorem keptByFailingSink_disposed (bs : List Byte) (k : Nat) (s : State) : (s.keptByFailingSink bs k).disposed = s.disposed := rfl
@[simp] theorem keptByFailingSink_poisoned (bs : List Byte) (k : Nat) (s : State) : (s.keptByFailingSink bs k).poisoned = s.poisoned := rfl
@[simp] theorem keptByFailingSink_busy (bs : List Byte) (k : Nat) (s : State) : (s.keptByFailingSink bs k).busy = s.busy := rfl
@[simp] theorem keptByFailingSink_err (bs : List Byte) (k : Nat) (s : State) : (s.keptByFailingSink bs k).err = s.err := rfl
@[simp] theorem keptByFailingSink_fsm (bs : List Byte) (k : Nat) (s : State) : (s.keptByFailingSink bs k).fsm = s.fsm := rfl
@[simp] theorem keptByFailingSink_accLen (bs : List Byte) (k : Nat) (s : State) : (s.keptByFailingSink bs k).accLen = s.accLen := rfl
@[simp] theorem keptByFailingSink_stageLen (bs : List Byte) (k : Nat) (s : State) : (s.keptByFailingSink bs k).stageLen = s.stageLen := rfl
@[simp] theorem keptByFailingSink_srcLen (bs : List Byte) (k : Nat) (s : State) : (s.keptByFailingSink bs k).srcLen = s.srcLen := rfl
@[simp] theorem keptByFailingSink_consumed (bs : List Byte) (k : Nat) (s : State) : (s.keptByFailingSink bs k).consumed = s.consumed := rfl
@[simp] theorem keptByFailingSink_chunks (bs : List Byte) (k : Nat) (s : State) : (s.keptByFailingSink bs k).chunks = s.chunks := rfl
@[simp] theorem keptByFailingSink_cur (bs : List Byte) (k : Nat) (s : State) : (s.keptByFailingSink bs k).cur = s.cur := rfl
@[simp] theorem keptByFailingSink_acc (bs : List Byte) (k : Nat) (s : State) : (s.keptByFailingSink bs k).acc = s.acc := rfl
@[simp] theorem keptByFailingSink_stg (bs : List Byte) (k : Nat) (s : State) : (s.keptByFailingSink bs k).stg = s.stg := rfl
@[simp] theorem keptByFailingSink_src (bs : List Byte) (k : Nat) (s : State) : (s.keptByFailingSink bs k).src = s.src := rfl
@[simp] theorem keptByFailingSink_pending (bs : List Byte) (k : Nat) (s : State) : (s.keptByFailingSink bs k).pending = s.pending := rfl
@[simp] theorem keptByFailingSink_cancelReq (bs : List Byte) (k : Nat) (s : State) : (s.keptByFailingSink bs k).cancelReq = s.cancelReq := rfl
@[simp] theorem keptByFailingSink_sinkStream (bs : List Byte) (k : Nat) (s : State) : (s.keptByFailingSink bs k).sinkStream = s.sinkStream ++ bs.take k := rfl
@[simp] theorem keptByFailingSink_history (bs : List Byte) (k : Nat) (s : State) : (s.keptByFailingSink bs k).history = s.history := rfl
@[simp] theorem keptByFailingSink_inputs (bs : List Byte) (k : Nat) (s : State) : (s.keptByFailingSink bs k).inputs = s.inputs := rfl
@[simp] theorem keptByFailingSink_poolAnswers (bs : List Byte) (k : Nat) (s : State) : (s.keptByFailingSink bs k).poolAnswers = s.poolAnswers := rfl
@[simp] theorem keptByFailingSink_sinkAnswers (bs : List Byte) (k : Nat) (s : State) : (s.keptByFailingSink bs k).sinkAnswers = s.sinkAnswers := rfl
@[simp] theorem keptByFailingSink_compressorReady (bs : List Byte) (k : Nat) (s : State) : (s.keptByFailingSink bs k).compressorReady = s.compressorReady := rfl
@[simp] theorem keptByFailingSink_checksumReady (bs : List Byte) (k : Nat) (s : State) : (s.keptByFailingSink bs k).checksumReady = s.checksumReady := rfl
@[simp] theorem keptByFailingSink_eager (bs : List Byte) (k : Nat) (s : State) : (s.keptByFailingSink bs k).eager = s.eager := rfl
@[simp] theorem keptByFailingSink_draws (bs : List Byte) (k : Nat) (s : State) : (s.keptByFailingSink bs k).draws = s.draws := rfl
@[simp] theorem keptByFailingSink_readData (bs : List Byte) (k : Nat) (s : State) : (s.keptByFailingSink bs k).readData = s.readData := rfl

end Sys2Proof.Machine.State
end

