-- ==== Sys2Proof/Laws/Invariant.lean ====
section
/-! SUPPORT. The invariant of Safety.lean under each step of the sequencer and each ending of a command: what the
provers cite instead of unfolding the step functions. -/

namespace Sys2Proof.Machine

open State

/-! ### Small facts -/

theorem stageSize_eq (p : Params) : p.stageSize = 18 + p.maxComp.bound p.block := by
  simp [Params.stageSize, preLen, hdrLen]

theorem paramsWf_block {p : Params} (h : p.wf = true) : 0 < p.block := by
  simp only [Params.wf, Bool.and_eq_true, decide_eq_true_eq] at h; exact h.1.1.1

theorem paramsWf_preamble {p : Params} (h : p.wf = true) : p.preamble.length = 10 := by
  simp only [Params.wf, Bool.and_eq_true, decide_eq_true_eq] at h; exact h.1.1.2

theorem paramsWf_monotone {p : Params} (h : p.wf = true) : p.maxComp.monotoneUpTo p.block = true := by
  simp only [Params.wf, Bool.and_eq_true] at h; exact h.1.2

theorem paramsWf_bound {p : Params} (h : p.wf = true) : p.maxComp.bound p.block + 4 < 2 ^ 24 := by
  simp only [Params.wf, Bool.and_eq_true, decide_eq_true_eq] at h; exact h.2

/-- The bound is monotone up to the block size (00_scope.md R7). -/
theorem bound_mono {m : MaxComp} {b i j : Nat} (h : m.monotoneUpTo b = true) (hij : i ≤ j) (hj : j ≤ b) :
    m.bound i ≤ m.bound j := by
  cases m with
  | linear => simp only [MaxComp.bound]; omega
  | table l =>
    simp only [MaxComp.monotoneUpTo, decide_eq_true_eq] at h
    simp only [MaxComp.bound]
    rcases Nat.lt_or_ge j l.length with hjl | hjl
    · rcases Nat.lt_or_ge i j with hlt | hge
      · have := List.pairwise_iff_getElem.1 h i j (by simp; omega) (by simp; omega) hlt
        rw [List.getD_eq_getElem _ _ (by omega), List.getD_eq_getElem _ _ hjl]
        simpa using this
      · have : i = j := by omega
        subst this; exact Nat.le_refl _
    · rw [List.getD_eq_default _ _ hjl]
      rcases Nat.lt_or_ge i l.length with hil | hil
      · rw [List.getD_eq_getElem _ _ hil]
        have hne : l ≠ [] := by rintro rfl; simp at hil
        rw [List.getLastD_eq_getLast?, List.getLast?_eq_getElem?, List.getElem?_eq_getElem (by omega)]
        show l[i] ≤ l[l.length - 1]
        rcases Nat.lt_or_ge i (l.length - 1) with hlt | hge
        · have := List.pairwise_iff_getElem.1 h i (l.length - 1) (by simp; omega) (by simp; omega) hlt
          simpa using this
        · have : i = l.length - 1 := by omega
          simp [this]
      · rw [List.getD_eq_default _ _ hil]

theorem preambleDue_le (s : State) : s.preambleDue ≤ 10 := by
  unfold preambleDue preLen; split <;> omega

theorem preambleDue_of_ne {s : State} (h : s.sinkStream ≠ []) : s.preambleDue = 0 := by
  simp [preambleDue, h]

theorem releaseSrc_src_wf {s : State} (h : s.src.mem.wf = true) : s.releaseSrc.src.mem.wf = true := by
  unfold releaseSrc; cases s.cur.op <;> simp [Buffer.fresh, h]

@[simp] theorem length_leBytes (n v : Nat) : (leBytes n v).length = n := by
  induction n generalizing v with
  | zero => rfl
  | succ n ih => simp [leBytes, ih]

/-! ### What the accesses answer -/

theorem accWrite_ok {s t : State} {a : Nat} {bs : List Byte} (h : s.accWrite a bs = .ok t) :
    t = { s with acc := s.acc.write a bs } ∧ s.alloc = true ∧ a + bs.length ≤ s.params.block := by
  unfold accWrite at h
  split at h
  · rename_i hc
    simp only [hasAddresses, Bool.and_eq_true, decide_eq_true_eq] at hc
    exact ⟨by simpa using h.symm, hc⟩
  · cases h

theorem stgWrite_ok {s t : State} {a : Nat} {bs : List Byte} (h : s.stgWrite a bs = .ok t) :
    t = { s with stg := s.stg.write a bs } ∧ s.alloc = true ∧ a + bs.length ≤ s.params.stageSize := by
  unfold stgWrite at h
  split at h
  · rename_i hc
    simp only [hasAddresses, Bool.and_eq_true, decide_eq_true_eq] at hc
    exact ⟨by simpa using h.symm, hc⟩
  · cases h

theorem accWrite_eq {s : State} {a : Nat} {bs : List Byte} (ha : s.alloc = true)
    (h : a + bs.length ≤ s.params.block) : s.accWrite a bs = .ok { s with acc := s.acc.write a bs } := by
  simp [accWrite, hasAddresses, ha, h]

theorem stgWrite_eq {s : State} {a : Nat} {bs : List Byte} (ha : s.alloc = true)
    (h : a + bs.length ≤ s.params.stageSize) : s.stgWrite a bs = .ok { s with stg := s.stg.write a bs } := by
  simp [stgWrite, hasAddresses, ha, h]

theorem memRead_ok {s : State} {sp : Space} {a n : Nat} {bs : List Byte} (h : s.memRead sp a n = .ok bs) :
    bs = (s.buffer sp).bytes a n ∧ s.hasAddresses sp a n = true := by
  unfold memRead at h
  split at h
  · rename_i hc; exact ⟨by simpa using h.symm, hc⟩
  · cases h

theorem memRead_eq {s : State} {sp : Space} {a n : Nat} (h : s.hasAddresses sp a n = true) :
    s.memRead sp a n = .ok ((s.buffer sp).bytes a n) := by
  simp [memRead, h]

/-! ### The base of the invariant -/

/-- The base reads these fields only. -/
theorem State.BaseInv.congr {s t : State} (h : s.BaseInv) (hparams : t.params = s.params) (hacc : t.acc = s.acc)
    (hstg : t.stg = s.stg) (hsrc : t.src.mem.wf = true) (herr : t.err.toNat ≤ 8) (haccLen : t.accLen = s.accLen)
    (hstageLen : t.stageLen = s.stageLen) (hhdr : t.hdrWritten = s.hdrWritten) (halloc : t.alloc = s.alloc)
    (hdisposed : t.disposed = s.disposed) (hsink : t.sinkStream = s.sinkStream) : t.BaseInv where
  paramsWf := by rw [hparams]; exact h.paramsWf
  accWf := by rw [hacc]; exact h.accWf
  stgWf := by rw [hstg]; exact h.stgWf
  srcWf := hsrc
  errCode := herr
  accRoom := by rw [hparams, haccLen]; exact h.accRoom
  stageRoom := by rw [hparams, hstageLen]; exact h.stageRoom
  unstaged := by rw [hhdr, haccLen, hstageLen, hsink]; exact h.unstaged
  unleased := by rw [hhdr, halloc, hdisposed]; exact h.unleased
  accWritten := by rw [hacc, haccLen]; exact h.accWritten
  stgWritten := by rw [hstg, hstageLen]; exact h.stgWritten

theorem State.BaseInv.raise {s : State} (h : s.BaseInv) (e : ErrorKind) : (s.raise e).BaseInv :=
  h.congr (by simp) (by simp) (by simp) (by simpa using releaseSrc_src_wf h.srcWf)
    (by cases e <;> simp [ErrorKind.code]) (by simp) (by simp) (by simp) (by simp) (by simp) (by simp)

theorem State.BaseInv.complete {s : State} (h : s.BaseInv) : s.complete.BaseInv :=
  h.congr (by simp) (by simp) (by simp) (by simpa using releaseSrc_src_wf h.srcWf)
    (by simpa using h.errCode) (by simp) (by simp) (by simp) (by simp) (by simp) (by simp)

/-! ### Endings -/

/-- A command that ends with an error leaves the invariant of an idle instance. -/
theorem State.BaseInv.raise_inv {s : State} (h : s.BaseInv) (e : ErrorKind)
    (hd : s.disposed = true → s.alloc = false ∧ s.accLen = 0 ∧ s.stageLen = 0) (hl : s.alloc = true → s.hdrWritten = true)
    (ha : (s.poisoned || e.poisons) = false → s.accLen < s.params.block)
    (hs : (s.poisoned || e.poisons) = false → s.disposed = false → s.hdrWritten = true → s.stageLen = s.preambleDue) :
    (s.raise e).Inv := by
  refine ⟨h.raise e, ?_⟩
  have hf : (s.raise e).fsm = .idle := by simp
  rw [hf]
  exact ⟨by simp, by simp, by simpa using hd, by simpa using hl, by simpa using ha,
    by simpa [preambleDue] using hs⟩

/-- A command that completes leaves the invariant of an idle instance. -/
theorem State.BaseInv.complete_inv {s : State} (h : s.BaseInv)
    (hd : s.disposed = true → s.alloc = false ∧ s.accLen = 0 ∧ s.stageLen = 0) (hl : s.alloc = true → s.hdrWritten = true)
    (ha : s.poisoned = false → s.accLen < s.params.block)
    (hs : s.poisoned = false → s.disposed = false → s.hdrWritten = true → s.stageLen = s.preambleDue) :
    s.complete.Inv := by
  refine ⟨h.complete, ?_⟩
  have hf : s.complete.fsm = .idle := by simp
  rw [hf]
  exact ⟨by simp, by simp, by simpa using hd, by simpa using hl, by simpa using ha,
    by simpa [preambleDue] using hs⟩

/-- The fields a running command's conditions read. -/
theorem State.Running.congr {s t : State} (h : s.Running) (hb : t.busy = s.busy) (hd : t.disposed = s.disposed)
    (hp : t.poisoned = s.poisoned) (hc : t.cur = s.cur)
    (hn : t.cur.op = .write → t.consumed.toNat ≤ t.cur.len.toNat) : t.Running :=
  ⟨hb ▸ h.busy, hd ▸ h.live, hp ▸ h.sound, by rw [hc]; exact h.form, hn⟩

/-! ### ENSURE -/

theorem afterEnsure_inv {s : State} (h : s.BaseInv) (hr : s.Running) (hq : s.pending = .none) (ha : s.alloc = true)
    (hh : s.hdrWritten = true) (hacc : s.accLen < s.params.block) (hs : s.stageLen = s.preambleDue) :
    ({ s with fsm := s.afterEnsure } : State).Inv := by
  refine ⟨h.congr rfl rfl rfl h.srcWf h.errCode rfl rfl rfl rfl rfl rfl, ?_⟩
  have hr' : ({ s with fsm := s.afterEnsure } : State).Running := hr.congr rfl rfl rfl rfl hr.consumedLe
  cases hop : s.cur.op with
  | dispose => exact absurd hop hr.form
  | write =>
    have hf : s.afterEnsure = .segment := by simp [afterEnsure, hop]
    simp only [hf] at hr' ⊢
    exact ⟨⟨hr', ha, hh⟩, hq, hop, hacc, hs⟩
  | flush =>
    by_cases hl : 0 < s.accLen
    · have hf : s.afterEnsure = .emit := by simp [afterEnsure, hop, hl]
      simp only [hf] at hr' ⊢
      exact ⟨⟨hr', ha, hh⟩, .inl hq, .inl ⟨hop, hl, hacc⟩, hs⟩
    · have hf : s.afterEnsure = .drain := by simp [afterEnsure, hop, hl]
      simp only [hf] at hr' ⊢
      exact ⟨⟨hr', ha, hh⟩, .inl hq, hacc, Nat.le_of_eq hs.symm, fun hw => by simp [hop] at hw,
        fun _ => Nat.eq_zero_of_not_pos hl⟩

theorem stagePreamble_ok {s t : State} (h : s.stagePreamble = .ok t) :
    t = { s with stg := s.stg.write 0 s.params.preamble, stageLen := preLen, hdrWritten := true, fsm := s.afterEnsure }
      ∧ s.alloc = true := by
  unfold stagePreamble at h
  cases hw : s.stgWrite 0 s.params.preamble with
  | error f => simp [hw, bind, Except.bind] at h
  | ok u =>
    obtain ⟨rfl, ha, -⟩ := stgWrite_ok hw
    simp only [hw, bind, Except.bind, pure, Except.pure, Except.ok.injEq] at h
    exact ⟨h.symm, ha⟩

theorem ensureStep_inv {s t : State} (h : s.BaseInv) (he : s.EnsureInv) (hq : s.pending = .none)
    (hf : s.fsm = .ensure) (ht : ensureStep s = .moved t) : t.Inv := by
  unfold ensureStep at ht
  split at ht
  · rename_i ha
    split at ht
    · rename_i hh
      simp only [Progress.moved.injEq] at ht
      subst ht
      exact afterEnsure_inv h he.run hq ha hh he.accPart (he.stageBase hh)
    · rename_i hh
      simp only [Bool.not_eq_true] at hh
      obtain ⟨hacc0, hst0, hsink⟩ := h.unstaged hh
      cases hw : s.stagePreamble with
      | error f => simp [hw, Progress.of] at ht
      | ok u =>
        simp only [hw, Progress.of, Progress.moved.injEq] at ht
        subst ht
        obtain ⟨rfl, -⟩ := stagePreamble_ok hw
        have hpl := paramsWf_preamble h.paramsWf
        let u : State := { s with stg := s.stg.write 0 s.params.preamble, stageLen := preLen, hdrWritten := true }
        have hb : u.BaseInv :=
          { paramsWf := h.paramsWf
            accWf := h.accWf
            stgWf := Memory.wf_write h.stgWf _ _
            srcWf := h.srcWf
            errCode := h.errCode
            accRoom := h.accRoom
            stageRoom := by show (10 : Nat) ≤ s.params.stageSize; rw [stageSize_eq]; omega
            unstaged := fun hc => by cases hc
            unleased := fun hc => by rw [show u.alloc = s.alloc from rfl, ha] at hc; cases hc
            accWritten := h.accWritten
            stgWritten := fun a hlt => by
              show ((s.stg.mem.write 0 s.params.preamble).read a).isSome
              have hlt : a < 10 := hlt
              rw [Memory.read_write, if_pos (by omega), List.getElem?_eq_getElem (by omega)]
              rfl }
        have := afterEnsure_inv (s := u) hb (he.run.congr rfl rfl rfl rfl he.run.consumedLe) hq ha rfl he.accPart
          (by show (10 : Nat) = u.preambleDue; simp [preambleDue, u, hsink, preLen])
        exact this
  · rename_i ha
    simp only [Bool.not_eq_true] at ha
    simp only [Progress.moved.injEq] at ht
    subst ht
    refine ⟨h.congr rfl rfl rfl h.srcWf h.errCode rfl rfl rfl rfl rfl rfl, ?_⟩
    have : (s.request .pool (.poolAcquire s.params.block s.params.stageSize)).fsm = .ensure := by simp [hf]
    rw [this]
    exact ⟨he.run.congr rfl rfl rfl rfl he.run.consumedLe, .inr ⟨rfl, ha⟩, he.accPart, he.stageBase⟩

/-- The state in which the pool has granted the lease. -/
def State.granted (s : State) (rest : List PoolAnswer) : State :=
  { s with
    poolAnswers := rest
    history := s.history ++ [.poolAnswer .granted]
    pending := .none
    acc := .fresh s.draws
    stg := .fresh (s.draws + 1)
    draws := s.draws + 2
    alloc := true }

theorem poolStep_inv {s t : State} (h : s.BaseInv) (he : s.EnsureInv) (ha : s.alloc = false) (hf : s.fsm = .ensure)
    (ht : poolStep s = .moved t) : t.Inv := by
  have hh := h.unleased ha he.run.live
  obtain ⟨hacc0, hst0, hsink⟩ := h.unstaged hh
  unfold poolStep at ht
  split at ht
  · cases ht
  · rename_i rest _
    have ht : t = s.granted rest := (Progress.moved.inj ht).symm
    subst ht
    refine ⟨?_, ?_⟩
    · exact
        { paramsWf := h.paramsWf
          accWf := Memory.wf_empty
          stgWf := Memory.wf_empty
          srcWf := h.srcWf
          errCode := h.errCode
          accRoom := h.accRoom
          stageRoom := h.stageRoom
          unstaged := h.unstaged
          unleased := fun hc => by cases hc
          accWritten := fun a hlt => by rw [show (s.granted rest).accLen = 0 from hacc0] at hlt; omega
          stgWritten := fun a hlt => by rw [show (s.granted rest).stageLen = 0 from hst0] at hlt; omega }
    · rw [show (s.granted rest).fsm = .ensure from hf]
      exact ⟨he.run.congr rfl rfl rfl rfl he.run.consumedLe, .inl rfl, he.accPart, he.stageBase⟩
  · rename_i rest _
    simp only [Progress.moved.injEq] at ht
    subst ht
    have hb : ({ s with poolAnswers := rest }.answered (.poolAnswer .refused)).BaseInv :=
      h.congr rfl rfl rfl h.srcWf h.errCode rfl rfl rfl rfl rfl rfl
    apply hb.raise_inv
    · intro hc; rw [show (({ s with poolAnswers := rest } : State).answered (.poolAnswer .refused)).disposed = false
        from he.run.live] at hc; cases hc
    · intro hc; rw [show (({ s with poolAnswers := rest } : State).answered (.poolAnswer .refused)).alloc = false
        from ha] at hc; cases hc
    · simp [ErrorKind.poisons]
    · simp [ErrorKind.poisons]

/-! ### SEGMENT -/

theorem copyLen_le (s : State) : s.copyLen ≤ s.remaining ∧ s.copyLen ≤ s.params.block - s.accLen := by
  simp only [copyLen]; omega

theorem consumed_add {s : State} {k : Nat} (h : s.consumed.toNat + k ≤ s.cur.len.toNat) :
    (s.consumed + BitVec.ofNat 32 k).toNat = s.consumed.toNat + k := by
  have := s.cur.len.isLt
  rw [BitVec.toNat_add, BitVec.toNat_ofNat, Nat.mod_eq_of_lt (a := k) (by omega), Nat.mod_eq_of_lt (by omega)]

theorem copyToAcc_ok {s t : State} (h : s.copyToAcc = .ok t) :
    t = { s with
      acc := s.acc.write s.accLen (s.src.bytes s.consumed.toNat s.copyLen)
      accLen := s.accLen + s.copyLen
      consumed := s.consumed + BitVec.ofNat 32 s.copyLen
      fsm := if s.accLen + s.copyLen = s.params.block then .emit else .segment } := by
  unfold copyToAcc at h
  cases hm : s.memRead .src s.consumed.toNat s.copyLen with
  | error f => simp [hm, bind, Except.bind] at h
  | ok bs =>
    obtain ⟨rfl, -⟩ := memRead_ok hm
    cases hw : s.accWrite s.accLen (s.src.bytes s.consumed.toNat s.copyLen) with
    | error f => simp [hm, hw, buffer, bind, Except.bind] at h
    | ok u =>
      obtain ⟨rfl, -⟩ := accWrite_ok hw
      simp only [hm, hw, buffer, bind, Except.bind, pure, Except.pure, Except.ok.injEq] at h
      exact h.symm

theorem segmentStep_inv {s t : State} (h : s.BaseInv) (he : s.SegmentInv) (ht : segmentStep s = .moved t) : t.Inv := by
  have hr := he.lease.run
  unfold segmentStep at ht
  split at ht
  · rename_i hlt
    split at ht
    · rename_i hfast
      simp only [Progress.moved.injEq] at ht
      subst ht
      refine ⟨h.congr rfl rfl rfl h.srcWf h.errCode rfl rfl rfl rfl rfl rfl, ?_⟩
      exact ⟨⟨hr.congr rfl rfl rfl rfl hr.consumedLe, he.lease.leased, he.lease.hdr⟩, .inl he.quiet,
        .inr (.inr ⟨he.writes, hfast⟩), he.stageBase⟩
    · cases hw : s.copyToAcc with
      | error f => simp [hw, Progress.of] at ht
      | ok u =>
        simp only [hw, Progress.of, Progress.moved.injEq] at ht
        subst ht
        obtain rfl := copyToAcc_ok hw
        obtain ⟨hk1, hk2⟩ := copyLen_le s
        have hrem : s.remaining = s.cur.len.toNat - s.consumed.toNat := rfl
        have hacc := he.accPart
        have hcons := consumed_add (s := s) (k := s.copyLen) (by omega)
        refine ⟨?_, ?_⟩
        · exact
            { paramsWf := h.paramsWf
              accWf := Memory.wf_write h.accWf _ _
              stgWf := h.stgWf
              srcWf := h.srcWf
              errCode := h.errCode
              accRoom := by show s.accLen + s.copyLen ≤ s.params.block; omega
              stageRoom := h.stageRoom
              unstaged := fun hc => by
                rw [show s.hdrWritten = true from he.lease.hdr] at hc; cases hc
              unleased := fun hc => by rw [show s.alloc = true from he.lease.leased] at hc; cases hc
              accWritten := fun a hlt' => by
                show ((s.acc.mem.write s.accLen _).read a).isSome
                have hlt' : a < s.accLen + s.copyLen := hlt'
                rw [Memory.read_write]
                split
                · rw [List.getElem?_eq_getElem (by simp; omega)]; rfl
                · rename_i hn
                  simp only [Buffer.length_bytes] at hn
                  exact h.accWritten a (by omega)
              stgWritten := h.stgWritten }
        · have hrun : ∀ u : State, u.busy = s.busy → u.disposed = s.disposed → u.poisoned = s.poisoned → u.cur = s.cur →
              u.consumed = s.consumed + BitVec.ofNat 32 s.copyLen → u.Running := fun u h1 h2 h3 h4 h5 =>
            hr.congr h1 h2 h3 h4 (fun _ => by rw [h5, hcons, h4]; omega)
          by_cases hfull : s.accLen + s.copyLen = s.params.block
          · simp only [hfull, ↓reduceIte]
            exact ⟨⟨hrun _ rfl rfl rfl rfl rfl, he.lease.leased, he.lease.hdr⟩, .inl he.quiet, .inr (.inl ⟨he.writes, rfl⟩),
              he.stageBase⟩
          · simp only [hfull, ↓reduceIte]
            exact ⟨⟨hrun _ rfl rfl rfl rfl rfl, he.lease.leased, he.lease.hdr⟩, he.quiet, he.writes,
              (by show s.accLen + s.copyLen < s.params.block; omega), he.stageBase⟩
  · simp only [Progress.moved.injEq] at ht
    subst ht
    exact h.complete_inv (fun hc => by rw [hr.live] at hc; cases hc) (fun _ => he.lease.hdr) (fun _ => he.accPart)
      (fun _ _ _ => he.stageBase)

/-! ### EMIT -/

theorem emitStep_inv {s t : State} (h : s.BaseInv) (he : s.EmitInv) (hf : s.fsm = .emit)
    (ht : emitStep s = .moved t) : t.Inv := by
  simp only [emitStep, Progress.moved.injEq] at ht
  subst ht
  refine ⟨h.congr rfl rfl rfl h.srcWf h.errCode rfl rfl rfl rfl rfl rfl, ?_⟩
  simp only [request_fsm, hf]
  exact ⟨⟨he.lease.run.congr rfl rfl rfl rfl he.lease.run.consumedLe, he.lease.leased, he.lease.hdr⟩,
    .inr (.inl rfl), he.block, he.stageBase⟩

theorem blockLen_bounds {s : State} (hb : s.BlockReady) (hB : 0 < s.params.block) :
    1 ≤ s.blockLen ∧ s.blockLen ≤ s.params.block := by
  rcases hb with ⟨h1, h2, h3⟩ | ⟨h1, h2⟩ | ⟨h1, h2, h3⟩
  · simp only [blockLen, blockSpace, h1]; omega
  · have hne : s.accLen ≠ 0 := by omega
    simp only [blockLen, blockSpace, h1, hne, ↓reduceIte]; omega
  · simp only [blockLen, blockSpace, h1, h2, ↓reduceIte]; omega

theorem block_exists {s : State} (hb : s.BlockReady) (ha : s.alloc = true) (hB : 0 < s.params.block)
    (hc : s.cur.op = .write → s.consumed.toNat ≤ s.cur.len.toNat) : s.block = .ok s.blockBytes := by
  apply memRead_eq
  rcases hb with ⟨h1, h2, h3⟩ | ⟨h1, h2⟩ | ⟨h1, h2, h3⟩
  · simp only [blockLen, blockStart, blockSpace, h1, hasAddresses, ha]; simp; omega
  · have hne : s.accLen ≠ 0 := by omega
    simp only [blockLen, blockStart, blockSpace, h1, hne, hasAddresses, ha, ↓reduceIte]; simp [h2]
  · simp only [blockLen, blockStart, blockSpace, h1, h2, hasAddresses, ↓reduceIte]
    simp only [remaining] at h3
    have := hc h1
    simp; omega

@[simp] theorem length_blockBytes (s : State) : s.blockBytes.length = s.blockLen := by simp [blockBytes]

/-- The staging buffer with type, length and payload of a chunk at `stage_len`. -/
def State.stgPacked (s : State) (payload : List Byte) : Buffer :=
  ((s.stg.write (s.stageLen + 8) payload).write s.stageLen [s.params.ctype]).write (s.stageLen + 1)
    (leBytes 4 (payload.length + 4))

theorem packPayload_ok {s t : State} {payload : List Byte} (h : s.packPayload payload = .ok t) :
    t = { s with
      stg := s.stgPacked payload
      history := s.history ++ [.crcReq s.blockSpace s.blockLen]
      pending := .checksum payload.length } := by
  unfold packPayload at h
  cases h1 : s.stgWrite (s.stageLen + 8) payload with
  | error f => simp [h1, bind, Except.bind] at h
  | ok u =>
    obtain ⟨rfl, -⟩ := stgWrite_ok h1
    simp only [h1, bind, Except.bind] at h
    split at h
    · cases h
    · rename_i v hv
      obtain ⟨rfl, -⟩ := stgWrite_ok hv
      split at h
      · cases h
      · rename_i w hw
        obtain ⟨rfl, -⟩ := stgWrite_ok hw
        simp only [pure, Except.pure, Except.ok.injEq] at h
        exact h.symm

/-- Scribbling at and above `a` keeps the base when nothing staged lies there. -/
theorem State.BaseInv.scribble {s : State} (h : s.BaseInv) {a : Nat} (ha : s.stageLen ≤ a) : (s.stgScribble a).BaseInv :=
  { h with
    stgWf := Memory.wf_erase h.stgWf _ _
    stgWritten := fun x hx => by
      show ((s.stg.scribble a s.params.stageSize s.draws).mem.read x).isSome
      have hx : x < s.stageLen := hx
      rw [Buffer.read_scribble_outside (by omega)]
      exact h.stgWritten x hx }

theorem compressAnswered_inv {s t : State} (h : s.BaseInv) (he : s.EmitInv) (hf : s.fsm = .emit)
    (ht : compressAnswered s.blockBytes s = .moved t) : t.Inv := by
  have hr := he.lease.run
  have hlog : ∀ e, (s.answered e).BaseInv := fun e => h.congr rfl rfl rfl h.srcWf h.errCode rfl rfl rfl rfl rfl rfl
  have hfail : ∀ e, (((s.answered e).stgScribble (s.stageLen + 8)).raise .compress).Inv := fun e =>
    ((hlog e).scribble (by simp)).raise_inv _ (fun hc => by simp [hr.live] at hc) (fun _ => by simpa using he.lease.hdr)
      (by simp [ErrorKind.poisons]) (by simp [ErrorKind.poisons])
  unfold compressAnswered at ht
  split at ht
  · simp only [Progress.moved.injEq] at ht
    subst ht
    exact hfail _
  · rename_i payload hpay
    split at ht
    · simp only [Progress.moved.injEq] at ht
      subst ht
      exact hfail _
    · rename_i hle
      generalize hu : (s.answered (.compressAnswer (some payload.length))).stgScribble (s.stageLen + 8) = u at ht
      have hbu : u.BaseInv := by rw [← hu]; exact (hlog _).scribble (by simp)
      cases hw : u.packPayload payload with
      | error f => simp [hw, Progress.of] at ht
      | ok v =>
        simp only [hw, Progress.of, Progress.moved.injEq] at ht
        subst ht
        obtain rfl := packPayload_ok hw
        have hsl : u.stageLen = s.stageLen := by rw [← hu]; rfl
        have hread : ∀ x, (x < u.stageLen ∨ (u.stageLen ≤ x ∧ x < u.stageLen + 5) ∨
            (u.stageLen + 8 ≤ x ∧ x < u.stageLen + 8 + payload.length)) →
            ((u.stgPacked payload).mem.read x).isSome := by
          intro x hx
          simp only [stgPacked, Buffer.write, Memory.read_write, length_leBytes, List.length_singleton]
          split
          · rw [List.getElem?_eq_getElem (by simp; omega)]; rfl
          · split
            · rw [List.getElem?_eq_getElem (by simp; omega)]; rfl
            · split
              · rw [List.getElem?_eq_getElem (by omega)]; rfl
              · exact hbu.stgWritten x (by omega)
        have hbl := blockLen_bounds he.block (paramsWf_block h.paramsWf)
        have hB : payload.length ≤ s.params.maxComp.bound s.params.block := by
          have := bound_mono (paramsWf_monotone h.paramsWf) hbl.2 (Nat.le_refl _)
          simp only [length_blockBytes] at hle
          omega
        refine ⟨?_, ?_⟩
        · exact
            { paramsWf := hbu.paramsWf
              accWf := hbu.accWf
              stgWf := Memory.wf_write (Memory.wf_write (Memory.wf_write hbu.stgWf _ _) _ _) _ _
              srcWf := hbu.srcWf
              errCode := hbu.errCode
              accRoom := hbu.accRoom
              stageRoom := hbu.stageRoom
              unstaged := hbu.unstaged
              unleased := hbu.unleased
              accWritten := hbu.accWritten
              stgWritten := fun x hx => hread x (.inl hx) }
        · subst hu
          simp only [stgScribble_fsm, answered_fsm, hf]
          refine ⟨⟨hr.congr rfl rfl rfl rfl hr.consumedLe, he.lease.leased, he.lease.hdr⟩,
            .inr (.inr ⟨payload.length, rfl, hB, fun x hx => hread x (.inr hx)⟩), he.block, he.stageBase⟩

/-- The state in which a chunk has just been finished. -/
def State.stgChecksummed (s : State) (cl : Nat) (crc : Word) : State :=
  { s with
    stg := s.stg.write (s.stageLen + 4) (leBytes 4 crc.toNat)
    history := s.history ++ [.crcAnswer crc]
    pending := .none
    stageLen := s.stageLen + 8 + cl
    chunks := s.chunks + 1#32 }

theorem packChecksum_ok {s t : State} {cl : Nat} {crc : Word} (h : s.packChecksum cl crc = .ok t) :
    t = (s.stgChecksummed cl crc).blockTaken := by
  unfold packChecksum at h
  cases h1 : (s.answered (.crcAnswer crc)).stgWrite (s.stageLen + 4) (leBytes 4 crc.toNat) with
  | error f => simp [h1, bind, Except.bind] at h
  | ok u =>
    obtain ⟨rfl, -⟩ := stgWrite_ok h1
    simp only [h1, bind, Except.bind, pure, Except.pure, Except.ok.injEq] at h
    exact h.symm

/-- The state EMIT leaves before the block is taken. -/
theorem packChecksum_inv {s t : State} {cl : Nat} {crc : Word} (h : s.BaseInv) (he : s.EmitInv)
    (hc : s.HeaderWritten cl) (hp : s.packChecksum cl crc = .ok t) : t.Inv := by
  have hr := he.lease.run
  obtain rfl := packChecksum_ok hp
  obtain ⟨hcl, hw⟩ := hc
  have hdue := preambleDue_le s
  have hst := he.stageBase
  have hread : ∀ x, x < s.stageLen + 8 + cl →
      ((s.stg.write (s.stageLen + 4) (leBytes 4 crc.toNat)).mem.read x).isSome := by
    intro x hx
    simp only [Buffer.write, Memory.read_write, length_leBytes]
    split
    · rw [List.getElem?_eq_getElem (by simp; omega)]; rfl
    · by_cases hx' : x < s.stageLen
      · exact h.stgWritten x hx'
      · exact hw x (by omega)
  have hstage : s.stageLen + 8 + cl ≤ s.params.stageSize := by rw [stageSize_eq]; omega
  generalize hu : s.stgChecksummed cl crc = u
  have hB := paramsWf_block h.paramsWf
  have hub : u.BaseInv := by
    subst hu
    exact
      { paramsWf := h.paramsWf
        accWf := h.accWf
        stgWf := Memory.wf_write h.stgWf _ _
        srcWf := h.srcWf
        errCode := h.errCode
        accRoom := h.accRoom
        stageRoom := hstage
        unstaged := fun hc => by rw [show (s.stgChecksummed cl crc).hdrWritten = true from he.lease.hdr] at hc; cases hc
        unleased := fun hc => by rw [show (s.stgChecksummed cl crc).alloc = true from he.lease.leased] at hc; cases hc
        accWritten := h.accWritten
        stgWritten := hread }
  have hur : u.Running := by subst hu; exact hr.congr rfl rfl rfl rfl hr.consumedLe
  have hua : u.alloc = true := by subst hu; exact he.lease.leased
  have huh : u.hdrWritten = true := by subst hu; exact he.lease.hdr
  have hup : u.pending = .none := by subst hu; rfl
  have hud : u.preambleDue + 8 ≤ u.stageLen := by
    subst hu
    show s.preambleDue + 8 ≤ s.stageLen + 8 + cl
    omega
  have hublk : u.BlockReady := by subst hu; exact he.block
  have htaken : ({ u with accLen := 0, fsm := .drain } : State).Inv := by
    refine ⟨{ hub with
        accRoom := Nat.zero_le _
        unstaged := fun hc => by rw [show u.hdrWritten = true from huh] at hc; cases hc
        accWritten := fun a ha => absurd ha (Nat.not_lt_zero _) }, ?_⟩
    exact ⟨⟨hur.congr rfl rfl rfl rfl hur.consumedLe, hua, huh⟩, .inl hup, by
        show 0 < u.params.block
        subst hu; exact hB, by show u.preambleDue ≤ u.stageLen; omega, fun _ => hud, fun _ => rfl⟩
  rcases hublk with ⟨h1, h2, h3⟩ | ⟨h1, h2⟩ | ⟨h1, h2, h3⟩
  · have : u.blockTaken = { u with accLen := 0, fsm := .drain } := by simp [blockTaken, blockSpace, h1]
    rw [this]; exact htaken
  · have hne : u.accLen ≠ 0 := by
      have := paramsWf_block hub.paramsWf; omega
    have : u.blockTaken = { u with accLen := 0, fsm := .drain } := by simp [blockTaken, blockSpace, h1, hne]
    rw [this]; exact htaken
  · have : u.blockTaken = { u with consumed := u.consumed + BitVec.ofNat 32 u.params.block, fsm := .drain } := by
      simp [blockTaken, blockSpace, h1, h2]
    rw [this]
    refine ⟨hub.congr rfl rfl rfl hub.srcWf hub.errCode rfl rfl rfl rfl rfl rfl, ?_⟩
    have hle := hur.consumedLe h1
    simp only [remaining] at h3
    have hcons := consumed_add (s := u) (k := u.params.block) (by omega)
    exact ⟨⟨hur.congr rfl rfl rfl rfl (fun _ => by
        show (u.consumed + BitVec.ofNat 32 u.params.block).toNat ≤ u.cur.len.toNat
        omega), hua, huh⟩, .inl hup, by
        show u.accLen < u.params.block
        rw [h2]; exact paramsWf_block hub.paramsWf,
      by show u.preambleDue ≤ u.stageLen; omega, fun _ => hud, fun _ => h2⟩

/-! ### DRAIN -/

theorem afterDrain_inv {s : State} (h : s.BaseInv) (hl : s.Leased) (hq : s.pending = .none) (hf : s.fsm = .drain)
    (ha : s.accLen < s.params.block) (hs : s.stageLen = s.preambleDue) : s.afterDrain.Inv := by
  have hr := hl.run
  have hseg : ∀ u : State, u = s ∨ u = s.log (.cancelSampled s.cancelReq) → s.cur.op = .write →
      ({ u with fsm := .segment } : State).Inv := by
    rintro u hu hop
    have hub : u.BaseInv := by
      rcases hu with rfl | rfl
      · exact h
      · exact h.congr rfl rfl rfl h.srcWf h.errCode rfl rfl rfl rfl rfl rfl
    refine ⟨hub.congr rfl rfl rfl hub.srcWf hub.errCode rfl rfl rfl rfl rfl rfl, ?_⟩
    rcases hu with rfl | rfl
    · exact ⟨⟨hr.congr rfl rfl rfl rfl hr.consumedLe, hl.leased, hl.hdr⟩, hq, hop, ha, hs⟩
    · exact ⟨⟨hr.congr rfl rfl rfl rfl hr.consumedLe, hl.leased, hl.hdr⟩, hq, hop, ha, hs⟩
  have hend : s.complete.Inv :=
    h.complete_inv (fun hc => by rw [hr.live] at hc; cases hc) (fun _ => hl.hdr) (fun _ => ha) (fun _ _ _ => hs)
  cases hop : s.cur.op with
  | dispose => exact absurd hop hr.form
  | flush => simpa only [afterDrain, hop] using hend
  | write =>
    simp only [afterDrain, hop]
    split
    · unfold checkpoint
      split
      · have hb' : (s.log (.cancelSampled s.cancelReq)).BaseInv :=
          h.congr rfl rfl rfl h.srcWf h.errCode rfl rfl rfl rfl rfl rfl
        exact hb'.raise_inv _ (fun hc => by simp [hr.live] at hc) (fun _ => hl.hdr) (fun _ => ha) (fun _ _ _ => hs)
      · exact hseg _ (.inr rfl) hop
    · exact hseg _ (.inl rfl) hop

theorem drainStep_inv {s t : State} (h : s.BaseInv) (he : s.DrainInv) (hq : s.pending = .none) (hf : s.fsm = .drain)
    (ht : drainStep s = .moved t) : t.Inv := by
  unfold drainStep at ht
  split at ht
  · rename_i h0
    simp only [Progress.moved.injEq] at ht
    subst ht
    have := he.stageBase
    exact afterDrain_inv h he.lease hq hf he.accPart (by omega)
  · rename_i h0
    split at ht
    · simp only [Progress.moved.injEq] at ht
      subst ht
      refine ⟨h.congr rfl rfl rfl h.srcWf h.errCode rfl rfl rfl rfl rfl rfl, ?_⟩
      simp only [request_fsm, hf]
      exact ⟨⟨he.lease.run.congr rfl rfl rfl rfl he.lease.run.consumedLe, he.lease.leased, he.lease.hdr⟩,
        .inr ⟨rfl, by show 0 < s.stageLen; omega⟩, he.accPart, he.stageBase, he.chunkStaged, he.flushed⟩
    · cases ht

theorem sinkStep_inv {s t : State} (h : s.BaseInv) (he : s.DrainInv) (h0 : 0 < s.stageLen) (hf : s.fsm = .drain)
    (ht : sinkStep s = .moved t) : t.Inv := by
  have hr := he.lease.run
  unfold sinkStep at ht
  split at ht
  · cases ht
  · rename_i a rest _
    split at ht
    · rename_i bytes hm
      simp only [Progress.moved.injEq] at ht
      subst ht
      obtain ⟨rfl, -⟩ := memRead_ok hm
      have hhdr : ∀ u : State, u.hdrWritten = s.hdrWritten → u.hdrWritten = false → False := fun u h1 h2 => by
        rw [h1, he.lease.hdr] at h2; cases h2
      cases a with
      | ok =>
        simp only [sinkAnswered]
        have hne : s.sinkStream ++ s.stg.bytes 0 s.stageLen ≠ [] := by
          intro hc
          have := congrArg List.length hc
          simp at this; omega
        apply afterDrain_inv
        · exact
            { paramsWf := h.paramsWf
              accWf := h.accWf
              stgWf := h.stgWf
              srcWf := h.srcWf
              errCode := h.errCode
              accRoom := h.accRoom
              stageRoom := Nat.zero_le _
              unstaged := fun hc => (hhdr _ rfl hc).elim
              unleased := h.unleased
              accWritten := h.accWritten
              stgWritten := fun x hx => absurd hx (Nat.not_lt_zero _) }
        · exact ⟨hr.congr rfl rfl rfl rfl hr.consumedLe, he.lease.leased, he.lease.hdr⟩
        · rfl
        · simpa using hf
        · exact he.accPart
        · rw [preambleDue_of_ne (by simpa [buffer] using hne)]; rfl
      | err kept =>
        simp only [sinkAnswered]
        have hb : (({ s with sinkAnswers := rest }.answered (.sinkAnswer false)).keptByFailingSink
            ((s.buffer .stg).bytes 0 s.stageLen) kept).BaseInv :=
          { paramsWf := h.paramsWf
            accWf := h.accWf
            stgWf := h.stgWf
            srcWf := h.srcWf
            errCode := h.errCode
            accRoom := h.accRoom
            stageRoom := h.stageRoom
            unstaged := fun hc => (hhdr _ rfl hc).elim
            unleased := h.unleased
            accWritten := h.accWritten
            stgWritten := h.stgWritten }
        exact hb.raise_inv _ (fun hc => by simp [hr.live] at hc) (fun _ => he.lease.hdr)
          (by simp [ErrorKind.poisons]) (by simp [ErrorKind.poisons])
    · cases ht

/-! ### One step of the sequencer -/

theorem compressorStep_inv {s t : State} (h : s.BaseInv) (he : s.EmitInv) (hf : s.fsm = .emit)
    (ht : compressorStep s = .moved t) : t.Inv := by
  unfold compressorStep at ht
  rw [block_exists he.block he.lease.leased (paramsWf_block h.paramsWf) he.lease.run.consumedLe] at ht
  split at ht
  · exact compressAnswered_inv h he hf ht
  · cases ht

theorem checksumStep_inv {s t : State} {cl : Nat} (h : s.BaseInv) (he : s.EmitInv) (hc : s.HeaderWritten cl)
    (ht : checksumStep cl s = .moved t) : t.Inv := by
  unfold checksumStep at ht
  rw [block_exists he.block he.lease.leased (paramsWf_block h.paramsWf) he.lease.run.consumedLe] at ht
  split at ht
  · cases hp : s.packChecksum cl (s.params.maskedCrc s.blockBytes) with
    | error f => simp [hp, Progress.of] at ht
    | ok u =>
      simp only [hp, Progress.of, Progress.moved.injEq] at ht
      subst ht
      exact packChecksum_inv h he hc hp
  · cases ht

/-- Every step of the sequencer keeps the invariant. -/
theorem tick_keeps_inv {s t : State} (h : s.Inv) (ht : tick s = .moved t) : t.Inv := by
  obtain ⟨hb, hp⟩ := h
  unfold tick at ht
  cases hf : s.fsm with
  | idle => simp only [hf] at ht; cases hq : s.pending <;> simp at ht
  | ensure =>
    simp only [hf] at ht hp
    rcases hp.asks with hq | ⟨hq, ha⟩
    · simp only [hq] at ht; exact ensureStep_inv hb hp hq hf ht
    · simp only [hq] at ht; exact poolStep_inv hb hp ha hf ht
  | segment =>
    simp only [hf] at ht hp
    simp only [hp.quiet] at ht
    exact segmentStep_inv hb hp ht
  | emit =>
    simp only [hf] at ht hp
    rcases hp.asks with hq | hq | ⟨cl, hq, hc⟩
    · simp only [hq] at ht; exact emitStep_inv hb hp hf ht
    · simp only [hq] at ht; exact compressorStep_inv hb hp hf ht
    · simp only [hq] at ht; exact checksumStep_inv hb hp hc ht
  | drain =>
    simp only [hf] at ht hp
    rcases hp.asks with hq | ⟨hq, h0⟩
    · simp only [hq] at ht; exact drainStep_inv hb hp hq hf ht
    · simp only [hq] at ht; exact sinkStep_inv hb hp h0 hf ht

/-- A property every step of the sequencer keeps is kept by a run. -/
theorem run_keeps {P : State → Prop} (hP : ∀ s t, P s → s.busy = true → tick s = .moved t → P t) (n : Nat) {s t : State}
    (h : P s) (ht : run n s = .next t) : P t := by
  induction n generalizing s with
  | zero => simp only [run, Host.Outcome.next.injEq] at ht; exact ht ▸ h
  | succ n ih =>
    unfold run at ht
    split at ht
    · rename_i hb
      split at ht
      · rename_i u hu; exact ih (hP s u h hb hu) ht
      · simp only [Host.Outcome.next.injEq] at ht; exact ht ▸ h
      · cases ht
    · simp only [Host.Outcome.next.injEq] at ht; exact ht ▸ h

/-- A property every step of the sequencer keeps is kept where a command goes on. -/
theorem resume_keeps {P : State → Prop} (hP : ∀ s t, P s → s.busy = true → tick s = .moved t → P t) {s t : State}
    (h : P s) (ht : resume s = .next t) : P t := by
  unfold resume at ht
  split at ht
  · exact run_keeps hP _ h ht
  · simp only [Host.Outcome.next.injEq] at ht; exact ht ▸ h

end Sys2Proof.Machine
end

