-- ==== Sys2Proof/Laws/Stream.lean ====
section
/-! SUPPORT. The invariant of the stream (Safety.lean) under each step of the sequencer: what EMIT leaves in the staging
buffer (42_chunk_emit.md R166) and what DRAIN gives to the sink (R174). -/

namespace Sys2Proof

/-- The preamble alone is a stream. -/
theorem Params.IsStream.preamble (p : Params) : p.IsStream p.preamble :=
  ⟨[], by simp, by simp [Params.wire]⟩

theorem Params.wire_append (p : Params) (cs ds : List (List Byte × List Byte)) :
    p.wire (cs ++ ds) = p.wire cs ++ p.wire ds := by
  simp [Params.wire]

/-- A stream and one more chunk is a stream. -/
theorem Params.IsStream.snoc {p : Params} {bs : List Byte} {c : List Byte × List Byte} (h : p.IsStream bs)
    (hc : p.IsChunk c) : p.IsStream (bs ++ p.chunk c.1 c.2) := by
  obtain ⟨cs, h1, rfl⟩ := h
  refine ⟨cs ++ [c], ?_, ?_⟩
  · intro d hd
    rcases List.mem_append.1 hd with hd | hd
    · exact h1 d hd
    · rw [List.mem_singleton.1 hd]; exact hc
  · rw [Params.wire_append]; simp [Params.wire]

theorem Params.length_chunk (p : Params) (blk payload : List Byte) : (p.chunk blk payload).length = 8 + payload.length := by
  simp [Params.chunk, le24, le32, leBytes]; omega

namespace Machine

open State

/-- Where nothing of the stream changes the invariant stays. -/
theorem State.Framed.congr {s t : State} (h : s.Framed) (hparams : t.params = s.params) (hsink : t.sinkStream = s.sinkStream)
    (hsound : t.poisoned = false → s.poisoned = false)
    (hstaged : t.poisoned = false → t.alloc = true → t.hdrWritten = true →
      t.staged = s.staged ∧ s.alloc = true ∧ s.hdrWritten = true)
    (hpend : ∀ cl, t.pending ≠ .checksum cl) : t.Framed where
  delivered := fun hp => by rw [hparams, hsink]; exact h.delivered (hsound hp)
  whole := fun hp ha hh => by
    obtain ⟨h1, h2, h3⟩ := hstaged hp ha hh
    rw [hparams, hsink, h1]; exact h.whole (hsound hp) h2 h3
  front := by rw [hparams, hsink]; exact h.front
  header := fun cl hc => absurd hc (hpend cl)

theorem State.Framed.raise {s : State} (h : s.Framed) (e : ErrorKind) : (s.raise e).Framed :=
  h.congr (by simp) (by simp) (by simp; tauto) (by simp [staged]; tauto) (by simp)

theorem State.Framed.complete {s : State} (h : s.Framed) : s.complete.Framed :=
  h.congr (by simp) (by simp) (by simp) (by simp [staged]; tauto) (by simp)

theorem ensureStep_framed {s t : State} (h : s.BaseInv) (hf : s.Framed) (hq : s.pending = .none)
    (ht : ensureStep s = .moved t) : t.Framed := by
  have hq' : ∀ cl, s.pending ≠ .checksum cl := by simp [hq]
  unfold ensureStep at ht
  split at ht
  · split at ht
    · simp only [Progress.moved.injEq] at ht
      subst ht
      exact hf.congr rfl rfl id (fun _ h1 h2 => ⟨rfl, h1, h2⟩) hq'
    · rename_i hh
      simp only [Bool.not_eq_true] at hh
      obtain ⟨-, -, hsink⟩ := h.unstaged hh
      cases hw : s.stagePreamble with
      | error f => simp [hw, Progress.of] at ht
      | ok u =>
        simp only [hw, Progress.of, Progress.moved.injEq] at ht
        subst ht
        obtain ⟨rfl, -⟩ := stagePreamble_ok hw
        have hpre : (s.stg.write 0 s.params.preamble).bytes 0 preLen = s.params.preamble := by
          have := Buffer.bytes_write_same s.stg 0 s.params.preamble
          rwa [paramsWf_preamble h.paramsWf] at this
        exact
          { delivered := fun _ => .inl hsink
            whole := fun _ _ _ => by
              simp only [staged, hsink, List.nil_append, hpre]
              exact Params.IsStream.preamble _
            front := .inl hsink
            header := fun cl hc => absurd hc (hq' cl) }
  · simp only [Progress.moved.injEq] at ht
    subst ht
    exact hf.congr rfl rfl id (fun _ h1 h2 => ⟨rfl, h1, h2⟩) (by simp)

theorem poolStep_framed {s t : State} (h : s.BaseInv) (he : s.EnsureInv) (hf : s.Framed) (ha : s.alloc = false)
    (ht : poolStep s = .moved t) : t.Framed := by
  have hh := h.unleased ha he.run.live
  unfold poolStep at ht
  split at ht
  · cases ht
  · rename_i rest _
    have ht : t = s.granted rest := (Progress.moved.inj ht).symm
    subst ht
    refine hf.congr rfl rfl id (fun _ _ h2 => ?_) (by simp [granted])
    rw [show (s.granted rest).hdrWritten = false from hh] at h2; cases h2
  · rename_i rest _
    simp only [Progress.moved.injEq] at ht
    subst ht
    exact (hf.congr (t := ({ s with poolAnswers := rest } : State).answered (.poolAnswer .refused)) rfl rfl id
      (fun _ h1 h2 => ⟨rfl, h1, h2⟩) (by simp)).raise _

theorem segmentStep_framed {s t : State} (hf : s.Framed) (hq : s.pending = .none)
    (ht : segmentStep s = .moved t) : t.Framed := by
  have hq' : ∀ cl, s.pending ≠ .checksum cl := by simp [hq]
  unfold segmentStep at ht
  split at ht
  · split at ht
    · simp only [Progress.moved.injEq] at ht
      subst ht
      exact hf.congr rfl rfl id (fun _ h1 h2 => ⟨rfl, h1, h2⟩) hq'
    · cases hw : s.copyToAcc with
      | error f => simp [hw, Progress.of] at ht
      | ok u =>
        simp only [hw, Progress.of, Progress.moved.injEq] at ht
        subst ht
        obtain rfl := copyToAcc_ok hw
        exact hf.congr rfl rfl id (fun _ h1 h2 => ⟨rfl, h1, h2⟩) hq'
  · simp only [Progress.moved.injEq] at ht
    subst ht
    exact hf.complete

/-- A written byte below the scribbled addresses and the packed chunk stays. -/
theorem byte_packed_below {s u : State} {payload : List Byte} (h : s.BaseInv)
    (hu : u.stg = s.stg.scribble (s.stageLen + 8) s.params.stageSize s.draws) (hsl : u.stageLen = s.stageLen) {a : Nat}
    (ha : a < s.stageLen) : (u.stgPacked payload).byte a = s.stg.byte a := by
  obtain ⟨v, hv⟩ := Option.isSome_iff_exists.1 (h.stgWritten a ha)
  unfold stgPacked
  rw [Buffer.byte_write_outside (by omega), Buffer.byte_write_outside (by simp; omega),
    Buffer.byte_write_outside (by omega), hu, Buffer.byte_scribble_outside (by omega) hv]

/-- What stands at `stage_len` after type, length and payload have been written (42_chunk_emit.md R163, R164). -/
theorem stgPacked_fields (u : State) (payload : List Byte) :
    (u.stgPacked payload).byte u.stageLen = u.params.ctype ∧
    (u.stgPacked payload).bytes (u.stageLen + 1) 3 = le24 (payload.length + 4) ∧
    (u.stgPacked payload).bytes (u.stageLen + 8) payload.length = payload := by
  unfold stgPacked
  refine ⟨?_, ?_, ?_⟩
  · rw [Buffer.byte_write_outside (by omega), Buffer.byte_write, dif_pos (by simp)]
    simp
  · have h := Buffer.bytes_write_same
      ((u.stg.write (u.stageLen + 8) payload).write u.stageLen [u.params.ctype]) (u.stageLen + 1)
      (leBytes 4 (payload.length + 4))
    rw [length_leBytes, show (4 : Nat) = 3 + 1 from rfl, Buffer.bytes_append] at h
    have h2 := congrArg (List.take 3) h
    rw [List.take_append_of_le_length (by simp), List.take_of_length_le (by simp)] at h2
    rw [h2]
    rfl
  · rw [Buffer.bytes_write_outside (by simp), Buffer.bytes_write_outside (by simp), Buffer.bytes_write_same]

/-- The block a chunk is made of is not touched by the packing. -/
theorem blockBytes_congr {s t : State} (h1 : t.cur = s.cur) (h2 : t.accLen = s.accLen) (h3 : t.consumed = s.consumed)
    (h4 : t.params = s.params) (h5 : t.acc = s.acc) (h6 : t.src = s.src) : t.blockBytes = s.blockBytes := by
  have hs : t.blockSpace = s.blockSpace := by simp [blockSpace, h1, h2]
  have hne : s.blockSpace ≠ .stg := by
    unfold blockSpace; cases s.cur.op <;> simp
    split <;> simp
  unfold blockBytes blockStart blockLen
  rw [hs, h2, h3, h4]
  cases h : s.blockSpace with
  | src => simp [buffer, h6]
  | acc => simp [buffer, h5]
  | stg => exact absurd h hne

theorem compressAnswered_framed {s t : State} (h : s.BaseInv) (he : s.EmitInv) (hf : s.Framed)
    (ht : compressAnswered s.blockBytes s = .moved t) : t.Framed := by
  have hfail : ∀ e, (((s.answered e).stgScribble (s.stageLen + 8)).raise .compress).Framed := fun e =>
    hf.congr (by simp) (by simp) (by simp [ErrorKind.poisons]) (by simp [ErrorKind.poisons]) (by simp)
  unfold compressAnswered at ht
  split at ht
  · simp only [Progress.moved.injEq] at ht
    subst ht
    exact hfail _
  · rename_i payload hpay
    split at ht
    · simp only [Progress.moved.injEq] at ht
      subst ht
      exact hfail _
    · rename_i hle
      generalize hu : (s.answered (.compressAnswer (some payload.length))).stgScribble (s.stageLen + 8) = u at ht
      cases hw : u.packPayload payload with
      | error f => simp [hw, Progress.of] at ht
      | ok v =>
        simp only [hw, Progress.of, Progress.moved.injEq] at ht
        subst ht
        obtain rfl := packPayload_ok hw
        have hsl : u.stageLen = s.stageLen := by rw [← hu]; rfl
        have hstg : u.stg = s.stg.scribble (s.stageLen + 8) s.params.stageSize s.draws := by rw [← hu]; rfl
        have hpar : u.params = s.params := by rw [← hu]; rfl
        have hbl := blockLen_bounds he.block (paramsWf_block h.paramsWf)
        have hstaged : (u.stgPacked payload).bytes 0 u.stageLen = s.staged := by
          rw [hsl]
          exact Buffer.bytes_congr fun i hi => byte_packed_below h hstg hsl (by omega)
        refine
          { delivered := fun hp => ?_
            whole := fun hp ha hh => ?_
            front := ?_
            header := fun cl hc => ?_ }
        · subst hu; exact hf.delivered hp
        · show Params.IsStream u.params (u.sinkStream ++ (u.stgPacked payload).bytes 0 u.stageLen)
          rw [hstaged]
          subst hu; exact hf.whole hp ha hh
        · subst hu; exact hf.front
        · obtain ⟨f1, f2, f3⟩ := stgPacked_fields u payload
          have hcl : payload.length = cl := by simpa using hc
          subst hcl
          refine ⟨payload, rfl, ?_, f1, f2, f3⟩
          have hblk : ({ u with
              stg := u.stgPacked payload
              history := u.history ++ [.crcReq u.blockSpace u.blockLen]
              pending := .checksum payload.length } : State).blockBytes = s.blockBytes := by
            subst hu; exact blockBytes_congr rfl rfl rfl rfl rfl rfl
          rw [hblk]
          show u.params.IsChunk _
          rw [hpar]
          simp only [length_blockBytes] at hle
          exact ⟨by simp; omega, by simp; omega, hpay, by simp; omega⟩

/-- The chunk stands whole in the staging buffer once the checksum is written (42_chunk_emit.md R166). -/
theorem stgChecksummed_chunk {s : State} {payload : List Byte} (blk : List Byte)
    (h1 : s.stg.byte s.stageLen = s.params.ctype)
    (h2 : s.stg.bytes (s.stageLen + 1) 3 = le24 (payload.length + 4))
    (h3 : s.stg.bytes (s.stageLen + 8) payload.length = payload) :
    (s.stgChecksummed payload.length (s.params.maskedCrc blk)).stg.bytes s.stageLen (8 + payload.length)
      = s.params.chunk blk payload := by
  show (s.stg.write (s.stageLen + 4) (leBytes 4 (s.params.maskedCrc blk).toNat)).bytes s.stageLen (8 + payload.length) = _
  rw [Buffer.bytes_append, show (8 : Nat) = 4 + 4 from rfl, Buffer.bytes_append, show (4 : Nat) = 1 + 3 from rfl,
    Buffer.bytes_append]
  rw [Buffer.bytes_write_outside (x := s.stageLen) (n := 1) (by omega),
    Buffer.bytes_write_outside (x := s.stageLen + 1) (n := 3) (by omega), h2,
    Buffer.bytes_write_outside (x := s.stageLen + (1 + 3 + (1 + 3))) (by simp), show 1 + 3 + (1 + 3) = 8 from rfl, h3]
  have hb : (s.stg.write (s.stageLen + (1 + 3)) (leBytes 4 (s.params.maskedCrc blk).toNat)).bytes (s.stageLen + (1 + 3)) (1 + 3)
      = le32 (s.params.maskedCrc blk) := by
    have := Buffer.bytes_write_same s.stg (s.stageLen + (1 + 3)) (leBytes 4 (s.params.maskedCrc blk).toNat)
    simpa [le32] using this
  rw [show s.stageLen + 4 = s.stageLen + (1 + 3) from rfl, hb]
  have h1' : s.stg.bytes s.stageLen 1 = [s.params.ctype] := by
    simp [Buffer.bytes, h1]
  rw [h1']
  simp [Params.chunk]

/-- What the staging buffer holds after EMIT: what was staged, and the chunk. -/
theorem stgChecksummed_staged {s : State} {payload : List Byte} (blk : List Byte)
    (h1 : s.stg.byte s.stageLen = s.params.ctype)
    (h2 : s.stg.bytes (s.stageLen + 1) 3 = le24 (payload.length + 4))
    (h3 : s.stg.bytes (s.stageLen + 8) payload.length = payload) :
    (s.stgChecksummed payload.length (s.params.maskedCrc blk)).staged = s.staged ++ s.params.chunk blk payload := by
  rw [← stgChecksummed_chunk blk h1 h2 h3]
  show (s.stgChecksummed payload.length (s.params.maskedCrc blk)).stg.bytes 0 (s.stageLen + 8 + payload.length) = _
  rw [Nat.add_assoc, Buffer.bytes_append, Nat.zero_add]
  congr 1
  exact Buffer.bytes_write_outside (by omega)

@[simp] theorem blockTaken_params (s : State) : s.blockTaken.params = s.params := by
  unfold blockTaken; cases s.blockSpace <;> rfl
@[simp] theorem blockTaken_poisoned (s : State) : s.blockTaken.poisoned = s.poisoned := by
  unfold blockTaken; cases s.blockSpace <;> rfl
@[simp] theorem blockTaken_alloc (s : State) : s.blockTaken.alloc = s.alloc := by
  unfold blockTaken; cases s.blockSpace <;> rfl
@[simp] theorem blockTaken_hdrWritten (s : State) : s.blockTaken.hdrWritten = s.hdrWritten := by
  unfold blockTaken; cases s.blockSpace <;> rfl
@[simp] theorem blockTaken_sinkStream (s : State) : s.blockTaken.sinkStream = s.sinkStream := by
  unfold blockTaken; cases s.blockSpace <;> rfl
@[simp] theorem blockTaken_pending (s : State) : s.blockTaken.pending = s.pending := by
  unfold blockTaken; cases s.blockSpace <;> rfl
@[simp] theorem blockTaken_stg (s : State) : s.blockTaken.stg = s.stg := by
  unfold blockTaken; cases s.blockSpace <;> rfl
@[simp] theorem blockTaken_stageLen (s : State) : s.blockTaken.stageLen = s.stageLen := by
  unfold blockTaken; cases s.blockSpace <;> rfl
@[simp] theorem blockTaken_staged (s : State) : s.blockTaken.staged = s.staged := by
  simp [staged]

theorem packChecksum_framed {s t : State} {cl : Nat} (hf : s.Framed) (he : s.EmitInv) (hq : s.pending = .checksum cl)
    (hp : s.packChecksum cl (s.params.maskedCrc s.blockBytes) = .ok t) : t.Framed := by
  obtain rfl := packChecksum_ok hp
  obtain ⟨payload, rfl, hchunk, h1, h2, h3⟩ := hf.header cl hq
  have hst := stgChecksummed_staged s.blockBytes h1 h2 h3
  refine
    { delivered := fun hp => ?_
      whole := fun hp ha hh => ?_
      front := ?_
      header := fun cl hc => ?_ }
  · simp only [blockTaken_params, blockTaken_sinkStream]; exact hf.delivered he.lease.run.sound
  · simp only [blockTaken_params, blockTaken_sinkStream, blockTaken_staged]
    rw [hst]
    show s.params.IsStream (s.sinkStream ++ (s.staged ++ s.params.chunk s.blockBytes payload))
    rw [← List.append_assoc]
    exact (hf.whole he.lease.run.sound he.lease.leased he.lease.hdr).snoc hchunk
  · simp only [blockTaken_params, blockTaken_sinkStream]; exact hf.front
  · rw [blockTaken_pending] at hc; cases hc

theorem afterDrain_framed {s : State} (hf : s.Framed) (hq : s.pending = .none) : s.afterDrain.Framed := by
  have hq' : ∀ cl, s.pending ≠ .checksum cl := by simp [hq]
  have hlog : ∀ e, (s.log e).Framed := fun e => hf.congr rfl rfl id (fun _ h1 h2 => ⟨rfl, h1, h2⟩) hq'
  have hseg : ∀ u : State, u.Framed → u.pending = .none → ({ u with fsm := .segment } : State).Framed := fun u hu hq =>
    hu.congr rfl rfl id (fun _ h1 h2 => ⟨rfl, h1, h2⟩) (by simp [hq])
  unfold afterDrain
  split
  · split
    · unfold checkpoint
      split
      · exact (hlog _).raise _
      · exact hseg _ (hlog _) hq
    · exact hseg _ hf hq
  · exact hf.complete
  · exact hf.complete

theorem drainStep_framed {s t : State} (hf : s.Framed) (hq : s.pending = .none) (ht : drainStep s = .moved t) :
    t.Framed := by
  unfold drainStep at ht
  split at ht
  · simp only [Progress.moved.injEq] at ht
    subst ht
    exact afterDrain_framed hf hq
  · split at ht
    · simp only [Progress.moved.injEq] at ht
      subst ht
      exact hf.congr rfl rfl id (fun _ h1 h2 => ⟨rfl, h1, h2⟩) (by simp)
    · cases ht

theorem sinkStep_framed {s t : State} (hl : s.Leased) (hf : s.Framed) (ht : sinkStep s = .moved t) : t.Framed := by
  have hwhole := hf.whole hl.run.sound hl.leased hl.hdr
  unfold sinkStep at ht
  split at ht
  · cases ht
  · rename_i a rest _
    split at ht
    · rename_i bytes hm
      simp only [Progress.moved.injEq] at ht
      subst ht
      obtain ⟨rfl, -⟩ := memRead_ok hm
      cases a with
      | ok =>
        simp only [sinkAnswered]
        apply afterDrain_framed
        · exact
            { delivered := fun _ => .inr hwhole
              whole := fun _ _ _ => by
                show s.params.IsStream ((s.sinkStream ++ s.staged) ++ s.stg.bytes 0 0)
                simpa using hwhole
              front := .inr ⟨[], by
                show s.params.IsStream ((s.sinkStream ++ s.staged) ++ [])
                simpa using hwhole⟩
              header := fun cl hc => by cases hc }
        · rfl
      | err kept =>
        simp only [sinkAnswered]
        have hpre : s.params.IsStream ((s.sinkStream ++ s.staged.take kept) ++ s.staged.drop kept) := by
          rw [List.append_assoc, List.take_append_drop]; exact hwhole
        exact
          { delivered := fun hp => by simp [ErrorKind.poisons] at hp
            whole := fun hp => by simp [ErrorKind.poisons] at hp
            front := .inr ⟨s.staged.drop kept, by simpa [buffer, staged] using hpre⟩
            header := fun cl hc => by simp at hc }
    · cases ht

/-- Every step of the sequencer keeps the stream in the wire format. -/
theorem tick_keeps_framed {s t : State} (h : s.Inv) (hfr : s.Framed) (ht : tick s = .moved t) : t.Framed := by
  obtain ⟨hb, hp⟩ := h
  unfold tick at ht
  cases hf : s.fsm with
  | idle => simp only [hf] at ht; cases hq : s.pending <;> simp at ht
  | ensure =>
    simp only [hf] at ht hp
    rcases hp.asks with hq | ⟨hq, ha⟩
    · simp only [hq] at ht; exact ensureStep_framed hb hfr hq ht
    · simp only [hq] at ht; exact poolStep_framed hb hp hfr ha ht
  | segment =>
    simp only [hf] at ht hp
    simp only [hp.quiet] at ht
    exact segmentStep_framed hfr hp.quiet ht
  | emit =>
    simp only [hf] at ht hp
    have hblk := block_exists hp.block hp.lease.leased (paramsWf_block hb.paramsWf) hp.lease.run.consumedLe
    rcases hp.asks with hq | hq | ⟨cl, hq, hc⟩
    · simp only [hq, emitStep, Progress.moved.injEq] at ht
      subst ht
      exact hfr.congr rfl rfl id (fun _ h1 h2 => ⟨rfl, h1, h2⟩) (by simp)
    · simp only [hq, compressorStep, hblk] at ht
      split at ht
      · exact compressAnswered_framed hb hp hfr ht
      · cases ht
    · simp only [hq, checksumStep, hblk] at ht
      split at ht
      · cases hk : s.packChecksum cl (s.params.maskedCrc s.blockBytes) with
        | error f => simp [hk, Progress.of] at ht
        | ok u =>
          simp only [hk, Progress.of, Progress.moved.injEq] at ht
          subst ht
          exact packChecksum_framed hfr hp hq hk
      · cases ht
  | drain =>
    simp only [hf] at ht hp
    rcases hp.asks with hq | ⟨hq, h0⟩
    · simp only [hq] at ht; exact drainStep_framed hfr hq ht
    · simp only [hq] at ht; exact sinkStep_framed hp.lease hfr ht

/-- Every step of the sequencer keeps a safe state safe. -/
theorem tick_keeps_safe {s t : State} (h : s.Safe) (ht : tick s = .moved t) : t.Safe :=
  ⟨tick_keeps_inv h.1 ht, tick_keeps_framed h.1 h.2 ht⟩

/-- A command that goes on keeps a safe state safe. -/
theorem resume_keeps_safe {s t : State} (h : s.Safe) (ht : resume s = .next t) : t.Safe :=
  resume_keeps (fun _ _ hs _ hu => tick_keeps_safe hs hu) h ht

end Machine

end Sys2Proof
end

