-- ==== Sys2Proof/Laws/Accept.lean ====
section
/-! SUPPORT. Acceptance (60_exceptions.md R219): what it needs, what it answers, and that it keeps a safe state safe. -/

namespace Sys2Proof.Machine

open State

/-- A safe state that is not busy is in the idle phase. -/
theorem State.Inv.idle_phase {s : State} (h : s.Inv) (hb : s.busy = false) : s.fsm = .idle ∧ s.IdleInv := by
  obtain ⟨-, hp⟩ := h
  have hne : s.busy ≠ true := by simp [hb]
  cases hf : s.fsm <;> simp only [hf] at hp
  · exact ⟨rfl, hp⟩
  · exact absurd hp.run.busy hne
  · exact absurd hp.lease.run.busy hne
  · exact absurd hp.lease.run.busy hne
  · exact absurd hp.lease.run.busy hne

/-- A command reaches an existing, idle instance. -/
theorem refusal_eq_none {s : State} : refusal s = none ↔ s.params.wf = true ∧ s.busy = false := by
  unfold refusal
  cases s.params.wf <;> cases s.busy <;> simp

theorem accepted_base {s : State} (h : s.BaseInv) (i : Instr) : (s.accepted i).BaseInv :=
  h.congr rfl rfl rfl h.srcWf (by show (0#8 : BitVec 8).toNat ≤ 8; decide) rfl rfl rfl rfl rfl rfl

theorem accepted_framed {s : State} (h : s.Framed) (hq : s.pending = .none) (i : Instr) : (s.accepted i).Framed :=
  h.congr rfl rfl id (fun _ h1 h2 => ⟨rfl, h1, h2⟩) (by simp [hq])

/-- An accepted command that ends at once with an error leaves a safe state. -/
theorem accepted_raise_safe {s : State} (h : s.Safe) (hb : s.busy = false) (i : Instr) (e : ErrorKind) :
    ((s.accepted i).raise e).Safe := by
  obtain ⟨-, hi⟩ := h.1.idle_phase hb
  exact ⟨(accepted_base h.1.1 i).raise_inv e hi.disposedClear hi.leased
    (fun hp => hi.accPart (by simp at hp; exact hp.1)) (fun hp => hi.stageBase (by simp at hp; exact hp.1)),
    (accepted_framed h.2 hi.quiet i).raise e⟩

/-- What the acceptance checks of a WRITE or FLUSH form answer (60_exceptions.md R219). -/
theorem acceptChecks_eq {i : Instr} {s : State} (hw : s.params.wf = true) (hb : s.busy = false) :
    acceptChecks i s =
      if s.disposed then .isOver (.next ((s.accepted i).raise .disposed))
      else if s.poisoned then .isOver (.next ((s.accepted i).raise .poisoned))
      else if i.snk then .goesOn (s.accepted i)
      else .isOver (.next ((s.accepted i).raise .nullSink)) := by
  unfold acceptChecks
  rw [refusal_eq_none.2 ⟨hw, hb⟩]

/-- A form that goes on has passed every check. -/
theorem acceptChecks_goesOn {i : Instr} {s u : State} (h : acceptChecks i s = .goesOn u) :
    u = s.accepted i ∧ s.params.wf = true ∧ s.busy = false ∧ s.disposed = false ∧ s.poisoned = false ∧ i.snk = true := by
  unfold acceptChecks at h
  split at h
  · cases h
  · rename_i hr
    obtain ⟨hw, hb⟩ := refusal_eq_none.1 hr
    split at h
    · cases h
    · split at h
      · cases h
      · split at h
        · simp_all
        · cases h

/-- A form that is over at acceptance was refused or left a safe state. -/
theorem acceptChecks_isOver {i : Instr} {s t : State} (hs : s.Safe) (h : acceptChecks i s = .isOver (.next t)) : t.Safe := by
  unfold acceptChecks at h
  split at h
  · cases h
  · rename_i hr
    obtain ⟨hw, hb⟩ := refusal_eq_none.1 hr
    split at h
    · cases h; exact accepted_raise_safe hs hb i _
    · split at h
      · cases h; exact accepted_raise_safe hs hb i _
      · split at h
        · cases h
        · cases h; exact accepted_raise_safe hs hb i _

/-- The start of a command on a safe instance is safe. -/
theorem launched_safe {s : State} (hb : s.BaseInv) (hfr : s.Framed) (hr : s.Running) (hq : s.pending = .none)
    (ha : s.accLen < s.params.block) (hst : s.hdrWritten = true → s.stageLen = s.preambleDue) :
    ({ s with fsm := .ensure } : State).Safe :=
  ⟨⟨hb.congr rfl rfl rfl hb.srcWf hb.errCode rfl rfl rfl rfl rfl rfl,
    show ({ s with fsm := .ensure } : State).EnsureInv from
      ⟨hr.congr rfl rfl rfl rfl hr.consumedLe, .inl hq, ha, hst⟩⟩,
  hfr.congr rfl rfl id (fun _ h1 h2 => ⟨rfl, h1, h2⟩) (by simp [hq])⟩

/-- A started command keeps a safe instance safe. -/
theorem launch_keeps_safe {s t : State} (hb : s.BaseInv) (hfr : s.Framed) (hr : s.Running) (hq : s.pending = .none)
    (ha : s.accLen < s.params.block) (hst : s.hdrWritten = true → s.stageLen = s.preambleDue)
    (ht : launch s = .next t) : t.Safe :=
  resume_keeps_safe (launched_safe hb hfr hr hq ha hst) ht

/-- An accepted WRITE or FLUSH form runs on a safe instance. -/
theorem accepted_running {s : State} (i : Instr) (hd : s.disposed = false) (hp : s.poisoned = false)
    (hop : i.op ≠ .dispose) : (s.accepted i).Running :=
  ⟨rfl, hd, hp, hop, fun _ => Nat.zero_le _⟩

end Sys2Proof.Machine
end

