-- ==== Sys2Proof/Laws/Blocks.lean ====
section
/-! SUPPORT. The full blocks of a byte string and what remains (40_write.md R118, R122, R123). -/

namespace Sys2Proof

theorem fullBlocks_of_lt {B : Nat} {bs : List Byte} (h : bs.length < B) : fullBlocks B bs = [] := by
  simp [fullBlocks, Nat.div_eq_of_lt h]

theorem tailBytes_of_lt {B : Nat} {bs : List Byte} (h : bs.length < B) : tailBytes B bs = bs := by
  simp [tailBytes, Nat.div_eq_of_lt h]

theorem fullBlocks_of_le {B : Nat} {bs : List Byte} (hB : 0 < B) (h : B ≤ bs.length) :
    fullBlocks B bs = bs.take B :: fullBlocks B (bs.drop B) := by
  have hd : bs.length / B = (bs.length - B) / B + 1 := by
    rw [Nat.div_eq_sub_div hB h]
  simp only [fullBlocks, List.length_drop, hd, List.range_succ_eq_map, List.map_cons, Nat.zero_mul, List.drop_zero, List.map_map]
  congr 1
  apply List.map_congr_left
  intro k _
  simp only [Function.comp, List.drop_drop, Nat.succ_mul]
  rw [Nat.add_comm]

theorem tailBytes_of_le {B : Nat} {bs : List Byte} (hB : 0 < B) (h : B ≤ bs.length) :
    tailBytes B bs = tailBytes B (bs.drop B) := by
  have hd : bs.length / B = (bs.length - B) / B + 1 := by
    rw [Nat.div_eq_sub_div hB h]
  simp only [tailBytes, List.length_drop, hd, List.drop_drop, Nat.succ_mul]
  rw [Nat.add_comm]

@[simp] theorem length_fullBlocks (B : Nat) (bs : List Byte) : (fullBlocks B bs).length = bs.length / B := by
  simp [fullBlocks]

theorem length_tailBytes (B : Nat) (bs : List Byte) : (tailBytes B bs).length = bs.length % B := by
  have := Nat.div_add_mod bs.length B
  rw [Nat.mul_comm] at this
  simp only [tailBytes, List.length_drop]; omega

theorem length_of_mem_fullBlocks {B : Nat} {bs b : List Byte} (h : b ∈ fullBlocks B bs) : b.length = B := by
  simp only [fullBlocks, List.mem_map, List.mem_range] at h
  obtain ⟨k, hk, rfl⟩ := h
  have h1 : (k + 1) * B ≤ bs.length := Nat.le_trans (Nat.mul_le_mul_right B hk) (Nat.div_mul_le_self _ _)
  rw [Nat.succ_mul] at h1
  simp; omega

/-- The blocks and the tail are the whole. -/
theorem flatten_fullBlocks {B : Nat} (hB : 0 < B) (bs : List Byte) : (fullBlocks B bs).flatten ++ tailBytes B bs = bs := by
  induction h : bs.length using Nat.strong_induction_on generalizing bs with
  | _ n ih =>
    by_cases hlt : bs.length < B
    · simp [fullBlocks_of_lt hlt, tailBytes_of_lt hlt]
    · rw [fullBlocks_of_le hB (by omega), tailBytes_of_le hB (by omega), List.flatten_cons, List.append_assoc,
        ih (bs.drop B).length (by simp; omega) _ rfl, List.take_append_drop]

/-- The blocks of a byte string, a front part of which has been cut already. -/
theorem fullBlocks_append {B : Nat} (hB : 0 < B) (as bs : List Byte) :
    fullBlocks B (as ++ bs) = fullBlocks B as ++ fullBlocks B (tailBytes B as ++ bs) := by
  induction h : as.length using Nat.strong_induction_on generalizing as with
  | _ n ih =>
    by_cases hlt : as.length < B
    · simp [fullBlocks_of_lt hlt, tailBytes_of_lt hlt]
    · rw [fullBlocks_of_le hB (bs := as ++ bs) (by simp; omega), fullBlocks_of_le hB (bs := as) (by omega),
        tailBytes_of_le hB (bs := as) (by omega), List.take_append_of_le_length (by omega),
        List.drop_append_of_le_length (by omega), ih (as.drop B).length (by simp; omega) _ rfl, List.cons_append]

theorem tailBytes_append {B : Nat} (hB : 0 < B) (as bs : List Byte) :
    tailBytes B (as ++ bs) = tailBytes B (tailBytes B as ++ bs) := by
  induction h : as.length using Nat.strong_induction_on generalizing as with
  | _ n ih =>
    by_cases hlt : as.length < B
    · simp [tailBytes_of_lt hlt]
    · rw [tailBytes_of_le hB (bs := as ++ bs) (by simp; omega), tailBytes_of_le hB (bs := as) (by omega),
        List.drop_append_of_le_length (by omega), ih (as.drop B).length (by simp; omega) _ rfl]

end Sys2Proof
end

