-- ==== Sys2Proof/Laws/Progress.lean ====
section
/-! SUPPORT. Every step of the sequencer on a safe state is possible or waits for an agent, and makes progress: a command
ends or waits (40_write.md R116, 70_reset_and_hazards.md R262). -/

namespace Sys2Proof.Machine

open State

/-- One step of a run. -/
theorem run_moved {s t : State} {n : Nat} (hb : s.busy = true) (ht : tick s = .moved t) : run (n + 1) s = run n t := by
  simp [run, hb, ht]

theorem run_idle {s : State} (n : Nat) (hb : s.busy = false) : run n s = .next s := by
  cases n <;> simp [run, hb]

theorem run_waits {s : State} (n : Nat) (ht : tick s = .waits) : run n s = .next s := by
  cases n with
  | zero => rfl
  | succ n => unfold run; rw [ht]; split <;> rfl

/-- The steps a command in this state can still take. -/
def State.work (s : State) : Nat :=
  match s.fsm, s.pending with
  | .idle, _ => 0
  | .ensure, .pool => 6 * s.remaining + 8
  | .ensure, _ => if s.alloc then 6 * s.remaining + 7 else 6 * s.remaining + 9
  | .segment, _ => 6 * s.remaining + 1
  | .emit, .compressor => if s.blockSpace = .src then 6 * s.remaining - 1 else 6 * s.remaining + 5
  | .emit, .checksum _ => if s.blockSpace = .src then 6 * s.remaining - 2 else 6 * s.remaining + 4
  | .emit, _ => if s.blockSpace = .src then 6 * s.remaining else 6 * s.remaining + 6
  | .drain, .sink => 6 * s.remaining + 2
  | .drain, _ => 6 * s.remaining + 3

theorem work_le_fuel (s : State) : s.work ≤ s.fuel := by
  unfold work fuel
  split <;> first | omega | (split <;> omega)

theorem work_afterEnsure {s : State} (hr : s.Running) (hq : s.pending = .none) :
    ({ s with fsm := s.afterEnsure } : State).work < 6 * s.remaining + 7 := by
  cases hop : s.cur.op with
  | dispose => exact absurd hop hr.form
  | write =>
    have hf : s.afterEnsure = .segment := by simp [afterEnsure, hop]
    simp only [hf, work, remaining]; omega
  | flush =>
    by_cases hl : 0 < s.accLen
    · have hf : s.afterEnsure = .emit := by simp [afterEnsure, hop, hl]
      simp only [hf, work, hq, remaining]
      split <;> omega
    · have hf : s.afterEnsure = .drain := by simp [afterEnsure, hop, hl]
      simp only [hf, work, hq, remaining]; omega

theorem ensureStep_progress {s : State} (h : s.BaseInv) (he : s.EnsureInv) (hf : s.fsm = .ensure) (hq : s.pending = .none) :
    ∃ t, ensureStep s = .moved t ∧ t.work < s.work := by
  have hsz : s.params.preamble.length = 10 := paramsWf_preamble h.paramsWf
  unfold ensureStep
  split
  · rename_i ha
    have hw : s.work = 6 * s.remaining + 7 := by simp [work, hf, hq, ha]
    split
    · exact ⟨_, rfl, by rw [hw]; exact work_afterEnsure he.run hq⟩
    · have hst : s.stagePreamble = .ok { s with
          stg := s.stg.write 0 s.params.preamble, stageLen := preLen, hdrWritten := true, fsm := s.afterEnsure } := by
        unfold stagePreamble
        rw [stgWrite_eq ha (by rw [stageSize_eq]; omega)]
        rfl
      rw [hst]
      refine ⟨_, rfl, ?_⟩
      have := work_afterEnsure
        (s := { s with stg := s.stg.write 0 s.params.preamble, stageLen := preLen, hdrWritten := true })
        (he.run.congr rfl rfl rfl rfl he.run.consumedLe) hq
      rw [hw]; exact this
  · rename_i ha
    refine ⟨_, rfl, ?_⟩
    have ha : s.alloc = false := by simpa using ha
    simp only [work, request_fsm, hf, hq, request_pending, ha, remaining, request_cur, request_consumed]
    simp

theorem poolStep_progress {s : State} (hf : s.fsm = .ensure) (hq : s.pending = .pool) (hne : s.poolAnswers ≠ []) :
    ∃ t, poolStep s = .moved t ∧ t.work < s.work := by
  have hw : s.work = 6 * s.remaining + 8 := by simp [work, hf, hq]
  unfold poolStep
  split
  · rename_i h; exact absurd h hne
  · exact ⟨_, rfl, by rw [hw]; simp [work, hf, remaining]⟩
  · exact ⟨_, rfl, by rw [hw]; simp [work]⟩

/-- What the copy path leaves (40_write.md R114, R115). -/
theorem copyToAcc_eq {s : State} (he : s.SegmentInv) : s.copyToAcc = .ok { s with
    acc := s.acc.write s.accLen (s.src.bytes s.consumed.toNat s.copyLen)
    accLen := s.accLen + s.copyLen
    consumed := s.consumed + BitVec.ofNat 32 s.copyLen
    fsm := if s.accLen + s.copyLen = s.params.block then .emit else .segment } := by
  obtain ⟨hk1, hk2⟩ := copyLen_le s
  have hrem : s.remaining = s.cur.len.toNat - s.consumed.toNat := rfl
  have hacc := he.accPart
  have hle := he.lease.run.consumedLe he.writes
  unfold copyToAcc
  rw [memRead_eq (by simp [hasAddresses, he.writes]; omega)]
  simp only [bind, Except.bind, buffer]
  rw [accWrite_eq he.lease.leased (by simp; omega)]
  rfl

theorem segmentStep_progress {s : State} (h : s.BaseInv) (he : s.SegmentInv) (hf : s.fsm = .segment) :
    ∃ t, segmentStep s = .moved t ∧ t.work < s.work := by
  have hw : s.work = 6 * s.remaining + 1 := by simp [work, hf]
  have hB := paramsWf_block h.paramsWf
  have hq := he.quiet
  unfold segmentStep
  split
  · rename_i hlt
    have hrem : s.remaining = s.cur.len.toNat - s.consumed.toNat := rfl
    split
    · rename_i hfast
      refine ⟨_, rfl, ?_⟩
      have hs : ({ s with fsm := .emit } : State).blockSpace = .src := by simp [blockSpace, he.writes, hfast.1]
      have hwork : ({ s with fsm := .emit } : State).work = 6 * s.remaining := by
        unfold work
        simp only [hq]
        exact if_pos hs
      rw [hw, hwork]; omega
    · rename_i hslow
      obtain ⟨hk1, hk2⟩ := copyLen_le s
      have hacc := he.accPart
      have hkpos : 1 ≤ s.copyLen := by simp only [copyLen]; omega
      rw [copyToAcc_eq he]
      refine ⟨_, rfl, ?_⟩
      have hcons := consumed_add (s := s) (k := s.copyLen) (by omega)
      rw [hw]
      by_cases hfull : s.accLen + s.copyLen = s.params.block
      · have hne : s.params.block ≠ 0 := by omega
        simp only [work, hfull, ↓reduceIte, hq, remaining, hcons, blockSpace, he.writes, hne]
        simp; omega
      · simp only [work, hfull, ↓reduceIte, remaining, hcons]
        omega
  · exact ⟨_, rfl, by rw [hw]; simp [work]⟩

theorem remaining_pos_of_src {s : State} (hb : s.BlockReady) (hs : s.blockSpace = .src) : s.params.block ≤ s.remaining := by
  rcases hb with ⟨h1, -, -⟩ | ⟨h1, h2⟩ | ⟨h1, h2, h3⟩
  · simp [blockSpace, h1] at hs
  · simp only [blockSpace, h1] at hs
    split at hs
    · rename_i h0; rw [← h2, h0]; omega
    · cases hs
  · exact h3

theorem packPayload_eq {s : State} {payload : List Byte} (ha : s.alloc = true)
    (h : s.stageLen + 8 + payload.length ≤ s.params.stageSize) :
    s.packPayload payload = .ok { s with
      stg := s.stgPacked payload
      history := s.history ++ [.crcReq s.blockSpace s.blockLen]
      pending := .checksum payload.length } := by
  unfold packPayload
  rw [stgWrite_eq ha h]
  simp only [bind, Except.bind]
  rw [stgWrite_eq (by exact ha) (by simp only [List.length_singleton]; omega)]
  simp only
  rw [stgWrite_eq (by exact ha) (by simp; omega)]
  rfl

theorem packChecksum_eq {s : State} {cl : Nat} {crc : Word} (ha : s.alloc = true)
    (h : s.stageLen + 8 + cl ≤ s.params.stageSize) :
    s.packChecksum cl crc = .ok (s.stgChecksummed cl crc).blockTaken := by
  unfold packChecksum
  rw [stgWrite_eq (by simpa using ha) (by simp; omega)]
  rfl

theorem payload_fits {s : State} (h : s.BaseInv) (he : s.EmitInv) {n : Nat}
    (hn : n ≤ s.params.maxComp.bound s.blockLen) : s.stageLen + 8 + n ≤ s.params.stageSize := by
  have hbl := blockLen_bounds he.block (paramsWf_block h.paramsWf)
  have hm := bound_mono (paramsWf_monotone h.paramsWf) hbl.2 (Nat.le_refl _)
  have hdue := preambleDue_le s
  have := he.stageBase
  rw [stageSize_eq]; omega

theorem compressAnswered_progress {s : State} (h : s.BaseInv) (he : s.EmitInv) (hf : s.fsm = .emit)
    (hq : s.pending = .compressor) : ∃ t, compressAnswered s.blockBytes s = .moved t ∧ t.work < s.work := by
  have hB := paramsWf_block h.paramsWf
  have hpos : 0 < s.work := by
    simp only [work, hf, hq]
    split
    · rename_i hs; have := remaining_pos_of_src he.block hs; omega
    · omega
  have hfail : ∀ u : State, (u.raise .compress).work < s.work := fun u => by
    have : (u.raise .compress).work = 0 := by simp [work]
    omega
  unfold compressAnswered
  split
  · exact ⟨_, rfl, hfail _⟩
  · rename_i payload _
    split
    · exact ⟨_, rfl, hfail _⟩
    · rename_i hle
      simp only [length_blockBytes] at hle
      have hfit := payload_fits h he (n := payload.length) (by omega)
      rw [packPayload_eq (by simpa using he.lease.leased) (by simpa using hfit)]
      refine ⟨_, rfl, ?_⟩
      have hw : s.work = (if s.blockSpace = .src then 6 * s.remaining - 1 else 6 * s.remaining + 5) := by
        unfold work; rw [hf, hq]
      rw [hw]
      unfold work
      simp only [stgScribble_fsm, answered_fsm, hf]
      show (if s.blockSpace = .src then 6 * s.remaining - 2 else 6 * s.remaining + 4) <
        (if s.blockSpace = .src then 6 * s.remaining - 1 else 6 * s.remaining + 5)
      split
      · rename_i hs; have := remaining_pos_of_src he.block hs; omega
      · omega

theorem packChecksum_progress {s : State} (h : s.BaseInv) (he : s.EmitInv) (hf : s.fsm = .emit) {cl : Nat}
    (hq : s.pending = .checksum cl) (hcl : cl ≤ s.params.maxComp.bound s.params.block) (crc : Word) :
    ∃ t, s.packChecksum cl crc = .ok t ∧ t.work < s.work := by
  have hB := paramsWf_block h.paramsWf
  have hdue := preambleDue_le s
  have hst := he.stageBase
  rw [packChecksum_eq he.lease.leased (by rw [stageSize_eq]; omega)]
  refine ⟨_, rfl, ?_⟩
  have hbs : (s.stgChecksummed cl crc).blockSpace = s.blockSpace := rfl
  simp only [work, hf, hq]
  unfold blockTaken
  rw [hbs]
  cases hs : s.blockSpace with
  | src =>
    have hrem := remaining_pos_of_src he.block hs
    have hrem' : s.remaining = s.cur.len.toNat - s.consumed.toNat := rfl
    have hcons := consumed_add (s := s) (k := s.params.block) (by omega)
    simp only [stgChecksummed, remaining, hcons, ↓reduceIte]
    omega
  | acc => simp [stgChecksummed, remaining]
  | stg => simp [stgChecksummed, remaining]

theorem work_afterDrain (s : State) : s.afterDrain.work ≤ 6 * s.remaining + 1 := by
  unfold afterDrain
  split
  · split
    · unfold checkpoint
      split
      · simp [work]
      · simp [work, remaining]
    · simp [work, remaining]
  · simp [work]
  · simp [work]

theorem drainStep_progress {s : State} (h : s.BaseInv) (he : s.DrainInv) (hf : s.fsm = .drain) (hq : s.pending = .none) :
    ∃ t, drainStep s = .moved t ∧ t.work < s.work := by
  have hw : s.work = 6 * s.remaining + 3 := by simp [work, hf, hq]
  unfold drainStep
  split
  · exact ⟨_, rfl, by have := work_afterDrain s; omega⟩
  · have hst := h.stageRoom
    rw [memRead_eq (by simp [hasAddresses, he.lease.leased]; omega)]
    exact ⟨_, rfl, by rw [hw]; simp [work, hf, remaining]⟩

theorem sinkStep_progress {s : State} (h : s.BaseInv) (he : s.DrainInv) (hf : s.fsm = .drain) (hq : s.pending = .sink)
    (hne : s.sinkAnswers ≠ []) : ∃ t, sinkStep s = .moved t ∧ t.work < s.work := by
  have hw : s.work = 6 * s.remaining + 2 := by simp [work, hf, hq]
  unfold sinkStep
  split
  · rename_i h0; exact absurd h0 hne
  · rename_i a rest _
    have hst := h.stageRoom
    rw [memRead_eq (by simp [hasAddresses, he.lease.leased]; omega)]
    refine ⟨_, rfl, ?_⟩
    rw [hw]
    cases a with
    | ok =>
      simp only [sinkAnswered]
      have := work_afterDrain ((({ s with sinkAnswers := rest } : State).answered (.sinkAnswer true)).delivered
        ((s.buffer .stg).bytes 0 s.stageLen))
      simp only [remaining, delivered_cur, delivered_consumed, answered_cur, answered_consumed] at this ⊢
      omega
    | err k => simp [sinkAnswered, work]

/-- A step of the sequencer in a safe state: it moves and makes progress, or it waits for an agent; it never faults. -/
theorem tick_progress {s : State} (h : s.Inv) (hb : s.busy = true) :
    (∃ t, tick s = .moved t ∧ t.work < s.work) ∨ (tick s = .waits ∧ s.Waiting) := by
  obtain ⟨hbase, hp⟩ := h
  unfold tick
  cases hf : s.fsm with
  | idle => simp only [hf] at hp; have := hp.idle; rw [hb] at this; cases this
  | ensure =>
    simp only [hf] at hp
    rcases hp.asks with hq | ⟨hq, ha⟩
    · rw [hq]; exact .inl (ensureStep_progress hbase hp hf hq)
    · rw [hq]
      by_cases h0 : s.poolAnswers = []
      · right; exact ⟨by simp [poolStep, h0], .inl ⟨hq, h0⟩⟩
      · exact .inl (poolStep_progress hf hq h0)
  | segment =>
    simp only [hf] at hp
    rw [hp.quiet]; exact .inl (segmentStep_progress hbase hp hf)
  | emit =>
    simp only [hf] at hp
    have hblk := block_exists hp.block hp.lease.leased (paramsWf_block hbase.paramsWf) hp.lease.run.consumedLe
    rcases hp.asks with hq | hq | ⟨cl, hq, hc⟩
    · rw [hq]; left
      refine ⟨_, rfl, ?_⟩
      simp only [work, request_fsm, hf, request_pending, hq]
      show (if s.blockSpace = .src then 6 * s.remaining - 1 else 6 * s.remaining + 5) <
        (if s.blockSpace = .src then 6 * s.remaining else 6 * s.remaining + 6)
      split
      · rename_i hs
        have := remaining_pos_of_src hp.block hs
        have := paramsWf_block hbase.paramsWf
        omega
      · omega
    · rw [hq]
      simp only [compressorStep, hblk]
      cases hr : s.compressorReady
      · right; exact ⟨by simp, .inr (.inl ⟨hq, hr⟩)⟩
      · left; exact compressAnswered_progress hbase hp hf hq
    · rw [hq]
      simp only [checksumStep, hblk]
      cases hr : s.checksumReady
      · right; exact ⟨by simp, .inr (.inr (.inl ⟨cl, hq, hr⟩))⟩
      · left
        obtain ⟨t, h1, h2⟩ := packChecksum_progress hbase hp hf hq hc.1 (s.params.maskedCrc s.blockBytes)
        exact ⟨t, by simp [h1, Progress.of], h2⟩
  | drain =>
    simp only [hf] at hp
    rcases hp.asks with hq | ⟨hq, h0⟩
    · rw [hq]; exact .inl (drainStep_progress hbase hp hf hq)
    · rw [hq]
      by_cases hs : s.sinkAnswers = []
      · right; exact ⟨by simp [sinkStep, hs], .inr (.inr (.inr ⟨hq, hs⟩))⟩
      · exact .inl (sinkStep_progress hbase hp hf hq hs)

/-- A run long enough ends the command or waits; it never faults. -/
theorem run_ends {n : Nat} {s : State} (h : s.Inv) (hn : s.work ≤ n) :
    ∃ t, run n s = .next t ∧ t.Inv ∧ (t.busy = false ∨ (t.busy = true ∧ t.Waiting)) := by
  induction n generalizing s with
  | zero =>
    refine ⟨s, rfl, h, ?_⟩
    cases hb : s.busy
    · exact .inl rfl
    · rcases tick_progress h hb with ⟨t, -, ht⟩ | ⟨-, hw⟩
      · omega
      · exact .inr ⟨rfl, hw⟩
  | succ n ih =>
    cases hb : s.busy
    · exact ⟨s, run_idle _ hb, h, .inl hb⟩
    · rcases tick_progress h hb with ⟨t, ht, hlt⟩ | ⟨ht, hw⟩
      · rw [run_moved hb ht]
        exact ih (tick_keeps_inv h ht) (by omega)
      · exact ⟨s, run_waits _ ht, h, .inr ⟨hb, hw⟩⟩

/-- Where the sequencer runs without pause a command in progress ends or waits; it never faults. -/
theorem resume_ends {s : State} (h : s.Inv) (he : s.eager = true) :
    ∃ t, resume s = .next t ∧ t.Inv ∧ (t.busy = false ∨ (t.busy = true ∧ t.Waiting)) := by
  unfold resume
  rw [if_pos he]
  exact run_ends h (work_le_fuel s)

end Sys2Proof.Machine
end

