-- ==== Sys2Proof/Laws/World.lean ====
section
/-! SUPPORT. The moves of the world outside: what `nextMove` answers for each input, and that a change of the world
outside keeps a safe state safe. -/

namespace Sys2Proof.Machine

open State

theorem oneTick_keeps_safe {s t : State} (hs : s.Safe) (ht : oneTick s = .next t) : t.Safe :=
  run_keeps (fun _ _ hs _ hu => tick_keeps_safe hs hu) 1 hs ht

/-- Safety reads none of the fields of the world outside, and of SRC only what a running WRITE form reads. -/
theorem safe_world {s t : State} (hs : s.Safe) (h1 : t.params = s.params) (h2 : t.alloc = s.alloc) (h3 : t.hdrWritten = s.hdrWritten)
   (h4 : t.disposed = s.disposed) (h5 : t.poisoned = s.poisoned) (h6 : t.busy = s.busy) (h7 : t.err = s.err) (h8 : t.fsm = s.fsm)
   (h9 : t.accLen = s.accLen) (h10 : t.stageLen = s.stageLen) (h11 : t.consumed = s.consumed) (h12 : t.cur = s.cur)
   (h13 : t.acc = s.acc) (h14 : t.stg = s.stg) (h15 : t.src.mem.wf = true) (h16 : t.pending = s.pending) (h17 : t.sinkStream = s.sinkStream)
   (h18 : t.src = s.src ∨ (s.busy = false ∨ s.cur.op ≠ .write)) : t.Safe := by
  obtain ⟨⟨hb, hp⟩, hfr⟩ := hs
  have hdue : t.preambleDue = s.preambleDue := by simp [preambleDue, h17]
  have hrun : s.Running → t.Running := fun hr => hr.congr h6 h4 h5 h12 (by rw [h11, h12]; exact hr.consumedLe)
  have hlease : s.Leased → t.Leased := fun hl => ⟨hrun hl.run, h2 ▸ hl.leased, h3 ▸ hl.hdr⟩
  refine ⟨⟨hb.congr h1 h13 h14 h15 (h7 ▸ hb.errCode) h9 h10 h3 h2 h4 h17, ?_⟩, ?_⟩
  · rw [h8]
    cases hf : s.fsm <;> simp only [hf] at hp ⊢
    · exact ⟨h6 ▸ hp.idle, h16 ▸ hp.quiet, by rw [h4, h2, h9, h10]; exact hp.disposedClear, by rw [h2, h3]; exact hp.leased, by rw [h5, h9, h1]; exact hp.accPart, by rw [h5, h4, h3, h10, hdue]; exact hp.stageBase⟩
    · exact ⟨hrun hp.run, by rw [h16, h2]; exact hp.asks, by rw [h9, h1]; exact hp.accPart, by rw [h3, h10, hdue]; exact hp.stageBase⟩
    · exact ⟨hlease hp.lease, h16 ▸ hp.quiet, h12 ▸ hp.writes, by rw [h9, h1]; exact hp.accPart, by rw [h10, hdue]; exact hp.stageBase⟩
    · refine ⟨hlease hp.lease, ?_, ?_, by rw [h10, hdue]; exact hp.stageBase⟩
      · simp only [HeaderWritten, h16, h1, h10, h14]; exact hp.asks
      · simp only [BlockReady, remaining, h12, h9, h1, h11]; exact hp.block
    · exact ⟨hlease hp.lease, by rw [h16, h10]; exact hp.asks, by rw [h9, h1]; exact hp.accPart, by rw [h10, hdue]; exact hp.stageBase, by rw [h12, h10, hdue]; exact hp.chunkStaged,
        by rw [h12, h9]; exact hp.flushed⟩
  · have hst : t.staged = s.staged := by simp [staged, h14, h10]
    refine ⟨?_, ?_, ?_, ?_⟩
    · rw [h5, h17, h1]; exact hfr.delivered
    · rw [h5, h2, h3, h17, h1, hst]; exact hfr.whole
    · rw [h17, h1]; exact hfr.front
    · intro cl hc
      rw [h16] at hc
      have hblk : t.blockBytes = s.blockBytes := by
        rcases h18 with h | h
        · exact blockBytes_congr h12 h9 h11 h1 h13 h
        · cases hf : s.fsm <;> simp only [hf] at hp
          · rw [hp.quiet] at hc; cases hc
          · rcases hp.asks with h | ⟨h, -⟩ <;> rw [h] at hc <;> cases hc
          · rw [hp.quiet] at hc; cases hc
          · rcases h with h | h
            · have := hp.lease.run.busy; rw [h] at this; cases this
            · have hs : s.blockSpace = .acc := by
                unfold blockSpace; cases hop : s.cur.op <;> simp_all
              have ht : t.blockSpace = .acc := by
                unfold blockSpace; rw [h12]; cases hop : s.cur.op <;> simp_all
              simp [blockBytes, blockStart, blockLen, hs, ht, buffer, h13, h9]
          · rcases hp.asks with h | ⟨h, -⟩ <;> rw [h] at hc <;> cases hc
      obtain ⟨p, a1, a2, a3, a4, a5⟩ := hfr.header cl hc
      exact ⟨p, a1, by rw [h1, hblk]; exact a2, by rw [h14, h10, h1]; exact a3, by rw [h14, h10]; exact a4, by rw [h14, h10]; exact a5⟩

/-! ### What `nextMove` answers -/

section
variable {s : State} (hw : s.params.wf = true)
include hw

theorem nextMove_nil (hin : s.inputs = []) : nextMove s = .settled (if s.eager then resume s else oneTick s) := by
  simp [nextMove, hw, hin]

theorem nextMove_csrWrite {a w : Nat} {v : Word} {rest : List Input} (hin : s.inputs = .csrWrite a w v :: rest) :
    nextMove s = csrWrite a w v { s with inputs := rest } := by simp [nextMove, hw, hin]

theorem nextMove_csrRead {a w : Nat} {rest : List Input} (hin : s.inputs = .csrRead a w :: rest) :
    nextMove s = .settled (csrRead a w { s with inputs := rest }) := by simp [nextMove, hw, hin]

theorem nextMove_lend {d : List Byte} {rest : List Input} (hin : s.inputs = .lend d :: rest) :
    nextMove s = .settled (lendSrc d { s with inputs := rest }) := by simp [nextMove, hw, hin]

theorem nextMove_cancel {v : Bool} {rest : List Input} (hin : s.inputs = .cancel v :: rest) :
    nextMove s = .settled (.next { s with inputs := rest, cancelReq := v }) := by simp [nextMove, hw, hin]

theorem nextMove_construct {rest : List Input} (hin : s.inputs = .construct :: rest) :
    nextMove s = .settled (constructInstance { s with inputs := rest }) := by simp [nextMove, hw, hin]

theorem nextMove_pool {a : PoolAnswer} {rest : List Input} (hin : s.inputs = .pool a :: rest) :
    nextMove s = .settled (resume { s with inputs := rest, poolAnswers := s.poolAnswers ++ [a] }) := by
  simp [nextMove, hw, hin]

theorem nextMove_sink {a : SinkAnswer} {rest : List Input} (hin : s.inputs = .sink a :: rest) :
    nextMove s = .settled (resume { s with inputs := rest, sinkAnswers := s.sinkAnswers ++ [a] }) := by
  simp [nextMove, hw, hin]

theorem nextMove_compressor {r : Bool} {rest : List Input} (hin : s.inputs = .compressor r :: rest) :
    nextMove s = .settled (resume { s with inputs := rest, compressorReady := r }) := by simp [nextMove, hw, hin]

theorem nextMove_checksum {r : Bool} {rest : List Input} (hin : s.inputs = .checksum r :: rest) :
    nextMove s = .settled (resume { s with inputs := rest, checksumReady := r }) := by simp [nextMove, hw, hin]

theorem nextMove_pace {e : Bool} {rest : List Input} (hin : s.inputs = .pace e :: rest) :
    nextMove s = .settled (resume { s with inputs := rest, eager := e }) := by simp [nextMove, hw, hin]

theorem nextMove_tick {rest : List Input} (hin : s.inputs = .tick :: rest) :
    nextMove s = .settled (oneTick { s with inputs := rest }) := by simp [nextMove, hw, hin]

end

end Sys2Proof.Machine
end

