-- ==== Sys2Proof/Laws/Chunk.lean ====
section
/-! SUPPORT. EMIT and DRAIN as wholes, their agents answering: what three steps of EMIT leave (42_chunk_emit.md R166 to R168)
and what two steps of DRAIN leave (R174). -/

namespace Sys2Proof.Machine

open State

@[simp] theorem blockTaken_hist (s : State) : s.blockTaken.history = s.history := by
  unfold blockTaken; cases s.blockSpace <;> rfl
@[simp] theorem blockTaken_chunks (s : State) : s.blockTaken.chunks = s.chunks := by
  unfold blockTaken; cases s.blockSpace <;> rfl
@[simp] theorem blockTaken_fsm (s : State) : s.blockTaken.fsm = .drain := by
  unfold blockTaken; cases s.blockSpace <;> rfl
@[simp] theorem blockTaken_busy (s : State) : s.blockTaken.busy = s.busy := by
  unfold blockTaken; cases s.blockSpace <;> rfl

/-- What EMIT leaves of a state, its payload being `c` (42_chunk_emit.md R166 to R168, R177). -/
structure State.Emitted (s : State) (c : List Byte) (t : State) : Prop where
  params : t.params = s.params
  alloc : t.alloc = s.alloc
  hdrWritten : t.hdrWritten = s.hdrWritten
  disposed : t.disposed = s.disposed
  poisoned : t.poisoned = s.poisoned
  busy : t.busy = s.busy
  err : t.err = s.err
  fsm : t.fsm = .drain
  accLen : t.accLen = 0
  stageLen : t.stageLen = s.stageLen + 8 + c.length
  staged : t.staged = s.staged ++ s.params.chunk s.blockBytes c
  srcLen : t.srcLen = s.srcLen
  consumed : t.consumed = if s.blockSpace = .src then s.consumed + BitVec.ofNat 32 s.params.block else s.consumed
  chunks : t.chunks = s.chunks + 1#32
  cur : t.cur = s.cur
  acc : t.acc = s.acc
  src : t.src = s.src
  pending : t.pending = .none
  cancelReq : t.cancelReq = s.cancelReq
  sinkStream : t.sinkStream = s.sinkStream
  history : t.history = s.history ++ [.compressReq s.blockSpace s.blockLen (s.stageLen + 8), .compressAnswer (some c.length),
    .crcReq s.blockSpace s.blockLen, .crcAnswer (s.params.maskedCrc s.blockBytes)]
  inputs : t.inputs = s.inputs
  poolAnswers : t.poolAnswers = s.poolAnswers
  sinkAnswers : t.sinkAnswers = s.sinkAnswers
  compressorReady : t.compressorReady = s.compressorReady
  checksumReady : t.checksumReady = s.checksumReady
  eager : t.eager = s.eager
  readData : t.readData = s.readData

/-- The staging buffer while the checksum unit is asked for the block whose payload is `c`. -/
def State.stgAsked (s : State) (c : List Byte) : Buffer :=
  ({ s with stg := s.stg.scribble (s.stageLen + 8) s.params.stageSize s.draws } : State).stgPacked c

/-- The state in which the checksum unit has been asked for that block. -/
def State.checksumAsked (s : State) (c : List Byte) : State :=
  { s with
    stg := s.stgAsked c
    history := s.history ++ [.compressReq s.blockSpace s.blockLen (s.stageLen + 8)] ++ [.compressAnswer (some c.length)]
      ++ [.crcReq s.blockSpace s.blockLen]
    pending := .checksum c.length
    draws := s.draws + 1 }

/-- The state in which the chunk of the block stands in the staging buffer. -/
def State.chunkWritten (s : State) (c : List Byte) : State :=
  ((s.checksumAsked c).stgChecksummed c.length (s.params.maskedCrc s.blockBytes)).blockTaken

theorem blockSpace_of_emit {s : State} (hb : s.BlockReady) : s.blockSpace = .src ∧ s.accLen = 0 ∨ s.blockSpace = .acc := by
  rcases hb with ⟨h1, -, -⟩ | ⟨h1, -⟩ | ⟨h1, h2, -⟩
  · right; simp [blockSpace, h1]
  · by_cases h0 : s.accLen = 0
    · left; simp [blockSpace, h1, h0]
    · right; simp [blockSpace, h1, h0]
  · left; simp [blockSpace, h1, h2]

theorem staged_checksummed {s : State} (c : List Byte) (h : s.BaseInv) :
    ((s.checksumAsked c).stgChecksummed c.length (s.params.maskedCrc s.blockBytes)).staged
      = s.staged ++ s.params.chunk s.blockBytes c := by
  obtain ⟨f1, f2, f3⟩ := stgPacked_fields
    { s with stg := s.stg.scribble (s.stageLen + 8) s.params.stageSize s.draws } c
  have h1 := stgChecksummed_staged (s := s.checksumAsked c) s.blockBytes f1 f2 f3
  have h2 : (s.checksumAsked c).staged = s.staged := Buffer.bytes_congr fun i hi => by
    rw [Nat.zero_add]
    exact byte_packed_below (s := s)
      (u := { s with stg := s.stg.scribble (s.stageLen + 8) s.params.stageSize s.draws }) h rfl rfl hi
  rw [h2] at h1
  exact h1

theorem blockTaken_src {u : State} (h : u.blockSpace = .src) :
    u.blockTaken = { u with consumed := u.consumed + BitVec.ofNat 32 u.params.block, fsm := .drain } := by
  unfold blockTaken; rw [h]

theorem blockTaken_acc {u : State} (h : u.blockSpace = .acc) : u.blockTaken = { u with accLen := 0, fsm := .drain } := by
  unfold blockTaken; rw [h]

theorem chunkWritten_emitted {s : State} {c : List Byte} (h : s.BaseInv) (hb : s.BlockReady) : s.Emitted c (s.chunkWritten c) := by
  have hst := staged_checksummed c h
  have hhist : ((s.checksumAsked c).stgChecksummed c.length (s.params.maskedCrc s.blockBytes)).history =
      s.history ++ [.compressReq s.blockSpace s.blockLen (s.stageLen + 8), .compressAnswer (some c.length),
    .crcReq s.blockSpace s.blockLen, .crcAnswer (s.params.maskedCrc s.blockBytes)] := by
    simp [stgChecksummed, checksumAsked]
  unfold chunkWritten
  rcases blockSpace_of_emit hb with ⟨h1, h2⟩ | h1
  · rw [blockTaken_src (by exact h1)]
    simp only [stgChecksummed, checksumAsked] at hst hhist ⊢
    constructor
    case staged => exact hst
    case history => exact hhist
    case accLen => exact h2
    case consumed => rw [if_pos h1]
    all_goals rfl
  · rw [blockTaken_acc (by exact h1)]
    simp only [stgChecksummed, checksumAsked] at hst hhist ⊢
    constructor
    case staged => exact hst
    case history => exact hhist
    case consumed => rw [if_neg (by simp [h1])]
    all_goals rfl

theorem tick_emit {s : State} (hf : s.fsm = .emit) (hq : s.pending = .none) : tick s = emitStep s := by
  simp [tick, hf, hq]

theorem tick_compressor {s : State} (hf : s.fsm = .emit) (hq : s.pending = .compressor) : tick s = compressorStep s := by
  simp [tick, hf, hq]

theorem tick_checksum {s : State} {cl : Nat} (hf : s.fsm = .emit) (hq : s.pending = .checksum cl) :
    tick s = checksumStep cl s := by
  simp [tick, hf, hq]

theorem tick_drain {s : State} (hf : s.fsm = .drain) (hq : s.pending = .none) : tick s = drainStep s := by
  simp [tick, hf, hq]

theorem tick_sink {s : State} (hf : s.fsm = .drain) (hq : s.pending = .sink) : tick s = sinkStep s := by
  simp [tick, hf, hq]

theorem compressorStep_asks {s : State} {c : List Byte} (ha : s.alloc = true) (hcr : s.compressorReady = true)
    (hblk : s.block = .ok s.blockBytes) (hc : s.params.compress s.blockBytes = some c)
    (hle : c.length ≤ s.params.maxComp.bound s.blockLen) (hfit : s.stageLen + 8 + c.length ≤ s.params.stageSize) :
    compressorStep s = .moved { s with
      stg := s.stgAsked c
      history := s.history ++ [.compressAnswer (some c.length)] ++ [.crcReq s.blockSpace s.blockLen]
      pending := .checksum c.length
      draws := s.draws + 1 } := by
  unfold compressorStep
  rw [if_pos hcr, hblk]
  simp only [compressAnswered, hc]
  rw [if_neg (by simp; omega), packPayload_eq (by simpa using ha) (by simpa using hfit)]
  rfl

theorem checksumStep_writes {s : State} {c : List Byte} (ha : s.alloc = true) (hkr : s.checksumReady = true)
    (hblk : s.block = .ok s.blockBytes) (hfit : s.stageLen + 8 + c.length ≤ s.params.stageSize) :
    checksumStep c.length s = .moved (s.stgChecksummed c.length (s.params.maskedCrc s.blockBytes)).blockTaken := by
  unfold checksumStep
  rw [if_pos hkr, hblk]
  simp only
  rw [packChecksum_eq ha hfit]
  rfl

/-- EMIT, the compressor and the checksum unit answering: three steps leave the chunk in the staging buffer. -/
theorem emit_runs {s : State} (h : s.Inv) (hf : s.fsm = .emit) (hq : s.pending = .none) (hcr : s.compressorReady = true)
    (hkr : s.checksumReady = true) {c : List Byte} (hc : s.params.compress s.blockBytes = some c)
    (hle : c.length ≤ s.params.maxComp.bound s.blockLen) :
    s.Emitted c (s.chunkWritten c) ∧ (s.chunkWritten c).Inv ∧ ∀ n, run (n + 3) s = run n (s.chunkWritten c) := by
  have he : s.EmitInv := by obtain ⟨-, hp⟩ := h; simpa only [hf] using hp
  have hblk := block_exists he.block he.lease.leased (paramsWf_block h.1.paramsWf) he.lease.run.consumedLe
  have hb := he.lease.run.busy
  have hfit := payload_fits h.1 he hle
  have h1 : tick s = .moved (s.request .compressor (.compressReq s.blockSpace s.blockLen (s.stageLen + 8))) :=
    tick_emit hf hq
  have h2 : tick (s.request .compressor (.compressReq s.blockSpace s.blockLen (s.stageLen + 8)))
      = .moved (s.checksumAsked c) :=
    (tick_compressor (by simpa using hf) rfl).trans
      (compressorStep_asks (s := s.request .compressor (.compressReq s.blockSpace s.blockLen (s.stageLen + 8)))
        he.lease.leased hcr hblk hc hle hfit)
  have hblk2 : (s.checksumAsked c).blockBytes = s.blockBytes := blockBytes_congr rfl rfl rfl rfl rfl rfl
  have h3 : tick (s.checksumAsked c) = .moved (s.chunkWritten c) := by
    have hi := tick_keeps_inv (tick_keeps_inv h h1) h2
    have he2 : (s.checksumAsked c).EmitInv := by
      obtain ⟨-, hp⟩ := hi
      have hf2 : (s.checksumAsked c).fsm = .emit := hf
      simpa only [hf2] using hp
    have hb2 := block_exists he2.block he2.lease.leased (paramsWf_block hi.1.paramsWf) he2.lease.run.consumedLe
    rw [tick_checksum (s := s.checksumAsked c) (cl := c.length) hf rfl,
      checksumStep_writes (s := s.checksumAsked c) he.lease.leased hkr hb2 hfit, hblk2]
    rfl
  refine ⟨chunkWritten_emitted h.1 he.block, tick_keeps_inv (tick_keeps_inv (tick_keeps_inv h h1) h2) h3, fun n => ?_⟩
  rw [run_moved hb h1, run_moved (by simpa using hb) h2, run_moved (s := s.checksumAsked c) hb h3]

/-- The state after an accepted transfer of all that is staged, before what follows DRAIN. -/
def State.transferred (s : State) (rest : List SinkAnswer) : State :=
  (({ s.request .sink (.sinkTransfer s.staged) with sinkAnswers := rest } : State).answered (.sinkAnswer true)).delivered s.staged

@[simp] theorem transferred_cur (s : State) (rest : List SinkAnswer) : (s.transferred rest).cur = s.cur := by simp [transferred]
@[simp] theorem transferred_cancelReq (s : State) (rest : List SinkAnswer) :
    (s.transferred rest).cancelReq = s.cancelReq := by simp [transferred]

/-- DRAIN, the sink accepting: two steps deliver all that is staged. -/
theorem drain_runs {s : State} (h : s.Inv) (hf : s.fsm = .drain) (hq : s.pending = .none) (h0 : 0 < s.stageLen)
    {rest : List SinkAnswer} (ha : s.sinkAnswers = .ok :: rest) :
    (s.transferred rest).afterDrain.Inv ∧ ∀ n, run (n + 2) s = run n (s.transferred rest).afterDrain := by
  have he : s.DrainInv := by obtain ⟨-, hp⟩ := h; simpa only [hf] using hp
  have hb := he.lease.run.busy
  have hr := h.1.stageRoom
  have hmem : s.memRead .stg 0 s.stageLen = .ok s.staged :=
    memRead_eq (by simp [hasAddresses, he.lease.leased]; omega)
  have h1 : tick s = .moved (s.request .sink (.sinkTransfer s.staged)) := by
    rw [tick_drain hf hq, drainStep, if_neg (by omega), hmem]
  have h2 : tick (s.request .sink (.sinkTransfer s.staged)) = .moved (s.transferred rest).afterDrain := by
    rw [tick_sink (by simpa using hf) rfl, sinkStep]
    simp only [request_sinkAnswers, ha]
    rw [show (s.request .sink (.sinkTransfer s.staged)).memRead .stg 0 (s.request .sink (.sinkTransfer s.staged)).stageLen
      = .ok s.staged from hmem]
    rfl
  refine ⟨tick_keeps_inv (tick_keeps_inv h h1) h2, fun n => ?_⟩
  rw [run_moved hb h1, run_moved (by simpa using hb) h2]

end Sys2Proof.Machine
end

