-- ==== Sys2Proof/Laws/WriteRun.lean ====
section
/-! SUPPORT. The loop of the WRITE forms as a whole (40_write.md R110, R112), its agents answering and no check point
cancelling: what it leaves. -/

namespace Sys2Proof.Machine

open State

/-- What one turn of the loop that emits a chunk leaves, from EMIT on. -/
structure State.ChunkDone (s : State) (c : List Byte) (rest : List SinkAnswer) (t : State) : Prop where
  params : t.params = s.params
  alloc : t.alloc = s.alloc
  hdrWritten : t.hdrWritten = s.hdrWritten
  disposed : t.disposed = s.disposed
  poisoned : t.poisoned = s.poisoned
  busy : t.busy = s.busy
  err : t.err = s.err
  fsm : t.fsm = .segment
  accLen : t.accLen = 0
  stageLen : t.stageLen = 0
  srcLen : t.srcLen = s.srcLen
  consumed : t.consumed = if s.blockSpace = .src then s.consumed + BitVec.ofNat 32 s.params.block else s.consumed
  chunks : t.chunks = s.chunks + 1#32
  cur : t.cur = s.cur
  acc : t.acc = s.acc
  src : t.src = s.src
  pending : t.pending = .none
  sinkStream : t.sinkStream = s.sinkStream ++ s.staged ++ s.params.chunk s.blockBytes c
  transfers : t.transfers = s.transfers + 1
  sinkAnswers : t.sinkAnswers = rest
  sameCancel : t.cancelReq = s.cancelReq
  sameInputs : t.inputs = s.inputs
  samePool : t.poolAnswers = s.poolAnswers
  sameCompressor : t.compressorReady = s.compressorReady
  sameChecksum : t.checksumReady = s.checksumReady
  sameEager : t.eager = s.eager
  sameRead : t.readData = s.readData

/-- No check point of this command cancels it. -/
def State.Uncancelled (s : State) : Prop := s.cur.async = false ∨ s.cancelReq = false

theorem transfers_append (s : State) {l : List Event} {u : State} (h : u.history = s.history ++ l) :
    u.transfers = s.transfers + l.countP Event.isTransfer := by
  simp [transfers, h]

theorem afterDrain_write {s : State} (hop : s.cur.op = .write) (hu : s.Uncancelled) :
    ∃ l, s.afterDrain = { s with fsm := .segment, history := s.history ++ l } ∧
      l.countP Event.isTransfer = 0 := by
  unfold afterDrain
  rw [hop]
  simp only
  split
  · rename_i hc
    have ha : s.cur.async = true := by simp at hc; exact hc.1
    rcases hu with h | h
    · rw [ha] at h; cases h
    · exact ⟨[.cancelSampled s.cancelReq], by simp [checkpoint, h, log], rfl⟩
  · exact ⟨[], by simp, rfl⟩

/-- One chunk of a WRITE form: five steps from EMIT to the next SEGMENT. -/
theorem chunk_runs {s : State} (h : s.Inv) (hf : s.fsm = .emit) (hq : s.pending = .none) (hop : s.cur.op = .write)
    (hu : s.Uncancelled) (hcr : s.compressorReady = true) (hkr : s.checksumReady = true) {c : List Byte}
    (hc : s.params.compress s.blockBytes = some c) (hle : c.length ≤ s.params.maxComp.bound s.blockLen)
    {rest : List SinkAnswer} (ha : s.sinkAnswers = .ok :: rest) :
    ∃ t, s.ChunkDone c rest t ∧ t.Inv ∧ ∀ n, run (n + 5) s = run n t := by
  obtain ⟨he, hi, hr⟩ := emit_runs h hf hq hcr hkr hc hle
  generalize s.chunkWritten c = e at he hi hr
  have hst := he.stageLen
  obtain ⟨hi2, hr2⟩ := drain_runs hi he.fsm he.pending (by omega) (by rw [he.sinkAnswers]; exact ha)
  have hop2 : (e.transferred rest).cur.op = .write := by
    rw [transferred_cur, he.cur]; exact hop
  have hu2 : (e.transferred rest).Uncancelled := by
    unfold Uncancelled
    rw [transferred_cur, transferred_cancelReq, he.cur, he.cancelReq]; exact hu
  obtain ⟨l, hl, hcnt⟩ := afterDrain_write hop2 hu2
  refine ⟨_, ?_, hi2, fun n => by rw [show n + 5 = (n + 2) + 3 from rfl, hr, hr2]⟩
  have htr : (e.history ++ [Event.sinkTransfer e.staged] ++ [Event.sinkAnswer true] ++ l).countP Event.isTransfer = s.transfers + 1 := by
    rw [he.history]
    simp only [List.countP_append, hcnt]
    simp [List.countP_cons, transfers, Event.isTransfer]
  have hss : e.sinkStream ++ e.staged = s.sinkStream ++ s.staged ++ s.params.chunk s.blockBytes c := by
    rw [he.sinkStream, he.staged, List.append_assoc]
  rw [hl]
  simp only [transferred, delivered, answered, request, log]
  constructor
  case transfers => exact htr
  case sinkStream => exact hss
  case fsm => rfl
  case stageLen => rfl
  case pending => rfl
  case sinkAnswers => rfl
  case params => exact he.params
  case alloc => exact he.alloc
  case hdrWritten => exact he.hdrWritten
  case disposed => exact he.disposed
  case poisoned => exact he.poisoned
  case busy => exact he.busy
  case err => exact he.err
  case accLen => exact he.accLen
  case srcLen => exact he.srcLen
  case consumed => exact he.consumed
  case chunks => exact he.chunks
  case cur => exact he.cur
  case acc => exact he.acc
  case src => exact he.src
  case sameCancel => exact he.cancelReq
  case sameInputs => exact he.inputs
  case samePool => exact he.poolAnswers
  case sameCompressor => exact he.compressorReady
  case sameChecksum => exact he.checksumReady
  case sameEager => exact he.eager
  case sameRead => exact he.readData

/-- The input that the loop still has to put into the stream: what is accumulated and what is not consumed. -/
def State.ahead (s : State) : List Byte := s.accumulated ++ s.src.bytes s.consumed.toNat s.remaining

/-- What the loop of a WRITE form leaves, from a SEGMENT on, the blocks ahead being `blks`. -/
structure State.LoopDone (s : State) (rest : List SinkAnswer) (t : State) : Prop where
  ended : t.Ended
  err : t.err = s.err
  poisoned : t.poisoned = s.poisoned
  disposed : t.disposed = s.disposed
  alloc : t.alloc = s.alloc
  hdrWritten : t.hdrWritten = s.hdrWritten
  params : t.params = s.params
  srcLen : t.srcLen = s.srcLen
  consumed : t.consumed = s.cur.len
  chunks : t.chunks = s.chunks + BitVec.ofNat 32 (fullBlocks s.params.block s.ahead).length
  accLen : t.accLen = s.ahead.length % s.params.block
  accumulated : t.accumulated = tailBytes s.params.block s.ahead
  stageLen : t.stageLen = if fullBlocks s.params.block s.ahead = [] then s.stageLen else 0
  sinkStream : t.sinkStream = s.sinkStream ++ (if fullBlocks s.params.block s.ahead = [] then []
    else s.staged ++ s.params.wire ((fullBlocks s.params.block s.ahead).map s.params.withPayload))
  transfers : t.transfers = s.transfers + (fullBlocks s.params.block s.ahead).length
  sinkAnswers : t.sinkAnswers = rest
  sameCancel : t.cancelReq = s.cancelReq
  sameInputs : t.inputs = s.inputs
  samePool : t.poolAnswers = s.poolAnswers
  sameCompressor : t.compressorReady = s.compressorReady
  sameChecksum : t.checksumReady = s.checksumReady
  sameEager : t.eager = s.eager
  sameRead : t.readData = s.readData

theorem tick_segment {s : State} (hf : s.fsm = .segment) (hq : s.pending = .none) : tick s = segmentStep s := by
  simp [tick, hf, hq]

/-- The loop goes on, after a chunk, with what lies behind its block. -/
theorem LoopDone.afterChunk {s e u t : State} {c : List Byte} {rest as : List SinkAnswer}
    (hB : 0 < s.params.block) (hlen : s.params.block ≤ s.ahead.length)
    (hcd : e.ChunkDone c as u) (hl : u.LoopDone rest t)
    (hpar : e.params = s.params) (hblk : e.blockBytes = s.ahead.take s.params.block)
    (hc : s.params.compress (s.ahead.take s.params.block) = some c)
    (hu : u.ahead = s.ahead.drop s.params.block)
    (hsame : e.err = s.err ∧ e.poisoned = s.poisoned ∧ e.disposed = s.disposed ∧ e.alloc = s.alloc ∧
      e.hdrWritten = s.hdrWritten ∧ e.srcLen = s.srcLen ∧ e.chunks = s.chunks ∧ e.cur = s.cur ∧ e.staged = s.staged ∧
      e.sinkStream = s.sinkStream ∧ e.transfers = s.transfers)
    (hworld : e.cancelReq = s.cancelReq ∧ e.inputs = s.inputs ∧ e.poolAnswers = s.poolAnswers ∧
      e.compressorReady = s.compressorReady ∧ e.checksumReady = s.checksumReady ∧ e.eager = s.eager ∧
      e.readData = s.readData) : s.LoopDone rest t := by
  obtain ⟨h1, h2, h3, h4, h5, h6, h7, h8, h9, h10, h11⟩ := hsame
  obtain ⟨w1, w2, w3, w4, w5, w6, w7⟩ := hworld
  have hup : u.params = s.params := hcd.params.trans hpar
  have hfb := fullBlocks_of_le hB hlen
  have hust : u.staged = [] := by simp [staged, hcd.stageLen]
  have hchunk : s.params.wire [s.params.withPayload (s.ahead.take s.params.block)]
      = s.params.chunk (s.ahead.take s.params.block) c := by
    simp [Params.wire, Params.withPayload, hc]
  have hsink : u.sinkStream = s.sinkStream ++ s.staged ++ s.params.chunk (s.ahead.take s.params.block) c := by
    rw [hcd.sinkStream, h10, h9, hpar, hblk]
  constructor
  case ended => exact hl.ended
  case err => rw [hl.err, hcd.err, h1]
  case poisoned => rw [hl.poisoned, hcd.poisoned, h2]
  case disposed => rw [hl.disposed, hcd.disposed, h3]
  case alloc => rw [hl.alloc, hcd.alloc, h4]
  case hdrWritten => rw [hl.hdrWritten, hcd.hdrWritten, h5]
  case params => rw [hl.params, hup]
  case srcLen => rw [hl.srcLen, hcd.srcLen, h6]
  case consumed => rw [hl.consumed, hcd.cur, h8]
  case chunks =>
    rw [hl.chunks, hcd.chunks, h7, hup, hu, hfb, List.length_cons, BitVec.ofNat_add, BitVec.add_assoc,
      BitVec.add_comm (1#32)]
  case accLen => rw [hl.accLen, hup, hu, List.length_drop, ← Nat.mod_eq_sub_mod hlen]
  case accumulated => rw [hl.accumulated, hup, hu, tailBytes_of_le hB hlen]
  case stageLen => rw [hl.stageLen, hcd.stageLen, hfb]; simp
  case sinkStream =>
    rw [hl.sinkStream, hsink, hup, hu, hust, hfb, if_neg (List.cons_ne_nil _ _), List.map_cons,
      ← List.singleton_append (l := List.map _ _), Params.wire_append, hchunk]
    by_cases h0 : fullBlocks s.params.block (s.ahead.drop s.params.block) = []
    · simp [h0, Params.wire]
    · simp [h0]
  case transfers => rw [hl.transfers, hcd.transfers, h11, hup, hu, hfb, List.length_cons]; omega
  case sinkAnswers => exact hl.sinkAnswers
  case sameCancel => rw [hl.sameCancel, hcd.sameCancel, w1]
  case sameInputs => rw [hl.sameInputs, hcd.sameInputs, w2]
  case samePool => rw [hl.samePool, hcd.samePool, w3]
  case sameCompressor => rw [hl.sameCompressor, hcd.sameCompressor, w4]
  case sameChecksum => rw [hl.sameChecksum, hcd.sameChecksum, w5]
  case sameEager => rw [hl.sameEager, hcd.sameEager, w6]
  case sameRead => rw [hl.sameRead, hcd.sameRead, w7]

/-- The end of the loop: nothing is left to consume. -/
theorem loop_ends {s : State} (h : s.Inv) (hf : s.fsm = .segment) (h0 : s.remaining = 0) (n : Nat) :
    run (n + 1) s = .next s.complete ∧ s.LoopDone s.sinkAnswers s.complete := by
  have he : s.SegmentInv := by obtain ⟨-, hp⟩ := h; simpa only [hf] using hp
  have hle := he.lease.run.consumedLe he.writes
  have hrem : s.remaining = s.cur.len.toNat - s.consumed.toNat := rfl
  have hcons : s.consumed = s.cur.len := BitVec.eq_of_toNat_eq (by omega)
  have hah : s.ahead = s.accumulated := by simp [ahead, h0]
  have hlen : s.ahead.length = s.accLen := by simp [hah, accumulated]
  have hlt : s.ahead.length < s.params.block := by rw [hlen]; exact he.accPart
  have ht : tick s = .moved s.complete := by
    rw [tick_segment hf he.quiet, segmentStep, if_neg (by rw [hcons]; omega)]
  refine ⟨by rw [run_moved he.lease.run.busy ht, run_idle n (by simp)], ?_⟩
  have hfb := fullBlocks_of_lt hlt
  constructor
  case ended => exact ⟨by simp, by simp, by simp⟩
  case consumed => simpa using hcons
  case chunks => simp [hfb]
  case accLen => rw [complete_accLen, Nat.mod_eq_of_lt hlt, hlen]
  case accumulated =>
    rw [tailBytes_of_lt hlt, hah]; simp [accumulated]
  case stageLen => rw [hfb]; simp
  case sinkStream => rw [hfb]; simp
  case transfers =>
    rw [hfb, transfers_append s (u := s.complete) (l := [.done s.err]) (by simp)]
    simp [Event.isTransfer]
  all_goals simp

/-- A turn of the copy path that fills no block changes nothing of what the loop leaves. -/
theorem LoopDone.afterCopy {s v t : State} {rest : List SinkAnswer} (hl : v.LoopDone rest t) (hpar : v.params = s.params)
    (hahead : v.ahead = s.ahead) (hcur : v.cur = s.cur)
    (hsame : v.err = s.err ∧ v.poisoned = s.poisoned ∧ v.disposed = s.disposed ∧ v.alloc = s.alloc ∧
      v.hdrWritten = s.hdrWritten ∧ v.srcLen = s.srcLen ∧ v.chunks = s.chunks ∧ v.stageLen = s.stageLen ∧
      v.staged = s.staged ∧ v.sinkStream = s.sinkStream ∧ v.transfers = s.transfers)
    (hworld : v.cancelReq = s.cancelReq ∧ v.inputs = s.inputs ∧ v.poolAnswers = s.poolAnswers ∧
      v.compressorReady = s.compressorReady ∧ v.checksumReady = s.checksumReady ∧ v.eager = s.eager ∧
      v.readData = s.readData) : s.LoopDone rest t := by
  obtain ⟨h1, h2, h3, h4, h5, h6, h7, h8, h9, h10, h11⟩ := hsame
  obtain ⟨w1, w2, w3, w4, w5, w6, w7⟩ := hworld
  constructor
  case ended => exact hl.ended
  case err => rw [hl.err, h1]
  case poisoned => rw [hl.poisoned, h2]
  case disposed => rw [hl.disposed, h3]
  case alloc => rw [hl.alloc, h4]
  case hdrWritten => rw [hl.hdrWritten, h5]
  case params => rw [hl.params, hpar]
  case srcLen => rw [hl.srcLen, h6]
  case consumed => rw [hl.consumed, hcur]
  case chunks => rw [hl.chunks, h7, hpar, hahead]
  case accLen => rw [hl.accLen, hpar, hahead]
  case accumulated => rw [hl.accumulated, hpar, hahead]
  case stageLen => rw [hl.stageLen, hpar, hahead, h8]
  case sinkStream => rw [hl.sinkStream, hpar, hahead, h9, h10]
  case transfers => rw [hl.transfers, hpar, hahead, h11]
  case sinkAnswers => exact hl.sinkAnswers
  case sameCancel => rw [hl.sameCancel, w1]
  case sameInputs => rw [hl.sameInputs, w2]
  case samePool => rw [hl.samePool, w3]
  case sameCompressor => rw [hl.sameCompressor, w4]
  case sameChecksum => rw [hl.sameChecksum, w5]
  case sameEager => rw [hl.sameEager, w6]
  case sameRead => rw [hl.sameRead, w7]

theorem bytes_from (b : Buffer) (a m n : Nat) (h : m ≤ n) : b.bytes a n = b.bytes a m ++ b.bytes (a + m) (n - m) := by
  rw [← Buffer.bytes_append, Nat.add_sub_cancel' h]

/-- The loop of a WRITE form from a SEGMENT on. -/
theorem loop_runs {rest : List SinkAnswer} {s : State} (h : s.Inv) (hf : s.fsm = .segment) (hu : s.Uncancelled)
    (hcr : s.compressorReady = true) (hkr : s.checksumReady = true)
    (hc : Compresses s.params (fullBlocks s.params.block s.ahead))
    (ha : s.sinkAnswers = List.replicate (fullBlocks s.params.block s.ahead).length .ok ++ rest)
    {n : Nat} (hn : 6 * s.remaining + 1 ≤ n) : ∃ t, run n s = .next t ∧ s.LoopDone rest t := by
  induction hrk : s.remaining using Nat.strong_induction_on generalizing s n with
  | _ r ih =>
  subst hrk
  have he : s.SegmentInv := by obtain ⟨-, hp⟩ := h; simpa only [hf] using hp
  have hB := paramsWf_block h.1.paramsWf
  have hrem : s.remaining = s.cur.len.toNat - s.consumed.toNat := rfl
  have hb := he.lease.run.busy
  have hacc := he.accPart
  by_cases h0 : s.remaining = 0
  · obtain ⟨m, rfl⟩ : ∃ m, n = m + 1 := ⟨n - 1, by omega⟩
    obtain ⟨h1, h2⟩ := loop_ends h hf h0 m
    have hlen : s.ahead.length = s.accLen := by simp [ahead, accumulated, h0]
    rw [fullBlocks_of_lt (by omega)] at ha
    simp only [List.length_nil, List.replicate_zero, List.nil_append] at ha
    exact ⟨_, h1, ha ▸ h2⟩
  have hlt : s.consumed.toNat < s.cur.len.toNat := by omega
  have hlenA : s.ahead.length = s.accLen + s.remaining := by simp [ahead, accumulated]
  by_cases hfast : s.accLen = 0 ∧ s.params.block ≤ s.remaining
  · have ht : tick s = .moved { s with fsm := .emit } := by
      rw [tick_segment hf he.quiet, segmentStep, if_pos hlt, if_pos hfast]
    have hi := tick_keeps_inv h ht
    have hca : s.consumed.toNat + s.params.block ≤ s.cur.len.toNat := by omega
    have hsp : ({ s with fsm := .emit } : State).blockSpace = .src := by simp [blockSpace, he.writes, hfast.1]
    have hbl : ({ s with fsm := .emit } : State).blockLen = s.params.block := by simp [blockLen, hsp]
    have hahead : s.ahead = s.src.bytes s.consumed.toNat s.remaining := by simp [ahead, accumulated, hfast.1]
    have hsplit := bytes_from s.src s.consumed.toNat s.params.block s.remaining hfast.2
    have hblk : ({ s with fsm := .emit } : State).blockBytes = s.ahead.take s.params.block := by
      rw [hahead, hsplit, List.take_append_of_le_length (by simp), List.take_of_length_le (by simp)]
      simp [blockBytes, hsp, hbl, buffer, blockStart]
    have hfb := fullBlocks_of_le hB (bs := s.ahead) (by omega)
    obtain ⟨c, hc1, hc2⟩ := hc (s.ahead.take s.params.block) (by rw [hfb]; simp)
    rw [hfb] at ha
    obtain ⟨u, hcd, hui, hur⟩ := chunk_runs (s := { s with fsm := .emit }) hi rfl he.quiet he.writes hu hcr hkr
      (by rw [hblk]; exact hc1) (by rw [hbl]; simpa [hlenA, hfast] using hc2) ha
    have hucons : u.consumed.toNat = s.consumed.toNat + s.params.block := by
      rw [hcd.consumed, if_pos hsp]; exact consumed_add hca
    have hurem : u.remaining = s.remaining - s.params.block := by
      rw [remaining, hcd.cur, hucons, hrem]
      show s.cur.len.toNat - _ = _
      omega
    have huahead : u.ahead = s.ahead.drop s.params.block := by
      rw [hahead, hsplit, List.drop_append_of_le_length (by simp), List.drop_of_length_le (by simp)]
      simp [ahead, accumulated, hcd.accLen, hcd.src, hucons, hurem]
    have hup : u.params = s.params := hcd.params
    obtain ⟨m, rfl⟩ : ∃ m, n = m + 1 + 5 := ⟨n - 6, by omega⟩
    obtain ⟨t, ht1, ht2⟩ := ih u.remaining (by omega) hui hcd.fsm
      (by unfold Uncancelled; rw [hcd.cur, hcd.sameCancel]; exact hu) (hcd.sameCompressor.trans hcr) (hcd.sameChecksum.trans hkr)
      (by rw [hup, huahead]; exact fun b hb => hc b (by rw [hfb]; exact List.mem_cons_of_mem _ hb))
      (by rw [hup, huahead]; exact hcd.sinkAnswers) (n := m) (by omega) rfl
    refine ⟨t, by rw [show m + 1 + 5 = (m + 5) + 1 from rfl, run_moved hb ht, hur, ht1], ?_⟩
    exact LoopDone.afterChunk hB (by omega) hcd ht2 rfl hblk hc1 huahead
      ⟨rfl, rfl, rfl, rfl, rfl, rfl, rfl, rfl, rfl, rfl, rfl⟩ ⟨rfl, rfl, rfl, rfl, rfl, rfl, rfl⟩
  obtain ⟨v, hv⟩ : ∃ v : State, v = { s with
      acc := s.acc.write s.accLen (s.src.bytes s.consumed.toNat s.copyLen)
      accLen := s.accLen + s.copyLen
      consumed := s.consumed + BitVec.ofNat 32 s.copyLen
      fsm := if s.accLen + s.copyLen = s.params.block then .emit else .segment } := ⟨_, rfl⟩
  have ht : tick s = .moved v := by
    rw [tick_segment hf he.quiet, segmentStep, if_pos hlt, if_neg hfast, copyToAcc_eq he, hv]; rfl
  obtain ⟨hk1, hk2⟩ := copyLen_le s
  have hkpos : 1 ≤ s.copyLen := by simp only [copyLen]; omega
  have hi := tick_keeps_inv h ht
  have hvpar : v.params = s.params := by rw [hv]
  have hvcur : v.cur = s.cur := by rw [hv]
  have hvsrc : v.src = s.src := by rw [hv]
  have hvacc : v.accLen = s.accLen + s.copyLen := by rw [hv]
  have hvcons : v.consumed.toNat = s.consumed.toNat + s.copyLen := by
    rw [hv]; exact consumed_add (by omega)
  have hvrem : v.remaining = s.remaining - s.copyLen := by
    rw [remaining, hvcur, hvcons, hrem]; omega
  have hvaccd : v.accumulated = s.accumulated ++ s.src.bytes s.consumed.toNat s.copyLen := by
    have h1 : v.acc = s.acc.write s.accLen (s.src.bytes s.consumed.toNat s.copyLen) := by rw [hv]
    have h2 := Buffer.bytes_write_same s.acc s.accLen (s.src.bytes s.consumed.toNat s.copyLen)
    rw [Buffer.length_bytes] at h2
    rw [accumulated, hvacc, h1, Buffer.bytes_append, Nat.zero_add, h2,
      Buffer.bytes_write_outside (by omega)]
    rfl
  have hahead : s.ahead = v.accumulated ++ v.src.bytes v.consumed.toNat v.remaining := by
    rw [hvaccd, hvsrc, hvcons, hvrem, List.append_assoc, ← bytes_from _ _ _ _ hk1]; rfl
  have hsame : v.err = s.err ∧ v.poisoned = s.poisoned ∧ v.disposed = s.disposed ∧ v.alloc = s.alloc ∧
      v.hdrWritten = s.hdrWritten ∧ v.srcLen = s.srcLen ∧ v.chunks = s.chunks ∧ v.stageLen = s.stageLen ∧
      v.staged = s.staged ∧ v.sinkStream = s.sinkStream ∧ v.transfers = s.transfers := by
    rw [hv]; exact ⟨rfl, rfl, rfl, rfl, rfl, rfl, rfl, rfl, rfl, rfl, rfl⟩
  have hworld : v.cancelReq = s.cancelReq ∧ v.inputs = s.inputs ∧ v.poolAnswers = s.poolAnswers ∧
      v.compressorReady = s.compressorReady ∧ v.checksumReady = s.checksumReady ∧ v.eager = s.eager ∧
      v.readData = s.readData := by
    rw [hv]; exact ⟨rfl, rfl, rfl, rfl, rfl, rfl, rfl⟩
  have hvq : v.pending = .none := by rw [hv]; exact he.quiet
  have hvsink : v.sinkAnswers = s.sinkAnswers := by rw [hv]
  have hvu : v.Uncancelled := by unfold Uncancelled; rw [hvcur, hworld.1]; exact hu
  by_cases hfull : s.accLen + s.copyLen = s.params.block
  · have hvf : v.fsm = .emit := by rw [hv]; exact if_pos hfull
    have hvop : v.cur.op = .write := by rw [hvcur]; exact he.writes
    have hsp : v.blockSpace = .acc := by
      simp only [blockSpace, hvop, hvacc, hfull]; rw [if_neg (by omega)]
    have hbl : v.blockLen = s.params.block := by simp [blockLen, hsp, hvacc, hfull]
    have hblk : v.blockBytes = s.ahead.take s.params.block := by
      have : v.blockBytes = v.accumulated := by simp [blockBytes, hsp, hbl, buffer, blockStart, accumulated, hvacc, hfull]
      rw [this, hahead, List.take_append_of_le_length (by simp [accumulated, hvacc, hfull]),
        List.take_of_length_le (by simp [accumulated, hvacc, hfull])]
    have hfb := fullBlocks_of_le hB (bs := s.ahead) (by omega)
    obtain ⟨c, hc1, hc2⟩ := hc (s.ahead.take s.params.block) (by rw [hfb]; simp)
    have hlenT : (s.ahead.take s.params.block).length = s.params.block := by rw [List.length_take]; omega
    rw [hlenT] at hc2
    rw [hfb] at ha
    obtain ⟨u, hcd, hui, hur⟩ := chunk_runs hi hvf hvq hvop hvu (hworld.2.2.2.1.trans hcr) (hworld.2.2.2.2.1.trans hkr)
      (by rw [hvpar, hblk]; exact hc1) (by rw [hbl, hvpar]; exact hc2) (hvsink.trans ha)
    have hucons : u.consumed = v.consumed := by rw [hcd.consumed, if_neg (by simp [hsp])]
    have hurem : u.remaining = v.remaining := by rw [remaining, hcd.cur, hucons]; rfl
    have huahead : u.ahead = s.ahead.drop s.params.block := by
      rw [hahead, List.drop_append_of_le_length (by simp [accumulated, hvacc, hfull]),
        List.drop_of_length_le (by simp [accumulated, hvacc, hfull])]
      simp [ahead, accumulated, hcd.accLen, hcd.src, hucons, hurem]
    have hup : u.params = s.params := hcd.params.trans hvpar
    obtain ⟨m, rfl⟩ : ∃ m, n = m + 1 + 5 := ⟨n - 6, by omega⟩
    obtain ⟨t, ht1, ht2⟩ := ih u.remaining (by omega) hui hcd.fsm
      (by unfold Uncancelled; rw [hcd.cur, hcd.sameCancel]; exact hvu)
      (hcd.sameCompressor.trans (hworld.2.2.2.1.trans hcr)) (hcd.sameChecksum.trans (hworld.2.2.2.2.1.trans hkr))
      (by rw [hup, huahead]; exact fun b hb => hc b (by rw [hfb]; exact List.mem_cons_of_mem _ hb))
      (by rw [hup, huahead]; exact hcd.sinkAnswers) (n := m) (by omega) rfl
    refine ⟨t, by rw [show m + 1 + 5 = (m + 5) + 1 from rfl, run_moved hb ht, hur, ht1], ?_⟩
    exact LoopDone.afterChunk hB (by omega) hcd ht2 hvpar hblk hc1 huahead
      ⟨hsame.1, hsame.2.1, hsame.2.2.1, hsame.2.2.2.1, hsame.2.2.2.2.1, hsame.2.2.2.2.2.1, hsame.2.2.2.2.2.2.1, hvcur,
        hsame.2.2.2.2.2.2.2.2⟩ hworld
  · have hvf : v.fsm = .segment := by rw [hv]; exact if_neg hfull
    have hall : s.copyLen = s.remaining := by
      simp only [copyLen] at hfull hk2 ⊢; omega
    have hvrem0 : v.remaining = 0 := by omega
    have hlast : v.ahead = s.ahead := hahead.symm
    have hlen2 : s.ahead.length < s.params.block := by omega
    obtain ⟨m, rfl⟩ : ∃ m, n = m + 1 + 1 := ⟨n - 2, by omega⟩
    obtain ⟨h1, h2⟩ := loop_ends hi hvf hvrem0 m
    rw [fullBlocks_of_lt hlen2] at ha
    simp only [List.length_nil, List.replicate_zero, List.nil_append] at ha
    refine ⟨_, by rw [run_moved hb ht, h1], ?_⟩
    rw [hvsink, ha] at h2
    exact LoopDone.afterCopy h2 hvpar hlast hvcur hsame hworld

end Sys2Proof.Machine
end

