-- ==== Sys2Proof/Laws/CommandRun.lean ====
section
/-! SUPPORT. ENSURE as a whole, the pool granting (43_lifecycle.md R190 to R192), and the steps of a FLUSH form behind it
(41_flush.md R140): what they leave. -/

namespace Sys2Proof.Machine

open State

theorem tick_ensure {s : State} (hf : s.fsm = .ensure) (hq : s.pending = .none) : tick s = ensureStep s := by
  simp [tick, hf, hq]

theorem tick_pool {s : State} (hf : s.fsm = .ensure) (hq : s.pending = .pool) : tick s = poolStep s := by
  simp [tick, hf, hq]

/-- A stream of one preamble's length is the preamble. -/
theorem IsStream.eq_preamble {p : Params} {bs : List Byte} (h : p.IsStream bs) (hl : bs.length = p.preamble.length) :
    bs = p.preamble := by
  obtain ⟨cs, -, rfl⟩ := h
  cases cs with
  | nil => simp [Params.wire]
  | cons c cs =>
    simp [Params.wire, Params.length_chunk] at hl

/-- What ENSURE leaves. -/
structure State.Ensured (s t : State) : Prop where
  params : t.params = s.params
  alloc : t.alloc = true
  hdrWritten : t.hdrWritten = true
  disposed : t.disposed = s.disposed
  poisoned : t.poisoned = s.poisoned
  busy : t.busy = s.busy
  err : t.err = s.err
  fsm : t.fsm = s.afterEnsure
  accLen : t.accLen = s.accLen
  accumulated : t.accumulated = s.accumulated
  stageLen : t.stageLen = s.preambleDue
  staged : t.staged = s.duePreamble
  srcLen : t.srcLen = s.srcLen
  consumed : t.consumed = s.consumed
  chunks : t.chunks = s.chunks
  cur : t.cur = s.cur
  src : t.src = s.src
  pending : t.pending = .none
  sinkStream : t.sinkStream = s.sinkStream
  history : t.history = s.history ++ (if s.alloc then [] else
    [.poolAcquire s.params.block s.params.stageSize, .poolAnswer .granted])
  sinkAnswers : t.sinkAnswers = s.sinkAnswers
  pool : t.poolAnswers = if s.alloc then s.poolAnswers else s.poolAnswers.tail
  sameCancel : t.cancelReq = s.cancelReq
  sameInputs : t.inputs = s.inputs
  sameCompressor : t.compressorReady = s.compressorReady
  sameChecksum : t.checksumReady = s.checksumReady
  sameEager : t.eager = s.eager
  sameRead : t.readData = s.readData

/-- ENSURE with the preamble already staged: one step. -/
theorem ensure_done {s : State} (h : s.Safe) (hf : s.fsm = .ensure) (hq : s.pending = .none) (ha : s.alloc = true)
    (hh : s.hdrWritten = true) : s.Ensured { s with fsm := s.afterEnsure } ∧ tick s = .moved { s with fsm := s.afterEnsure } := by
  have he : s.EnsureInv := by obtain ⟨⟨-, hp⟩, -⟩ := h; simpa only [hf] using hp
  have hst := he.stageBase hh
  have hstaged : s.staged = s.duePreamble := by
    unfold duePreamble
    by_cases h0 : s.sinkStream = []
    · rw [if_pos h0]
      have hw := h.2.whole he.run.sound ha hh
      rw [h0, List.nil_append] at hw
      refine IsStream.eq_preamble hw ?_
      rw [staged, Buffer.length_bytes, hst, preambleDue, if_pos h0, paramsWf_preamble h.1.1.paramsWf]; rfl
    · rw [if_neg h0, staged, hst, preambleDue_of_ne h0]; rfl
  refine ⟨?_, by rw [tick_ensure hf hq, ensureStep, if_pos ha, if_pos hh]⟩
  constructor
  case alloc => exact ha
  case hdrWritten => exact hh
  case stageLen => exact hst
  case staged => exact hstaged
  case pending => exact hq
  case history => simp [ha]
  case pool => simp [ha]
  all_goals rfl

/-- What a first ENSURE leaves, the pool granting. -/
def State.freshlyEnsured (s : State) (rest : List PoolAnswer) : State :=
  { s with
    poolAnswers := rest
    history := s.history ++ [.poolAcquire s.params.block s.params.stageSize] ++ [.poolAnswer .granted]
    pending := .none
    acc := .fresh s.draws
    stg := (Buffer.fresh (s.draws + 1)).write 0 s.params.preamble
    draws := s.draws + 2
    alloc := true
    stageLen := preLen
    hdrWritten := true
    fsm := s.afterEnsure }

theorem freshlyEnsured_ensured {s : State} {rest : List PoolAnswer} (h : s.BaseInv) (hd : s.disposed = false)
    (ha : s.alloc = false) (hrest : s.poolAnswers = .granted :: rest) : s.Ensured (s.freshlyEnsured rest) := by
  have hh := h.unleased ha hd
  obtain ⟨hacc0, -, hsink⟩ := h.unstaged hh
  have hpre := paramsWf_preamble h.paramsWf
  have hbytes : ((Buffer.fresh (s.draws + 1)).write 0 s.params.preamble).bytes 0 preLen = s.duePreamble := by
    have := Buffer.bytes_write_same (Buffer.fresh (s.draws + 1)) 0 s.params.preamble
    rw [hpre] at this
    rw [duePreamble, if_pos hsink]; exact this
  unfold freshlyEnsured
  constructor
  case staged => exact hbytes
  case history => simp [ha]
  case stageLen => rw [preambleDue, if_pos hsink]
  case accumulated => simp [accumulated, hacc0]
  case pool => simp [ha, hrest]
  all_goals rfl

theorem freshlyEnsured_runs {s : State} {rest : List PoolAnswer} (h : s.BaseInv) (hd : s.disposed = false)
    (hb : s.busy = true) (hf : s.fsm = .ensure) (hq : s.pending = .none) (ha : s.alloc = false)
    (hrest : s.poolAnswers = .granted :: rest) :
    ∃ g, tick s = .moved (s.request .pool (.poolAcquire s.params.block s.params.stageSize)) ∧
      tick (s.request .pool (.poolAcquire s.params.block s.params.stageSize)) = .moved g ∧ g.busy = true ∧
      tick g = .moved (s.freshlyEnsured rest) := by
  have hh := h.unleased ha hd
  have hpre := paramsWf_preamble h.paramsWf
  refine ⟨(s.request .pool (.poolAcquire s.params.block s.params.stageSize)).granted rest, ?_, ?_, hb, ?_⟩
  · rw [tick_ensure hf hq, ensureStep, if_neg (by simp [ha])]
  · rw [tick_pool (by simpa using hf) rfl, poolStep]
    simp only [request_poolAnswers, hrest]
    rfl
  · rw [tick_ensure (by exact hf) rfl, ensureStep, if_pos (by rfl), if_neg (by exact Bool.eq_false_iff.1 hh)]
    unfold stagePreamble
    have hsz : 0 + s.params.preamble.length ≤ s.params.stageSize := by rw [stageSize_eq]; omega
    rw [stgWrite_eq (by rfl) (by exact hsz)]
    rfl

/-- ENSURE: at most three steps, the pool granting. -/
theorem ensure_runs {s : State} (h : s.Safe) (hf : s.fsm = .ensure) (hq : s.pending = .none)
    (hp : s.alloc = true ∧ s.hdrWritten = true ∨ s.alloc = false ∧ ∃ rest, s.poolAnswers = .granted :: rest) :
    ∃ t k, s.Ensured t ∧ t.Safe ∧ k ≤ 3 ∧ ∀ n, run (n + k) s = run n t := by
  have he : s.EnsureInv := by obtain ⟨⟨-, hp⟩, -⟩ := h; simpa only [hf] using hp
  have hb := he.run.busy
  rcases hp with ⟨ha, hh⟩ | ⟨ha, rest, hrest⟩
  · obtain ⟨h1, h2⟩ := ensure_done h hf hq ha hh
    exact ⟨_, 1, h1, tick_keeps_safe h h2, by omega, fun n => run_moved hb h2⟩
  · obtain ⟨g, t1, t2, hgb, t3⟩ := freshlyEnsured_runs h.1.1 he.run.live hb hf hq ha hrest
    exact ⟨_, 3, freshlyEnsured_ensured h.1.1 he.run.live ha hrest,
      tick_keeps_safe (tick_keeps_safe (tick_keeps_safe h t1) t2) t3, by omega, fun n => by
        rw [show n + 3 = (n + 1 + 1) + 1 from rfl, run_moved hb t1, run_moved (by simpa using hb) t2, run_moved hgb t3]⟩

/-! ### The start of a WRITE or FLUSH form -/

/-- A WRITE or FLUSH form that has passed its acceptance checks and check point 0, at the start of ENSURE. -/
def State.started (i : Instr) (s : State) : State :=
  { s.accepted i with
    fsm := .ensure
    history := s.history ++ [.accept (encode i) s.srcLen] ++ (if i.async then [.cancelSampled false] else []) }

/-- A WRITE or FLUSH form with a sink, on a live and sound idle instance, not cancelled at check point 0, runs from
`started`. -/
theorem exec_form {i : Instr} {s : State} (hop : i.op ≠ .dispose) (hsnk : i.snk = true) (hw : s.params.wf = true)
    (hb : s.busy = false) (hd : s.disposed = false) (hp : s.poisoned = false) (hc : i.async = true → s.cancelReq = false) :
    exec i s = resume (s.started i) := by
  cases i with
  | write snk =>
    cases hsnk
    simp [exec, execWrite, acceptChecks_eq hw hb, hd, hp, Instr.snk, launch, started, accepted, opened, latch, log, Instr.async]
  | writeA snk =>
    cases hsnk
    simp [exec, execWriteA, acceptChecks_eq hw hb, hd, hp, Instr.snk, launchSuspendable, launch, started, accepted, opened,
      latch, log, Instr.async, hc rfl]
  | flush snk =>
    cases hsnk
    simp [exec, execFlush, acceptChecks_eq hw hb, hd, hp, Instr.snk, launch, started, accepted, opened, latch, log, Instr.async]
  | flushA snk =>
    cases hsnk
    simp [exec, execFlushA, acceptChecks_eq hw hb, hd, hp, Instr.snk, launchSuspendable, launch, started, accepted, opened,
      latch, log, Instr.async, hc rfl]
  | dispose snk => exact absurd rfl hop

theorem started_safe {i : Instr} {s : State} (h : s.Safe) (hop : i.op ≠ .dispose) (hb : s.busy = false)
    (hd : s.disposed = false) (hp : s.poisoned = false) : (s.started i).Safe := by
  obtain ⟨-, hi⟩ := h.1.idle_phase hb
  have hacc := accepted_base h.1.1 i
  have hrun := accepted_running i hd hp hop
  exact launched_safe
    (s := { s.accepted i with
      history := s.history ++ [.accept (encode i) s.srcLen] ++ (if i.async then [.cancelSampled false] else []) })
    (hacc.congr rfl rfl rfl hacc.srcWf hacc.errCode rfl rfl rfl rfl rfl rfl)
    ((accepted_framed h.2 hi.quiet i).congr rfl rfl id (fun _ h1 h2 => ⟨rfl, h1, h2⟩) (by simp [hi.quiet]))
    (hrun.congr rfl rfl rfl rfl hrun.consumedLe) hi.quiet (hi.accPart hp) (hi.stageBase hp hd)

end Sys2Proof.Machine
end

