-- ==== Sys2Proof/Laws/PerInstr.lean ====
section
/-! SUPPORT. One statement per command about its row of spec/opcode_table.json: the fixed bits of its word are the row's,
the word is its own, and it is well formed (30_encoding.md R80 to R90). -/

namespace Sys2Proof.Laws.TableRow

open Sys2Proof

/-- The fixed bits of the command's row: OPC and ASYNC with the reserved bits zero; SNK is free. -/
def matchBits : Instr → Word
  | .write _ => 0x00000001#32
  | .writeA _ => 0x00000011#32
  | .flush _ => 0x00000002#32
  | .flushA _ => 0x00000012#32
  | .dispose _ => 0x00000003#32

/-- The command is well formed, its word has the fixed bits of its row, and the decoder reads it from that word and from no
other. -/
def Statement (i : Instr) : Prop :=
  i.wf = true ∧ encode i &&& 0xFFFFFFDF#32 = matchBits i ∧ ∀ j : Instr, decode (encode j) = .ok i ↔ j = i

theorem write (snk : Bool) : Statement (.write snk) :=
  ⟨rfl, by cases snk <;> rfl, fun j => by cases j <;> rename_i b <;> cases b <;> cases snk <;> decide⟩

theorem writeA (snk : Bool) : Statement (.writeA snk) :=
  ⟨rfl, by cases snk <;> rfl, fun j => by cases j <;> rename_i b <;> cases b <;> cases snk <;> decide⟩

theorem flush (snk : Bool) : Statement (.flush snk) :=
  ⟨rfl, by cases snk <;> rfl, fun j => by cases j <;> rename_i b <;> cases b <;> cases snk <;> decide⟩

theorem flushA (snk : Bool) : Statement (.flushA snk) :=
  ⟨rfl, by cases snk <;> rfl, fun j => by cases j <;> rename_i b <;> cases b <;> cases snk <;> decide⟩

theorem dispose (snk : Bool) : Statement (.dispose snk) :=
  ⟨rfl, by cases snk <;> rfl, fun j => by cases j <;> rename_i b <;> cases b <;> cases snk <;> decide⟩

end Sys2Proof.Laws.TableRow
end

