-- ==== Sys2Proof/Machine/HostText.lean ====
section
/-! DEFINITION. The text of a host program (30_encoding.md R91): one command per line, read to the lines of Syntax.lean
(log entry 26). -/

namespace Sys2Proof

namespace HostText

/-- A blank. -/
def blank (c : Char) : Bool := c = ' ' || c = '\t' || c = '\r'

/-- The text behind its blanks. -/
def skip (cs : List Char) : List Char := cs.dropWhile blank

/-- The text up to the `;` that starts a comment; a `;` between quotes starts none
(DESIGN CHOICE, log entry 33). -/
def withoutComment : Bool → List Char → List Char
  | _, [] => []
  | quoted, c :: cs =>
    if c = ';' && !quoted then []
    else c :: withoutComment (if c = '"' then !quoted else quoted) cs

/-- A character of a name or a number. -/
def wordChar (c : Char) : Bool := c.isAlphanum || c = '.'

/-- The value of a digit in base 10 or 16. -/
def digit (base : Nat) (c : Char) : Option Nat :=
  let n := if '0' ≤ c ∧ c ≤ '9' then some (c.toNat - 48)
    else if 'a' ≤ c ∧ c ≤ 'f' then some (c.toNat - 87)
    else if 'A' ≤ c ∧ c ≤ 'F' then some (c.toNat - 55)
    else none
  n.filter (· < base)

/-- The number of a digit string, after `acc`. -/
def digits (base : Nat) : Nat → List Char → Option Nat
  | acc, [] => some acc
  | acc, c :: cs =>
    match digit base c with
    | some d => digits base (acc * base + d) cs
    | none => none

/-- A decimal or `0x`-hexadecimal number (30_encoding.md R91). -/
def number : List Char → Option Nat
  | '0' :: 'x' :: c :: cs => digits 16 0 (c :: cs)
  | c :: cs => digits 10 0 (c :: cs)
  | [] => none

/-- A number at the front of the text, and what follows it. -/
def frontNumber (cs : List Char) : Option (Nat × List Char) :=
  (number (cs.takeWhile wordChar)).map fun n => (n, cs.dropWhile wordChar)

/-- Hexadecimal pairs, blanks between them (00_scope.md R14). -/
def hexPairs : List Char → Option (List Byte)
  | [] => some []
  | c :: cs =>
    if blank c then hexPairs cs
    else
      match cs with
      | [] => none
      | d :: rest =>
        match digit 16 c, digit 16 d, hexPairs rest with
        | some h, some l, some bs => some (BitVec.ofNat 8 (h * 16 + l) :: bs)
        | _, _, _ => none

/-- The bytes of a quoted string: the codes of its characters. -/
def quotedBytes (cs : List Char) : Option (List Byte) :=
  if cs.all (fun c => decide (c.toNat < 128)) then some (cs.map fun c => BitVec.ofNat 8 c.toNat) else none

/-- Bytes written out, as a quoted string or as a list in braces, and what follows them. -/
def literalBytes : List Char → Option (List Byte × List Char)
  | [] => none
  | c :: cs =>
    if c = '"' then
      match cs.dropWhile (· ≠ '"') with
      | _ :: rest => (quotedBytes (cs.takeWhile (· ≠ '"'))).map fun bs => (bs, rest)
      | [] => none
    else if c = Char.ofNat 0x7B then
      match cs.dropWhile (· ≠ Char.ofNat 0x7D) with
      | _ :: rest => (hexPairs (cs.takeWhile (· ≠ Char.ofNat 0x7D))).map fun bs => (bs, rest)
      | [] => none
    else none

/-- `n` bytes of a pattern repeated; of an empty pattern, zeros (DESIGN CHOICE, log entry 33). -/
def repeated (pattern : List Byte) (n : Nat) : List Byte :=
  (List.range n).map fun i => pattern.getD (i % pattern.length) 0#8

/-- The text behind a closing parenthesis. -/
def closed (cs : List Char) : Option (List Char) :=
  match skip cs with
  | ')' :: rest => some rest
  | _ => none

/-- The input bytes of a WRITE line and what follows them (30_encoding.md R91); a line that names none lends none. -/
def inputBytes : List Char → Option (List Byte × List Char)
  | [] => some ([], [])
  | ',' :: rest => some ([], ',' :: rest)
  | 'z' :: 'e' :: 'r' :: 'o' :: 's' :: '(' :: cs => do
    let (n, cs) ← frontNumber (skip cs)
    let rest ← closed cs
    return (List.replicate n 0#8, rest)
  | 'b' :: 'y' :: 't' :: 'e' :: 's' :: '(' :: cs => do
    let (pattern, cs) ← literalBytes (skip cs)
    match skip cs with
    | ',' :: cs =>
      let (n, cs) ← frontNumber (skip cs)
      let rest ← closed cs
      return (repeated pattern n, rest)
    | _ => none
  | c :: cs => literalBytes (c :: cs)

/-- The end of a line: nothing, or `, nosink`. -/
def nosinkAtEnd (cs : List Char) : Option Bool :=
  match skip cs with
  | [] => some false
  | ',' :: rest =>
    if (skip rest).takeWhile wordChar = ['n', 'o', 's', 'i', 'n', 'k'] ∧ skip ((skip rest).dropWhile wordChar) = [] then
      some true
    else none
  | _ :: _ => none

/-- A WRITE line behind its mnemonic. -/
def writeLine (async : Bool) (cs : List Char) : Option Line := do
  let (len, cs) ← frontNumber (skip cs)
  let (data, cs) ← inputBytes (skip cs)
  let nosink ← nosinkAtEnd cs
  return .write async len data nosink

/-- A FLUSH line behind its mnemonic. -/
def flushLine (async : Bool) (cs : List Char) : Option Line := (nosinkAtEnd cs).map (.flush async)

/-- A line that is its mnemonic alone. -/
def bareLine (l : Line) (cs : List Char) : Option Line := if skip cs = [] then some l else none

/-- A DISPOSE line behind its mnemonic. The form of R91 has `, nosink` for every mnemonic and the expansion of R92 shows none for
DISPOSE: the model takes it and gives it no effect, the word being 0x00000003 with SNK = 0 either way (DESIGN CHOICE, log
entry 32). -/
def disposeLine (cs : List Char) : Option Line := (nosinkAtEnd cs).map fun _ => .dispose

/-- A line by its mnemonic (30_encoding.md R91, R92). -/
def lineOf (mnemonic cs : List Char) : Option Line :=
  if mnemonic = ['W', 'R', 'I', 'T', 'E'] then writeLine false cs
  else if mnemonic = ['W', 'R', 'I', 'T', 'E', '.', 'A'] then writeLine true cs
  else if mnemonic = ['F', 'L', 'U', 'S', 'H'] then flushLine false cs
  else if mnemonic = ['F', 'L', 'U', 'S', 'H', '.', 'A'] then flushLine true cs
  else if mnemonic = ['D', 'I', 'S', 'P', 'O', 'S', 'E'] then disposeLine cs
  else if mnemonic = ['W', 'A', 'I', 'T'] then bareLine .wait cs
  else if mnemonic = ['C', 'A', 'N', 'C', 'E', 'L'] then bareLine .cancel cs
  else if mnemonic = ['U', 'N', 'C', 'A', 'N', 'C', 'E', 'L'] then bareLine .uncancel cs
  else none

/-- The lines of one line of text: none where it is blank or a comment; `none` where it is not in the syntax. -/
def read (text : List Char) : Option (List Line) :=
  match skip (withoutComment false text) with
  | [] => some []
  | c :: cs => (lineOf ((c :: cs).takeWhile wordChar) ((c :: cs).dropWhile wordChar)).map fun l => [l]

/-- The text cut at its line ends. -/
def cut : List Char → List (List Char)
  | [] => [[]]
  | c :: cs =>
    if c = '\n' then [] :: cut cs
    else
      match cut cs with
      | [] => [[c]]
      | l :: ls => (c :: l) :: ls

/-- The lines of a program's text (30_encoding.md R91). -/
def program (text : List Char) : Option (List Line) := ((cut text).mapM read).map List.flatten

end HostText

/-- The CSR operations of a program's text (30_encoding.md R92), with `polls` reads for each `WAIT`. -/
def Params.assemble (p : Params) (polls : Nat) (text : List Char) : Option (List Machine.Input) :=
  (HostText.program text).map fun ls => ls.flatMap (p.expand polls)

end Sys2Proof
end

