-- ==== Sys2Proof/Tests/Slice0.lean ====
section
/-! SUPPORT. Tests of the decoder, the well-formedness checks and the commands, with the expected values of
95_test_vectors.md, and for every statement of Obligations.lean that has hypotheses a witness that meets them. -/

namespace Sys2Proof.Tests

open Sys2Proof.Machine Sys2Proof.Machine.State

/-! ### Well-formedness refuses -/

/-- The default parameters with `B = 4`. -/
def small : Params := { Params.default with block := 4 }

theorem test_small_wf : small.wf = true := by decide
theorem test_default_wf : Params.default.wf = true := by decide
theorem test_no_block_ill_formed : ({ small with block := 0 } : Params).wf = false := by decide
theorem test_short_preamble_ill_formed : ({ small with preamble := [0xFF#8] } : Params).wf = false := by decide
theorem test_falling_bound_ill_formed : ({ small with maxComp := .table [5, 4, 6, 7, 8] } : Params).wf = false := by decide
/-- 00_scope.md R8 at its edge: 2^24 - 4 is too large, 2^24 - 5 is not. -/
theorem test_bound_too_large : ({ small with maxComp := .table [0, 0, 0, 0, 16777212] } : Params).wf = false := by decide
theorem test_bound_just_fits : ({ small with maxComp := .table [0, 0, 0, 0, 16777211] } : Params).wf = true := by decide
theorem test_line_length_ill_formed : (Line.write false 3 [0x61#8] false).wf = false := by decide
theorem test_line_wf : (Line.write false 1 [0x61#8] false).wf = true := by decide

/-! ### The text of a host program (30_encoding.md R91) -/

theorem test_text_write :
    HostText.program "WRITE 3 \"abc\"".toList = some [.write false 3 [0x61#8, 0x62#8, 0x63#8] false] := by decide
theorem test_text_lines : HostText.program
    "FLUSH , nosink\nWRITE.A 0x4 zeros(4)   ; CSR[0x04] <- 4\n\nFLUSH.A\nDISPOSE\nCANCEL".toList =
    some [.flush false true, .write true 4 [0#8, 0#8, 0#8, 0#8] false, .flush true false, .dispose, .cancel] := by decide
theorem test_text_dispose : HostText.program "DISPOSE , nosink".toList = some [.dispose] := by decide
theorem test_text_rejects : HostText.program "WRITES 1".toList = none := by decide

/-! ### Decoding, the words of 30_encoding.md R80 written out: reserved, SNK, ASYNC, OPC -/

theorem test_decode_write : decode 0b00000000000000000000000000_1_0_0001#32 = .ok (.write true) := by decide
theorem test_decode_write_nosink : decode 0b00000000000000000000000000_0_0_0001#32 = .ok (.write false) := by decide
theorem test_decode_writeA : decode 0b00000000000000000000000000_1_1_0001#32 = .ok (.writeA true) := by decide
theorem test_decode_flush : decode 0b00000000000000000000000000_1_0_0010#32 = .ok (.flush true) := by decide
theorem test_decode_flushA : decode 0b00000000000000000000000000_0_1_0010#32 = .ok (.flushA false) := by decide
theorem test_decode_dispose : decode 0b00000000000000000000000000_0_0_0011#32 = .ok (.dispose false) := by decide
theorem test_decode_dispose_snk : decode 0b00000000000000000000000000_1_0_0011#32 = .ok (.dispose true) := by decide
/-- V27. -/
theorem test_reserved_bit : decode 0x00000061#32 = .error .reservedBits := by decide
theorem test_top_reserved_bit : decode 0x80000021#32 = .error .reservedBits := by decide
theorem test_opcode_0 : decode 0x00000000#32 = .error .reservedOpcode := by decide
theorem test_opcode_4 : decode 0x00000024#32 = .error .reservedOpcode := by decide
theorem test_opcode_f : decode 0x0000002F#32 = .error .reservedOpcode := by decide
theorem test_dispose_async : decode 0x00000013#32 = .error .disposeAsync := by decide
/-- The bytes of a word, least significant first (20_memory.md R56). -/
theorem test_bytes : decodeBytes [0x31#8, 0x00#8, 0x00#8, 0x00#8, 0x99#8] = .ok (.writeA true, [0x99#8]) := by decide
theorem test_three_bytes : decodeBytes [0x31#8, 0x00#8, 0x00#8] = .error .notOneWord := by decide
theorem test_table_word : decodeTableWord 32 0x12 = some (.flushA false) := by decide

/-! ### The checksum unit's default (95_test_vectors.md, conventions) -/

set_option maxRecDepth 4000 in
theorem test_crc_check_value :
    crc32c [0x31#8, 0x32#8, 0x33#8, 0x34#8, 0x35#8, 0x36#8, 0x37#8, 0x38#8, 0x39#8] = 0xE3069283#32 := by decide
theorem test_masked_empty : maskCrc (crc32c []) = 0xA282EAD8#32 := by decide
set_option maxRecDepth 4000 in
theorem test_masked_abc : maskCrc (crc32c [0x61#8, 0x62#8, 0x63#8]) = 0x21F1576E#32 := by decide

/-! ### The machine of the tests -/

/-- `a`, `b`, `c`, … -/
def a := 0x61#8
def b := 0x62#8
def c := 0x63#8
def d := 0x64#8

/-- `LIT` of the vectors. -/
def lit (bs : List Byte) : List Byte := BitVec.ofNat 8 bs.length :: BitVec.ofNat 8 ((bs.length - 1) * 4) :: bs

/-- `B = 4`; the compressor is `LIT` on the blocks of the tests, fails on `dddd`, and answers too much on `cccc` (V21). -/
def tiny : Params := { small with compressor := ⟨[([a, b, c, d], some (lit [a, b, c, d])), ([a], some (lit [a])),
  ([a, b], some (lit [a, b])), ([d, d, d, d], none), ([c, c, c, c], some (List.replicate 37 0x00#8))]⟩ }

theorem tiny_wf : tiny.wf = true := by decide

/-- A fresh machine with an input lent, its length in `SRC_LEN`, and agents that answer. -/
def fresh (data : List Byte) : State :=
  { State.reset with
    params := tiny
    src := (Buffer.fresh 0).write 0 data
    srcLen := BitVec.ofNat 32 data.length
    poolAnswers := [.granted]
    sinkAnswers := [.ok, .ok, .ok] }

/-- The state of an outcome that goes on. -/
def after : Host.Outcome State Fault Refusal → State
  | .next s => s
  | .fault _ => State.reset
  | .refused _ => State.reset

def goesOn : Host.Outcome State Fault Refusal → Bool
  | .next _ => true
  | .fault _ => false
  | .refused _ => false

theorem next_after {o : Host.Outcome State Fault Refusal} (h : goesOn o = true) : o = .next (after o) := by
  cases o with
  | next s => rfl
  | fault f => cases h
  | refused r => cases h

/-- What the tests look at: status, lengths, counters. -/
def seen (s : State) : Word × Nat × Nat × Word × Word := (s.status, s.accLen, s.stageLen, s.consumed, s.chunks)

/-! ### One or two tests for each command -/

set_option maxRecDepth 4000 in
/-- V7, with its block `abcd` of V11: one chunk by the fast path, behind the preamble. -/
theorem test_write_one_block :
    (after (exec (.write true) (fresh [a, b, c, d]))).sinkStream =
      [0xFF#8, 0x06#8, 0x00#8, 0x00#8, 0x73#8, 0x4E#8, 0x61#8, 0x50#8, 0x70#8, 0x59#8, 0x00#8, 0x0A#8, 0x00#8, 0x00#8,
        0x68#8, 0x10#8, 0xE6#8, 0xB6#8, 0x04#8, 0x0C#8, a, b, c, d] := by decide
/-- V12, its first command: the copy path, nothing delivered. -/
theorem test_write_copy : seen (after (exec (.write true) (fresh [a, b]))) = (0x00000006#32, 2, 10, 2#32, 0#32) := by decide
/-- V9: the cancellation rises while the first transfer is outstanding. -/
theorem test_writeA_chunk_boundary :
    seen (after (step { after (exec (.writeA true) { fresh [a, b, c, d, a, b] with sinkAnswers := [] }) with
      cancelReq := true, inputs := [.sink .ok] })) = (0x00000606#32, 0, 0, 4#32, 1#32) := by decide
/-- V10. -/
theorem test_writeA_check_point_0 :
    (after (exec (.writeA true) { fresh [a, b] with cancelReq := true })).status = 0x00000600#32 := by decide
/-- V6: the short block behind the undelivered preamble. -/
theorem test_flush_short_block :
    (after (exec (.flush true) (after (exec (.write true) (fresh [a]))))).sinkStream =
      [0xFF#8, 0x06#8, 0x00#8, 0x00#8, 0x73#8, 0x4E#8, 0x61#8, 0x50#8, 0x70#8, 0x59#8, 0x00#8, 0x07#8, 0x00#8, 0x00#8,
        0x78#8, 0x6E#8, 0xE4#8, 0x28#8, 0x01#8, 0x00#8, 0x61#8] := by decide
/-- V22: an empty payload; the length field is 4. -/
theorem test_flush_empty_payload :
    (after (exec (.flush true) (after (exec (.write true)
      { fresh [a] with params := { tiny with compressor := ⟨[([a], some [])]⟩ } })))).sinkStream =
      [0xFF#8, 0x06#8, 0x00#8, 0x00#8, 0x73#8, 0x4E#8, 0x61#8, 0x50#8, 0x70#8, 0x59#8, 0x00#8, 0x04#8, 0x00#8, 0x00#8,
        0x78#8, 0x6E#8, 0xE4#8, 0x28#8] := by decide
/-- V14 by the suspendable form. -/
theorem test_flushA_first :
    (after (exec (.flushA true) (fresh []))).sinkStream = tiny.preamble ∧
      seen (after (exec (.flushA true) (fresh []))) = (0x00000006#32, 0, 0, 0#32, 0#32) := by decide
/-- V18. -/
theorem test_flushA_cancelled :
    seen (after (exec (.flushA true) { after (exec (.write true) (fresh [a, b, c])) with cancelReq := true })) =
      (0x00000606#32, 3, 10, 0#32, 0#32) := by decide
/-- V24. -/
theorem test_dispose_fresh :
    (after (exec (.dispose true) (fresh []))).history = [.accept 0x00000023#32 0#32, .compressorTeardown, .done 0x00#8] ∧
      (after (exec (.dispose true) (fresh []))).status = 0x00000008#32 := by decide
/-- V25. -/
theorem test_dispose_discards :
    (after (exec (.dispose false) (after (exec (.write true) (fresh [a, b]))))).sinkStream = [] ∧
      seen (after (exec (.dispose false) (after (exec (.write true) (fresh [a, b]))))) =
        (0x0000000C#32, 0, 0, 0#32, 0#32) := by decide

/-! ### Errors -/

/-- V30. -/
theorem test_compress_fails :
    seen (after (exec (.write true) (fresh [d, d, d, d, a, b]))) = (0x00000416#32, 0, 10, 0#32, 0#32) := by decide
/-- V21. -/
theorem test_compress_over_long :
    (after (exec (.write true) (fresh [c, c, c, c]))).status = 0x00000416#32 := by decide
/-- V32. -/
theorem test_sink_fails :
    seen (after (exec (.write true) { fresh [a, b, c, d, a, b] with sinkAnswers := [.err 5] })) =
      (0x00000516#32, 0, 24, 4#32, 1#32) := by decide
/-- V33. -/
theorem test_pool_refuses :
    (after (exec (.flush true) { fresh [] with poolAnswers := [.refused] })).status = 0x00000810#32 := by decide
/-- V27. -/
theorem test_illegal_word : (after (step (State.reset.withFetchWord 32 0x61))).status = 0x00000100#32 := by decide
/-- V28. -/
theorem test_null_sink : (after (step (State.reset.withFetchWord 32 0x02))).status = 0x00000300#32 := by decide
/-- V29: disposed before null sink. -/
theorem test_priority :
    (after (exec (.write false) (after (exec (.dispose false) (fresh []))))).status = 0x00000208#32 := by decide

/-! ### Safe states -/

/-- An instance on which no command has leased anything, idle, is safe. -/
theorem unused_safe {s : State} (hw : s.params.wf = true) (hacc : s.acc.mem.wf = true) (hstg : s.stg.mem.wf = true)
    (hsrc : s.src.mem.wf = true) (herr : s.err.toNat ≤ 8) (h1 : s.accLen = 0) (h2 : s.stageLen = 0) (h3 : s.sinkStream = [])
    (h4 : s.alloc = false) (h5 : s.hdrWritten = false) (h6 : s.busy = false) (h7 : s.fsm = .idle) (h8 : s.pending = .none) :
    s.Safe := by
  have hB := paramsWf_block hw
  refine ⟨⟨⟨hw, hacc, hstg, hsrc, herr, by omega, by omega, fun _ => ⟨h1, h2, h3⟩, fun _ _ => h5, fun a ha => by omega,
    fun a ha => by omega⟩, ?_⟩, ⟨fun _ => .inl h3, fun _ ha _ => ?_, .inl h3, fun cl hc => ?_⟩⟩
  · rw [h7]
    exact ⟨h6, h8, fun _ => ⟨h4, h1, h2⟩, fun ha => absurd ha (by simp [h4]), fun _ => by omega,
      fun _ _ hh => absurd hh (by simp [h5])⟩
  · rw [h4] at ha; cases ha
  · rw [h8] at hc; cases hc

theorem fresh_safe (data : List Byte) : (fresh data).Safe :=
  unused_safe tiny_wf rfl rfl (Memory.wf_write rfl _ _) (Nat.zero_le _) rfl rfl rfl rfl rfl rfl rfl rfl

theorem fresh_ready (data : List Byte) : (fresh data).Ready :=
  ⟨fresh_safe data, rfl, rfl, rfl, rfl, rfl, rfl, .inr ⟨[], rfl⟩⟩

/-- A disposed and a poisoned instance. -/
def disposedState : State := { fresh [] with disposed := true }
def poisonedState : State := { fresh [] with poisoned := true }

theorem disposedState_safe : disposedState.Safe :=
  unused_safe tiny_wf rfl rfl (Memory.wf_write rfl _ _) (Nat.zero_le _) rfl rfl rfl rfl rfl rfl rfl rfl
theorem poisonedState_safe : poisonedState.Safe :=
  unused_safe tiny_wf rfl rfl (Memory.wf_write rfl _ _) (Nat.zero_le _) rfl rfl rfl rfl rfl rfl rfl rfl

theorem run_safe {n : Nat} {s : State} (h : s.Safe) (hg : goesOn (run n s) = true) : (after (run n s)).Safe :=
  run_keeps (fun _ _ hs _ hu => tick_keeps_safe hs hu) n h (next_after hg)

/-- The state `n` steps into a WRITE of `data`. -/
def inWrite (n : Nat) (data : List Byte) : State := after (run n ((fresh data).started (.write true)))

theorem inWrite_safe {n : Nat} {data : List Byte} (hg : goesOn (run n ((fresh data).started (.write true))) = true) :
    (inWrite n data).Safe :=
  run_safe (started_safe (fresh_safe data) (by decide) rfl rfl rfl) hg

/-- The state behind a WRITE of `data`. -/
def afterWrite (data : List Byte) : State := after (run 30 ((fresh data).started (.write true)))

/-- The state behind a FLUSH on a fresh instance. -/
def flushed : State := after (run 30 ((fresh []).started (.flush true)))

theorem flushed_safe : flushed.Safe :=
  run_safe (started_safe (fresh_safe []) (by decide) rfl rfl rfl) (by decide)

theorem afterWrite_safe {data : List Byte} (hg : goesOn (run 30 ((fresh data).started (.write true))) = true) :
    (afterWrite data).Safe :=
  run_safe (started_safe (fresh_safe data) (by decide) rfl rfl rfl) hg

/-- The state `n` steps into a FLUSH behind a WRITE of two bytes, the sink not answering. -/
def inFlush (n : Nat) : State := after (run n (({ afterWrite [a, b] with
  cancelReq := false, inputs := [], poolAnswers := [], sinkAnswers := [] } : State).started (.flush true)))

/-- A safe state with other inputs, other answers to come and another `cancel_req` is safe. -/
theorem world_safe {s : State} (h : s.Safe) (v : Bool) (ins : List Input) (ps : List PoolAnswer) (ks : List SinkAnswer) :
    ({ s with cancelReq := v, inputs := ins, poolAnswers := ps, sinkAnswers := ks } : State).Safe :=
  safe_world h rfl rfl rfl rfl rfl rfl rfl rfl rfl rfl rfl rfl rfl rfl h.1.1.srcWf rfl rfl (.inl rfl)

theorem inFlush_safe {n : Nat} (hg : goesOn (run n (({ afterWrite [a, b] with
    cancelReq := false, inputs := [], poolAnswers := [], sinkAnswers := [] } : State).started (.flush true))) = true) :
    (inFlush n).Safe :=
  run_safe (started_safe (world_safe (afterWrite_safe (by decide)) _ _ _ _) (by decide) (by decide) (by decide) (by decide)) hg

theorem compresses_of {p : Params} {blks : List (List Byte)}
    (h : blks.all (fun blk => match p.compress blk with
      | some c => decide (c.length ≤ p.maxComp.bound blk.length)
      | none => false) = true) : Compresses p blks := by
  intro blk hb
  have := List.all_eq_true.1 h blk hb
  cases hc : p.compress blk with
  | none => rw [hc] at this; cases this
  | some c => rw [hc] at this; exact ⟨c, rfl, by simpa using this⟩

/-! ### Witnesses: encoding, the step and the registers -/

theorem witness_DecodeOfEncode : (Instr.writeA true).wf = true := rfl

/-- The clauses with a hypothesis: a word that decodes, and a DISPOSE that goes on. -/
theorem witness_LegalEncodings :
    decode 0x21#32 = .ok (.write true) ∧ exec (.dispose true) State.reset = .next (after (exec (.dispose true) State.reset)) :=
  ⟨by decide, next_after (by decide)⟩

/-- Each clause of the illegal words, at the edges of its range. -/
theorem witness_IllegalWordEndsWithoutEffect :
    State.reset.params.wf = true ∧ State.reset.Ended ∧
    (∀ w ∈ [0x00000061#32, 0x80000021#32, 0x00000020#32, 0x00000024#32, 0x0000002F#32, 0x00000013#32],
      ({ State.reset with inputs := [.csrWrite 0 4 w] } : State).inputs
          = .csrWrite (State.reset.params.csrBase + 0x00) 4 w :: [] ∧
        (w.extractLsb' 6 26 ≠ 0#26 ∨ w.extractLsb' 0 4 = 0x0#4 ∨ 0x4#4 ≤ w.extractLsb' 0 4 ∨
          (w.extractLsb' 0 4 = 0x3#4 ∧ w.getLsbD 4 = true))) := by
  refine ⟨by decide, ⟨rfl, rfl, rfl⟩, fun w hw => ⟨rfl, ?_⟩⟩
  simp only [List.mem_cons, List.not_mem_nil, or_false] at hw
  rcases hw with rfl | rfl | rfl | rfl | rfl | rfl
  · exact .inl (by decide)
  · exact .inl (by decide)
  · exact .inr (.inl (by decide))
  · exact .inr (.inr (.inl (by decide)))
  · exact .inr (.inr (.inl (by decide)))
  · exact .inr (.inr (.inr (by decide)))

theorem witness_StepRunsDecodedCommand :
    State.reset.params.wf = true ∧
    ({ State.reset with inputs := [.csrWrite 0 4 0x31#32] } : State).inputs
      = .csrWrite (State.reset.params.csrBase + 0x00) 4 0x31#32 :: [] ∧
    decode 0x31#32 = .ok (.writeA true) ∧ decodeTableWord 32 0x31 = some (.writeA true) := by decide

theorem witness_IdleStaysAsItIs : State.reset.params.wf = true ∧ State.reset.busy = false ∧ State.reset.inputs = [] := by
  decide

/-- A busy instance at which `CMD`, then `SRC_LEN`, is written. -/
theorem witness_WritesWhileBusyRefused :
    ∀ off ∈ [0x00, 0x04],
      ({ inWrite 1 [a] with inputs := [.csrWrite off 4 0#32] } : State).params.wf = true ∧
      ({ inWrite 1 [a] with inputs := [.csrWrite off 4 0#32] } : State).busy = true ∧
      ({ inWrite 1 [a] with inputs := [.csrWrite off 4 0#32] } : State).inputs
        = .csrWrite ((inWrite 1 [a]).params.csrBase + off) 4 0#32 :: [] := by decide

/-- Another width, a misaligned offset and the first offset beyond the map are reserved; 0x00 and 0x20 are not. -/
theorem witness_ReservedCsrAccessRefused :
    State.reset.params.wf = true ∧
    (∀ q ∈ [(0x00, 1), (0x00, 8), (0x02, 4), (0x21, 4), (0x24, 4)], (State.reset.csrAt q.1 q.2).isSome = false) ∧
    ∀ q ∈ [(0x00, 4), (0x20, 4)], (State.reset.csrAt q.1 q.2).isSome = true := by decide

theorem witness_CsrReads : (inWrite 1 [a]).params.wf = true ∧ State.reset.params.wf = true := by decide

theorem witness_StatusFields :
    (inWrite 1 [a]).params.wf = true ∧ ({ inWrite 1 [a] with inputs := [.csrWrite 8 4 1#32] } : State).inputs
      = .csrWrite ((inWrite 1 [a]).params.csrBase + 0x08) 4 1#32 :: [] := by decide

theorem witness_ReadOnlyWritesIgnored :
    ∀ off ∈ [0x08, 0x20], State.reset.params.wf = true ∧
      ({ State.reset with inputs := [.csrWrite off 4 1#32] } : State).inputs
        = .csrWrite (State.reset.params.csrBase + off) 4 1#32 :: [] := by decide

theorem witness_SrcLenRegister :
    State.reset.params.wf = true ∧ State.reset.busy = false ∧ (inWrite 1 [a]).busy = true ∧
    ({ State.reset with inputs := [.csrWrite 4 4 0xFFFFFFFF#32] } : State).inputs
      = .csrWrite (State.reset.params.csrBase + 0x04) 4 0xFFFFFFFF#32 :: [] := by decide

/-- A fresh instance, a leased one and a busy one that is not leased. -/
theorem witness_ResetOfLiveInstanceRefused :
    (fresh []).params.wf = true ∧ (fresh []).alloc = false ∧ (fresh []).busy = false ∧
    flushed.alloc = true ∧ flushed.busy = false ∧ (inWrite 1 [a]).busy = true ∧ (inWrite 1 [a]).alloc = false := by decide

theorem witness_NewInstanceIsFresh :
    disposedState.params.wf = true ∧ ({ disposedState with inputs := [.construct] } : State).inputs = .construct :: [] ∧
    disposedState.alloc = false ∧ disposedState.busy = false := by decide

/-- The first bound that the length field cannot hold. -/
theorem witness_BadParametersRefused :
    ¬ ({ small with maxComp := .table [0, 0, 0, 0, 16777212] } : Params).maxComp.bound 4 + 4 < 2 ^ 24 := by
  show ¬ (16777212 + 4 < 2 ^ 24)
  omega

theorem witness_OperandsStableWhileBusy :
    (inWrite 1 [a]).params.wf = true ∧ (inWrite 1 [a]).busy = true ∧ goesOn (step (inWrite 1 [a])) = true ∧
    (inWrite 1 [a]).cur.op = .write ∧
    ({ inWrite 1 [a] with inputs := [.lend [b]] } : State).inputs = .lend [b] :: [] := by decide

/-- The inputs of a WRITE.A, a FLUSH and a DISPOSE line. -/
theorem witness_HostLinesRunTheirCommand :
    (fresh []).params.wf = true ∧ (fresh []).busy = false ∧ (Line.write true 2 [a, b] false).wf = true ∧
    (∀ line ∈ [Line.write true 2 [a, b] false, .flush false true, .dispose],
      ({ fresh [] with inputs := tiny.expand 1 line } : State).inputs = (fresh []).params.expand 1 line ++ []) := by decide

/-! ### Witnesses: acceptance and cancellation -/

theorem witness_FormsAfterDisposeEnd :
    (Instr.writeA false).op ≠ .dispose ∧ disposedState.params.wf = true ∧ disposedState.busy = false ∧
    disposedState.disposed = true ∧
    exec (.dispose true) disposedState = .next (after (exec (.dispose true) disposedState)) :=
  ⟨by decide, by decide, by decide, by decide, next_after (by decide)⟩

theorem witness_FormsOnPoisonedInstanceEnd :
    (Instr.flush false).op ≠ .dispose ∧ poisonedState.params.wf = true ∧ poisonedState.busy = false ∧
    poisonedState.disposed = false ∧ poisonedState.poisoned = true := by decide

theorem witness_FormsWithoutSinkEnd :
    (Instr.flushA false).op ≠ .dispose ∧ (Instr.flushA false).snk = false ∧ (fresh [a]).params.wf = true ∧
    (fresh [a]).busy = false ∧ (fresh [a]).disposed = false ∧ (fresh [a]).poisoned = false := by decide

theorem witness_CheckPointZeroCancels :
    ∀ i ∈ [Instr.writeA true, .flushA true], i.async = true ∧ i.snk = true ∧
      ({ fresh [a] with cancelReq := true } : State).params.wf = true ∧
      ({ fresh [a] with cancelReq := true } : State).busy = false ∧
      ({ fresh [a] with cancelReq := true } : State).disposed = false ∧
      ({ fresh [a] with cancelReq := true } : State).poisoned = false ∧
      ({ fresh [a] with cancelReq := true } : State).cancelReq = true := by decide

/-- A safe state with another pace and other units is safe. -/
theorem units_safe {s : State} (h : s.Safe) (e c k : Bool) :
    ({ s with eager := e, compressorReady := c, checksumReady := k } : State).Safe :=
  safe_world h rfl rfl rfl rfl rfl rfl rfl rfl rfl rfl rfl rfl rfl rfl h.1.1.srcWf rfl rfl (.inl rfl)

/-- A WRITE whose sink has not answered. -/
def held : State := after (run 30 ({ fresh [a, b, c, d] with sinkAnswers := [] }.started (.write true)))

theorem held_safe : held.Safe :=
  run_safe (started_safe (world_safe (fresh_safe _) false [] [.granted] []) (by decide) rfl rfl rfl) (by decide)

/-- A WRITE.A of `data` held at its first transfer, `cancel_req` risen. -/
def heldA (data : List Byte) (ins : List Input) (ks : List SinkAnswer) : State :=
  { after (run 8 ((fresh data).started (.writeA true))) with
    cancelReq := true, inputs := ins, poolAnswers := [], sinkAnswers := ks }

theorem heldA_safe {data : List Byte} (ins : List Input) (ks : List SinkAnswer)
    (hg : goesOn (run 8 ((fresh data).started (.writeA true))) = true) : (heldA data ins ks).Safe :=
  world_safe (run_safe (started_safe (fresh_safe data) (by decide) rfl rfl rfl) hg) _ _ _ _

/-- A chunk boundary with input remaining, and one with none: the sink answers now. -/
theorem witness_ChunkBoundaryCancels :
    (heldA [a, b, c, d, a] [.sink .ok] []).Safe ∧ (heldA [a, b, c, d] [.sink .ok] []).Safe ∧
    (∀ s ∈ [heldA [a, b, c, d, a] [.sink .ok] [], heldA [a, b, c, d] [.sink .ok] []], s.fsm = .drain ∧
      s.pending = .sink ∧ s.cur.op = .write ∧ s.cur.async = true ∧ s.cancelReq = true ∧
      s.eager = true ∧ s.sinkAnswers = [] ∧ s.inputs = .sink .ok :: []) ∧
    (heldA [a, b, c, d, a] [.sink .ok] []).consumed.toNat < (heldA [a, b, c, d, a] [.sink .ok] []).cur.len.toNat ∧
    (heldA [a, b, c, d] [.sink .ok] []).consumed = (heldA [a, b, c, d] [.sink .ok] []).cur.len :=
  ⟨heldA_safe _ _ (by decide), heldA_safe _ _ (by decide), by decide⟩

/-- The same for a paced sequencer, the answer there. -/
theorem witness_ChunkBoundaryCancels_paced :
    ({ heldA [a, b, c, d, a] [] [.ok] with eager := false, compressorReady := true, checksumReady := true } : State).Safe ∧
    ({ heldA [a, b, c, d] [.tick] [.ok] with eager := false, compressorReady := true, checksumReady := true } : State).Safe ∧
    (heldA [a, b, c, d, a] [] [.ok]).inputs = [] ∧ (heldA [a, b, c, d] [.tick] [.ok]).inputs = .tick :: [] ∧
    ∀ s ∈ [heldA [a, b, c, d, a] [] [.ok], heldA [a, b, c, d] [.tick] [.ok]], s.fsm = .drain ∧
      s.pending = .sink ∧ s.cur.op = .write ∧ s.cur.async = true ∧ s.cancelReq = true ∧ s.sinkAnswers = .ok :: [] :=
  ⟨units_safe (heldA_safe _ _ (by decide)) _ _ _, units_safe (heldA_safe _ _ (by decide)) _ _ _, rfl, rfl, by decide⟩

theorem witness_BlockingFormsIgnoreCancellation :
    ∀ i ∈ [Instr.write true, .flush true, .dispose false],
      i.async = false ∧ exec i (fresh [a, b, c, d, a]) = .next (after (exec i (fresh [a, b, c, d, a]))) := by
  intro i hi
  have h : i.async = false ∧ goesOn (exec i (fresh [a, b, c, d, a])) = true := by revert i; decide
  exact ⟨h.1, next_after h.2⟩

/-- The later steps: the sink answers a WRITE that was held, `cancel_req` risen or not; and the host drives the signal. -/
theorem witness_BlockingFormsIgnoreCancellation_later :
    held.busy = true ∧ held.cur.async = false ∧ held.params.wf = true ∧
    (∀ w, ({ held with inputs := [.sink .ok] } : State).inputs.head? ≠ some (.cancel w)) ∧
    step { held with inputs := [.sink .ok] } = .next (after (step { held with inputs := [.sink .ok] })) ∧
    ({ held with inputs := [.cancel true] } : State).inputs = .cancel true :: [] :=
  ⟨by decide, by decide, by decide, by decide, next_after (by decide), rfl⟩

/-! ### Witnesses: ENSURE, SEGMENT, EMIT and DRAIN -/

theorem witness_PreambleStaged :
    (inWrite 2 [a]).Safe ∧ (inWrite 2 [a]).fsm = .ensure ∧ (inWrite 2 [a]).pending = .none ∧
    (inWrite 2 [a]).alloc = true ∧ (inWrite 2 [a]).hdrWritten = false :=
  ⟨inWrite_safe (by decide), by decide⟩

theorem witness_PoolRefusalPoisons :
    (Instr.flushA true).op ≠ .dispose ∧ (Instr.flushA true).snk = true ∧
    ({ fresh [] with cancelReq := false, inputs := [], poolAnswers := [.refused], sinkAnswers := [] } : State).Safe ∧
    (fresh []).cancelReq = false ∧ (fresh []).busy = false ∧ (fresh []).disposed = false ∧ (fresh []).poisoned = false ∧
    (fresh []).eager = true ∧ (fresh []).alloc = false :=
  ⟨by decide, rfl, world_safe (fresh_safe []) _ _ _ _, by decide⟩

theorem witness_HeldUntilThePoolAnswers :
    (Instr.writeA true).op ≠ .dispose ∧ (Instr.writeA true).snk = true ∧
    ({ fresh [a] with cancelReq := false, inputs := [], poolAnswers := [], sinkAnswers := [.ok] } : State).Safe ∧
    (fresh [a]).busy = false ∧ (fresh [a]).disposed = false ∧ (fresh [a]).poisoned = false ∧ (fresh [a]).alloc = false ∧
    (fresh [a]).eager = true :=
  ⟨by decide, rfl, world_safe (fresh_safe [a]) _ _ _ _, by decide⟩

/-- A held WRITE at its transfer, answered Ok and failed; and the command that came to it. -/
theorem witness_HeldUntilTheSinkAnswers :
    held.busy = true ∧ held.pending = .sink ∧ held.sinkAnswers = [] ∧ held.eager = true ∧ held.inputs = [] ∧
    (∀ k, ({ held with inputs := [.sink k] } : State).Safe) ∧ (fresh [a, b, c, d]).busy = false ∧
    ({ fresh [a, b, c, d] with cancelReq := false, inputs := [], poolAnswers := [.granted], sinkAnswers := [] } : State).Safe ∧
    exec (.write true) { fresh [a, b, c, d] with sinkAnswers := [] }
      = .next (after (exec (.write true) { fresh [a, b, c, d] with sinkAnswers := [] })) ∧
    (after (exec (.write true) { fresh [a, b, c, d] with sinkAnswers := [] })).busy = true ∧
    (after (exec (.write true) { fresh [a, b, c, d] with sinkAnswers := [] })).pending = .sink :=
  ⟨by decide, by decide, by decide, by decide, by decide, fun _ => world_safe held_safe _ _ _ _, by decide,
    world_safe (fresh_safe _) _ _ _ _, next_after (by decide), by decide, by decide⟩

/-- A WRITE at its compressor, and at its checksum unit, neither answering; and the commands that come to them. -/
theorem witness_HeldUntilTheUnitsAnswer :
    (∀ e, ({ inWrite 5 [a, b, c, d] with eager := e, compressorReady := false, checksumReady := true } : State).Safe) ∧
    (inWrite 5 [a, b, c, d]).busy = true ∧ (inWrite 5 [a, b, c, d]).pending = .compressor ∧
    (∀ e, ({ inWrite 6 [a, b, c, d] with eager := e, compressorReady := true, checksumReady := false } : State).Safe) ∧
    (inWrite 6 [a, b, c, d]).busy = true ∧ (inWrite 6 [a, b, c, d]).pending = .checksum 6 ∧
    (∀ q ∈ [(false, true, Pending.compressor), (true, false, .checksum 6)],
      ({ fresh [a, b, c, d] with eager := true, compressorReady := q.1, checksumReady := q.2.1 } : State).Safe ∧
      exec (.write true) { fresh [a, b, c, d] with compressorReady := q.1, checksumReady := q.2.1 }
        = .next (after (exec (.write true) { fresh [a, b, c, d] with compressorReady := q.1, checksumReady := q.2.1 })) ∧
      (after (exec (.write true) { fresh [a, b, c, d] with compressorReady := q.1, checksumReady := q.2.1 })).pending
        = q.2.2) := by
  refine ⟨fun _ => units_safe (inWrite_safe (by decide)) _ _ _, by decide, by decide,
    fun _ => units_safe (inWrite_safe (by decide)) _ _ _, by decide, by decide, fun q hq => ?_⟩
  have h : goesOn (exec (.write true) { fresh [a, b, c, d] with compressorReady := q.1, checksumReady := q.2.1 }) = true ∧
      (after (exec (.write true) { fresh [a, b, c, d] with compressorReady := q.1, checksumReady := q.2.1 })).pending
        = q.2.2 := by
    revert q; decide
  exact ⟨units_safe (fresh_safe _) _ _ _, next_after h.1, h.2⟩

/-- A copy that fills no block, and one that fills it. -/
theorem witness_CopyPath :
    (inWrite 3 [a, b]).Safe ∧ (inWrite 3 [a, b]).fsm = .segment ∧
    (inWrite 3 [a, b]).consumed.toNat < (inWrite 3 [a, b]).cur.len.toNat ∧
    ¬ ((inWrite 3 [a, b]).accLen = 0 ∧
      (inWrite 3 [a, b]).params.block ≤ (inWrite 3 [a, b]).cur.len.toNat - (inWrite 3 [a, b]).consumed.toNat) :=
  ⟨inWrite_safe (by decide), by decide⟩

/-- A state in SEGMENT with two bytes accumulated and two to come. -/
def filling : State := after (run 1 (((afterWrite [a, b]).lends [c, d]).started (.write true)))

theorem lends_safe {s : State} (h : s.Safe) (hb : s.busy = false) (data : List Byte) : (s.lends data).Safe :=
  safe_world h rfl rfl rfl rfl rfl rfl rfl rfl rfl rfl rfl rfl rfl rfl (Memory.wf_write rfl _ _) rfl rfl (.inr (.inl hb))

theorem filling_safe : filling.Safe :=
  run_safe (started_safe (lends_safe (afterWrite_safe (by decide)) (by decide) _) (by decide) (by decide) (by decide)
    (by decide)) (by decide)

theorem witness_CopyPath_full :
    filling.Safe ∧ filling.fsm = .segment ∧ filling.accLen = 2 ∧ filling.consumed.toNat < filling.cur.len.toNat ∧
    filling.accLen + min (filling.cur.len.toNat - filling.consumed.toNat) (filling.params.block - filling.accLen)
      = filling.params.block :=
  ⟨filling_safe, by decide⟩

theorem witness_FastPath :
    (inWrite 3 [a, b, c, d]).Safe ∧ (inWrite 3 [a, b, c, d]).fsm = .segment ∧ (inWrite 3 [a, b, c, d]).accLen = 0 ∧
    (inWrite 3 [a, b, c, d]).params.block
      ≤ (inWrite 3 [a, b, c, d]).cur.len.toNat - (inWrite 3 [a, b, c, d]).consumed.toNat ∧
    (inWrite 3 [a, b, c, d]).compressorReady = true ∧ (inWrite 3 [a, b, c, d]).checksumReady = true ∧
    (inWrite 3 [a, b, c, d]).params.compress ((inWrite 3 [a, b, c, d]).src.bytes (inWrite 3 [a, b, c, d]).consumed.toNat
      (inWrite 3 [a, b, c, d]).params.block) = some (lit [a, b, c, d]) ∧
    (lit [a, b, c, d]).length ≤ (inWrite 3 [a, b, c, d]).params.maxComp.bound (inWrite 3 [a, b, c, d]).params.block :=
  ⟨inWrite_safe (by decide), by decide⟩

theorem witness_EmitWritesTheChunk :
    (inWrite 4 [a, b, c, d]).Safe ∧ (inWrite 4 [a, b, c, d]).fsm = .emit ∧ (inWrite 4 [a, b, c, d]).pending = .none ∧
    (inWrite 4 [a, b, c, d]).compressorReady = true ∧ (inWrite 4 [a, b, c, d]).checksumReady = true ∧
    (inWrite 4 [a, b, c, d]).params.compress (inWrite 4 [a, b, c, d]).blockBytes = some (lit [a, b, c, d]) ∧
    (lit [a, b, c, d]).length
      ≤ (inWrite 4 [a, b, c, d]).params.maxComp.bound (inWrite 4 [a, b, c, d]).blockBytes.length :=
  ⟨inWrite_safe (by decide), by decide⟩

/-- EMIT of a block in SRC and of one in ACC, and a DRAIN with bytes staged. -/
theorem witness_EmitAndDrainAskInOrder :
    (inWrite 4 [a, b, c, d]).Safe ∧ (inFlush 1).Safe ∧ (inWrite 7 [a, b, c, d]).Safe ∧
    (∀ s ∈ [inWrite 4 [a, b, c, d], inFlush 1], s.fsm = .emit ∧ s.pending = .none ∧ s.compressorReady = true ∧
      s.checksumReady = true) ∧
    ((inWrite 4 [a, b, c, d]).cur.op = .write ∧ (inWrite 4 [a, b, c, d]).accLen = 0) ∧
    (inFlush 1).cur.op = .flush ∧ (inFlush 1).accumulated = [a, b] ∧
    (inWrite 7 [a, b, c, d]).fsm = .drain ∧ (inWrite 7 [a, b, c, d]).pending = .none ∧
    0 < (inWrite 7 [a, b, c, d]).stageLen :=
  ⟨inWrite_safe (by decide), inFlush_safe (by decide), inWrite_safe (by decide), by decide⟩

/-- A failing compressor, and one that answers one byte too much. -/
theorem witness_CompressionFailurePoisons :
    (inWrite 4 [d, d, d, d]).Safe ∧ (inWrite 4 [c, c, c, c]).Safe ∧
    (∀ s ∈ [inWrite 4 [d, d, d, d], inWrite 4 [c, c, c, c]],
      s.fsm = .emit ∧ s.pending = .none ∧ s.compressorReady = true) ∧
    (inWrite 4 [d, d, d, d]).params.compress (inWrite 4 [d, d, d, d]).blockBytes = none ∧
    (inWrite 4 [c, c, c, c]).params.compress (inWrite 4 [c, c, c, c]).blockBytes = some (List.replicate 37 0x00#8) ∧
    (inWrite 4 [c, c, c, c]).params.maxComp.bound (inWrite 4 [c, c, c, c]).blockBytes.length
      < (List.replicate 37 0x00#8).length :=
  ⟨inWrite_safe (by decide), inWrite_safe (by decide), by decide⟩

theorem witness_SinkAccepts :
    (inWrite 8 [a, b, c, d]).Safe ∧ (inWrite 8 [a, b, c, d]).fsm = .drain ∧ (inWrite 8 [a, b, c, d]).pending = .sink ∧
    (inWrite 8 [a, b, c, d]).sinkAnswers = .ok :: [.ok, .ok] :=
  ⟨inWrite_safe (by decide), by decide⟩

/-- A failing sink that kept five bytes. -/
def failingSink : State :=
  { inWrite 8 [a, b, c, d] with cancelReq := false, inputs := [], poolAnswers := [], sinkAnswers := [.err 5] }

theorem witness_SinkFailurePoisons :
    failingSink.Safe ∧ failingSink.fsm = .drain ∧ failingSink.pending = .sink ∧
    failingSink.sinkAnswers = .err 5 :: [] :=
  ⟨world_safe (inWrite_safe (by decide)) _ _ _ _, by decide⟩

/-! ### Witnesses: WRITE and FLUSH forms -/

/-- One block and a tail by each form, on a fresh instance. -/
theorem witness_WriteCompletes :
    (Instr.writeA true = .write true ∨ (Instr.writeA true = .writeA true ∧ (fresh [a, b, c, d, a, b]).cancelReq = false)) ∧
    (fresh [a, b, c, d, a, b]).Ready ∧
    Compresses (fresh [a, b, c, d, a, b]).params (fullBlocks (fresh [a, b, c, d, a, b]).params.block
      ((fresh [a, b, c, d, a, b]).accumulated ++ (fresh [a, b, c, d, a, b]).lent)) ∧
    (fresh [a, b, c, d, a, b]).sinkAnswers = List.replicate (((fresh [a, b, c, d, a, b]).accLen
      + (fresh [a, b, c, d, a, b]).srcLen.toNat) / (fresh [a, b, c, d, a, b]).params.block) .ok ++ [.ok, .ok] :=
  ⟨by decide, fresh_ready _, compresses_of (by decide), by decide⟩

theorem flushed_ready : flushed.Ready :=
  ⟨flushed_safe, by decide, by decide, by decide, by decide, by decide, by decide, .inl (by decide)⟩

/-- On a fresh instance and on one with the preamble delivered. -/
theorem witness_EmptyWriteStagesOnly :
    (fresh []).Ready ∧ (fresh []).srcLen = 0#32 ∧ flushed.Ready ∧ flushed.srcLen = 0#32 :=
  ⟨fresh_ready _, by decide, flushed_ready, by decide⟩

theorem witness_OneBlockWriteEmitsOneChunk :
    (fresh [a, b, c, d]).Ready ∧ (fresh [a, b, c, d]).accLen = 0 ∧
    (fresh [a, b, c, d]).srcLen.toNat = (fresh [a, b, c, d]).params.block ∧
    (fresh [a, b, c, d]).params.compress (fresh [a, b, c, d]).lent = some (lit [a, b, c, d]) ∧
    (lit [a, b, c, d]).length ≤ (fresh [a, b, c, d]).params.maxComp.bound (fresh [a, b, c, d]).params.block ∧
    (fresh [a, b, c, d]).sinkAnswers = .ok :: [.ok, .ok] :=
  ⟨fresh_ready _, by decide⟩

/-- The state that a WRITE of six bytes answers. -/
def written : State := after (exec (.write true) (fresh [a, b, c, d, a, b]))

theorem witness_WriteThatEndsWellConsumesAll :
    (Instr.write true).op = .write ∧ (fresh [a, b, c, d, a, b]).Safe ∧ (fresh [a, b, c, d, a, b]).busy = false ∧
    exec (.write true) (fresh [a, b, c, d, a, b]) = .next written ∧ (written.busy = true ∨ written.err = 0x00#8) ∧ written.busy = false :=
  ⟨rfl, fresh_safe _, rfl, next_after (by decide), by decide, by decide⟩

/-- For the later steps of WriteThatEndsWellConsumesAll and WriteFrame: a held WRITE whose sink answers, a byte of STG it can
store to no more, and none of ACC it can. -/
theorem witness_WriteThatEndsWellConsumesAll_later :
    ({ held with inputs := [.sink .ok] } : State).Safe ∧ held.busy = true ∧ held.cur.op = .write ∧ held.alloc = true ∧
    step { held with inputs := [.sink .ok] } = .next (after (step { held with inputs := [.sink .ok] })) ∧
    (after (step { held with inputs := [.sink .ok] })).busy = false ∧
    (after (step { held with inputs := [.sink .ok] })).err = 0x00#8 ∧
    ¬ held.stgStores (held.bytesAhead / held.params.block) 9 ∧ ¬ held.accStores held.remaining 0 := by
  refine ⟨world_safe held_safe _ _ _ _, by decide, by decide, by decide, next_after (by decide), by decide, by decide, ?_, ?_⟩
  · unfold stgStores; decide
  · unfold accStores; decide

theorem witness_ChunkingInvariance :
    (fresh []).Ready ∧ ([[a], [], [b, c], [d, a, b]] : List (List Byte)).flatten.length < 2 ^ 32 ∧
    Compresses (fresh []).params (fullBlocks (fresh []).params.block
      ((fresh []).accumulated ++ ([[a], [], [b, c], [d, a, b]] : List (List Byte)).flatten)) ∧
    tailBytes (fresh []).params.block
      ((fresh []).accumulated ++ ([[a], [], [b, c], [d, a, b]] : List (List Byte)).flatten) ≠ [] ∧
    Compresses (fresh []).params [tailBytes (fresh []).params.block
      ((fresh []).accumulated ++ ([[a], [], [b, c], [d, a, b]] : List (List Byte)).flatten)] ∧
    (fresh []).sinkAnswers = List.replicate (((fresh []).accLen
      + ([[a], [], [b, c], [d, a, b]] : List (List Byte)).flatten.length) / (fresh []).params.block + 1) .ok ++ [.ok] :=
  ⟨fresh_ready _, by decide, compresses_of (by decide), by decide, compresses_of (by decide), by decide⟩

/-- A WRITE on a leased instance with two bytes accumulated: a byte of ACC and of STG outside the addresses it can store
to. -/
theorem witness_WriteFrame :
    (Instr.write true).op = .write ∧ ((afterWrite [a, b]).lends [c]).Safe ∧ ((afterWrite [a, b]).lends [c]).busy = false ∧
    exec (.write true) ((afterWrite [a, b]).lends [c]) = .next (after (exec (.write true) ((afterWrite [a, b]).lends [c]))) ∧
    ((afterWrite [a, b]).lends [c]).alloc = true ∧ ¬ ((afterWrite [a, b]).lends [c]).accStores 1 1 ∧
    ((afterWrite [a, b]).lends [c]).accStores 1 2 ∧ ¬ ((afterWrite [a, b]).lends [c]).accStores 1 3 ∧
    ¬ ((afterWrite [a, b]).lends [c]).stgStores ((((afterWrite [a, b]).lends [c]).accLen
      + ((afterWrite [a, b]).lends [c]).srcLen.toNat) / ((afterWrite [a, b]).lends [c]).params.block) 53 := by
  refine ⟨rfl, lends_safe (afterWrite_safe (by decide)) (by decide) _, by decide, next_after (by decide), by decide, ?_, ?_, ?_, ?_⟩
  · unfold accStores; decide
  · unfold accStores; decide
  · unfold accStores; decide
  · unfold stgStores; decide

/-- A short block on an instance whose preamble is undelivered; nothing accumulated and the preamble delivered. -/
theorem witness_FlushCompletes :
    (afterWrite [a, b]).Ready ∧ (afterWrite [a, b]).accLen ≠ 0 ∧
    Compresses (afterWrite [a, b]).params [(afterWrite [a, b]).accumulated] ∧
    (afterWrite [a, b]).sinkAnswers
      = (if (afterWrite [a, b]).accLen = 0 ∧ (afterWrite [a, b]).sinkStream ≠ [] then [] else [.ok]) ++ [.ok, .ok] ∧
    flushed.Ready ∧ flushed.accLen = 0 ∧ flushed.sinkStream ≠ [] ∧
    flushed.sinkAnswers = (if flushed.accLen = 0 ∧ flushed.sinkStream ≠ [] then [] else [.ok]) ++ [.ok, .ok] :=
  ⟨⟨afterWrite_safe (by decide), by decide, by decide, by decide, by decide, by decide, by decide, .inl (by decide)⟩, by decide,
    compresses_of (by decide), by decide, flushed_ready, by decide⟩

theorem witness_FirstFlushDeliversThePreamble :
    (fresh []).Ready ∧ (fresh []).lifecycle = some .fresh ∧ (fresh []).sinkAnswers = .ok :: [.ok, .ok] :=
  ⟨fresh_ready _, by decide⟩

theorem witness_NoOpFlush :
    (Instr.flush true = .flush true ∨ (Instr.flush true = .flushA true ∧ flushed.cancelReq = false)) ∧ flushed.Safe ∧
    flushed.busy = false ∧ flushed.disposed = false ∧ flushed.poisoned = false ∧ flushed.eager = true ∧
    flushed.accLen = 0 ∧ flushed.stageLen = 0 ∧ flushed.hdrWritten = true :=
  ⟨.inl rfl, flushed_safe, by decide⟩

/-- The state that a FLUSH behind two accumulated bytes answers. -/
def drained : State := after (exec (.flush true) (afterWrite [a, b]))

/-- For FlushIsABarrier, OneTransferPerFlush and FlushFrame. -/
theorem witness_FlushIsABarrier :
    (Instr.flush true).op = .flush ∧ (afterWrite [a, b]).Safe ∧ (afterWrite [a, b]).busy = false ∧
    exec (.flush true) (afterWrite [a, b]) = .next drained ∧ drained.busy = false ∧ drained.err = 0x00#8 :=
  ⟨rfl, afterWrite_safe (by decide), by decide, next_after (by decide), by decide, by decide⟩

/-- The first step of a FLUSH that its sink holds, for FlushIsABarrier and OneTransferPerFlush. -/
theorem witness_FlushIsABarrier_held :
    ({ afterWrite [a, b] with cancelReq := false, inputs := [], poolAnswers := [], sinkAnswers := [] } : State).Safe ∧
    exec (.flush true) { afterWrite [a, b] with sinkAnswers := [] }
      = .next (after (exec (.flush true) { afterWrite [a, b] with sinkAnswers := [] })) ∧
    (after (exec (.flush true) { afterWrite [a, b] with sinkAnswers := [] })).busy = true :=
  ⟨world_safe (afterWrite_safe (by decide)) _ _ _ _, next_after (by decide), by decide⟩

/-- The later steps of FlushIsABarrier, OneTransferPerFlush and FlushFrame: a FLUSH before its transfer, and one held at it
whose sink answers. -/
theorem witness_FlushIsABarrier_later :
    (∀ n ∈ [0, 1, 4, 5], (inFlush n).busy = true ∧ (inFlush n).cur.op = .flush ∧ (inFlush n).alloc = true) ∧
    ({ inFlush 5 with inputs := [.sink .ok] } : State).Safe ∧ (inFlush 5).pending = .sink ∧ (inFlush 4).pending = .none ∧
    (inFlush 4).Safe ∧ step (inFlush 4) = .next (after (step (inFlush 4))) ∧
    (after (step (inFlush 4))).transfers = (inFlush 4).transfers + 1 ∧ (after (step (inFlush 4))).busy = true ∧
    step { inFlush 5 with inputs := [.sink .ok] } = .next (after (step { inFlush 5 with inputs := [.sink .ok] })) ∧
    (after (step { inFlush 5 with inputs := [.sink .ok] })).busy = false ∧
    (after (step { inFlush 5 with inputs := [.sink .ok] })).err = 0x00#8 :=
  ⟨by decide, world_safe (inFlush_safe (by decide)) _ _ _ _, by decide, by decide, inFlush_safe (by decide),
    next_after (by decide), by decide, by decide, next_after (by decide), by decide, by decide⟩

theorem witness_OneTransferPerFlush :
    (Instr.flush true).op = .flush ∧ (afterWrite [a, b]).Safe ∧ (afterWrite [a, b]).busy = false ∧
    exec (.flush true) (afterWrite [a, b]) = .next drained ∧ drained.transfers = (afterWrite [a, b]).transfers + 1 :=
  ⟨rfl, afterWrite_safe (by decide), by decide, next_after (by decide), by decide⟩

theorem witness_FlushFrame :
    (Instr.flush true).op = .flush ∧ (afterWrite [a, b]).Safe ∧ (afterWrite [a, b]).busy = false ∧
    exec (.flush true) (afterWrite [a, b]) = .next drained ∧ (afterWrite [a, b]).alloc = true ∧
    ¬ (afterWrite [a, b]).stgStores (afterWrite [a, b]).accumulatedBlocks.length 9 ∧
    (afterWrite [a, b]).stgStores (afterWrite [a, b]).accumulatedBlocks.length 10 := by
  refine ⟨rfl, afterWrite_safe (by decide), by decide, next_after (by decide), by decide, ?_, ?_⟩
  · unfold stgStores; decide
  · unfold stgStores; decide

/-! ### Witnesses: DISPOSE, the lifecycle and the whole machine -/

/-- A fresh, a leased and a poisoned instance. -/
theorem witness_DisposeCompletes :
    ∀ s ∈ [fresh [], afterWrite [a, b], poisonedState], s.params.wf = true ∧ s.busy = false ∧ s.disposed = false := by decide

theorem witness_SecondDisposeDoesNothing :
    disposedState.params.wf = true ∧ disposedState.busy = false ∧ disposedState.disposed = true := by decide

/-- Each flag set, and a step that is no new instance. -/
theorem witness_FlagsAreSticky :
    (flushed.Safe ∧ flushed.hdrWritten = true ∧ flushed.alloc = true) ∧
    (disposedState.Safe ∧ disposedState.disposed = true) ∧ (poisonedState.Safe ∧ poisonedState.poisoned = true) ∧
    ∀ s ∈ [flushed, disposedState, poisonedState], s.inputs.head? ≠ some .construct ∧ goesOn (step s) = true :=
  ⟨⟨flushed_safe, by decide⟩, ⟨disposedState_safe, by decide⟩, ⟨poisonedState_safe, by decide⟩, by decide⟩

/-- A FLUSH that takes a fresh instance to ACTIVE, as one step of the machine. -/
def aboutToFlush : State :=
  { fresh [] with cancelReq := false, inputs := [.csrWrite 0 4 0x22#32], poolAnswers := [.granted], sinkAnswers := [.ok] }

theorem aboutToFlush_safe : aboutToFlush.Safe := world_safe (fresh_safe []) _ _ _ _

/-- Idle to idle: a FLUSH that completes in the step that starts it. -/
theorem witness_LifecycleTransitions :
    aboutToFlush.Safe ∧ aboutToFlush.busy = false ∧ aboutToFlush.inputs.head? ≠ some .construct ∧
    step aboutToFlush = .next (after (step aboutToFlush)) ∧ (after (step aboutToFlush)).busy = false ∧
    aboutToFlush.lifecycle = some .fresh ∧ (after (step aboutToFlush)).lifecycle = some .active :=
  ⟨aboutToFlush_safe, by decide, by decide, next_after (by decide), by decide⟩

/-- Idle to busy: the pool has not answered. -/
theorem witness_LifecycleTransitions_starts :
    ({ aboutToFlush with poolAnswers := [] } : State).Safe ∧ aboutToFlush.inputs.head? ≠ some .construct ∧
    aboutToFlush.busy = false ∧
    step { aboutToFlush with poolAnswers := [] } = .next (after (step { aboutToFlush with poolAnswers := [] })) ∧
    (after (step { aboutToFlush with poolAnswers := [] })).busy = true :=
  ⟨world_safe aboutToFlush_safe _ _ _ _, by decide, by decide, next_after (by decide), by decide⟩

/-- Busy to busy, then busy to idle: the host reads `STATUS`; the sink answers Ok, and fails. -/
theorem witness_LifecycleTransitions_later :
    held.busy = true ∧ held.lifecycle = some .active ∧
    ∀ q ∈ [(Input.csrRead 0x08 4, true, Lifecycle.active), (.sink .ok, false, .active), (.sink (.err 3), false, .poisoned)],
      ({ held with inputs := [q.1] } : State).Safe ∧ ({ held with inputs := [q.1] } : State).inputs.head? ≠ some .construct ∧
      step { held with inputs := [q.1] } = .next (after (step { held with inputs := [q.1] })) ∧
      (after (step { held with inputs := [q.1] })).busy = q.2.1 ∧
      (after (step { held with inputs := [q.1] })).lifecycle = some q.2.2 := by
  refine ⟨by decide, by decide, fun q hq => ⟨world_safe held_safe _ _ _ _, ?_⟩⟩
  have h : goesOn (step { held with inputs := [q.1] }) = true ∧
      (({ held with inputs := [q.1] } : State).inputs.head? ≠ some .construct ∧
      (after (step { held with inputs := [q.1] })).busy = q.2.1 ∧
      (after (step { held with inputs := [q.1] })).lifecycle = some q.2.2) := by
    revert q; decide
  exact ⟨h.2.1, next_after h.1, h.2.2⟩

theorem witness_StepKeepsSafe : aboutToFlush.Safe ∧ step aboutToFlush = .next (after (step aboutToFlush)) :=
  ⟨aboutToFlush_safe, next_after (by decide)⟩

/-- Each clause of 10_state.md R38: disposed; fresh; leased with the preamble undelivered; leased with it delivered. -/
theorem witness_BetweenCommands :
    disposedState.Safe ∧ disposedState.disposed = true ∧ (fresh []).Safe ∧ (fresh []).alloc = false ∧
    (fresh []).disposed = false ∧ (fresh []).poisoned = false ∧ (afterWrite [a, b]).Safe ∧ (afterWrite [a, b]).alloc = true ∧
    (afterWrite [a, b]).stageLen = 10 ∧ flushed.Safe ∧ flushed.alloc = true ∧ flushed.stageLen = 0 ∧
    ∀ s ∈ [disposedState, fresh [], afterWrite [a, b], flushed], s.busy = false ∧ s.poisoned = false :=
  ⟨disposedState_safe, by decide, fresh_safe _, by decide, by decide, by decide, afterWrite_safe (by decide), by decide, by decide,
    flushed_safe, by decide⟩

theorem witness_EveryCommandEndsOrWaits :
    (fresh [a]).Safe ∧ (fresh [a]).busy = false ∧ (fresh [a]).eager = true := ⟨fresh_safe _, rfl, rfl⟩

/-- The clauses about steps: a held WRITE whose sink answers, and that is settled. -/
theorem witness_EveryCommandEndsOrWaits_later :
    ({ held with inputs := [.sink .ok] } : State).Safe ∧ held.busy = true ∧
    ({ held with inputs := [.sink .ok] } : State).GoesOn ∧ ({ held with inputs := [.sink .ok] } : State).Settled ∧
    step { held with inputs := [.sink .ok] } = .next (after (step { held with inputs := [.sink .ok] })) :=
  ⟨world_safe held_safe _ _ _ _, by decide, .inr (.inr (.inl ⟨_, _, rfl⟩)),
    fun _ => .inr ⟨by decide, .inr (.inr (.inr (by decide)))⟩, next_after (by decide)⟩

theorem witness_OutputOnlyGrows :
    aboutToFlush.inputs.head? ≠ some .construct ∧ step aboutToFlush = .next (after (step aboutToFlush)) :=
  ⟨by decide, next_after (by decide)⟩

set_option maxRecDepth 20000 in
/-- A transfer is outstanding, and the sink answers at the next step. -/
theorem witness_StreamIsTheAcceptedTransfers :
    (inWrite 8 [a, b, c, d]).Safe ∧ step (inWrite 8 [a, b, c, d]) = .next (after (step (inWrite 8 [a, b, c, d]))) ∧
    (inWrite 8 [a, b, c, d]).sinkStream = acceptedBytes (inWrite 8 [a, b, c, d]).history ∧
    (inWrite 8 [a, b, c, d]).history.getLast? = some (.sinkTransfer (inWrite 8 [a, b, c, d]).staged) ∧
    (inWrite 8 [a, b, c, d]).pending = .sink ∧ (inWrite 8 [a, b, c, d]).poisoned = false :=
  ⟨inWrite_safe (by decide), next_after (by decide), by decide⟩

theorem witness_PaceDoesNotMatter :
    (fresh [a, b, c, d]).eager = true ∧ exec (.write true) (fresh [a, b, c, d])
      = .next (after (exec (.write true) (fresh [a, b, c, d]))) :=
  ⟨rfl, next_after (by decide)⟩

end Sys2Proof.Tests
end

section
/-! SUPPORT. A step of the sequencer in a world outside that supplies more answers: it makes the same move. -/

namespace Sys2Proof.Machine

open State

/-! ### The step of the sequencer, by phase and request -/

/-- Which of the eight steps a step of the sequencer is that moves (10_state.md R27). -/
theorem tick_moved_cases {s t : State} (h : tick s = .moved t) :
    (s.fsm = .ensure ∧ s.pending = .none ∧ ensureStep s = .moved t) ∨
    (s.fsm = .ensure ∧ s.pending = .pool ∧ poolStep s = .moved t) ∨
    (s.fsm = .segment ∧ s.pending = .none ∧ segmentStep s = .moved t) ∨
    (s.fsm = .emit ∧ s.pending = .none ∧ emitStep s = .moved t) ∨
    (s.fsm = .emit ∧ s.pending = .compressor ∧ compressorStep s = .moved t) ∨
    (∃ cl, s.fsm = .emit ∧ s.pending = .checksum cl ∧ checksumStep cl s = .moved t) ∨
    (s.fsm = .drain ∧ s.pending = .none ∧ drainStep s = .moved t) ∨
    (s.fsm = .drain ∧ s.pending = .sink ∧ sinkStep s = .moved t) := by
  unfold tick at h
  split at h <;> simp_all

/-! ### A world outside that supplies more -/

/-- What the world outside has besides what it had: other inputs to come, more answers at the end of the queues, units that
answer at once. -/
structure Supply where
  inputs : List Input := []
  pool : List PoolAnswer := []
  sink : List SinkAnswer := []
  compressor : Bool := false
  checksum : Bool := false

/-- The state in a world with that supply. -/
def State.supplied (w : Supply) (s : State) : State :=
  { s with
    inputs := w.inputs
    poolAnswers := s.poolAnswers ++ w.pool
    sinkAnswers := s.sinkAnswers ++ w.sink
    compressorReady := s.compressorReady || w.compressor
    checksumReady := s.checksumReady || w.checksum }

section
variable (w : Supply)

@[simp] theorem supplied_inputs (s : State) : (s.supplied w).inputs = w.inputs := rfl
@[simp] theorem supplied_poolAnswers (s : State) : (s.supplied w).poolAnswers = s.poolAnswers ++ w.pool := rfl
@[simp] theorem supplied_sinkAnswers (s : State) : (s.supplied w).sinkAnswers = s.sinkAnswers ++ w.sink := rfl
@[simp] theorem supplied_compressorReady (s : State) :
    (s.supplied w).compressorReady = (s.compressorReady || w.compressor) := rfl
@[simp] theorem supplied_checksumReady (s : State) :
    (s.supplied w).checksumReady = (s.checksumReady || w.checksum) := rfl

/-! The operations of the model commute with the supply. -/

theorem supplied_releaseSrc (s : State) : (s.supplied w).releaseSrc = s.releaseSrc.supplied w := by
  unfold releaseSrc
  cases h : s.cur.op <;> simp [supplied, h]

theorem supplied_complete (s : State) : (s.supplied w).complete = s.complete.supplied w := by
  unfold complete
  rw [supplied_releaseSrc]
  rfl

theorem supplied_raise (e : ErrorKind) (s : State) : (s.supplied w).raise e = (s.raise e).supplied w := by
  show ((s.setError e).supplied w).releaseSrc.close = _
  rw [supplied_releaseSrc]
  rfl

theorem supplied_accWrite (s : State) (a : Nat) (bs : List Byte) :
    (s.supplied w).accWrite a bs = (s.accWrite a bs).map (State.supplied w) := by
  show (if s.hasAddresses .acc a bs.length then _ else _) = _
  unfold accWrite
  split <;> rfl

theorem supplied_stgWrite (s : State) (a : Nat) (bs : List Byte) :
    (s.supplied w).stgWrite a bs = (s.stgWrite a bs).map (State.supplied w) := by
  show (if s.hasAddresses .stg a bs.length then _ else _) = _
  unfold stgWrite
  split <;> rfl

theorem supplied_afterDrain (s : State) : (s.supplied w).afterDrain = s.afterDrain.supplied w := by
  have hop : (s.supplied w).cur.op = s.cur.op := rfl
  unfold afterDrain
  rw [hop]
  cases s.cur.op with
  | write =>
    show (if s.cur.async && decide (s.consumed.toNat < s.cur.len.toNat) then _ else _) = _
    dsimp only
    split
    · show (if s.cancelReq then ((s.log _).supplied w).raise _ else _) = _
      rw [checkpoint, supplied_raise]
      split <;> rfl
    · rfl
  | flush => exact supplied_complete w s
  | dispose => exact supplied_complete w s

theorem supplied_blockTaken (s : State) : (s.supplied w).blockTaken = s.blockTaken.supplied w := by
  have hsp : (s.supplied w).blockSpace = s.blockSpace := rfl
  unfold blockTaken
  rw [hsp]
  cases s.blockSpace <;> rfl

/-- A computation that may stop, in a richer world, when each of its two parts can be moved there. -/
theorem bind_supplied {x y : Except Fault State} {k l : State → Except Fault State}
    (hx : y = x.map (State.supplied w)) (hk : ∀ u, l (u.supplied w) = (k u).map (State.supplied w)) :
    (y >>= l) = (x >>= k).map (State.supplied w) := by
  subst hx
  cases x with
  | error f => rfl
  | ok u => exact hk u

theorem supplied_stagePreamble (s : State) :
    (s.supplied w).stagePreamble = s.stagePreamble.map (State.supplied w) :=
  bind_supplied w (supplied_stgWrite w s _ _) fun _ => rfl

theorem supplied_copyToAcc (s : State) : (s.supplied w).copyToAcc = s.copyToAcc.map (State.supplied w) := by
  have hread : (s.supplied w).memRead .src (s.supplied w).consumed.toNat (s.supplied w).copyLen =
    s.memRead .src s.consumed.toNat s.copyLen := rfl
  unfold copyToAcc
  rw [hread]
  cases s.memRead .src s.consumed.toNat s.copyLen with
  | error f => rfl
  | ok bs => exact bind_supplied w (supplied_accWrite w s _ _) fun _ => rfl

theorem supplied_packPayload (payload : List Byte) (s : State) :
    (s.supplied w).packPayload payload = (s.packPayload payload).map (State.supplied w) :=
  bind_supplied w (supplied_stgWrite w s _ _) fun u =>
    bind_supplied w (supplied_stgWrite w u _ _) fun v =>
      bind_supplied w (supplied_stgWrite w v _ _) fun _ => rfl

theorem supplied_packChecksum (cl : Nat) (crc : Word) (s : State) :
    (s.supplied w).packChecksum cl crc = (s.packChecksum cl crc).map (State.supplied w) :=
  bind_supplied w (supplied_stgWrite w (s.answered (.crcAnswer crc)) _ _) fun u =>
    congrArg Except.ok (supplied_blockTaken w (u.chunkStaged cl))

/-- Progress of a computation that may stop, in a richer world. -/
theorem progressOf_supplied {x y : Except Fault State} {t : State} (hy : y = x.map (State.supplied w))
    (h : Progress.of x = .moved t) : Progress.of y = .moved (t.supplied w) := by
  subst hy
  cases x with
  | error f => cases h
  | ok u => cases h; rfl

variable {s t : State}

theorem supplied_ensureStep (h : ensureStep s = .moved t) : ensureStep (s.supplied w) = .moved (t.supplied w) := by
  show (if s.alloc then (if s.hdrWritten then _ else _) else _) = _
  unfold ensureStep at h
  split at h
  · split at h
    · rw [if_pos ‹_›, if_pos ‹_›]; cases h; rfl
    · rw [if_pos ‹_›, if_neg ‹_›]; exact progressOf_supplied w (supplied_stagePreamble w s) h
  · rw [if_neg ‹_›]; cases h; rfl

theorem supplied_poolStep (h : poolStep s = .moved t) : poolStep (s.supplied w) = .moved (t.supplied w) := by
  unfold poolStep at h ⊢
  split at h
  · cases h
  · rename_i rest hp
    have hp' : (s.supplied w).poolAnswers = .granted :: (rest ++ w.pool) := by simp [hp]
    rw [hp']; cases h; rfl
  · rename_i rest hp
    have hp' : (s.supplied w).poolAnswers = .refused :: (rest ++ w.pool) := by simp [hp]
    rw [hp']; cases h
    exact congrArg Progress.moved
      (supplied_raise w .alloc (State.answered (.poolAnswer .refused) { s with poolAnswers := rest }))

theorem supplied_segmentStep (h : segmentStep s = .moved t) : segmentStep (s.supplied w) = .moved (t.supplied w) := by
  show (if s.consumed.toNat < s.cur.len.toNat then (if s.accLen = 0 ∧ s.params.block ≤ s.remaining then _ else _) else _) = _
  unfold segmentStep at h
  split at h
  · split at h
    · rw [if_pos ‹_›, if_pos ‹_›]; cases h; rfl
    · rw [if_pos ‹_›, if_neg ‹_›]; exact progressOf_supplied w (supplied_copyToAcc w s) h
  · rw [if_neg ‹_›]; cases h; exact congrArg Progress.moved (supplied_complete w s)

theorem supplied_compressAnswered {blk : List Byte} (h : compressAnswered blk s = .moved t) :
    compressAnswered blk (s.supplied w) = .moved (t.supplied w) := by
  have hparams : (s.supplied w).params = s.params := rfl
  unfold compressAnswered at h ⊢
  rw [hparams]
  split at h
  · cases h
    exact congrArg Progress.moved (supplied_raise w .compress ((s.answered _).stgScribble _))
  · rename_i payload _
    split at h
    · rw [if_pos ‹_›]; cases h
      exact congrArg Progress.moved (supplied_raise w .compress ((s.answered _).stgScribble _))
    · rw [if_neg ‹_›]
      exact progressOf_supplied w (supplied_packPayload w payload ((s.answered _).stgScribble _)) h

theorem supplied_compressorStep (h : compressorStep s = .moved t) :
    compressorStep (s.supplied w) = .moved (t.supplied w) := by
  have hblk : (s.supplied w).block = s.block := rfl
  unfold compressorStep at h ⊢
  split at h
  · rename_i hr
    rw [if_pos (by simp [hr]), hblk]
    split at h
    · exact supplied_compressAnswered w h
    · cases h
  · cases h

theorem supplied_checksumStep {cl : Nat} (h : checksumStep cl s = .moved t) :
    checksumStep cl (s.supplied w) = .moved (t.supplied w) := by
  have hblk : (s.supplied w).block = s.block := rfl
  unfold checksumStep at h ⊢
  split at h
  · rename_i hr
    rw [if_pos (by simp [hr]), hblk]
    split at h
    · exact progressOf_supplied w (supplied_packChecksum w _ _ s) h
    · cases h
  · cases h

theorem supplied_drainStep (h : drainStep s = .moved t) : drainStep (s.supplied w) = .moved (t.supplied w) := by
  have hread : (s.supplied w).memRead .stg 0 (s.supplied w).stageLen = s.memRead .stg 0 s.stageLen := rfl
  unfold drainStep at h ⊢
  rw [hread]
  split at h
  · rw [if_pos (by assumption)]; cases h; exact congrArg Progress.moved (supplied_afterDrain w s)
  · rw [if_neg (by assumption)]
    split at h
    · cases h; rfl
    · cases h

theorem supplied_sinkAnswered (bytes : List Byte) (a : SinkAnswer) (s : State) :
    (s.supplied w).sinkAnswered bytes a = (s.sinkAnswered bytes a).supplied w := by
  cases a with
  | ok => exact supplied_afterDrain w ((s.answered _).delivered bytes)
  | err kept => exact supplied_raise w .sink ((s.answered _).keptByFailingSink bytes kept)

theorem supplied_sinkStep (h : sinkStep s = .moved t) : sinkStep (s.supplied w) = .moved (t.supplied w) := by
  have hread : (s.supplied w).memRead .stg 0 (s.supplied w).stageLen = s.memRead .stg 0 s.stageLen := rfl
  unfold sinkStep at h ⊢
  split at h
  · cases h
  · rename_i a rest hp
    have hp' : (s.supplied w).sinkAnswers = a :: (rest ++ w.sink) := by simp [hp]
    rw [hp', hread]
    split at h
    · cases h
      exact congrArg Progress.moved (supplied_sinkAnswered w _ a { s with sinkAnswers := rest })
    · cases h

/-- A step of the sequencer that moves makes the same move where the world outside supplies more: no step looks at more of a
queue than its first answer, or at the inputs to come. -/
theorem tick_supplied (h : tick s = .moved t) : tick (s.supplied w) = .moved (t.supplied w) := by
  rcases tick_moved_cases h with ⟨hf, hq, h⟩ | ⟨hf, hq, h⟩ | ⟨hf, hq, h⟩ | ⟨hf, hq, h⟩ | ⟨hf, hq, h⟩ | ⟨cl, hf, hq, h⟩ |
    ⟨hf, hq, h⟩ | ⟨hf, hq, h⟩
  · exact (tick_ensure (s := s.supplied w) hf hq).trans (supplied_ensureStep w h)
  · exact (tick_pool (s := s.supplied w) hf hq).trans (supplied_poolStep w h)
  · exact (tick_segment (s := s.supplied w) hf hq).trans (supplied_segmentStep w h)
  · cases h; exact (tick_emit (s := s.supplied w) hf hq).trans rfl
  · exact (tick_compressor (s := s.supplied w) hf hq).trans (supplied_compressorStep w h)
  · exact (tick_checksum (s := s.supplied w) hf hq).trans (supplied_checksumStep w h)
  · exact (tick_drain (s := s.supplied w) hf hq).trans (supplied_drainStep w h)
  · exact (tick_sink (s := s.supplied w) hf hq).trans (supplied_sinkStep w h)
end

end Sys2Proof.Machine
end

section
/-! SUPPORT. What every step of the sequencer keeps, and what grows. -/

namespace Sys2Proof.Machine

open State

/-- From `s` to `t` the sequencer has kept the parameters, its pace, the inputs and the units, has taken answers of the sink
from the front only, and has lengthened history and sink stream. -/
structure State.Advances (s t : State) : Prop where
  params : t.params = s.params
  eager : t.eager = s.eager
  inputs : t.inputs = s.inputs
  compressorReady : t.compressorReady = s.compressorReady
  checksumReady : t.checksumReady = s.checksumReady
  sinkAnswers : t.sinkAnswers <:+ s.sinkAnswers
  history : s.history <+: t.history
  sinkStream : s.sinkStream <+: t.sinkStream

namespace State.Advances

theorem refl (s : State) : s.Advances s :=
  ⟨rfl, rfl, rfl, rfl, rfl, List.suffix_rfl, List.prefix_rfl, List.prefix_rfl⟩

theorem trans {s t u : State} (h : s.Advances t) (k : t.Advances u) : s.Advances u :=
  ⟨k.params.trans h.params, k.eager.trans h.eager, k.inputs.trans h.inputs, k.compressorReady.trans h.compressorReady,
    k.checksumReady.trans h.checksumReady, k.sinkAnswers.trans h.sinkAnswers, h.history.trans k.history,
    h.sinkStream.trans k.sinkStream⟩

theorem log (e : Event) (s : State) : s.Advances (s.log e) :=
  { refl s with history := List.prefix_append _ _ }

theorem request (p : Pending) (e : Event) (s : State) : s.Advances (s.request p e) :=
  { refl s with history := List.prefix_append _ _ }

theorem answered (e : Event) (s : State) : s.Advances (s.answered e) :=
  { refl s with history := List.prefix_append _ _ }

theorem raise (e : ErrorKind) (s : State) : s.Advances (s.raise e) := by
  constructor <;> simp

theorem complete (s : State) : s.Advances s.complete := by
  constructor <;> simp

theorem afterDrain (s : State) : s.Advances s.afterDrain := by
  unfold State.afterDrain
  split
  · split
    · unfold checkpoint
      split
      · exact (log _ s).trans (raise _ _)
      · exact (log _ s).trans { refl _ with }
    · exact { refl s with }
  · exact complete s
  · exact complete s

theorem sinkAnswered (bytes : List Byte) (a : SinkAnswer) (s : State) : s.Advances (s.sinkAnswered bytes a) := by
  cases a with
  | ok =>
    have hd : s.Advances ((s.answered (.sinkAnswer true)).delivered bytes) :=
      { answered _ s with sinkStream := List.prefix_append _ _ }
    exact hd.trans (afterDrain _)
  | err kept =>
    have hk : s.Advances ((s.answered (.sinkAnswer false)).keptByFailingSink bytes kept) :=
      { answered _ s with sinkStream := List.prefix_append _ _ }
    exact hk.trans (raise _ _)

theorem blockTaken (s : State) : s.Advances s.blockTaken := by
  unfold State.blockTaken
  split <;> exact { refl s with }

end State.Advances

section
variable {s t : State}

theorem ensureStep_advances (h : ensureStep s = .moved t) : s.Advances t := by
  unfold ensureStep at h
  split at h
  · split at h
    · cases h; exact { Advances.refl s with }
    · cases hp : s.stagePreamble with
      | error f => rw [hp] at h; cases h
      | ok u =>
        rw [hp] at h; cases h
        obtain ⟨rfl, -⟩ := stagePreamble_ok hp
        exact { Advances.refl s with }
  · cases h; exact .request _ _ s

theorem poolStep_advances (h : poolStep s = .moved t) : s.Advances t := by
  unfold poolStep at h
  split at h
  · cases h
  · cases h; exact { Advances.answered (.poolAnswer .granted) s with }
  · rename_i rest _
    cases h
    have ha : s.Advances (State.answered (.poolAnswer .refused) { s with poolAnswers := rest }) :=
      { Advances.answered (.poolAnswer .refused) s with }
    exact ha.trans (.raise _ _)

theorem segmentStep_advances (h : segmentStep s = .moved t) : s.Advances t := by
  unfold segmentStep at h
  split at h
  · split at h
    · cases h; exact { Advances.refl s with }
    · cases hc : s.copyToAcc with
      | error f => rw [hc] at h; cases h
      | ok u =>
        rw [hc] at h; cases h
        obtain rfl := copyToAcc_ok hc
        exact { Advances.refl s with }
  · cases h; exact .complete s

/-- The compressor's answer is the first event behind the request. -/
theorem compressAnswered_advances {blk : List Byte} (h : compressAnswered blk s = .moved t) :
    (s.log (.compressAnswer ((s.params.compress blk).map List.length))).Advances t := by
  have hscribble : ∀ (e : Event) (a : Nat), (s.log e).Advances ((s.answered e).stgScribble a) := fun e _ =>
    { Advances.refl (s.log e) with }
  unfold compressAnswered at h
  split at h
  · rename_i hc
    cases h; rw [hc]
    exact (hscribble _ _).trans (.raise _ _)
  · rename_i payload hc
    rw [hc]
    split at h
    · cases h; exact (hscribble _ _).trans (.raise _ _)
    · cases hp : ((s.answered (.compressAnswer (some payload.length))).stgScribble (s.stageLen + 8)).packPayload payload with
      | error f => rw [hp] at h; cases h
      | ok u =>
        rw [hp] at h; cases h
        obtain rfl := packPayload_ok hp
        exact (hscribble _ _).trans { Advances.refl _ with history := List.prefix_append _ _ }

/-- The checksum unit's answer is the first event behind the request. -/
theorem packChecksum_advances {cl : Nat} {crc : Word} (h : s.packChecksum cl crc = .ok t) :
    (s.log (.crcAnswer crc)).Advances t := by
  obtain rfl := packChecksum_ok h
  have hc : (s.log (.crcAnswer crc)).Advances (s.stgChecksummed cl crc) := { Advances.refl (s.log (.crcAnswer crc)) with }
  exact hc.trans (.blockTaken _)

theorem compressorStep_advances (h : compressorStep s = .moved t) : s.Advances t := by
  unfold compressorStep at h
  split at h
  · split at h
    · exact (Advances.log _ s).trans (compressAnswered_advances h)
    · cases h
  · cases h

theorem checksumStep_advances {cl : Nat} (h : checksumStep cl s = .moved t) : s.Advances t := by
  unfold checksumStep at h
  split at h
  · split at h
    · rename_i blk _
      cases hp : s.packChecksum cl (s.params.maskedCrc blk) with
      | error f => rw [hp] at h; cases h
      | ok u => rw [hp] at h; cases h; exact (Advances.log _ s).trans (packChecksum_advances hp)
    · cases h
  · cases h

theorem drainStep_advances (h : drainStep s = .moved t) : s.Advances t := by
  unfold drainStep at h
  split at h
  · cases h; exact .afterDrain s
  · split at h
    · cases h; exact .request _ _ s
    · cases h

theorem sinkStep_advances (h : sinkStep s = .moved t) : s.Advances t := by
  unfold sinkStep at h
  split at h
  · cases h
  · rename_i a rest hq
    split at h
    · cases h
      have hr : s.Advances { s with sinkAnswers := rest } :=
        { Advances.refl s with sinkAnswers := hq ▸ List.suffix_cons a rest }
      exact hr.trans (.sinkAnswered _ _ _)
    · cases h

theorem tick_advances (h : tick s = .moved t) : s.Advances t := by
  rcases tick_moved_cases h with ⟨-, -, h⟩ | ⟨-, -, h⟩ | ⟨-, -, h⟩ | ⟨-, -, h⟩ | ⟨-, -, h⟩ | ⟨cl, -, -, h⟩ | ⟨-, -, h⟩ | ⟨-, -, h⟩
  · exact ensureStep_advances h
  · exact poolStep_advances h
  · exact segmentStep_advances h
  · cases h; exact .request _ _ s
  · exact compressorStep_advances h
  · exact checksumStep_advances h
  · exact drainStep_advances h
  · exact sinkStep_advances h

end

end Sys2Proof.Machine
end

section
/-! SUPPORT. A command in progress goes on to its end or its next wait, and rests there (60_exceptions.md R230,
70_reset_and_hazards.md R262; log entry 9). -/

namespace Sys2Proof.Machine

open State Relation

/-- One step of the sequencer inside a command. -/
def Moves (s t : State) : Prop := s.busy = true ∧ tick s = .moved t

/-- The sequencer comes from `s` to `t` and rests there. -/
structure Settles (s t : State) : Prop where
  reaches : ReflTransGen Moves s t
  rests : ∀ u, ¬ Moves t u

theorem moves_rightUnique : Relator.RightUnique Moves := fun _ _ _ h k =>
  Progress.moved.inj (h.2.symm.trans k.2)

theorem Settles.unique {s t u : State} (h : Settles s t) (k : Settles s u) : t = u := by
  rcases ReflTransGen.total_of_right_unique moves_rightUnique h.reaches k.reaches with hr | hr
  · rcases hr.cases_head with heq | ⟨v, hm, -⟩
    · exact heq
    · exact absurd hm (h.rests v)
  · rcases hr.cases_head with heq | ⟨v, hm, -⟩
    · exact heq.symm
    · exact absurd hm (k.rests v)

theorem reaches_advances {s t : State} (h : ReflTransGen Moves s t) : s.Advances t := by
  induction h with
  | refl => exact .refl s
  | tail _ hm ih => exact ih.trans (tick_advances hm.2)

theorem not_moves_of_idle {s : State} (hb : s.busy = false) (t : State) : ¬ Moves s t := fun h =>
  Bool.false_ne_true (hb.symm.trans h.1)

/-- A state whose agent has not answered does not move (00_scope.md R16): its request names the one step that could, and that
step asks for the answer. -/
theorem tick_ne_moved_of_waiting {s : State} (hw : s.Waiting) (t : State) : tick s ≠ .moved t := by
  intro h
  rcases tick_moved_cases h with ⟨-, hq, h⟩ | ⟨-, hq, h⟩ | ⟨-, hq, h⟩ | ⟨-, hq, h⟩ | ⟨-, hq, h⟩ | ⟨cl, -, hq, h⟩ | ⟨-, hq, h⟩ |
    ⟨-, hq, h⟩ <;> simp_all [Waiting, poolStep, compressorStep, checksumStep, sinkStep]

theorem tick_waits {s : State} (h : s.Inv) (hb : s.busy = true) (hw : s.Waiting) : tick s = .waits := by
  rcases tick_progress h hb with ⟨t, ht, -⟩ | ⟨ht, -⟩
  · exact absurd ht (tick_ne_moved_of_waiting hw t)
  · exact ht

theorem not_moves_at_rest {s : State} (h : s.busy = false ∨ (s.busy = true ∧ s.Waiting)) (t : State) : ¬ Moves s t := by
  rcases h with hb | ⟨-, hw⟩
  · exact not_moves_of_idle hb t
  · exact fun hm => tick_ne_moved_of_waiting hw t hm.2

theorem reaches_of_resume {s t : State} (h : resume s = .next t) : ReflTransGen Moves s t :=
  resume_keeps (P := ReflTransGen Moves s) (fun _ _ hr hb ht => hr.tail ⟨hb, ht⟩) .refl h

/-- Where the sequencer runs without pause, a command goes on to the state in which the sequencer rests. -/
theorem resume_eq_of_settles {s t : State} (h : s.Inv) (he : s.eager = true) (hs : Settles s t) : resume s = .next t := by
  obtain ⟨u, hu, -, hrest⟩ := resume_ends h he
  rw [hs.unique ⟨reaches_of_resume hu, not_moves_at_rest hrest⟩]
  exact hu

theorem State.Inv.ended {s : State} (h : s.Inv) (hb : s.busy = false) : s.Ended :=
  have ⟨hf, hi⟩ := h.idle_phase hb
  ⟨hb, hf, hi.quiet⟩

/-- A sequencer that runs without pause makes the step that is possible, and goes on to the end of the command or its next
wait. -/
theorem resume_of_tick_moved {s v : State} (h : s.Inv) (he : s.eager = true) (hb : s.busy = true)
    (hv : tick s = .moved v) :
    ∃ t, resume s = .next t ∧ (t.Ended ∨ (t.busy = true ∧ t.Waiting)) ∧ v.Advances t ∧ (v.busy = false → t = v) := by
  have hvi := tick_keeps_inv h hv
  obtain ⟨t, ht, hti, hrest⟩ := resume_ends hvi ((tick_advances hv).eager.trans he)
  have hr := reaches_of_resume ht
  have hset : Settles s t := ⟨.head ⟨hb, hv⟩ hr, not_moves_at_rest hrest⟩
  refine ⟨t, resume_eq_of_settles h he hset, hrest.imp_left hti.ended, reaches_advances hr, fun hvb => ?_⟩
  exact Settles.unique ⟨hr, hset.rests⟩ ⟨.refl, not_moves_of_idle hvb⟩

/-- With no input a state that waits for an agent stays as it is, at either pace. -/
theorem step_of_waiting {s : State} (h : s.Inv) (hb : s.busy = true) (hw : s.Waiting) (hin : s.inputs = []) :
    step s = .next s := by
  have ht := tick_waits h hb hw
  have hgo : (if s.eager then resume s else oneTick s) = .next s := by
    unfold resume oneTick
    split
    · exact run_waits _ ht
    · exact run_waits _ ht
  rw [step, nextMove_nil h.1.paramsWf hin]
  exact hgo

end Sys2Proof.Machine
end

section
/-! SUPPORT. A late answer of an agent has the effect of one that was there (00_scope.md R16,
93_implementation_defined.md U18). -/

namespace Sys2Proof.Machine

open State Relation

theorem supplied_safe {s : State} (h : s.Safe) (w : Supply) : (s.supplied w).Safe :=
  safe_world h rfl rfl rfl rfl rfl rfl rfl rfl rfl rfl rfl rfl rfl rfl h.1.1.srcWf rfl rfl (.inl rfl)

theorem reaches_supplied {s t : State} (w : Supply) (h : ReflTransGen Moves s t) :
    ReflTransGen Moves (s.supplied w) (t.supplied w) :=
  h.lift (State.supplied w) fun _ _ hm => ⟨hm.1, tick_supplied w hm.2⟩

theorem supplied_only_inputs (s : State) (rest : List Input) : s.supplied { inputs := rest } = { s with inputs := rest } := by
  simp [supplied]

theorem moves_inputs {s t : State} (rest : List Input) (h : Moves s t) :
    Moves { s with inputs := rest } { t with inputs := rest } := by
  rw [← supplied_only_inputs s, ← supplied_only_inputs t]
  exact ⟨h.1, tick_supplied _ h.2⟩

/-- The sequencer does not look at the inputs to come. -/
theorem settles_inputs {s t : State} (rest : List Input) (h : Settles s t) :
    Settles { s with inputs := rest } { t with inputs := rest } where
  reaches := h.reaches.lift (fun s : State => { s with inputs := rest }) fun _ _ => moves_inputs rest
  rests _ hm := h.rests _ (moves_inputs (s := { t with inputs := rest }) t.inputs hm)

theorem acceptChecks_isOver_idle {i : Instr} {s t : State} (h : acceptChecks i s = .isOver (.next t)) : t.busy = false := by
  unfold acceptChecks at h
  split at h
  · cases h
  · split at h
    · cases h; exact raise_busy _ _
    · split at h
      · cases h; exact raise_busy _ _
      · split at h
        · cases h
        · cases h; exact raise_busy _ _

theorem execDispose_idle {snk : Bool} {s t : State} (h : execDispose snk s = .next t) : t.busy = false := by
  unfold execDispose at h
  split at h
  · cases h
  · split at h <;> cases h <;> exact complete_busy _

theorem launchSuspendable_busy {s t : State} (h : launchSuspendable s = .next t) (hb : t.busy = true) :
    s.cancelReq = false := by
  unfold launchSuspendable at h
  split at h
  · cases h; simp at hb
  · rename_i hc; simpa using hc

theorem exec_eq_of_isOver {i : Instr} {s : State} {o : Host.Outcome State Fault Refusal} (hop : i.op ≠ .dispose)
    (h : acceptChecks i s = .isOver o) : exec i s = o := by
  cases i with
  | write snk => simp [exec, execWrite, h]
  | writeA snk => simp [exec, execWriteA, h]
  | flush snk => simp [exec, execFlush, h]
  | flushA snk => simp [exec, execFlushA, h]
  | dispose snk => exact absurd rfl hop

theorem exec_eq_of_goesOn {i : Instr} {s u : State} (hop : i.op ≠ .dispose) (h : acceptChecks i s = .goesOn u) :
    exec i s = if i.async then launchSuspendable u else launch u := by
  cases i with
  | write snk => simp [exec, execWrite, h, Instr.async]
  | writeA snk => simp [exec, execWriteA, h, Instr.async]
  | flush snk => simp [exec, execFlush, h, Instr.async]
  | flushA snk => simp [exec, execFlushA, h, Instr.async]
  | dispose snk => exact absurd rfl hop

/-- The command is a WRITE or FLUSH form that passes the acceptance checks (60_exceptions.md R219) and check point 0 (R214). -/
structure State.Starts (i : Instr) (s : State) : Prop where
  form : i.op ≠ .dispose
  snk : i.snk = true
  paramsWf : s.params.wf = true
  idle : s.busy = false
  live : s.disposed = false
  sound : s.poisoned = false
  uncancelled : i.async = true → s.cancelReq = false

/-- A command that is still busy after the step of its `CMD` write has started. -/
theorem starts_of_exec_busy {i : Instr} {s t : State} (h : exec i s = .next t) (hb : t.busy = true) : s.Starts i := by
  have hop : i.op ≠ .dispose := fun hd => by
    cases i with
    | dispose snk => simp [execDispose_idle h] at hb
    | _ => cases hd
  cases hc : acceptChecks i s with
  | isOver o =>
    rw [exec_eq_of_isOver hop hc] at h
    subst h
    simp [acceptChecks_isOver_idle hc] at hb
  | goesOn u =>
    obtain ⟨rfl, hw, hidle, hlive, hsound, hsnk⟩ := acceptChecks_goesOn hc
    refine ⟨hop, hsnk, hw, hidle, hlive, hsound, fun ha => ?_⟩
    rw [exec_eq_of_goesOn hop hc, if_pos ha] at h
    simpa using launchSuspendable_busy h hb

theorem exec_of_starts {i : Instr} {s : State} (h : s.Starts i) : exec i s = resume (s.started i) :=
  exec_form h.form h.snk h.paramsWf h.idle h.live h.sound h.uncancelled

theorem started_safe_of_starts {i : Instr} {s : State} (h : s.Starts i) (hs : s.Safe) : (s.started i).Safe :=
  started_safe hs h.form h.idle h.live h.sound

theorem safe_of_exec_busy {i : Instr} {s t : State} (hs : s.Safe) (hx : exec i s = .next t) (hb : t.busy = true) :
    t.Safe := by
  have hstarts := starts_of_exec_busy hx hb
  rw [exec_of_starts hstarts] at hx
  exact resume_keeps_safe (started_safe_of_starts hstarts hs) hx

/-- A command is held by an agent. What the agent answers then takes it to the state that the command reaches where the answer
was there from the start. -/
theorem late_answer {i : Instr} {s t : State} (w : Supply) (hs : s.Safe) (he : s.eager = true) (hx : exec i s = .next t)
    (hb : t.busy = true) :
    ∃ u, exec i (s.supplied { w with inputs := s.inputs }) = .next u ∧
      resume (t.supplied { w with inputs := s.inputs }) = .next u ∧
      ∀ rest, resume (t.supplied { w with inputs := rest }) = .next { u with inputs := rest } := by
  have ht := safe_of_exec_busy hs hx hb
  have hstarts := starts_of_exec_busy hx hb
  have hstart := started_safe_of_starts hstarts hs
  rw [exec_of_starts hstarts] at hx
  have hreach := reaches_of_resume hx
  have hte : t.eager = true := (reaches_advances hreach).eager.trans he
  obtain ⟨u, hu, -, hrest⟩ := resume_ends (supplied_safe ht { w with inputs := s.inputs }).1 hte
  have hset : Settles (t.supplied { w with inputs := s.inputs }) u := ⟨reaches_of_resume hu, not_moves_at_rest hrest⟩
  refine ⟨u, ?_, hu, fun rest => ?_⟩
  · rw [exec_of_starts (s := s.supplied _) { hstarts with }]
    exact resume_eq_of_settles (s := (s.started i).supplied { w with inputs := s.inputs })
      (supplied_safe hstart _).1 he ⟨(reaches_supplied _ hreach).trans hset.reaches, hset.rests⟩
  · exact resume_eq_of_settles (s := t.supplied { w with inputs := rest }) (supplied_safe ht _).1 hte
      (settles_inputs rest hset)

end Sys2Proof.Machine
end

section
/-! PROOFS. The parameters (00_scope.md R8), and a command held by the pool, the sink, the compressor or the checksum unit
(00_scope.md R16). -/

namespace Sys2Proof.Machine

open State

/-! ### The step whose input is an agent's answer -/

section
variable {s : State} {rest : List Input} (hw : s.params.wf = true)
include hw

theorem step_pool {a : PoolAnswer} (hin : s.inputs = .pool a :: rest) :
    step s = resume (s.supplied { inputs := rest, pool := [a] }) := by
  simp [step, nextMove_pool hw hin, supplied]

theorem step_sink {a : SinkAnswer} (hin : s.inputs = .sink a :: rest) :
    step s = resume (s.supplied { inputs := rest, sink := [a] }) := by
  simp [step, nextMove_sink hw hin, supplied]

theorem step_compressor (hin : s.inputs = .compressor true :: rest) :
    step s = resume (s.supplied { inputs := rest, compressor := true }) := by
  simp [step, nextMove_compressor hw hin, supplied]

theorem step_checksum (hin : s.inputs = .checksum true :: rest) :
    step s = resume (s.supplied { inputs := rest, checksum := true }) := by
  simp [step, nextMove_checksum hw hin, supplied]

end

/-- A paced sequencer leaves what an input brings to its next step (log entry 9). -/
theorem resume_paced {s : State} (he : s.eager = false) : resume s = .next s := by
  simp [resume, he]

/-! ### The parameters -/

/-- Every command is refused where the parameters are not well formed (00_scope.md R8). -/
theorem exec_refused_of_not_wf {s : State} (h : s.params.wf = false) (i : Instr) :
    exec i s = .refused .badParameters := by
  have hr : refusal s = some .badParameters := by simp [refusal, h]
  have hc : ∀ j, acceptChecks j s = .isOver (.refused .badParameters) := fun j => by simp [acceptChecks, hr]
  cases i with
  | dispose snk => simp [exec, execDispose, hr]
  | _ => exact exec_eq_of_isOver (by simp [Instr.op]) (hc _)

theorem step_refused_of_not_wf {s : State} (h : s.params.wf = false) : step s = .refused .badParameters := by
  simp [step, nextMove, h]

/-- Settles O16: a set that violates the constraint is not well formed, which `nextMove` and acceptance ask for first. -/
theorem badParametersRefused : Obligations.BadParametersRefused := by
  unfold Obligations.BadParametersRefused
  refine ⟨by decide, by decide, by decide, fun s hbound => ?_⟩
  have hwf : s.params.wf = false := Bool.eq_false_iff.2 fun h => hbound (paramsWf_bound h)
  exact ⟨step_refused_of_not_wf hwf, exec_refused_of_not_wf hwf⟩

/-! ### The pool -/

/-- The form has asked the pool (43_lifecycle.md R190). -/
def State.poolAsked (i : Instr) (s : State) : State :=
  (s.started i).request .pool (.poolAcquire s.params.block s.params.stageSize)

/-- A form that finds no lease and no answer of the pool asks the pool and is held. -/
theorem exec_held_by_pool {i : Instr} {s : State} (hstarts : s.Starts i) (hs : s.Safe) (ha : s.alloc = false)
    (he : s.eager = true) (hp : s.poolAnswers = []) : exec i s = .next (s.poolAsked i) := by
  have hask : tick (s.started i) = .moved (s.poolAsked i) := by
    rw [tick_ensure (s := s.started i) rfl (hs.1.ended hstarts.idle).2.2, ensureStep,
      if_neg (by exact Bool.eq_false_iff.1 ha)]
    rfl
  have hwait : (s.poolAsked i).Waiting := .inl ⟨rfl, hp⟩
  rw [exec_of_starts hstarts]
  exact resume_eq_of_settles (started_safe_of_starts hstarts hs).1 he
    ⟨.single ⟨rfl, hask⟩, fun u hm => tick_ne_moved_of_waiting hwait u hm.2⟩

/-- Settles O27: the form rests where it has asked the pool, and the late answer is `late_answer`'s. -/
theorem heldUntilThePoolAnswers : Obligations.HeldUntilThePoolAnswers := by
  unfold Obligations.HeldUntilThePoolAnswers
  intro i s hop hsnk hc hs hb hd hp ha he hpool hin
  have hx := exec_held_by_pool ⟨hop, hsnk, hs.1.1.paramsWf, hb, hd, hp, hc⟩ hs ha he hpool
  have ht := safe_of_exec_busy hs hx rfl
  refine ⟨s.poolAsked i, hx, rfl, rfl, rfl, ha, step_of_waiting ht.1 rfl (.inl ⟨rfl, hpool⟩) hin, fun answer => ?_⟩
  obtain ⟨u, hu, hlate, -⟩ := late_answer { pool := [answer] } hs he hx rfl
  refine ⟨u, ?_, ?_⟩
  · simpa [supplied, hpool] using hu
  · rw [hin] at hlate
    exact (step_pool (s := { s.poolAsked i with inputs := [.pool answer] }) ht.1.1.paramsWf rfl).trans hlate

/-! ### Where a request is outstanding -/

/-- The phase that an outstanding request names (10_state.md R27). -/
theorem State.Inv.fsm_of_pending {s : State} (h : s.Inv) :
    (s.pending = .sink → s.fsm = .drain) ∧ (s.pending = .compressor → s.fsm = .emit) ∧
    ∀ cl, s.pending = .checksum cl → s.fsm = .emit := by
  obtain ⟨-, hp⟩ := h
  cases hf : s.fsm <;> simp only [hf] at hp
  case idle => simp [hp.quiet]
  case segment => simp [hp.quiet]
  case ensure => rcases hp.asks with hq | ⟨hq, -⟩ <;> simp [hq]
  case emit => rcases hp.asks with hq | hq | ⟨cl, hq, -⟩ <;> simp [hq]
  case drain => rcases hp.asks with hq | ⟨hq, -⟩ <;> simp [hq]

theorem State.Inv.emit {s : State} (h : s.Inv) (hf : s.fsm = .emit) : s.EmitInv := by
  obtain ⟨-, hp⟩ := h
  simpa only [hf] using hp

theorem State.Inv.drain {s : State} (h : s.Inv) (hf : s.fsm = .drain) : s.DrainInv := by
  obtain ⟨-, hp⟩ := h
  simpa only [hf] using hp

/-! ### The sink -/

/-- The sink's answer to the outstanding transfer, which is all that is staged (20_memory.md R61). -/
theorem tick_sinkAnswered {s : State} {a : SinkAnswer} {rest : List SinkAnswer} (h : s.Inv) (hq : s.pending = .sink)
    (ha : s.sinkAnswers = a :: rest) :
    tick s = .moved (State.sinkAnswered s.staged a { s with sinkAnswers := rest }) := by
  have hf := h.fsm_of_pending.1 hq
  have hread : s.memRead .stg 0 s.stageLen = .ok s.staged :=
    memRead_eq (by simpa [hasAddresses, (h.drain hf).lease.leased] using h.1.stageRoom)
  rw [tick_sink hf hq, sinkStep, ha]
  simp only [hread]

/-- The answer that a sequencer without pause takes at once, and what it leaves (42_chunk_emit.md R171, R174, R175). -/
theorem resume_sinkAnswered {s : State} {a : SinkAnswer} (h : s.Inv) (he : s.eager = true) (hb : s.busy = true)
    (hq : s.pending = .sink) (ha : s.sinkAnswers = [a]) :
    ∃ t, resume s = .next t ∧ (t.Ended ∨ (t.busy = true ∧ t.Waiting)) ∧ t.inputs = s.inputs ∧ t.sinkAnswers = [] ∧
      s.history ++ [.sinkAnswer (decide (a = .ok))] <+: t.history ∧ (a = .ok → s.sinkStream ++ s.staged <+: t.sinkStream) ∧
      ∀ kept, a = .err kept → t.Ended ∧ t.err = 0x05#8 ∧ t.poisoned = true ∧
        t.sinkStream = s.sinkStream ++ s.staged.take kept := by
  have hv := tick_sinkAnswered h hq ha
  obtain ⟨t, ht, hends, hadv, hidle⟩ := resume_of_tick_moved h he hb hv
  have hall := (Advances.sinkAnswered s.staged a { s with sinkAnswers := [] }).trans hadv
  refine ⟨t, ht, hends, hall.inputs, List.suffix_nil.1 hall.sinkAnswers, ?_⟩
  cases a with
  | ok =>
    have hd := (Advances.afterDrain _).trans hadv
    exact ⟨hd.history, fun _ => hd.sinkStream, nofun⟩
  | err kept =>
    obtain rfl := hidle (raise_busy _ _)
    refine ⟨?_, nofun, fun k hk => ?_⟩
    · simp [State.sinkAnswered]
    · cases hk
      exact ⟨⟨raise_busy _ _, raise_fsm _ _, raise_pending _ _⟩, raise_err _ _, by simp [State.sinkAnswered, ErrorKind.poisons],
        by simp [State.sinkAnswered]⟩

/-- Settles O28: a state that waits does not move; the sink's answer makes the one step that was missing, and the run goes on
from there; that a late answer is as good as an early one is `late_answer`'s. -/
theorem heldUntilTheSinkAnswers : Obligations.HeldUntilTheSinkAnswers := by
  unfold Obligations.HeldUntilTheSinkAnswers
  constructor
  · intro s hs hb hq hnone
    refine ⟨hs.1.fsm_of_pending.1 hq, step_of_waiting hs.1 hb (.inr (.inr (.inr ⟨hq, hnone⟩))), fun answer rest hin => ?_⟩
    have hstep := step_sink hs.1.1.paramsWf hin
    constructor
    · intro he
      rw [hstep, resume_paced (by exact he)]
      simp [supplied, hnone]
    · intro he
      rw [hstep]
      exact resume_sinkAnswered (supplied_safe hs _).1 he hb hq (by simp [hnone])
  · intro i s t answer rest hs _ he hx hb _
    obtain ⟨u, hu, -, hlate⟩ := late_answer { sink := [answer] } hs he hx hb
    refine ⟨u, ?_, ?_⟩
    · simpa [supplied] using hu
    · have hw := (safe_of_exec_busy hs hx hb).1.1.paramsWf
      exact (step_sink (s := { t with inputs := .sink answer :: rest }) hw rfl).trans (hlate rest)

/-! ### The compressor and the checksum unit -/

theorem State.Inv.block_eq {s : State} (h : s.Inv) (hf : s.fsm = .emit) : s.block = .ok s.blockBytes :=
  have he := h.emit hf
  block_exists he.block he.lease.leased (paramsWf_block h.1.paramsWf) he.lease.run.consumedLe

/-- The answer of the compressor that a sequencer without pause takes at once. -/
theorem resume_compressorAnswered {s : State} (h : s.Inv) (he : s.eager = true) (hb : s.busy = true)
    (hq : s.pending = .compressor) (hr : s.compressorReady = true) :
    ∃ t, resume s = .next t ∧ (t.Ended ∨ (t.busy = true ∧ t.Waiting)) ∧
      (s.log (.compressAnswer ((s.params.compress s.blockBytes).map List.length))).Advances t := by
  have hf := h.fsm_of_pending.2.1 hq
  obtain ⟨v, hv, -⟩ := compressAnswered_progress h.1 (h.emit hf) hf hq
  have htick : tick s = .moved v := by
    rw [tick_compressor hf hq, compressorStep, if_pos hr, h.block_eq hf]
    exact hv
  obtain ⟨t, ht, hends, hadv, -⟩ := resume_of_tick_moved h he hb htick
  exact ⟨t, ht, hends, (compressAnswered_advances hv).trans hadv⟩

/-- The answer of the checksum unit that a sequencer without pause takes at once. -/
theorem resume_checksumAnswered {s : State} {cl : Nat} (h : s.Inv) (he : s.eager = true) (hb : s.busy = true)
    (hq : s.pending = .checksum cl) (hr : s.checksumReady = true) :
    ∃ t, resume s = .next t ∧ (t.Ended ∨ (t.busy = true ∧ t.Waiting)) ∧
      (s.log (.crcAnswer (s.params.maskedCrc s.blockBytes))).Advances t := by
  have hf := h.fsm_of_pending.2.2 cl hq
  have hlen : cl ≤ s.params.maxComp.bound s.params.block := by
    rcases (h.emit hf).asks with hn | hn | ⟨cl', hn, hlen, -⟩ <;> rw [hq] at hn <;> cases hn
    exact hlen
  obtain ⟨v, hv, -⟩ := packChecksum_progress h.1 (h.emit hf) hf hq hlen (s.params.maskedCrc s.blockBytes)
  have htick : tick s = .moved v := by
    rw [tick_checksum hf hq, checksumStep, if_pos hr, h.block_eq hf]
    exact congrArg Progress.of hv
  obtain ⟨t, ht, hends, hadv, -⟩ := resume_of_tick_moved h he hb htick
  exact ⟨t, ht, hends, (packChecksum_advances hv).trans hadv⟩

/-- Settles O29, for either unit as O28 for the sink. -/
theorem heldUntilTheUnitsAnswer : Obligations.HeldUntilTheUnitsAnswer := by
  unfold Obligations.HeldUntilTheUnitsAnswer
  refine ⟨?_, ?_, ?_⟩
  · intro s hs hb hq hnr
    refine ⟨hs.1.fsm_of_pending.2.1 hq, step_of_waiting hs.1 hb (.inr (.inl ⟨hq, hnr⟩)), fun rest hin => ?_⟩
    have hstep := step_compressor hs.1.1.paramsWf hin
    constructor
    · intro he
      rw [hstep, resume_paced (by exact he)]
      simp [supplied]
    · intro he
      rw [hstep]
      obtain ⟨t, ht, hends, hadv⟩ := resume_compressorAnswered (supplied_safe hs { inputs := rest, compressor := true }).1
        he hb hq (by simp)
      exact ⟨t, ht, hends, hadv.inputs, hadv.compressorReady.trans (by simp), hadv.history⟩
  · intro s cl hs hb hq hnr
    refine ⟨hs.1.fsm_of_pending.2.2 cl hq, step_of_waiting hs.1 hb (.inr (.inr (.inl ⟨cl, hq, hnr⟩))), fun rest hin => ?_⟩
    have hstep := step_checksum hs.1.1.paramsWf hin
    constructor
    · intro he
      rw [hstep, resume_paced (by exact he)]
      simp [supplied]
    · intro he
      rw [hstep]
      obtain ⟨t, ht, hends, hadv⟩ := resume_checksumAnswered (supplied_safe hs { inputs := rest, checksum := true }).1
        he hb hq (by simp)
      exact ⟨t, ht, hends, hadv.inputs, hadv.checksumReady.trans (by simp), hadv.history⟩
  · intro i s t rest hs _ he hx hb
    have hw := (safe_of_exec_busy hs hx hb).1.1.paramsWf
    constructor
    · intro _
      obtain ⟨u, hu, -, hlate⟩ := late_answer { compressor := true } hs he hx hb
      refine ⟨u, by simpa [supplied] using hu, ?_⟩
      exact (step_compressor (s := { t with inputs := .compressor true :: rest }) hw rfl).trans (hlate rest)
    · intro cl _
      obtain ⟨u, hu, -, hlate⟩ := late_answer { checksum := true } hs he hx hb
      refine ⟨u, by simpa [supplied] using hu, ?_⟩
      exact (step_checksum (s := { t with inputs := .checksum true :: rest }) hw rfl).trans (hlate rest)

end Sys2Proof.Machine
end

section
/-! SUPPORT. What a step of the sequencer can do to the flags and to the cut of the input into blocks, said once: the command
goes on, or it goes on and then fails or completes (10_state.md R21 to R32, 40_write.md R118). -/

namespace Sys2Proof.Machine

open State Relation

/-- From `s` to `t` the command has gone on: no flag but `hdr_written` and `alloc` has changed, and these have not fallen. A
WRITE form keeps the cut of its input at the block boundaries: as many bytes remain behind the full blocks, and what has been
emitted with what is to be emitted are as many chunks (40_write.md R118, R122, R123). -/
structure State.Continues (s t : State) : Prop where
  params : t.params = s.params
  cur : t.cur = s.cur
  busy : t.busy = s.busy
  err : t.err = s.err
  disposed : t.disposed = s.disposed
  poisoned : t.poisoned = s.poisoned
  hdrWritten : s.hdrWritten = true → t.hdrWritten = true
  alloc : s.alloc = true → t.alloc = true
  tail : s.cur.op = .write → t.bytesAhead % s.params.block = s.bytesAhead % s.params.block
  blocks : s.cur.op = .write → t.chunks + BitVec.ofNat 32 (t.bytesAhead / s.params.block)
    = s.chunks + BitVec.ofNat 32 (s.bytesAhead / s.params.block)

/-- What the sequencer can come to from `s`. -/
inductive State.LeadsTo (s : State) : State → Prop
  | goesOn {t : State} (h : s.Continues t) : s.LeadsTo t
  | fails {u : State} (h : s.Continues u) (e : ErrorKind) : s.LeadsTo (u.raise e)
  | completes {u : State} (h : s.Continues u) (hdr : u.hdrWritten = true)
    (taken : u.cur.op = .write → u.consumed = u.cur.len) : s.LeadsTo u.complete

namespace State.Continues

theorem refl (s : State) : s.Continues s :=
  ⟨rfl, rfl, rfl, rfl, rfl, rfl, id, id, fun _ => rfl, fun _ => rfl⟩

theorem trans {s t u : State} (h : s.Continues t) (k : t.Continues u) : s.Continues u where
  params := k.params.trans h.params
  cur := k.cur.trans h.cur
  busy := k.busy.trans h.busy
  err := k.err.trans h.err
  disposed := k.disposed.trans h.disposed
  poisoned := k.poisoned.trans h.poisoned
  hdrWritten hs := k.hdrWritten (h.hdrWritten hs)
  alloc hs := k.alloc (h.alloc hs)
  tail hop := by rw [← h.tail hop, ← h.params]; exact k.tail (by rw [h.cur]; exact hop)
  blocks hop := by rw [← h.blocks hop, ← h.params]; exact k.blocks (by rw [h.cur]; exact hop)

theorem setFsm (f : Fsm) (s : State) : s.Continues { s with fsm := f } := { refl s with }

theorem log (e : Event) (s : State) : s.Continues (s.log e) := { refl s with }

theorem request (p : Pending) (e : Event) (s : State) : s.Continues (s.request p e) := { refl s with }

theorem leadsTo {s t u : State} (h : s.Continues t) (k : t.LeadsTo u) : s.LeadsTo u := by
  cases k with
  | goesOn k => exact .goesOn (h.trans k)
  | fails k e => exact .fails (h.trans k) e
  | completes k hdr taken => exact .completes (h.trans k) hdr taken

end State.Continues

/-- A command that is still busy has gone on. -/
theorem State.LeadsTo.continues {s t : State} (h : s.LeadsTo t) (hb : t.busy = true) : s.Continues t := by
  cases h with
  | goesOn h => exact h
  | fails _ _ => simp at hb
  | completes _ _ _ => simp at hb

/-! ### ENSURE and SEGMENT -/

section
variable {s t : State}

theorem ensureStep_leadsTo (ht : ensureStep s = .moved t) : s.LeadsTo t := by
  unfold ensureStep at ht
  split at ht
  · split at ht
    · cases ht; exact .goesOn (.setFsm _ s)
    · cases hp : s.stagePreamble with
      | error f => rw [hp] at ht; cases ht
      | ok u =>
        rw [hp] at ht; cases ht
        obtain ⟨rfl, -⟩ := stagePreamble_ok hp
        exact .goesOn { Continues.refl s with hdrWritten := fun _ => rfl }
  · cases ht; exact .goesOn (.request _ _ s)

theorem poolStep_leadsTo (ht : poolStep s = .moved t) : s.LeadsTo t := by
  unfold poolStep at ht
  split at ht
  · cases ht
  · cases ht; exact .goesOn { Continues.refl s with alloc := fun _ => rfl }
  · rename_i rest _
    cases ht
    have ha : s.Continues (State.answered (.poolAnswer .refused) { s with poolAnswers := rest }) := { Continues.refl s with }
    exact .fails ha .alloc

/-- What the copy path takes from SRC it adds to ACC (40_write.md R114). -/
theorem bytesAhead_copy {k : Nat} (hk : k ≤ s.remaining) {u : State} (hcur : u.cur = s.cur)
    (hacc : u.accLen = s.accLen + k) (hcons : u.consumed = s.consumed + BitVec.ofNat 32 k) :
    u.bytesAhead = s.bytesAhead := by
  by_cases h0 : k = 0
  · simp [bytesAhead, remaining, hcur, hacc, hcons, h0]
  · have hrem : s.remaining = s.cur.len.toNat - s.consumed.toNat := rfl
    have hadd := consumed_add (s := s) (k := k) (by omega)
    simp only [bytesAhead, remaining, hcur, hacc, hcons, hadd]
    omega

theorem segmentStep_leadsTo (he : s.SegmentInv) (ht : segmentStep s = .moved t) : s.LeadsTo t := by
  unfold segmentStep at ht
  split at ht
  · split at ht
    · cases ht; exact .goesOn (.setFsm _ s)
    · rw [copyToAcc_eq he] at ht
      cases ht
      exact .goesOn { Continues.refl s with
        tail := fun _ => congrArg (fun n => n % s.params.block) (bytesAhead_copy (copyLen_le s).1 rfl rfl rfl)
        blocks := fun _ => congrArg (fun n => s.chunks + BitVec.ofNat 32 (n / s.params.block))
          (bytesAhead_copy (copyLen_le s).1 rfl rfl rfl) }
  · rename_i hall
    cases ht
    have hle := he.lease.run.consumedLe he.writes
    exact .completes (.refl s) he.lease.hdr fun _ => BitVec.eq_of_toNat_eq (by omega)

/-! ### EMIT -/

theorem compressAnswered_leadsTo {blk : List Byte} (ht : compressAnswered blk s = .moved t) : s.LeadsTo t := by
  have hscribble : ∀ e, s.Continues ((s.answered e).stgScribble (s.stageLen + 8)) := fun e => { Continues.refl s with }
  unfold compressAnswered at ht
  split at ht
  · cases ht; exact .fails (hscribble _) _
  · rename_i payload _
    split at ht
    · cases ht; exact .fails (hscribble _) _
    · cases hp : ((s.answered (.compressAnswer (some payload.length))).stgScribble (s.stageLen + 8)).packPayload payload with
      | error f => rw [hp] at ht; cases ht
      | ok u =>
        rw [hp] at ht; cases ht
        obtain rfl := packPayload_ok hp
        exact .goesOn { hscribble (.compressAnswer (some payload.length)) with }

theorem compressorStep_leadsTo (ht : compressorStep s = .moved t) : s.LeadsTo t := by
  unfold compressorStep at ht
  split at ht
  · split at ht
    · exact compressAnswered_leadsTo ht
    · cases ht
  · cases ht

/-- The block that a WRITE form has emitted is ahead no more, wherever it lay (40_write.md R113, R115). -/
theorem bytesAhead_blockTaken (hB : 0 < s.params.block) (hblk : s.BlockReady) (hop : s.cur.op = .write) {u : State}
    (hparams : u.params = s.params) (hcur : u.cur = s.cur) (hacc : u.accLen = s.accLen) (hcons : u.consumed = s.consumed) :
    s.bytesAhead = u.blockTaken.bytesAhead + s.params.block := by
  have hrem : s.remaining = s.cur.len.toNat - s.consumed.toNat := rfl
  rcases hblk with ⟨hflush, -, -⟩ | ⟨-, hfull⟩ | ⟨-, hzero, hle⟩
  · rw [hop] at hflush; cases hflush
  · have hne : s.params.block ≠ 0 := by omega
    have hsp : u.blockSpace = .acc := by simp [blockSpace, hcur, hop, hacc, hfull, hne]
    rw [blockTaken_acc hsp]
    simp only [bytesAhead, remaining, hcur, hcons, hfull]
    omega
  · have hsp : u.blockSpace = .src := by simp [blockSpace, hcur, hop, hacc, hzero]
    have hadd := consumed_add (s := s) (k := s.params.block) (by omega)
    rw [blockTaken_src hsp]
    simp only [bytesAhead, remaining, hparams, hcur, hcons, hacc, hzero, hadd]
    omega

@[simp] theorem blockTaken_cur (s : State) : s.blockTaken.cur = s.cur := by
  unfold blockTaken; cases s.blockSpace <;> rfl
@[simp] theorem blockTaken_err (s : State) : s.blockTaken.err = s.err := by
  unfold blockTaken; cases s.blockSpace <;> rfl
@[simp] theorem blockTaken_disposed (s : State) : s.blockTaken.disposed = s.disposed := by
  unfold blockTaken; cases s.blockSpace <;> rfl

/-- One chunk more is one block less ahead. -/
theorem blockTaken_continues (hB : 0 < s.params.block) (hblk : s.BlockReady) (cl : Nat) (crc : Word) :
    s.Continues (s.stgChecksummed cl crc).blockTaken where
  params := blockTaken_params _
  cur := blockTaken_cur _
  busy := blockTaken_busy _
  err := blockTaken_err _
  disposed := blockTaken_disposed _
  poisoned := blockTaken_poisoned _
  hdrWritten h := (blockTaken_hdrWritten _).trans h
  alloc h := (blockTaken_alloc _).trans h
  tail hop := by
    rw [bytesAhead_blockTaken hB hblk hop (u := s.stgChecksummed cl crc) rfl rfl rfl rfl, Nat.add_mod_right]
  blocks hop := by
    rw [bytesAhead_blockTaken hB hblk hop (u := s.stgChecksummed cl crc) rfl rfl rfl rfl, Nat.add_div_right _ hB,
      BitVec.ofNat_add, BitVec.add_comm (BitVec.ofNat 32 _) (BitVec.ofNat 32 1), ← BitVec.add_assoc, blockTaken_chunks]
    rfl

theorem checksumStep_leadsTo {cl : Nat} (hB : 0 < s.params.block) (he : s.EmitInv)
    (ht : checksumStep cl s = .moved t) : s.LeadsTo t := by
  unfold checksumStep at ht
  split at ht
  · split at ht
    · rename_i blk _
      cases hp : s.packChecksum cl (s.params.maskedCrc blk) with
      | error f => rw [hp] at ht; cases ht
      | ok u =>
        rw [hp] at ht; cases ht
        obtain rfl := packChecksum_ok hp
        exact .goesOn (blockTaken_continues hB he.block _ _)
    · cases ht
  · cases ht

/-! ### DRAIN -/

/-- What follows DRAIN completes FLUSH forms only (40_write.md R112, 41_flush.md R140). -/
theorem afterDrain_leadsTo (s : State) (hh : s.hdrWritten = true) : s.LeadsTo s.afterDrain := by
  have hend : s.cur.op ≠ .write → s.LeadsTo s.complete := fun hne => .completes (.refl s) hh fun hop => absurd hop hne
  unfold afterDrain
  cases hop : s.cur.op with
  | write =>
    simp only
    split
    · unfold checkpoint
      split
      · exact .fails (.log _ s) _
      · exact .goesOn ((Continues.log _ s).trans (.setFsm _ _))
    · exact .goesOn (.setFsm _ s)
  | flush => exact hend (by simp [hop])
  | dispose => exact hend (by simp [hop])

theorem drainStep_leadsTo (hh : s.hdrWritten = true) (ht : drainStep s = .moved t) : s.LeadsTo t := by
  unfold drainStep at ht
  split at ht
  · cases ht; exact afterDrain_leadsTo s hh
  · split at ht
    · cases ht; exact .goesOn (.request _ _ s)
    · cases ht

theorem sinkAnswered_leadsTo (s : State) (hh : s.hdrWritten = true) (bytes : List Byte) (a : SinkAnswer) :
    s.LeadsTo (s.sinkAnswered bytes a) := by
  cases a with
  | ok =>
    have hd : s.Continues ((s.answered (.sinkAnswer true)).delivered bytes) := { Continues.refl s with }
    exact hd.leadsTo (afterDrain_leadsTo _ hh)
  | err kept =>
    have hk : s.Continues ((s.answered (.sinkAnswer false)).keptByFailingSink bytes kept) := { Continues.refl s with }
    exact .fails hk .sink

theorem sinkStep_leadsTo (hh : s.hdrWritten = true) (ht : sinkStep s = .moved t) : s.LeadsTo t := by
  unfold sinkStep at ht
  split at ht
  · cases ht
  · rename_i a rest _
    split at ht
    · rename_i bytes _
      cases ht
      have hr : s.Continues { s with sinkAnswers := rest } := { Continues.refl s with }
      exact hr.leadsTo (sinkAnswered_leadsTo { s with sinkAnswers := rest } hh bytes a)
    · cases ht

/-! ### Any step, and the sequencer's way to a state -/

/-- What one step of the sequencer can do. -/
theorem tick_leadsTo (h : s.Inv) (ht : tick s = .moved t) : s.LeadsTo t := by
  obtain ⟨hb, hp⟩ := h
  have hB := paramsWf_block hb.paramsWf
  rcases tick_moved_cases ht with ⟨-, -, ht⟩ | ⟨-, -, ht⟩ | ⟨hf, -, ht⟩ | ⟨-, -, ht⟩ | ⟨-, -, ht⟩ | ⟨cl, hf, -, ht⟩ |
    ⟨hf, -, ht⟩ | ⟨hf, -, ht⟩
  · exact ensureStep_leadsTo ht
  · exact poolStep_leadsTo ht
  · simp only [hf] at hp
    exact segmentStep_leadsTo hp ht
  · cases ht; exact .goesOn (.request _ _ s)
  · exact compressorStep_leadsTo ht
  · simp only [hf] at hp
    exact checksumStep_leadsTo hB hp ht
  · simp only [hf] at hp
    exact drainStep_leadsTo hp.lease.hdr ht
  · simp only [hf] at hp
    exact sinkStep_leadsTo hp.lease.hdr ht

theorem reaches_keeps_safe (hs : s.Safe) (h : ReflTransGen Moves s t) : t.Safe := by
  induction h with
  | refl => exact hs
  | tail _ hm ih => exact tick_keeps_safe ih hm.2

/-- What a command in progress comes to. -/
theorem reaches_leadsTo (hs : s.Safe) (h : ReflTransGen Moves s t) : s.LeadsTo t := by
  induction h with
  | refl => exact .goesOn (.refl s)
  | tail hr hm ih => exact (ih.continues hm.1).leadsTo (tick_leadsTo (reaches_keeps_safe hs hr).1 hm.2)

end

end Sys2Proof.Machine
end

section
/-! SUPPORT. What a command, and a step of the machine, can do, said once: the inversion of `exec` and of `step`. -/

namespace Sys2Proof.Machine

open State Relation

/-! ### Commands -/

/-- What the step of a command's `CMD` write can come to (60_exceptions.md R214, R219; 43_lifecycle.md R194, R195). -/
inductive State.Executes (i : Instr) (s : State) : State → Prop
  | rejected (hop : i.op ≠ .dispose) (e : ErrorKind) (he : e.poisons = false) : s.Executes i ((s.accepted i).raise e)
  | cancelled (hop : i.op ≠ .dispose) (hasync : i.async = true) (hlive : s.disposed = false) (hsound : s.poisoned = false)
    (hc : s.cancelReq = true) : s.Executes i (((s.accepted i).log (.cancelSampled s.cancelReq)).raise .cancelled)
  | starts {t : State} (h : s.Starts i) (hr : resume (s.started i) = .next t) : s.Executes i t
  | disposes (hop : i.op = .dispose) (hlive : s.disposed = false) : s.Executes i (s.accepted i).disposeInstance.complete
  | disposedAlready (hop : i.op = .dispose) (hd : s.disposed = true) : s.Executes i (s.accepted i).complete

theorem acceptChecks_isOver_cases {i : Instr} {s t : State} (h : acceptChecks i s = .isOver (.next t)) :
    refusal s = none ∧ ∃ e : ErrorKind, e.poisons = false ∧ t = (s.accepted i).raise e := by
  unfold acceptChecks at h
  split at h
  · cases h
  · rename_i hr
    refine ⟨hr, ?_⟩
    split at h
    · cases h; exact ⟨.disposed, rfl, rfl⟩
    · split at h
      · cases h; exact ⟨.poisoned, rfl, rfl⟩
      · split at h
        · cases h
        · cases h; exact ⟨.nullSink, rfl, rfl⟩

theorem execDispose_cases {snk : Bool} {s t : State} (h : execDispose snk s = .next t) :
    refusal s = none ∧ s.Executes (.dispose snk) t := by
  unfold execDispose at h
  split at h
  · cases h
  · rename_i hr
    refine ⟨hr, ?_⟩
    split at h
    · rename_i hd; cases h; exact .disposedAlready rfl hd
    · rename_i hd; cases h; exact .disposes rfl (Bool.eq_false_iff.2 hd)

/-- A form that has passed its acceptance checks starts, or is cancelled at check point 0. -/
theorem executes_of_goesOn {i : Instr} {s u t : State} (hop : i.op ≠ .dispose) (hc : acceptChecks i s = .goesOn u)
    (h : exec i s = .next t) : s.Executes i t := by
  obtain ⟨rfl, hw, hidle, hlive, hsound, hsnk⟩ := acceptChecks_goesOn hc
  by_cases hcancel : i.async = true ∧ s.cancelReq = true
  · obtain ⟨hasync, hreq⟩ := hcancel
    rw [exec_eq_of_goesOn hop hc, if_pos hasync, launchSuspendable, if_pos (by exact hreq)] at h
    cases h
    exact .cancelled hop hasync hlive hsound hreq
  · have hstarts : s.Starts i :=
      ⟨hop, hsnk, hw, hidle, hlive, hsound, fun ha => Bool.eq_false_iff.2 fun hreq => hcancel ⟨ha, hreq⟩⟩
    exact .starts hstarts ((exec_of_starts hstarts).symm.trans h)

/-- What a command can do, and where it is not refused. -/
theorem exec_cases {i : Instr} {s t : State} (h : exec i s = .next t) :
    s.params.wf = true ∧ s.busy = false ∧ s.Executes i t := by
  by_cases hop : i.op = .dispose
  · cases i with
    | dispose snk =>
      obtain ⟨hr, hx⟩ := execDispose_cases h
      obtain ⟨hw, hb⟩ := refusal_eq_none.1 hr
      exact ⟨hw, hb, hx⟩
    | _ => cases hop
  · cases hc : acceptChecks i s with
    | isOver o =>
      rw [exec_eq_of_isOver hop hc] at h
      subst h
      obtain ⟨hr, e, he, rfl⟩ := acceptChecks_isOver_cases hc
      obtain ⟨hw, hb⟩ := refusal_eq_none.1 hr
      exact ⟨hw, hb, .rejected hop e he⟩
    | goesOn u =>
      have hx := executes_of_goesOn hop hc h
      obtain ⟨-, hw, hb, -⟩ := acceptChecks_goesOn hc
      exact ⟨hw, hb, hx⟩

/-! ### Steps -/

/-- From `s` to `u` the world outside has made a move: an input is taken, and the flags, lengths, buffers and outputs are the
same. Of the operands only those that no running command holds may have changed (70_reset_and_hazards.md R256). -/
structure State.WorldMoves (s u : State) : Prop where
  inputs : u.inputs = s.inputs.tail
  params : u.params = s.params
  alloc : u.alloc = s.alloc
  hdrWritten : u.hdrWritten = s.hdrWritten
  disposed : u.disposed = s.disposed
  poisoned : u.poisoned = s.poisoned
  busy : u.busy = s.busy
  err : u.err = s.err
  fsm : u.fsm = s.fsm
  accLen : u.accLen = s.accLen
  stageLen : u.stageLen = s.stageLen
  srcLen : s.busy = true → u.srcLen = s.srcLen
  consumed : u.consumed = s.consumed
  chunks : u.chunks = s.chunks
  cur : u.cur = s.cur
  acc : u.acc = s.acc
  stg : u.stg = s.stg
  srcWf : s.src.mem.wf = true → u.src.mem.wf = true
  src : u.src = s.src ∨ s.busy = false ∨ s.cur.op ≠ .write
  pending : u.pending = s.pending
  sinkStream : u.sinkStream = s.sinkStream
  history : u.history = s.history

/-- The next input is taken and nothing else happens. -/
theorem State.WorldMoves.takes (s : State) : s.WorldMoves { s with inputs := s.inputs.tail } := by
  constructor <;> simp

theorem State.WorldMoves.keeps_safe {s u : State} (h : s.WorldMoves u) (hs : s.Safe) : u.Safe :=
  safe_world hs h.params h.alloc h.hdrWritten h.disposed h.poisoned h.busy h.err h.fsm h.accLen h.stageLen h.consumed h.cur
    h.acc h.stg (h.srcWf hs.1.1.srcWf) h.pending h.sinkStream h.src

/-- The state an illegal word leaves (60_exceptions.md R211). -/
def State.illegallyCommanded (w : Word) (s : State) : State := ((s.opened w).setError .illegal).close

/-- What one step of the machine can come to: behind a move of the world outside the sequencer goes on or stays, or a command
or an illegal word is taken; or a construction resets the machine. -/
inductive State.StepsTo (s : State) : State → Prop
  | goesOn {u t : State} (hw : s.WorldMoves u) (hr : ReflTransGen Moves u t) : s.StepsTo t
  | command {u t : State} {i : Instr} (hw : s.WorldMoves u) (hx : exec i u = .next t) : s.StepsTo t
  | illegal {u : State} (w : Word) (hw : s.WorldMoves u) (hb : s.busy = false) : s.StepsTo (u.illegallyCommanded w)
  | construct {u t : State} (hin : s.inputs.head? = some .construct) (hw : s.WorldMoves u)
    (hc : constructInstance u = .next t) : s.StepsTo t

theorem reaches_of_run {n : Nat} {s t : State} (h : run n s = .next t) : ReflTransGen Moves s t :=
  run_keeps (P := ReflTransGen Moves s) (fun _ _ hr hb ht => hr.tail ⟨hb, ht⟩) n .refl h

theorem State.StepsTo.of_resume {s u t : State} (h : resume u = .next t) (hw : s.WorldMoves u) : s.StepsTo t :=
  .goesOn hw (reaches_of_resume h)

theorem State.StepsTo.of_run {n : Nat} {s u t : State} (h : run n u = .next t) (hw : s.WorldMoves u) : s.StepsTo t :=
  .goesOn hw (reaches_of_run h)

theorem State.StepsTo.of_next {s u t : State} (h : (.next u : Host.Outcome State Fault Refusal) = .next t)
    (hw : s.WorldMoves u) : s.StepsTo t := by
  cases h; exact .goesOn hw .refl

/-- What a write of a register can be (10_state.md R40 to R42, 20_memory.md R59). -/
theorem csrWrite_cases (a width : Nat) (v : Word) (s : State) :
    csrWrite a width v s = .command v s ∨ csrWrite a width v s = .settled (srcLenWrite v s) ∨
      csrWrite a width v s = .settled (.next s) ∨ csrWrite a width v s = .settled (.refused .reservedCsr) := by
  unfold csrWrite
  split <;> simp

theorem illegalCommand_next {w : Word} {s t : State} (h : illegalCommand w s = .next t) :
    s.busy = false ∧ t = s.illegallyCommanded w := by
  unfold illegalCommand at h
  split at h
  · cases h
  · rename_i hr
    cases h
    exact ⟨(refusal_eq_none.1 hr).2, rfl⟩

section
variable {s t : State} (hw : s.params.wf = true)
include hw

theorem stepsTo_of_csrWrite {a width : Nat} {v : Word} {rest : List Input} (hin : s.inputs = .csrWrite a width v :: rest)
    (hu : s.WorldMoves { s with inputs := rest }) (h : step s = .next t) : s.StepsTo t := by
  rw [step, nextMove_csrWrite hw hin] at h
  rcases csrWrite_cases a width v { s with inputs := rest } with hc | hc | hc | hc <;> rw [hc] at h
  · simp only at h
    split at h
    · exact .command hu h
    · obtain ⟨hb, rfl⟩ := illegalCommand_next h
      exact .illegal v hu hb
  · simp only [srcLenWrite] at h
    split at h
    · cases h
    · rename_i hidle
      exact .of_next h { hu with srcLen := fun hb => absurd hb hidle }
  · exact .of_next h hu
  · cases h

theorem stepsTo_of_lend {d : List Byte} {rest : List Input} (hin : s.inputs = .lend d :: rest)
    (hu : s.WorldMoves { s with inputs := rest }) (h : step s = .next t) : s.StepsTo t := by
  rw [step, nextMove_lend hw hin] at h
  simp only [lendSrc] at h
  split at h
  · cases h
  · rename_i hfree
    refine .of_next h { hu with srcWf := fun _ => Memory.wf_write rfl _ _, src := .inr ?_ }
    by_cases hb : s.busy = true
    · exact .inr fun hop => hfree ⟨hb, hop⟩
    · exact .inl (Bool.eq_false_iff.2 hb)

theorem stepsTo_of_csrRead {a width : Nat} {rest : List Input} (hin : s.inputs = .csrRead a width :: rest)
    (hu : s.WorldMoves { s with inputs := rest }) (h : step s = .next t) : s.StepsTo t := by
  rw [step, nextMove_csrRead hw hin] at h
  simp only [csrRead] at h
  split at h
  · exact .of_next h { hu with }
  · cases h

/-- With no input the sequencer goes on by itself (60_exceptions.md R235, 70_reset_and_hazards.md R262). -/
theorem stepsTo_of_nil (hin : s.inputs = []) (h : step s = .next t) : s.StepsTo t := by
  have hu : s.WorldMoves s := { WorldMoves.takes s with inputs := by simp [hin] }
  rw [step, nextMove_nil hw hin] at h
  simp only at h
  split at h
  · exact .of_resume h hu
  · exact .of_run h hu

end

/-- What one step of the machine can do. -/
theorem step_cases {s t : State} (h : step s = .next t) : s.params.wf = true ∧ s.StepsTo t := by
  have hw : s.params.wf = true := by
    by_contra hw
    rw [step_refused_of_not_wf (Bool.eq_false_iff.2 hw)] at h
    cases h
  refine ⟨hw, ?_⟩
  cases hin : s.inputs with
  | nil => exact stepsTo_of_nil hw hin h
  | cons input rest =>
    have hu : s.WorldMoves { s with inputs := rest } := by simpa [hin] using WorldMoves.takes s
    cases input with
    | csrWrite a width v => exact stepsTo_of_csrWrite hw hin hu h
    | csrRead a width => exact stepsTo_of_csrRead hw hin hu h
    | lend d => exact stepsTo_of_lend hw hin hu h
    | cancel v => rw [step, nextMove_cancel hw hin] at h; exact .of_next h { hu with }
    | construct => rw [step, nextMove_construct hw hin] at h; exact .construct (by rw [hin]; rfl) hu h
    | pool a => rw [step, nextMove_pool hw hin] at h; exact .of_resume h { hu with }
    | sink a => rw [step, nextMove_sink hw hin] at h; exact .of_resume h { hu with }
    | compressor r => rw [step, nextMove_compressor hw hin] at h; exact .of_resume h { hu with }
    | checksum r => rw [step, nextMove_checksum hw hin] at h; exact .of_resume h { hu with }
    | pace e => rw [step, nextMove_pace hw hin] at h; exact .of_resume h { hu with }
    | tick => rw [step, nextMove_tick hw hin] at h; exact .of_run h hu

end Sys2Proof.Machine
end

section
/-! PROOFS. The invariants of lengths, flags, memories and stream (10_state.md R38, 20_memory.md R67, 43_lifecycle.md R193,
R200). -/

namespace Sys2Proof.Machine

open State Relation

/-! ### DISPOSE -/

theorem returnBuffers_unleased (s : State) : s.returnBuffers.alloc = false := by
  unfold returnBuffers
  split
  · rfl
  · rename_i ha; exact Bool.eq_false_iff.2 ha

@[simp] theorem disposeInstance_alloc (s : State) : s.disposeInstance.alloc = false := returnBuffers_unleased _
@[simp] theorem disposeInstance_disposed (s : State) : s.disposeInstance.disposed = true := rfl
@[simp] theorem disposeInstance_params (s : State) : s.disposeInstance.params = s.params := by
  unfold disposeInstance returnBuffers; split <;> rfl
@[simp] theorem disposeInstance_hdrWritten (s : State) : s.disposeInstance.hdrWritten = s.hdrWritten := by
  unfold disposeInstance returnBuffers; split <;> rfl
@[simp] theorem disposeInstance_poisoned (s : State) : s.disposeInstance.poisoned = s.poisoned := by
  unfold disposeInstance returnBuffers; split <;> rfl
@[simp] theorem disposeInstance_err (s : State) : s.disposeInstance.err = s.err := by
  unfold disposeInstance returnBuffers; split <;> rfl
@[simp] theorem disposeInstance_src (s : State) : s.disposeInstance.src = s.src := by
  unfold disposeInstance returnBuffers; split <;> rfl
@[simp] theorem disposeInstance_sinkStream (s : State) : s.disposeInstance.sinkStream = s.sinkStream := by
  unfold disposeInstance returnBuffers; split <;> rfl
@[simp] theorem disposeInstance_pending (s : State) : s.disposeInstance.pending = s.pending := by
  unfold disposeInstance returnBuffers; split <;> rfl

/-- Buffers that go back to the pool leave empty ones. -/
theorem disposeInstance_buffersWf {s : State} (hacc : s.acc.mem.wf = true) (hstg : s.stg.mem.wf = true) :
    s.disposeInstance.acc.mem.wf = true ∧ s.disposeInstance.stg.mem.wf = true := by
  unfold disposeInstance returnBuffers
  split
  · exact ⟨rfl, rfl⟩
  · exact ⟨hacc, hstg⟩

/-- Nothing accumulated or staged is left, so that no byte has to have been written (43_lifecycle.md R196, R199). -/
theorem State.BaseInv.disposeInstance {s : State} (h : s.BaseInv) : s.disposeInstance.BaseInv where
  paramsWf := by rw [disposeInstance_params]; exact h.paramsWf
  accWf := (disposeInstance_buffersWf h.accWf h.stgWf).1
  stgWf := (disposeInstance_buffersWf h.accWf h.stgWf).2
  srcWf := by rw [disposeInstance_src]; exact h.srcWf
  errCode := by rw [disposeInstance_err]; exact h.errCode
  accRoom := Nat.zero_le _
  stageRoom := Nat.zero_le _
  unstaged hh := ⟨rfl, rfl, by
    rw [disposeInstance_hdrWritten] at hh
    rw [disposeInstance_sinkStream]
    exact (h.unstaged hh).2.2⟩
  unleased _ hd := by cases hd
  accWritten a ha := absurd ha (Nat.not_lt_zero a)
  stgWritten a ha := absurd ha (Nat.not_lt_zero a)

theorem State.Framed.disposeInstance {s : State} (h : s.Framed) (hq : s.pending = .none) : s.disposeInstance.Framed :=
  h.congr (by simp) (by simp) (by simp) (by simp) (by simp [hq])

theorem disposes_safe {s : State} (hb : s.BaseInv) (hf : s.Framed) (hq : s.pending = .none) :
    s.disposeInstance.complete.Safe := by
  have hB : 0 < s.disposeInstance.params.block := paramsWf_block hb.disposeInstance.paramsWf
  exact ⟨hb.disposeInstance.complete_inv (fun _ => ⟨by simp, rfl, rfl⟩) (by simp) (fun _ => hB) (fun _ hd => by cases hd),
    (hf.disposeInstance hq).complete⟩

/-! ### Commands and illegal words -/

section
variable {i : Instr} {s t : State} (hs : s.Safe) (hb : s.busy = false)
include hs hb

theorem cancelled_safe : (((s.accepted i).log (.cancelSampled s.cancelReq)).raise .cancelled).Safe := by
  obtain ⟨-, hi⟩ := hs.1.idle_phase hb
  have hacc := accepted_base hs.1.1 i
  have hbase : ((s.accepted i).log (.cancelSampled s.cancelReq)).BaseInv :=
    hacc.congr rfl rfl rfl hacc.srcWf hacc.errCode rfl rfl rfl rfl rfl rfl
  have hframed : ((s.accepted i).log (.cancelSampled s.cancelReq)).Framed :=
    (accepted_framed hs.2 hi.quiet i).congr rfl rfl id (fun _ ha hh => ⟨rfl, ha, hh⟩) (by simp [hi.quiet])
  exact ⟨hbase.raise_inv _ hi.disposedClear hi.leased (fun hp => hi.accPart (Bool.or_eq_false_iff.1 hp).1)
    (fun hp => hi.stageBase (Bool.or_eq_false_iff.1 hp).1), hframed.raise _⟩

theorem accepted_complete_safe : (s.accepted i).complete.Safe := by
  obtain ⟨-, hi⟩ := hs.1.idle_phase hb
  exact ⟨(accepted_base hs.1.1 i).complete_inv hi.disposedClear hi.leased hi.accPart hi.stageBase,
    (accepted_framed hs.2 hi.quiet i).complete⟩

theorem illegallyCommanded_safe (w : Word) : (s.illegallyCommanded w).Safe := by
  obtain ⟨-, hi⟩ := hs.1.idle_phase hb
  exact ⟨⟨hs.1.1.congr rfl rfl rfl hs.1.1.srcWf (show (0x01#8).toNat ≤ 8 by decide) rfl rfl rfl rfl rfl rfl,
      show IdleInv _ from ⟨rfl, rfl, hi.disposedClear, hi.leased, fun hp => hi.accPart (Bool.or_eq_false_iff.1 hp).1,
        fun hp => hi.stageBase (Bool.or_eq_false_iff.1 hp).1⟩⟩,
    hs.2.congr rfl rfl (fun hp => (Bool.or_eq_false_iff.1 hp).1) (fun _ ha hh => ⟨rfl, ha, hh⟩) (by simp [illegallyCommanded])⟩

end

/-- Every command keeps a safe state safe. -/
theorem exec_keeps_safe {i : Instr} {s t : State} (hs : s.Safe) (h : exec i s = .next t) : t.Safe := by
  obtain ⟨-, hb, hx⟩ := exec_cases h
  cases hx with
  | rejected _ e _ => exact accepted_raise_safe hs hb i e
  | cancelled _ _ _ _ _ => exact cancelled_safe hs hb
  | starts hstarts hr => exact resume_keeps_safe (started_safe_of_starts hstarts hs) hr
  | disposes _ _ =>
    exact disposes_safe (accepted_base hs.1.1 i) (accepted_framed hs.2 (hs.1.ended hb).2.2 i) (hs.1.ended hb).2.2
  | disposedAlready _ _ => exact accepted_complete_safe hs hb

/-! ### Reset and construction -/

/-- The state after reset, with whatever parameters are well formed and whatever SRC is lent. -/
theorem reset_safe {p : Params} {src : Buffer} (hp : p.wf = true) (hsrc : src.mem.wf = true) :
    ({ State.reset with params := p, src := src } : State).Safe := by
  have hbase : ({ State.reset with params := p, src := src } : State).BaseInv :=
    { paramsWf := hp
      accWf := rfl
      stgWf := rfl
      srcWf := hsrc
      errCode := Nat.zero_le 8
      accRoom := Nat.zero_le _
      stageRoom := Nat.zero_le _
      unstaged := fun _ => ⟨rfl, rfl, rfl⟩
      unleased := fun _ _ => rfl
      accWritten := fun a ha => absurd ha (Nat.not_lt_zero a)
      stgWritten := fun a ha => absurd ha (Nat.not_lt_zero a) }
  have hidle : ({ State.reset with params := p, src := src } : State).IdleInv :=
    { idle := rfl
      quiet := rfl
      disposedClear := fun hd => by cases hd
      leased := fun ha => by cases ha
      accPart := fun _ => paramsWf_block hp
      stageBase := fun _ _ hh => by cases hh }
  exact ⟨⟨hbase, hidle⟩,
    { delivered := fun _ => .inl rfl
      whole := fun _ ha => by cases ha
      front := .inl rfl
      header := fun _ hc => by cases hc }⟩

/-- Settles O53: the default parameters are well formed. -/
theorem resetIsSafe : Obligations.ResetIsSafe :=
  reset_safe (p := .default) (src := .fresh 0) (by decide) rfl

theorem constructInstance_keeps_safe {s t : State} (hs : s.Safe) (h : constructInstance s = .next t) : t.Safe := by
  unfold constructInstance at h
  split at h
  · cases h
  · cases h
    exact safe_world (reset_safe hs.1.1.paramsWf hs.1.1.srcWf) rfl rfl rfl rfl rfl rfl rfl rfl rfl rfl rfl rfl rfl rfl
      hs.1.1.srcWf rfl rfl (.inl rfl)

/-! ### Every step -/

/-- Settles O54: by what a step can come to. -/
theorem stepKeepsSafe : Obligations.StepKeepsSafe := by
  unfold Obligations.StepKeepsSafe
  intro s t hs h
  obtain ⟨-, hx⟩ := step_cases h
  cases hx with
  | goesOn hw hr => exact reaches_keeps_safe (hw.keeps_safe hs) hr
  | command hw hx => exact exec_keeps_safe (hw.keeps_safe hs) hx
  | illegal w hw hb => exact illegallyCommanded_safe (hw.keeps_safe hs) (hw.busy.trans hb) w
  | construct _ hw hc => exact constructInstance_keeps_safe (hw.keeps_safe hs) hc

/-! ### The flags -/

/-- From `s` to `t` no flag has fallen, but for the lease that DISPOSE ends. -/
structure State.FlagsStick (s t : State) : Prop where
  hdrWritten : s.hdrWritten = true → t.hdrWritten = true
  disposed : s.disposed = true → t.disposed = true
  poisoned : s.poisoned = true → t.poisoned = true
  alloc : s.alloc = true → t.alloc = true ∨ t.disposed = true

theorem State.FlagsStick.of_eq {s t : State} (hh : t.hdrWritten = s.hdrWritten) (hd : t.disposed = s.disposed)
    (hp : s.poisoned = true → t.poisoned = true) (ha : t.alloc = s.alloc) : s.FlagsStick t :=
  ⟨hh.trans, hd.trans, hp, fun h => .inl (ha.trans h)⟩

/-- The sequencer lowers no flag, whether the command goes on, fails or completes. -/
theorem State.LeadsTo.flagsStick {s t : State} (h : s.LeadsTo t) : s.FlagsStick t := by
  have hgo : ∀ {u : State}, s.Continues u → s.FlagsStick u := fun hc =>
    ⟨hc.hdrWritten, hc.disposed.trans, hc.poisoned.trans, fun ha => .inl (hc.alloc ha)⟩
  cases h with
  | goesOn hc => exact hgo hc
  | fails hc e =>
    obtain ⟨hh, hd, hp, ha⟩ := hgo hc
    exact ⟨by simpa using hh, by simpa using hd, fun h => by simp [hp h], by simpa using ha⟩
  | completes hc _ _ =>
    obtain ⟨hh, hd, hp, ha⟩ := hgo hc
    exact ⟨by simpa using hh, by simpa using hd, by simpa using hp, by simpa using ha⟩

theorem exec_flagsStick {i : Instr} {s t : State} (hs : s.Safe) (h : exec i s = .next t) : s.FlagsStick t := by
  obtain ⟨-, -, hx⟩ := exec_cases h
  cases hx with
  | rejected _ e _ => exact .of_eq (by simp) (by simp) (fun hp => by simp [hp]) (by simp)
  | cancelled _ _ _ _ _ => exact .of_eq (by simp) (by simp) (fun hp => by simp [hp]) (by simp)
  | starts hstarts hr =>
    have hstick := (reaches_leadsTo (started_safe_of_starts hstarts hs) (reaches_of_resume hr)).flagsStick
    exact { hstick with }
  | disposes _ _ =>
    exact ⟨by simp, fun _ => by simp, by simp, fun _ => .inr (by simp)⟩
  | disposedAlready _ _ => exact .of_eq (by simp) (by simp) (by simp) (by simp)

/-- No step but a construction lowers a flag. -/
theorem step_flagsStick {s t : State} (hs : s.Safe) (hin : s.inputs.head? ≠ some .construct) (h : step s = .next t) :
    s.FlagsStick t := by
  have hmoved : ∀ {u v : State}, s.WorldMoves u → u.FlagsStick v → s.FlagsStick v := fun hw ⟨hh, hd, hp, ha⟩ =>
    ⟨hw.hdrWritten ▸ hh, hw.disposed ▸ hd, hw.poisoned ▸ hp, hw.alloc ▸ ha⟩
  obtain ⟨-, hx⟩ := step_cases h
  cases hx with
  | goesOn hw hr => exact hmoved hw (reaches_leadsTo (hw.keeps_safe hs) hr).flagsStick
  | command hw hx => exact hmoved hw (exec_flagsStick (hw.keeps_safe hs) hx)
  | illegal w hw _ => exact hmoved hw (.of_eq rfl rfl (fun hp => by simp [illegallyCommanded, hp]) rfl)
  | construct hc _ _ => exact absurd hc hin

/-- A busy machine runs a WRITE or FLUSH form, whatever its phase. -/
theorem State.Inv.running {s : State} (h : s.Inv) (hb : s.busy = true) : s.Running := by
  obtain ⟨-, hp⟩ := h
  cases hf : s.fsm <;> simp only [hf] at hp
  case idle => have := hp.idle; rw [hb] at this; cases this
  case ensure => exact hp.run
  case segment => exact hp.lease.run
  case emit => exact hp.lease.run
  case drain => exact hp.lease.run

/-- A disposed machine holds no lease (43_lifecycle.md R193). -/
theorem State.Safe.unleased_of_disposed {s : State} (h : s.Safe) (hd : s.disposed = true) : s.alloc = false := by
  cases hb : s.busy with
  | false => exact ((h.1.idle_phase hb).2.disposedClear hd).1
  | true => have := (h.1.running hb).live; rw [hd] at this; cases this

/-- Settles O51: a step lowers no flag, and what it leaves is safe, so that where `disposed` is 1 there is no lease. -/
theorem flagsAreSticky : Obligations.FlagsAreSticky := by
  unfold Obligations.FlagsAreSticky
  intro s t hs hin h
  obtain ⟨hh, hd, hp, ha⟩ := step_flagsStick hs hin h
  exact ⟨hh, fun hsd => ⟨hd hsd, (stepKeepsSafe s t hs h).unleased_of_disposed (hd hsd)⟩, hp, ha⟩

/-! ### Between commands -/

/-- What is staged in an idle state that no error has poisoned is the preamble, before the first transfer. -/
theorem State.Safe.staged_idle {s : State} (hs : s.Safe) (hb : s.busy = false) (hsound : s.poisoned = false)
    (hst : 0 < s.stageLen) : s.stageLen = 10 ∧ s.sinkStream = [] ∧ s.staged = s.params.preamble := by
  obtain ⟨⟨hbase, -⟩, hframed⟩ := id hs
  obtain ⟨-, hi⟩ := hs.1.idle_phase hb
  have hlive : s.disposed = false := Bool.eq_false_iff.2 fun hd => by
    obtain ⟨-, -, h0⟩ := hi.disposedClear hd
    omega
  have hhdr : s.hdrWritten = true := by
    by_contra hh
    obtain ⟨-, h0, -⟩ := hbase.unstaged (Bool.eq_false_iff.2 hh)
    omega
  have halloc : s.alloc = true := by
    by_contra ha
    have := hbase.unleased (Bool.eq_false_iff.2 ha) hlive
    rw [hhdr] at this; cases this
  have hdue := hi.stageBase hsound hlive hhdr
  have hsink : s.sinkStream = [] := by
    by_contra hne
    rw [preambleDue_of_ne hne] at hdue
    omega
  have hten : s.stageLen = 10 := by simpa [preambleDue, hsink, preLen] using hdue
  refine ⟨hten, hsink, IsStream.eq_preamble (by simpa [hsink] using hframed.whole hsound halloc hhdr) ?_⟩
  rw [staged, Buffer.length_bytes, hten, paramsWf_preamble hbase.paramsWf]

/-- Settles O55: (a) to (d) stand in the invariant; (e) and (f) are what is staged in an idle state. -/
theorem betweenCommands : Obligations.BetweenCommands := by
  unfold Obligations.BetweenCommands
  intro s hs hb
  obtain ⟨-, hi⟩ := hs.1.idle_phase hb
  refine ⟨hi.disposedClear, fun ha hd _ => ?_, hi.leased, hi.accPart, fun hp => ⟨?_, fun hten => ?_⟩, fun hp x hx => ?_⟩
  · have hh := hs.1.1.unleased ha hd
    obtain ⟨hacc, hst, -⟩ := hs.1.1.unstaged hh
    exact ⟨hh, hacc, hst⟩
  · rcases Nat.eq_zero_or_pos s.stageLen with h0 | hpos
    · exact .inl h0
    · exact .inr (hs.staged_idle hb hp hpos).1
  · exact (hs.staged_idle hb hp (by omega)).2.1
  · obtain ⟨-, -, hpre⟩ := hs.staged_idle hb hp (by omega)
    have hlen : x < s.staged.length := by simpa [staged] using hx
    rw [← hpre, List.getElem?_eq_getElem hlen]
    simp [staged]

end Sys2Proof.Machine
end

section
/-! PROOFS. A WRITE form whatever its agents answer (40_write.md R116, R118, R122 to R124). -/

namespace Sys2Proof.Machine

open State Relation

theorem ErrorKind.code_ne_ok (e : ErrorKind) : e.code ≠ 0x00#8 := by
  cases e <;> decide

@[simp] theorem complete_bytesAhead (s : State) : s.complete.bytesAhead = s.bytesAhead := by
  simp [bytesAhead, remaining]

/-- From `s` to `t` a WRITE form that is busy or has ended with OK keeps the cut of its input at the block boundaries; where it
has ended, the input is consumed and the cut made. -/
structure State.CutsInput (s t : State) : Prop where
  cur : t.cur = s.cur
  tail : t.bytesAhead % s.params.block = s.bytesAhead % s.params.block
  blocks : t.chunks + BitVec.ofNat 32 (t.bytesAhead / s.params.block)
    = s.chunks + BitVec.ofNat 32 (s.bytesAhead / s.params.block)
  ended : t.busy = false → t.Ended ∧ t.consumed = s.cur.len ∧ t.accLen = s.bytesAhead % s.params.block ∧
    t.chunks = s.chunks + BitVec.ofNat 32 (s.bytesAhead / s.params.block) ∧
    t.stageLen = (if t.sinkStream = [] then 10 else 0)

/-- A WRITE form that has consumed its input and completed: less than a block is ahead, so the cut that it has kept is made. -/
theorem cutsInput_of_completes {s u : State} (hr : s.Running) (hop : s.cur.op = .write) (hc : s.Continues u)
    (hdr : u.hdrWritten = true) (taken : u.consumed = u.cur.len) (hs : u.complete.Safe) : s.CutsInput u.complete := by
  obtain ⟨-, hi⟩ := hs.1.idle_phase (complete_busy u)
  have hsound : u.complete.poisoned = false := by rw [complete_poisoned, hc.poisoned]; exact hr.sound
  have hlive : u.complete.disposed = false := by rw [complete_disposed, hc.disposed]; exact hr.live
  have hlt : u.accLen < s.params.block := by simpa [hc.params] using hi.accPart hsound
  have hahead : u.bytesAhead = u.accLen := by simp [bytesAhead, remaining, taken]
  have htail := hc.tail hop
  have hblocks := hc.blocks hop
  refine ⟨by simp [hc.cur], by simpa using htail, by simpa using hblocks, fun _ => ⟨hs.1.ended (complete_busy u), ?_, ?_, ?_, ?_⟩⟩
  · simp [taken, hc.cur]
  · rw [← htail, hahead, Nat.mod_eq_of_lt hlt, complete_accLen]
  · rw [← hblocks, hahead, Nat.div_eq_of_lt hlt, complete_chunks]
    simp
  · exact hi.stageBase hsound hlive (by simpa using hdr)

/-- Whatever the agents answer. -/
theorem reaches_cutsInput {s t : State} (hs : s.Safe) (hb : s.busy = true) (hop : s.cur.op = .write)
    (h : ReflTransGen Moves s t) (hok : t.busy = true ∨ t.err = 0x00#8) : s.CutsInput t := by
  have ht := reaches_keeps_safe hs h
  cases reaches_leadsTo hs h with
  | goesOn hc =>
    exact ⟨hc.cur, hc.tail hop, hc.blocks hop, fun hidle => by rw [hc.busy, hb] at hidle; cases hidle⟩
  | fails hc e => exact absurd hok (by simp [e.code_ne_ok])
  | completes hc hdr taken =>
    exact cutsInput_of_completes (hs.1.running hb) hop hc hdr (taken (by rw [hc.cur]; exact hop)) ht

/-- A WRITE form that is busy or has ended with OK has started: the acceptance errors and the cancellation have other codes. -/
theorem starts_of_write_ok {i : Instr} {s t : State} (hop : i.op = .write) (h : exec i s = .next t)
    (hok : t.busy = true ∨ t.err = 0x00#8) : s.Starts i ∧ ReflTransGen Moves (s.started i) t := by
  obtain ⟨-, -, hx⟩ := exec_cases h
  cases hx with
  | rejected _ e _ => exact absurd hok (by simp [e.code_ne_ok])
  | cancelled _ _ _ _ _ => exact absurd hok (by simp [ErrorKind.code])
  | starts hstarts hr => exact ⟨hstarts, reaches_of_resume hr⟩
  | disposes hd _ => rw [hop] at hd; cases hd
  | disposedAlready hd _ => rw [hop] at hd; cases hd

/-- A step of a busy machine takes no command: behind a move of the world outside the sequencer goes on. -/
theorem step_busy_reaches {s t : State} (hb : s.busy = true) (h : step s = .next t) :
    ∃ u, s.WorldMoves u ∧ ReflTransGen Moves u t := by
  obtain ⟨-, hx⟩ := step_cases h
  cases hx with
  | goesOn hw hr => exact ⟨_, hw, hr⟩
  | command hw hx =>
    obtain ⟨-, hidle, -⟩ := exec_cases hx
    rw [hw.busy, hb] at hidle; cases hidle
  | illegal _ _ hidle => rw [hb] at hidle; cases hidle
  | construct _ hw hc =>
    unfold constructInstance at hc
    rw [if_pos (.inr (hw.busy.trans hb))] at hc
    cases hc

/-- Settles O40: the step that starts the form runs from `started`, a later one from the state behind the world's move; both by
what the sequencer keeps. -/
theorem writeThatEndsWellConsumesAll : Obligations.WriteThatEndsWellConsumesAll := by
  unfold Obligations.WriteThatEndsWellConsumesAll
  constructor
  · intro i s t hop hs hb h hok
    obtain ⟨hstarts, hr⟩ := starts_of_write_ok hop h hok
    obtain ⟨-, htail, hblocks, hended⟩ := reaches_cutsInput (started_safe_of_starts hstarts hs) rfl hop hr hok
    have hzero : (s.started i).chunks = 0#32 := rfl
    rw [hzero, BitVec.zero_add] at hblocks hended
    exact ⟨htail, hblocks, hended⟩
  · intro s t hs hb hop h hok
    obtain ⟨u, hw, hr⟩ := step_busy_reaches hb h
    have hahead : u.bytesAhead = s.bytesAhead := by simp [bytesAhead, remaining, hw.accLen, hw.cur, hw.consumed]
    obtain ⟨hcur, htail, hblocks, hended⟩ :=
      reaches_cutsInput (hw.keeps_safe hs) (hw.busy.trans hb) (by rw [hw.cur]; exact hop) hr hok
    rw [hahead, hw.params] at htail hblocks hended
    rw [hw.chunks] at hblocks hended
    rw [hw.cur] at hcur hended
    exact ⟨hcur, htail, hblocks, hended⟩

end Sys2Proof.Machine
end

section
/-! PROOFS. The registers and the command word as the host meets them (10_state.md R40 to R46, 30_encoding.md R86). -/

namespace Sys2Proof.Machine

open State Relation

/-! ### Reads -/

@[simp] theorem csrAt_offset (s : State) (r : Csr) : s.csrAt (s.params.csrBase + r.offset) 4 = some r := by
  cases r <;> simp [csrAt, Csr.offset, Csr.at]

theorem csrAt_inputs (s : State) (rest : List Input) (a width : Nat) :
    ({ s with inputs := rest } : State).csrAt a width = s.csrAt a width := rfl

/-- A read of any register returns its value and has no other effect, at any time. -/
theorem readsAs_csrValue {s : State} (hw : s.params.wf = true) (r : Csr) : s.ReadsAs r.offset (s.csrValue r) := by
  intro rest
  rw [step, nextMove_csrRead (s := { s with inputs := .csrRead (s.params.csrBase + r.offset) 4 :: rest }) hw rfl]
  simp only [csrRead, csrAt_offset]
  rfl

/-! ### Writes -/

section
variable {s : State} {r : Csr} {v : Word} {rest : List Input} (hw : s.params.wf = true)
include hw

theorem step_cmdWrite {i : Instr} (hin : s.inputs = .csrWrite (s.params.csrBase + Csr.offset .cmd) 4 v :: rest)
    (hd : decode v = .ok i) : step s = exec i { s with inputs := rest } := by
  rw [step, nextMove_csrWrite hw hin, csrWrite, csrAt_inputs, csrAt_offset]
  simp only [hd]

theorem step_srcLenWrite (hin : s.inputs = .csrWrite (s.params.csrBase + Csr.offset .srcLen) 4 v :: rest) :
    step s = srcLenWrite v { s with inputs := rest } := by
  rw [step, nextMove_csrWrite hw hin, csrWrite, csrAt_inputs, csrAt_offset]

/-- Every register but `CMD` and `SRC_LEN` ignores what is written to it (10_state.md R40, log entry 14). -/
theorem step_readOnlyWrite (hcmd : r ≠ .cmd) (hsrc : r ≠ .srcLen)
    (hin : s.inputs = .csrWrite (s.params.csrBase + r.offset) 4 v :: rest) :
    step s = .next { s with inputs := rest } := by
  rw [step, nextMove_csrWrite hw hin, csrWrite, csrAt_inputs, csrAt_offset]
  cases r with
  | cmd => exact absurd rfl hcmd
  | srcLen => exact absurd rfl hsrc
  | _ => rfl

end

/-! ### The command word as four bytes -/

theorem ofNat_div_eq_extractLsb' (w : Word) {n k : Nat} (hn : n = 2 ^ k) :
    BitVec.ofNat 8 (w.toNat / n) = w.extractLsb' k 8 := by
  rw [hn, ← Nat.shiftRight_eq_div_pow]; rfl

/-- The four little-endian bytes of a word are the word (20_memory.md R56). -/
theorem wordOfBytes_leBytes (w : Word) :
    wordOfBytes (BitVec.ofNat 8 w.toNat) (BitVec.ofNat 8 (w.toNat / 256)) (BitVec.ofNat 8 (w.toNat / 256 / 256))
      (BitVec.ofNat 8 (w.toNat / 256 / 256 / 256)) = w := by
  have h0 : BitVec.ofNat 8 w.toNat = w.extractLsb' 0 8 := by simpa using ofNat_div_eq_extractLsb' w (n := 1) (k := 0) rfl
  have h1 := ofNat_div_eq_extractLsb' w (n := 256) (k := 8) rfl
  have h2 := ofNat_div_eq_extractLsb' w (n := 256 * 256) (k := 16) rfl
  have h3 := ofNat_div_eq_extractLsb' w (n := 256 * 256 * 256) (k := 24) rfl
  rw [Nat.div_div_eq_div_mul, Nat.div_div_eq_div_mul, h0, h1, h2, h3, wordOfBytes,
    BitVec.extractLsb'_append_extractLsb'_eq_extractLsb' (show 24 = 16 + 8 from rfl),
    BitVec.extractLsb'_append_extractLsb'_eq_extractLsb' (show 16 = 8 + 8 from rfl),
    BitVec.extractLsb'_append_extractLsb'_eq_extractLsb' (show 8 = 0 + 8 from rfl)]
  exact BitVec.extractLsb'_eq_self

theorem decode_of_decodeTableWord {n w : Nat} {i : Instr} (h : decodeTableWord n w = some i) :
    decode (tableWord n w) = .ok i := by
  simp only [decodeTableWord, leBytes, decodeBytes, wordOfBytes_leBytes] at h
  cases hd : decode (tableWord n w) with
  | error e => simp [hd] at h
  | ok j => simpa [hd] using h

/-- Settles O5: a write to `CMD` is decoded, and `withFetchWord` puts one in front of the inputs. -/
theorem stepRunsDecodedCommand : Obligations.StepRunsDecodedCommand := by
  unfold Obligations.StepRunsDecodedCommand
  refine ⟨fun s w i rest hw hin hd => step_cmdWrite hw hin hd, fun s w i hw hd => ?_⟩
  exact step_cmdWrite (s := s.withFetchWord 32 w) hw rfl (decode_of_decodeTableWord hd)

/-! ### What each register reads as -/

theorem exec_params {i : Instr} {s t : State} (h : exec i s = .next t) : t.params = s.params := by
  obtain ⟨-, -, hx⟩ := exec_cases h
  cases hx with
  | rejected _ e _ => simp
  | cancelled _ _ _ _ _ => simp
  | starts _ hr => exact (reaches_advances (reaches_of_resume hr)).params
  | disposes _ _ => simp
  | disposedAlready _ _ => simp

/-- No step changes the parameters (log entries 1, 17). -/
theorem step_params {s t : State} (h : step s = .next t) : t.params = s.params := by
  obtain ⟨-, hx⟩ := step_cases h
  cases hx with
  | goesOn hw hr => exact (reaches_advances hr).params.trans hw.params
  | command hw hx => exact (exec_params hx).trans hw.params
  | illegal w hw _ => exact hw.params
  | construct _ hw hc =>
    unfold constructInstance at hc
    split at hc
    · cases hc
    · cases hc; exact hw.params

/-- Settles O9: each clause is `readsAs_csrValue` at its register. -/
theorem csrReads : Obligations.CsrReads := by
  unfold Obligations.CsrReads
  intro s hw
  have hread := readsAs_csrValue hw
  exact ⟨hread .cmd, hread .srcLen, hread .status, hread .accLen, hread .stageLen, hread .consumed, hread .chunks,
    hread .paramBlock, hread .paramStage, fun t => step_params⟩

theorem status_flags (s : State) : s.status.getLsbD 0 = s.busy ∧ s.status.getLsbD 1 = s.alloc ∧
    s.status.getLsbD 2 = s.hdrWritten ∧ s.status.getLsbD 3 = s.disposed ∧ s.status.getLsbD 4 = s.poisoned := by
  simp only [status, BitVec.getLsbD_append]
  simp

theorem status_code (s : State) : s.status.extractLsb' 8 8 = s.err := by
  simp only [status, BitVec.extractLsb'_append_eq_ite]
  simp

theorem status_reserved (s : State) : s.status.extractLsb' 5 3 = 0#3 ∧ s.status.extractLsb' 16 16 = 0#16 := by
  simp only [status, BitVec.extractLsb'_append_eq_ite]
  simp

/-- Settles O10: by the fields of the word that `status` is. -/
theorem statusFields : Obligations.StatusFields := by
  unfold Obligations.StatusFields
  refine ⟨by decide, fun s hw => ⟨s.status, readsAs_csrValue hw .status, ?_⟩⟩
  obtain ⟨hbusy, halloc, hhdr, hdisposed, hpoisoned⟩ := status_flags s
  obtain ⟨hlow, hhigh⟩ := status_reserved s
  exact ⟨hbusy, halloc, hhdr, hdisposed, hpoisoned, hlow, status_code s, hhigh,
    fun v rest hin => step_readOnlyWrite (r := .status) hw (by decide) (by decide) hin⟩

/-- Settles O11: the seven offsets are those of the registers but `CMD` and `SRC_LEN`. -/
theorem readOnlyWritesIgnored : Obligations.ReadOnlyWritesIgnored := by
  unfold Obligations.ReadOnlyWritesIgnored
  intro s off v rest hw hoff hin
  have hmem : off ∈ [Csr.status, .accLen, .stageLen, .consumed, .chunks, .paramBlock, .paramStage].map Csr.offset := hoff
  obtain ⟨r, hr, rfl⟩ := List.mem_map.1 hmem
  exact step_readOnlyWrite hw (by rintro rfl; simp at hr) (by rintro rfl; simp at hr) hin

/-- Settles O12: by what a write of `SRC_LEN` and a read of it do. -/
theorem srcLenRegister : Obligations.SrcLenRegister := by
  unfold Obligations.SrcLenRegister
  refine ⟨rfl, fun s v rest hw hin => ⟨fun hb => ⟨?_, ?_⟩, fun hb => ?_⟩⟩
  · rw [step_srcLenWrite hw hin, srcLenWrite, if_neg (by simp [hb])]
  · exact readsAs_csrValue (s := { s with inputs := rest, srcLen := v }) hw .srcLen
  · rw [step_srcLenWrite hw hin, srcLenWrite, if_pos hb]

end Sys2Proof.Machine
end

section
/-! PROOFS. What a step does to the sink stream and the history (20_memory.md R55, R60, R61). -/

namespace Sys2Proof.Machine

open State Relation

/-! ### The outputs grow -/

theorem accepted_advances (i : Instr) (s : State) : s.Advances (s.accepted i) :=
  { Advances.refl s with history := List.prefix_append _ _ }

theorem disposeInstance_advances (s : State) : s.Advances s.disposeInstance := by
  have htear : s.Advances (s.log .compressorTeardown) := .log _ s
  have hback : (s.log .compressorTeardown).Advances (s.log .compressorTeardown).returnBuffers := by
    unfold returnBuffers
    split
    · exact { Advances.log .poolRelease (s.log .compressorTeardown) with }
    · exact .refl _
  exact htear.trans { hback with }

theorem disposeInstance_history (s : State) :
    s.disposeInstance.history = s.history ++ .compressorTeardown :: if s.alloc then [.poolRelease] else [] := by
  unfold disposeInstance returnBuffers
  cases ha : s.alloc <;> simp [ha]

theorem started_advances (i : Instr) (s : State) : s.Advances (s.started i) :=
  { Advances.refl s with
    history := (List.prefix_append _ _).trans (List.prefix_append _ _) }

theorem exec_advances {i : Instr} {s t : State} (h : exec i s = .next t) : s.Advances t := by
  have hacc := accepted_advances i s
  obtain ⟨-, -, hx⟩ := exec_cases h
  cases hx with
  | rejected _ e _ => exact hacc.trans (.raise e _)
  | cancelled _ _ _ _ _ => exact (hacc.trans (.log _ _)).trans (.raise _ _)
  | starts _ hr => exact (started_advances i s).trans (reaches_advances (reaches_of_resume hr))
  | disposes _ _ => exact (hacc.trans (disposeInstance_advances _)).trans (.complete _)
  | disposedAlready _ _ => exact hacc.trans (.complete _)

theorem illegallyCommanded_history (w : Word) (s : State) :
    (s.illegallyCommanded w).history = s.history ++ [.accept w s.srcLen, .done 0x01#8] := by
  simp [illegallyCommanded, close, setError, ErrorKind.code]

/-- Settles O57: the world outside leaves the outputs as they are, and what the sequencer or a command does lengthens them. -/
theorem outputOnlyGrows : Obligations.OutputOnlyGrows := by
  unfold Obligations.OutputOnlyGrows
  intro s t hin h
  have hgrow : ∀ {u v : State}, s.WorldMoves u → u.Advances v → s.sinkStream <+: v.sinkStream ∧ s.history <+: v.history :=
    fun hw ha => ⟨hw.sinkStream ▸ ha.sinkStream, hw.history ▸ ha.history⟩
  obtain ⟨-, hx⟩ := step_cases h
  cases hx with
  | goesOn hw hr => exact hgrow hw (reaches_advances hr)
  | command hw hx => exact hgrow hw (exec_advances hx)
  | @illegal u w hw _ =>
    refine ⟨hw.sinkStream ▸ List.prefix_rfl, ?_⟩
    rw [illegallyCommanded_history, hw.history]
    exact List.prefix_append _ _
  | construct hc _ _ => exact absurd hc hin

/-! ### The accepted transfers -/

/-- An answer of the sink counts only behind the request it answers: where what follows does not start with one, the accepted
bytes of two histories one after the other are those of each. -/
theorem acceptedBytes_append (h : List Event) {l : List Event} (hl : l.head? ≠ some (.sinkAnswer true)) :
    acceptedBytes (h ++ l) = acceptedBytes h ++ acceptedBytes l := by
  induction h using acceptedBytes.induct with
  | case1 => rfl
  | case2 bs rest ih => simp [acceptedBytes, ih]
  | case3 e rest hne ih =>
    rw [acceptedBytes.eq_3 e rest hne, ← ih, List.cons_append]
    refine acceptedBytes.eq_3 e (rest ++ l) fun bs rest' he hr => ?_
    cases rest with
    | nil => exact hl (by simp_all)
    | cons f rest => exact hne bs rest he (by simp_all)

/-- Events none of which is an accepting answer have no accepted bytes. -/
theorem acceptedBytes_eq_nil {l : List Event} (hl : .sinkAnswer true ∉ l) : acceptedBytes l = [] := by
  induction l using acceptedBytes.induct with
  | case1 => rfl
  | case2 bs rest _ => simp at hl
  | case3 e rest hne ih =>
    rw [acceptedBytes.eq_3 e rest hne]
    exact ih (by simp_all)

/-- A transfer and its acceptance add the transfer's bytes. -/
theorem acceptedBytes_transfer (h : List Event) (bs : List Byte) :
    acceptedBytes (h ++ [.sinkTransfer bs, .sinkAnswer true]) = acceptedBytes h ++ bs := by
  rw [acceptedBytes_append h (by simp)]
  simp [acceptedBytes]

/-! ### What a step of the sequencer does to the outputs -/

/-- From `s` to `t` nothing has been delivered: the sink stream is the same, and no accepting answer is recorded. No error is
forgotten. -/
structure State.DeliversNothing (s t : State) : Prop where
  sinkStream : t.sinkStream = s.sinkStream
  poisoned : s.poisoned = true → t.poisoned = true
  history : ∃ l, t.history = s.history ++ l ∧ .sinkAnswer true ∉ l

namespace State.DeliversNothing

theorem refl (s : State) : s.DeliversNothing s := ⟨rfl, id, [], by simp⟩

theorem trans {s t u : State} (h : s.DeliversNothing t) (k : t.DeliversNothing u) : s.DeliversNothing u := by
  obtain ⟨l, hl, hln⟩ := h.history
  obtain ⟨m, hm, hmn⟩ := k.history
  exact ⟨k.sinkStream.trans h.sinkStream, fun hp => k.poisoned (h.poisoned hp), l ++ m, by rw [hm, hl, List.append_assoc],
    by simp [hln, hmn]⟩

theorem log {e : Event} (he : e ≠ .sinkAnswer true) (s : State) : s.DeliversNothing (s.log e) :=
  ⟨rfl, id, [e], rfl, by simpa using he.symm⟩

theorem raise (e : ErrorKind) (s : State) : s.DeliversNothing (s.raise e) :=
  ⟨by simp, fun hp => by simp [hp], [.done e.code], by simp, by simp⟩

theorem complete (s : State) : s.DeliversNothing s.complete :=
  ⟨by simp, by simp, [.done s.err], by simp, by simp⟩

theorem afterDrain (s : State) : s.DeliversNothing s.afterDrain := by
  unfold State.afterDrain
  split
  · split
    · have hsample : s.DeliversNothing (s.log (.cancelSampled s.cancelReq)) := .log (by simp) s
      unfold checkpoint
      split
      · exact hsample.trans (raise _ _)
      · exact { hsample with }
    · exact { refl s with }
  · exact complete s
  · exact complete s

theorem blockTaken (s : State) : s.DeliversNothing s.blockTaken := by
  unfold State.blockTaken
  split <;> exact { refl s with }

theorem acceptedBytes {s t : State} (h : s.DeliversNothing t) : acceptedBytes t.history = acceptedBytes s.history := by
  obtain ⟨l, hl, hln⟩ := h.history
  rw [hl, acceptedBytes_append _ fun hh => hln (List.mem_of_mem_head? hh), acceptedBytes_eq_nil hln, List.append_nil]

end State.DeliversNothing

/-- What a step of the sequencer can do to the outputs: it asks the sink for all that is staged, it takes the sink's answer, or
it delivers nothing and leaves no transfer outstanding. -/
inductive State.TickOutput (s : State) : State → Prop
  | nothing {t : State} (h : s.DeliversNothing t) (hq : t.pending ≠ .sink) : s.TickOutput t
  | asks : s.TickOutput (s.request .sink (.sinkTransfer s.staged))
  | answered (a : SinkAnswer) (rest : List SinkAnswer) (hq : s.pending = .sink) :
    s.TickOutput (State.sinkAnswered s.staged a { s with sinkAnswers := rest })

theorem afterDrain_pending {s : State} (hq : s.pending ≠ .sink) : s.afterDrain.pending ≠ .sink := by
  unfold afterDrain
  split
  · split
    · unfold checkpoint
      split
      · simp
      · exact hq
    · exact hq
  · simp
  · simp

section
variable {s t : State}

theorem ensureStep_output (hq : s.pending = .none) (h : ensureStep s = .moved t) : s.TickOutput t := by
  have hne : s.pending ≠ .sink := by simp [hq]
  unfold ensureStep at h
  split at h
  · split at h
    · cases h; exact .nothing { DeliversNothing.refl s with } hne
    · cases hp : s.stagePreamble with
      | error f => rw [hp] at h; cases h
      | ok u =>
        rw [hp] at h; cases h
        obtain ⟨rfl, -⟩ := stagePreamble_ok hp
        exact .nothing { DeliversNothing.refl s with } hne
  · cases h; exact .nothing { DeliversNothing.log (by simp) s with } (by simp)

theorem poolStep_output (h : poolStep s = .moved t) : s.TickOutput t := by
  have hlog : ∀ a, s.DeliversNothing (s.log (.poolAnswer a)) := fun a => .log (by simp) s
  unfold poolStep at h
  split at h
  · cases h
  · cases h; exact .nothing { hlog .granted with } (by simp)
  · rename_i rest _
    cases h
    have ha : s.DeliversNothing (State.answered (.poolAnswer .refused) { s with poolAnswers := rest }) :=
      { hlog .refused with }
    exact .nothing (ha.trans (.raise _ _)) (by simp)

theorem segmentStep_output (hq : s.pending = .none) (h : segmentStep s = .moved t) : s.TickOutput t := by
  have hne : s.pending ≠ .sink := by simp [hq]
  unfold segmentStep at h
  split at h
  · split at h
    · cases h; exact .nothing { DeliversNothing.refl s with } hne
    · cases hc : s.copyToAcc with
      | error f => rw [hc] at h; cases h
      | ok u =>
        rw [hc] at h; cases h
        obtain rfl := copyToAcc_ok hc
        exact .nothing { DeliversNothing.refl s with } hne
  · cases h; exact .nothing (.complete s) (by simp)

theorem compressAnswered_output {blk : List Byte} (h : compressAnswered blk s = .moved t) : s.TickOutput t := by
  have hscribble : ∀ (a : Option Nat) (n : Nat),
      s.DeliversNothing ((s.answered (.compressAnswer a)).stgScribble n) := fun a _ =>
    { DeliversNothing.log (e := .compressAnswer a) (by simp) s with }
  unfold compressAnswered at h
  split at h
  · cases h; exact .nothing ((hscribble _ _).trans (.raise _ _)) (by simp)
  · rename_i payload _
    split at h
    · cases h; exact .nothing ((hscribble _ _).trans (.raise _ _)) (by simp)
    · cases hp : ((s.answered (.compressAnswer (some payload.length))).stgScribble (s.stageLen + 8)).packPayload payload with
      | error f => rw [hp] at h; cases h
      | ok u =>
        rw [hp] at h; cases h
        obtain rfl := packPayload_ok hp
        exact .nothing ((hscribble _ _).trans { DeliversNothing.log (by simp) _ with }) (by simp)

theorem compressorStep_output (h : compressorStep s = .moved t) : s.TickOutput t := by
  unfold compressorStep at h
  split at h
  · split at h
    · exact compressAnswered_output h
    · cases h
  · cases h

theorem checksumStep_output {cl : Nat} (h : checksumStep cl s = .moved t) : s.TickOutput t := by
  unfold checksumStep at h
  split at h
  · split at h
    · rename_i blk _
      cases hp : s.packChecksum cl (s.params.maskedCrc blk) with
      | error f => rw [hp] at h; cases h
      | ok u =>
        rw [hp] at h; cases h
        obtain rfl := packChecksum_ok hp
        have hc : s.DeliversNothing (s.stgChecksummed cl (s.params.maskedCrc blk)) :=
          { DeliversNothing.log (e := .crcAnswer (s.params.maskedCrc blk)) (by simp) s with }
        exact .nothing (hc.trans (.blockTaken _)) (by simp [stgChecksummed])
    · cases h
  · cases h

theorem drainStep_output (hq : s.pending = .none) (h : drainStep s = .moved t) : s.TickOutput t := by
  unfold drainStep at h
  split at h
  · cases h; exact .nothing (.afterDrain s) (afterDrain_pending (by simp [hq]))
  · split at h
    · rename_i bytes hm
      cases h
      obtain ⟨rfl, -⟩ := memRead_ok hm
      exact .asks
    · cases h

theorem sinkStep_output (hq : s.pending = .sink) (h : sinkStep s = .moved t) : s.TickOutput t := by
  unfold sinkStep at h
  split at h
  · cases h
  · rename_i a rest _
    split at h
    · rename_i bytes hm
      cases h
      obtain ⟨rfl, -⟩ := memRead_ok hm
      exact .answered a rest hq
    · cases h

theorem tick_output (h : tick s = .moved t) : s.TickOutput t := by
  rcases tick_moved_cases h with ⟨-, hq, h⟩ | ⟨-, -, h⟩ | ⟨-, hq, h⟩ | ⟨-, -, h⟩ | ⟨-, -, h⟩ | ⟨cl, -, -, h⟩ | ⟨-, hq, h⟩ |
    ⟨-, hq, h⟩
  · exact ensureStep_output hq h
  · exact poolStep_output h
  · exact segmentStep_output hq h
  · cases h; exact .nothing { DeliversNothing.log (by simp) s with } (by simp)
  · exact compressorStep_output h
  · exact checksumStep_output h
  · exact drainStep_output hq h
  · exact sinkStep_output hq h

end

/-! ### The invariant -/

/-- The sink stream is the bytes of the accepted transfers where no error has poisoned it, and an outstanding transfer is the
last event and carries all that is staged. -/
structure State.Accounted (s : State) : Prop where
  stream : s.poisoned = false → s.sinkStream = acceptedBytes s.history
  outstanding : s.pending = .sink → ∃ h, s.history = h ++ [.sinkTransfer s.staged]

theorem State.DeliversNothing.accounted {s t : State} (h : s.DeliversNothing t) (hs : s.Accounted) (hq : t.pending ≠ .sink) :
    t.Accounted where
  stream hp := by
    have hsound : s.poisoned = false := Bool.eq_false_iff.2 fun hsp => by rw [h.poisoned hsp] at hp; cases hp
    rw [h.sinkStream, h.acceptedBytes]
    exact hs.stream hsound
  outstanding hp := absurd hp hq

/-- The state in which the sink has accepted all that is staged, before what follows DRAIN (42_chunk_emit.md R174). -/
def State.sinkAccepted (s : State) (rest : List SinkAnswer) : State :=
  (State.answered (.sinkAnswer true) { s with sinkAnswers := rest }).delivered s.staged

theorem sinkAnswered_ok (s : State) (rest : List SinkAnswer) :
    State.sinkAnswered s.staged .ok { s with sinkAnswers := rest } = (s.sinkAccepted rest).afterDrain := rfl

/-- The accepting answer counts the bytes of the transfer that is outstanding, which are those delivered. -/
theorem sinkAccepted_accounted {s : State} (hs : s.Accounted) (hq : s.pending = .sink) (rest : List SinkAnswer) :
    (s.sinkAccepted rest).Accounted where
  stream hp := by
    obtain ⟨h, hh⟩ := hs.outstanding hq
    have hbefore : s.sinkStream = acceptedBytes h := by
      rw [hs.stream hp, hh, acceptedBytes_append h (by simp)]
      exact List.append_nil _
    show s.sinkStream ++ s.staged = acceptedBytes (s.history ++ [.sinkAnswer true])
    rw [hbefore, hh, List.append_assoc]
    exact (acceptedBytes_transfer h s.staged).symm
  outstanding hp := by simp [sinkAccepted] at hp

theorem tick_keeps_accounted {s t : State} (hs : s.Accounted) (h : tick s = .moved t) : t.Accounted := by
  cases tick_output h with
  | nothing hd hq => exact hd.accounted hs hq
  | asks =>
    exact
      { stream := fun hp => by
          rw [request_history, acceptedBytes_append _ (by simp)]
          exact (hs.stream hp).trans (List.append_nil _).symm
        outstanding := fun _ => ⟨s.history, rfl⟩ }
  | answered a rest hq =>
    cases a with
    | ok =>
      rw [sinkAnswered_ok]
      exact (DeliversNothing.afterDrain _).accounted (sinkAccepted_accounted hs hq rest)
        (afterDrain_pending (by simp [sinkAccepted]))
    | err kept =>
      exact
        { stream := fun hp => by simp [sinkAnswered, ErrorKind.poisons] at hp
          outstanding := fun hp => by simp [sinkAnswered] at hp }

theorem reaches_keeps_accounted {s t : State} (hs : s.Accounted) (h : ReflTransGen Moves s t) : t.Accounted := by
  induction h with
  | refl => exact hs
  | tail _ hm ih => exact tick_keeps_accounted ih hm.2

theorem State.WorldMoves.accounted {s u : State} (h : s.WorldMoves u) (hs : s.Accounted) : u.Accounted where
  stream hp := by
    rw [h.sinkStream, h.history]
    exact hs.stream (h.poisoned ▸ hp)
  outstanding hq := by
    have hstaged : u.staged = s.staged := by simp only [staged, h.stg, h.stageLen]
    rw [h.history, hstaged]
    exact hs.outstanding (h.pending ▸ hq)

theorem accepted_deliversNothing (i : Instr) (s : State) : s.DeliversNothing (s.accepted i) :=
  { DeliversNothing.log (e := .accept (encode i) s.srcLen) (by simp) s with }

theorem started_deliversNothing (i : Instr) (s : State) : s.DeliversNothing (s.started i) := by
  refine ⟨rfl, id, .accept (encode i) s.srcLen :: if i.async then [.cancelSampled false] else [], by simp [started], ?_⟩
  split <;> simp

theorem disposeInstance_deliversNothing (s : State) : s.DeliversNothing s.disposeInstance := by
  refine ⟨by simp, by simp, _, disposeInstance_history s, ?_⟩
  split <;> simp

theorem exec_keeps_accounted {i : Instr} {s t : State} (hs : s.Safe) (ha : s.Accounted) (h : exec i s = .next t) :
    t.Accounted := by
  have hacc := accepted_deliversNothing i s
  obtain ⟨-, hb, hx⟩ := exec_cases h
  cases hx with
  | rejected _ e _ => exact (hacc.trans (.raise e _)).accounted ha (by simp)
  | cancelled _ _ _ _ _ => exact ((hacc.trans (.log (by simp) _)).trans (.raise _ _)).accounted ha (by simp)
  | starts _ hr =>
    have hq : (s.started i).pending ≠ .sink := by
      show s.pending ≠ .sink
      simp [(hs.1.ended hb).2.2]
    exact reaches_keeps_accounted ((started_deliversNothing i s).accounted ha hq) (reaches_of_resume hr)
  | disposes _ _ => exact ((hacc.trans (disposeInstance_deliversNothing _)).trans (.complete _)).accounted ha (by simp)
  | disposedAlready _ _ => exact (hacc.trans (.complete _)).accounted ha (by simp)

/-- A construction starts with an empty stream and an empty history. -/
theorem constructInstance_accounted {s t : State} (h : constructInstance s = .next t) : t.Accounted := by
  unfold constructInstance at h
  split at h
  · cases h
  · cases h; exact ⟨fun _ => rfl, fun hq => by cases hq⟩

theorem illegallyCommanded_deliversNothing (w : Word) (s : State) : s.DeliversNothing (s.illegallyCommanded w) :=
  ⟨rfl, fun hp => by simp [illegallyCommanded, hp], [.accept w s.srcLen, .done 0x01#8], illegallyCommanded_history w s,
    by simp⟩

/-- Settles O58: every step keeps the invariant, by what a step can come to. -/
theorem streamIsTheAcceptedTransfers : Obligations.StreamIsTheAcceptedTransfers := by
  unfold Obligations.StreamIsTheAcceptedTransfers
  refine ⟨fun s t hs h ⟨hstream, hout⟩ => ?_, rfl⟩
  have ha : s.Accounted := ⟨hstream, hout⟩
  suffices ht : t.Accounted from ⟨ht.stream, ht.outstanding⟩
  obtain ⟨-, hx⟩ := step_cases h
  cases hx with
  | goesOn hw hr => exact reaches_keeps_accounted (hw.accounted ha) hr
  | command hw hx => exact exec_keeps_accounted (hw.keeps_safe hs) (hw.accounted ha) hx
  | illegal w hw _ =>
    exact (illegallyCommanded_deliversNothing w _).accounted (hw.accounted ha) (by simp [illegallyCommanded, close])
  | construct _ _ hc => exact constructInstance_accounted hc

end Sys2Proof.Machine
end

section
/-! PROOFS. The decoder on bytes, and which CSR accesses exist (30_encoding.md R86, R89, 20_memory.md R56, R59). -/

namespace Sys2Proof

open Machine

/-! ### The command word and its four bytes -/

theorem decode_encode (i : Instr) : decode (encode i) = .ok i := by
  cases i with
  | write snk => exact ((Laws.TableRow.write snk).2.2 _).2 rfl
  | writeA snk => exact ((Laws.TableRow.writeA snk).2.2 _).2 rfl
  | flush snk => exact ((Laws.TableRow.flush snk).2.2 _).2 rfl
  | flushA snk => exact ((Laws.TableRow.flushA snk).2.2 _).2 rfl
  | dispose snk => exact ((Laws.TableRow.dispose snk).2.2 _).2 rfl

theorem ofBool_getLsbD_eq_extractLsb' (w : Word) (k : Nat) : BitVec.ofBool (w.getLsbD k) = w.extractLsb' k 1 := by
  rw [BitVec.getLsbD_eq_extractLsb']
  generalize w.extractLsb' k 1 = b
  revert b
  decide

/-- A word whose reserved bits are zero is made of its other three fields (30_encoding.md R80). -/
theorem eq_commandWord {w : Word} (h : reservedField w = 0#26) : w = commandWord (opcField w) (asyncField w) (snkField w) := by
  rw [commandWord, ← h, snkField, asyncField, ofBool_getLsbD_eq_extractLsb', ofBool_getLsbD_eq_extractLsb', reservedField,
    opcField, BitVec.extractLsb'_append_extractLsb'_eq_extractLsb' (show 6 = 5 + 1 from rfl),
    BitVec.extractLsb'_append_extractLsb'_eq_extractLsb' (show 5 = 4 + 1 from rfl),
    BitVec.extractLsb'_append_extractLsb'_eq_extractLsb' (show 4 = 0 + 4 from rfl)]
  exact BitVec.extractLsb'_eq_self.symm

/-- Only a command's own word is decoded as it. -/
theorem encode_of_decode {w : Word} {i : Instr} (h : decode w = .ok i) : encode i = w := by
  unfold decode at h
  split at h
  · cases h
  · rename_i hres
    refine Eq.trans ?_ (eq_commandWord (not_not.1 hres)).symm
    split at h
    · rename_i hopc
      cases ha : asyncField w <;> rw [ha] at h <;> cases h <;> rw [hopc] <;> rfl
    · split at h
      · rename_i hopc
        cases ha : asyncField w <;> rw [ha] at h <;> cases h <;> rw [hopc] <;> rfl
      · split at h
        · rename_i hopc
          cases ha : asyncField w <;> rw [ha] at h <;> cases h
          rw [hopc]; rfl
        · cases h

/-- The bytes of a word made of four, from the least significant on. -/
theorem extractLsb'_wordOfBytes (b0 b1 b2 b3 : Byte) :
    (wordOfBytes b0 b1 b2 b3).extractLsb' 0 8 = b0 ∧ (wordOfBytes b0 b1 b2 b3).extractLsb' 8 8 = b1 ∧
    (wordOfBytes b0 b1 b2 b3).extractLsb' 16 8 = b2 ∧ (wordOfBytes b0 b1 b2 b3).extractLsb' 24 8 = b3 := by
  show (b3 ++ b2 ++ b1 ++ b0).extractLsb' 0 8 = b0 ∧ (b3 ++ b2 ++ b1 ++ b0).extractLsb' 8 8 = b1 ∧
    (b3 ++ b2 ++ b1 ++ b0).extractLsb' 16 8 = b2 ∧ (b3 ++ b2 ++ b1 ++ b0).extractLsb' 24 8 = b3
  simp only [BitVec.extractLsb'_append_eq_ite]
  simp

/-- Four bytes are the little-endian bytes of the word they make (20_memory.md R56). -/
theorem leBytes_wordOfBytes (b0 b1 b2 b3 : Byte) : leBytes 4 (wordOfBytes b0 b1 b2 b3).toNat = [b0, b1, b2, b3] := by
  have h0 := ofNat_div_eq_extractLsb' (wordOfBytes b0 b1 b2 b3) (n := 1) (k := 0) rfl
  have h1 := ofNat_div_eq_extractLsb' (wordOfBytes b0 b1 b2 b3) (n := 256) (k := 8) rfl
  have h2 := ofNat_div_eq_extractLsb' (wordOfBytes b0 b1 b2 b3) (n := 256 * 256) (k := 16) rfl
  have h3 := ofNat_div_eq_extractLsb' (wordOfBytes b0 b1 b2 b3) (n := 256 * 256 * 256) (k := 24) rfl
  rw [Nat.div_one] at h0
  simp only [leBytes, Nat.div_div_eq_div_mul, h0, h1, h2, h3]
  obtain ⟨e0, e1, e2, e3⟩ := extractLsb'_wordOfBytes b0 b1 b2 b3
  rw [e0, e1, e2, e3]

/-- Settles O2: the four bytes of a word are the word, and the decoder is the encoder's inverse. -/
theorem bytesDecodeToExactlyTheirCommand : Obligations.BytesDecodeToExactlyTheirCommand := by
  unfold Obligations.BytesDecodeToExactlyTheirCommand
  intro bs rest i
  constructor
  · intro h
    unfold decodeBytes at h
    split at h
    · rename_i b0 b1 b2 b3 _
      split at h
      · rename_i hd
        cases h
        rw [encode_of_decode hd, leBytes_wordOfBytes]
        rfl
      · cases h
    · cases h
  · rintro rfl
    simp only [leBytes, List.cons_append, List.nil_append, decodeBytes, wordOfBytes_leBytes, decode_encode]

/-! ### The register map -/

/-- The offsets of the map are the multiples of 4 up to 0x20 (10_state.md R40). -/
theorem Machine.Csr.at_isSome_iff (off : Nat) : (Csr.at off).isSome = true ↔ off % 4 = 0 ∧ off ≤ 0x20 := by
  constructor
  · intro h
    unfold Csr.at at h
    split at h <;> simp_all
  · rintro ⟨hmul, hle⟩
    obtain ⟨k, rfl⟩ := Nat.dvd_of_mod_eq_zero hmul
    have hk : k ≤ 8 := by omega
    interval_cases k <;> rfl

namespace Machine

/-- The accesses that exist: 32-bit ones, at the bus addresses of the registers (20_memory.md R59, R64). -/
theorem csrAt_isSome_iff {s : State} {a width : Nat} :
    (s.csrAt a width).isSome = true ↔ width = 4 ∧ ∃ off, a = s.params.csrBase + off ∧ off % 4 = 0 ∧ off ≤ 0x20 := by
  unfold State.csrAt
  split
  · rename_i hc
    obtain ⟨hwidth, hbase⟩ := hc
    rw [Csr.at_isSome_iff]
    constructor
    · exact fun hoff => ⟨hwidth, a - s.params.csrBase, (Nat.add_sub_cancel' hbase).symm, hoff⟩
    · rintro ⟨-, off, rfl, hoff⟩
      rwa [Nat.add_sub_cancel_left]
  · rename_i hc
    refine ⟨nofun, ?_⟩
    rintro ⟨hwidth, off, rfl, -⟩
    exact absurd ⟨hwidth, Nat.le_add_right _ _⟩ hc

/-- An access that names no register is refused, whichever way it goes. -/
theorem step_reservedCsr {s : State} {a width : Nat} (hw : s.params.wf = true) (hc : s.csrAt a width = none) (v : Word)
    (rest : List Input) :
    (s.inputs = .csrWrite a width v :: rest → step s = .refused .reservedCsr) ∧
    (s.inputs = .csrRead a width :: rest → step s = .refused .reservedCsr) := by
  constructor <;> intro hin
  · rw [step, nextMove_csrWrite hw hin, csrWrite, csrAt_inputs, hc]
  · rw [step, nextMove_csrRead hw hin, csrRead, csrAt_inputs, hc]

/-- Settles O8: by the register map and what an access that names no register does. -/
theorem reservedCsrAccessRefused : Obligations.ReservedCsrAccessRefused := by
  unfold Obligations.ReservedCsrAccessRefused
  intro s a width hw
  refine ⟨csrAt_isSome_iff, fun hno => step_reservedCsr hw ?_⟩
  rwa [← csrAt_isSome_iff, Option.not_isSome_iff_eq_none] at hno

end Machine

end Sys2Proof
end

section
/-! PROOFS. The pace of the sequencer does not matter (20_memory.md R68, 70_reset_and_hazards.md R262, log entries 9, 30): no
step of it looks at the pace. -/

namespace Sys2Proof.Machine

open State Relation

/-- The state with a sequencer that takes one step per tick. -/
def State.paced (s : State) : State := { s with eager := false }

/-- What a step answers, its state changed. -/
def Progress.map (f : State → State) : Progress → Progress
  | .moved s => .moved (f s)
  | .waits => .waits
  | .stops e => .stops e

theorem Progress.of_map (f : State → State) (x : Except Fault State) : Progress.of (x.map f) = (Progress.of x).map f := by
  cases x <;> rfl

/-- A change of the state passes through a computation that may stop when it passes through its two parts. -/
theorem bind_map {f : State → State} {x y : Except Fault State} {k l : State → Except Fault State} (hx : y = x.map f)
    (hk : ∀ u, l (f u) = (k u).map f) : (y >>= l) = (x >>= k).map f := by
  subst hx
  cases x with
  | error e => rfl
  | ok u => exact hk u

/-! ### The operations of the model commute with the pace -/

theorem paced_releaseSrc (s : State) : s.paced.releaseSrc = s.releaseSrc.paced := by
  have hop : s.paced.cur.op = s.cur.op := rfl
  unfold releaseSrc
  rw [hop]
  cases s.cur.op <;> rfl

theorem paced_complete (s : State) : s.paced.complete = s.complete.paced := by
  unfold complete
  rw [paced_releaseSrc]
  rfl

theorem paced_raise (e : ErrorKind) (s : State) : s.paced.raise e = (s.raise e).paced := by
  show (s.setError e).paced.releaseSrc.close = _
  rw [paced_releaseSrc]
  rfl

theorem paced_accWrite (s : State) (a : Nat) (bs : List Byte) : s.paced.accWrite a bs = (s.accWrite a bs).map paced := by
  show (if s.hasAddresses .acc a bs.length then _ else _) = _
  unfold accWrite
  split <;> rfl

theorem paced_stgWrite (s : State) (a : Nat) (bs : List Byte) : s.paced.stgWrite a bs = (s.stgWrite a bs).map paced := by
  show (if s.hasAddresses .stg a bs.length then _ else _) = _
  unfold stgWrite
  split <;> rfl

theorem paced_blockTaken (s : State) : s.paced.blockTaken = s.blockTaken.paced := by
  have hsp : s.paced.blockSpace = s.blockSpace := rfl
  unfold blockTaken
  rw [hsp]
  cases s.blockSpace <;> rfl

theorem paced_afterDrain (s : State) : s.paced.afterDrain = s.afterDrain.paced := by
  have hop : s.paced.cur.op = s.cur.op := rfl
  unfold afterDrain
  rw [hop]
  cases s.cur.op with
  | write =>
    show (if s.cur.async && decide (s.consumed.toNat < s.cur.len.toNat) then _ else _) = _
    dsimp only
    split
    · show (if s.cancelReq then (s.log _).paced.raise _ else _) = _
      rw [checkpoint, paced_raise]
      split <;> rfl
    · rfl
  | flush => exact paced_complete s
  | dispose => exact paced_complete s

theorem paced_sinkAnswered (bytes : List Byte) (a : SinkAnswer) (s : State) :
    s.paced.sinkAnswered bytes a = (s.sinkAnswered bytes a).paced := by
  cases a with
  | ok => exact paced_afterDrain ((s.answered _).delivered bytes)
  | err kept => exact paced_raise .sink ((s.answered _).keptByFailingSink bytes kept)

theorem paced_stagePreamble (s : State) : s.paced.stagePreamble = s.stagePreamble.map paced :=
  bind_map (paced_stgWrite s _ _) fun _ => rfl

theorem paced_copyToAcc (s : State) : s.paced.copyToAcc = s.copyToAcc.map paced := by
  have hread : s.paced.memRead .src s.paced.consumed.toNat s.paced.copyLen = s.memRead .src s.consumed.toNat s.copyLen := rfl
  unfold copyToAcc
  rw [hread]
  cases s.memRead .src s.consumed.toNat s.copyLen with
  | error f => rfl
  | ok bs => exact bind_map (paced_accWrite s _ _) fun _ => rfl

theorem paced_packPayload (payload : List Byte) (s : State) :
    s.paced.packPayload payload = (s.packPayload payload).map paced :=
  bind_map (paced_stgWrite s _ _) fun u => bind_map (paced_stgWrite u _ _) fun v =>
    bind_map (paced_stgWrite v _ _) fun _ => rfl

theorem paced_packChecksum (cl : Nat) (crc : Word) (s : State) :
    s.paced.packChecksum cl crc = (s.packChecksum cl crc).map paced :=
  bind_map (paced_stgWrite (s.answered (.crcAnswer crc)) _ _) fun u =>
    congrArg Except.ok (paced_blockTaken (u.chunkStaged cl))

/-! ### The steps of the sequencer -/

theorem paced_ensureStep (s : State) : ensureStep s.paced = (ensureStep s).map paced := by
  show (if s.alloc then (if s.hdrWritten then _ else Progress.of s.paced.stagePreamble) else _) = _
  rw [paced_stagePreamble, Progress.of_map]
  unfold ensureStep
  split
  · split <;> rfl
  · rfl

theorem paced_poolStep (s : State) : poolStep s.paced = (poolStep s).map paced := by
  have hp : s.paced.poolAnswers = s.poolAnswers := rfl
  unfold poolStep
  rw [hp]
  split
  · rfl
  · rfl
  · rename_i rest _
    exact congrArg Progress.moved (paced_raise .alloc (State.answered (.poolAnswer .refused) { s with poolAnswers := rest }))

theorem paced_segmentStep (s : State) : segmentStep s.paced = (segmentStep s).map paced := by
  show (if s.consumed.toNat < s.cur.len.toNat then
    (if s.accLen = 0 ∧ s.params.block ≤ s.remaining then _ else Progress.of s.paced.copyToAcc)
      else Progress.moved s.paced.complete) = _
  rw [paced_copyToAcc, Progress.of_map, paced_complete]
  unfold segmentStep
  split
  · split <;> rfl
  · rfl

theorem paced_compressAnswered (blk : List Byte) (s : State) :
    compressAnswered blk s.paced = (compressAnswered blk s).map paced := by
  have hparams : s.paced.params = s.params := rfl
  have hfail : ∀ a, (State.stgScribble (s.paced.stageLen + 8) (s.paced.answered (.compressAnswer a))).raise .compress
      = (((s.answered (.compressAnswer a)).stgScribble (s.stageLen + 8)).raise .compress).paced := fun _ =>
    paced_raise .compress ((s.answered _).stgScribble _)
  unfold compressAnswered
  rw [hparams]
  split
  · rw [hfail]; rfl
  · rename_i payload _
    split
    · rw [hfail]; rfl
    · rw [← Progress.of_map]
      exact congrArg Progress.of (paced_packPayload payload ((s.answered _).stgScribble _))

theorem paced_compressorStep (s : State) : compressorStep s.paced = (compressorStep s).map paced := by
  have hready : s.paced.compressorReady = s.compressorReady := rfl
  have hblk : s.paced.block = s.block := rfl
  unfold compressorStep
  rw [hready, hblk]
  split
  · cases s.block with
    | ok blk => exact paced_compressAnswered blk s
    | error f => rfl
  · rfl

theorem paced_checksumStep (cl : Nat) (s : State) : checksumStep cl s.paced = (checksumStep cl s).map paced := by
  have hready : s.paced.checksumReady = s.checksumReady := rfl
  have hblk : s.paced.block = s.block := rfl
  unfold checksumStep
  rw [hready, hblk]
  split
  · cases s.block with
    | ok blk => exact (congrArg Progress.of (paced_packChecksum cl _ s)).trans (Progress.of_map _ _)
    | error f => rfl
  · rfl

theorem paced_drainStep (s : State) : drainStep s.paced = (drainStep s).map paced := by
  have hlen : s.paced.stageLen = s.stageLen := rfl
  have hread : s.paced.memRead .stg 0 s.stageLen = s.memRead .stg 0 s.stageLen := rfl
  unfold drainStep
  rw [paced_afterDrain, hlen, hread]
  split
  · rfl
  · cases s.memRead .stg 0 s.stageLen <;> rfl

theorem paced_sinkStep (s : State) : sinkStep s.paced = (sinkStep s).map paced := by
  have hk : s.paced.sinkAnswers = s.sinkAnswers := rfl
  have hread : s.paced.memRead .stg 0 s.paced.stageLen = s.memRead .stg 0 s.stageLen := rfl
  unfold sinkStep
  rw [hk, hread]
  split
  · rfl
  · rename_i a rest _
    cases s.memRead .stg 0 s.stageLen with
    | ok bytes => exact congrArg Progress.moved (paced_sinkAnswered bytes a { s with sinkAnswers := rest })
    | error f => rfl

/-- No step of the sequencer looks at the pace. -/
theorem tick_paced {s t : State} (h : tick s = .moved t) : tick s.paced = .moved t.paced := by
  rcases tick_moved_cases h with ⟨hf, hq, h⟩ | ⟨hf, hq, h⟩ | ⟨hf, hq, h⟩ | ⟨hf, hq, h⟩ | ⟨hf, hq, h⟩ | ⟨cl, hf, hq, h⟩ |
    ⟨hf, hq, h⟩ | ⟨hf, hq, h⟩
  · rw [tick_ensure (s := s.paced) hf hq, paced_ensureStep, h]; rfl
  · rw [tick_pool (s := s.paced) hf hq, paced_poolStep, h]; rfl
  · rw [tick_segment (s := s.paced) hf hq, paced_segmentStep, h]; rfl
  · cases h; exact (tick_emit (s := s.paced) hf hq).trans rfl
  · rw [tick_compressor (s := s.paced) hf hq, paced_compressorStep, h]; rfl
  · rw [tick_checksum (s := s.paced) hf hq, paced_checksumStep, h]; rfl
  · rw [tick_drain (s := s.paced) hf hq, paced_drainStep, h]; rfl
  · rw [tick_sink (s := s.paced) hf hq, paced_sinkStep, h]; rfl

theorem reaches_paced {s t : State} (h : ReflTransGen Moves s t) : ReflTransGen Moves s.paced t.paced :=
  h.lift paced fun _ _ hm => ⟨hm.1, tick_paced hm.2⟩

/-- Where the sequencer can come by its own steps a run of some length comes. -/
theorem exists_run_of_reaches {s t : State} (h : ReflTransGen Moves s t) : ∃ n, run n s = .next t := by
  induction h using ReflTransGen.head_induction_on with
  | refl => exact ⟨0, rfl⟩
  | head hm _ ih =>
    obtain ⟨n, hn⟩ := ih
    exact ⟨n + 1, (run_moved hm.1 hm.2).trans hn⟩

/-! ### Commands -/

theorem paced_returnBuffers (s : State) : s.paced.returnBuffers = s.returnBuffers.paced := by
  show (if s.alloc then _ else _) = _
  unfold returnBuffers
  split <;> rfl

theorem paced_disposeInstance (s : State) : s.paced.disposeInstance = s.disposeInstance.paced := by
  have htear : s.paced.log .compressorTeardown = (s.log .compressorTeardown).paced := rfl
  unfold disposeInstance
  rw [htear, paced_returnBuffers]
  rfl

/-- The state that a command leaves in the step of its `CMD` write, before the sequencer takes a step: DISPOSE has ended, a WRITE
or FLUSH form has ended at a check or at check point 0, or stands at the start of ENSURE (43_lifecycle.md R194,
60_exceptions.md R214, R219). -/
def State.commanded (i : Instr) (s : State) : State :=
  if i.op = .dispose then
    if s.disposed then (s.accepted i).complete else (s.accepted i).disposeInstance.complete
  else if s.disposed then (s.accepted i).raise .disposed
  else if s.poisoned then (s.accepted i).raise .poisoned
  else if i.snk then
    if i.async && s.cancelReq then ((s.accepted i).log (.cancelSampled s.cancelReq)).raise .cancelled else s.started i
  else (s.accepted i).raise .nullSink

theorem resume_idle {s : State} (hb : s.busy = false) : resume s = .next s := by
  unfold resume
  split
  · exact run_idle _ hb
  · rfl

theorem exec_dispose_eq {snk : Bool} {s : State} (hw : s.params.wf = true) (hb : s.busy = false) :
    exec (.dispose snk) s = resume (s.commanded (.dispose snk)) := by
  have hop : (Instr.dispose snk).op = .dispose := rfl
  rw [exec, execDispose, refusal_eq_none.2 ⟨hw, hb⟩, commanded, if_pos hop]
  dsimp only
  split <;> exact (resume_idle (complete_busy _)).symm

theorem exec_form_eq {i : Instr} {s : State} (hop : i.op ≠ .dispose) (hw : s.params.wf = true) (hb : s.busy = false) :
    exec i s = resume (s.commanded i) := by
  have hover : ∀ e, acceptChecks i s = .isOver (.next ((s.accepted i).raise e)) →
      exec i s = resume ((s.accepted i).raise e) := fun e hc =>
    (exec_eq_of_isOver hop hc).trans (resume_idle (raise_busy _ _)).symm
  have hc := acceptChecks_eq (i := i) hw hb
  rw [commanded, if_neg hop]
  split at hc
  · rw [if_pos ‹_›]; exact hover _ hc
  · rename_i hlive
    rw [if_neg hlive]
    split at hc
    · rw [if_pos ‹_›]; exact hover _ hc
    · rename_i hsound
      rw [if_neg hsound]
      split at hc
      · rename_i hsnk
        rw [if_pos hsnk]
        by_cases hcancel : i.async = true ∧ s.cancelReq = true
        · obtain ⟨hasync, hreq⟩ := hcancel
          rw [exec_eq_of_goesOn hop hc, if_pos hasync, launchSuspendable, if_pos (by exact hreq),
            if_pos (Bool.and_eq_true_iff.2 ⟨hasync, hreq⟩)]
          exact (resume_idle (raise_busy _ _)).symm
        · rw [← Bool.and_eq_true_iff] at hcancel
          rw [if_neg hcancel]
          exact exec_form hop hsnk hw hb (Bool.eq_false_iff.2 hlive) (Bool.eq_false_iff.2 hsound) (by simpa using hcancel)
      · rw [if_neg ‹_›]; exact hover _ hc

/-- A command is what the sequencer makes of the state that the command leaves to it. -/
theorem exec_eq_resume {i : Instr} {s : State} (hw : s.params.wf = true) (hb : s.busy = false) :
    exec i s = resume (s.commanded i) := by
  by_cases hop : i.op = .dispose
  · cases i with
    | dispose snk => exact exec_dispose_eq hw hb
    | _ => cases hop
  · exact exec_form_eq hop hw hb

theorem paced_commanded (i : Instr) (s : State) : s.paced.commanded i = (s.commanded i).paced := by
  unfold commanded
  simp only [apply_ite paced, ← paced_raise, ← paced_complete, ← paced_disposeInstance]
  rfl

/-- Settles O59: the paced command stops in the same state but for the pace, before its sequencer takes a step, and from there
the sequencer takes the same steps. -/
theorem paceDoesNotMatter : Obligations.PaceDoesNotMatter := by
  unfold Obligations.PaceDoesNotMatter
  intro i s t _ h
  obtain ⟨hw, hb, -⟩ := exec_cases h
  rw [exec_eq_resume hw hb] at h
  obtain ⟨n, hn⟩ := exists_run_of_reaches (reaches_paced (reaches_of_resume h))
  refine ⟨(s.commanded i).paced, n, ?_, hn⟩
  show exec i s.paced = .next (s.commanded i).paced
  rw [exec_eq_resume (s := s.paced) hw hb, paced_commanded]
  rfl

end Sys2Proof.Machine
end

section
/-! PROOFS. What EMIT and DRAIN ask their agents (20_memory.md R60, R66, 42_chunk_emit.md R160 to R177). -/

namespace Sys2Proof.Machine

open State

/-- Where the block of an EMIT lies (42_chunk_emit.md R177): in SRC on the fast path of a WRITE form, which an empty ACC tells
(log entry 18), and else in ACC. -/
theorem block_location (s : State) : (s.blockSpace, s.blockLen, s.blockBytes) =
    if s.cur.op = .write ∧ s.accLen = 0 then (.src, s.params.block, s.src.bytes s.consumed.toNat s.params.block)
    else (.acc, s.accLen, s.accumulated) := by
  split
  · rename_i hfast
    have hsp : s.blockSpace = .src := by simp [blockSpace, hfast]
    simp [blockBytes, blockLen, blockStart, hsp, buffer]
  · rename_i hslow
    have hsp : s.blockSpace = .acc := by
      unfold blockSpace
      cases hop : s.cur.op <;> simp_all
    simp [blockBytes, blockLen, blockStart, hsp, buffer, accumulated]

/-- The compressor fails on the block, or answers more than the bound (42_chunk_emit.md R162). -/
def State.CompressionFails (s : State) : Prop :=
  s.params.compress s.blockBytes = none ∨
    ∃ c, s.params.compress s.blockBytes = some c ∧ s.params.maxComp.bound s.blockLen < c.length

/-- What a failed compression leaves (60_exceptions.md R215). -/
def State.compressionFailed (s : State) : State :=
  ((s.answered (.compressAnswer ((s.params.compress s.blockBytes).map List.length))).stgScribble (s.stageLen + 8)).raise
    .compress

theorem compressorStep_fails {s : State} (hcr : s.compressorReady = true) (hblk : s.block = .ok s.blockBytes)
    (hno : s.CompressionFails) : compressorStep s = .moved s.compressionFailed := by
  unfold compressorStep compressionFailed
  rw [if_pos hcr, hblk]
  rcases hno with hc | ⟨c, hc, hlong⟩
  · simp only [compressAnswered, hc]
    rfl
  · simp only [compressAnswered, hc, length_blockBytes, if_pos hlong]
    rfl

/-- EMIT, the compression failing: two steps end the command. -/
theorem emit_fails {s : State} (h : s.Inv) (hf : s.fsm = .emit) (hq : s.pending = .none) (hcr : s.compressorReady = true)
    (hno : s.CompressionFails) :
    run 2 s = .next (s.request .compressor (.compressReq s.blockSpace s.blockLen (s.stageLen + 8))).compressionFailed := by
  have hb := (h.emit hf).lease.run.busy
  rw [run_moved hb (tick_emit hf hq)]
  refine run_moved (n := 0) (by simpa using hb) ?_
  rw [tick_compressor (by simpa using hf) rfl]
  exact compressorStep_fails (s := s.request .compressor _) hcr (h.block_eq hf) hno

theorem compressionFailed_ended (s : State) : s.compressionFailed.Ended := by
  simp [compressionFailed, Ended]

theorem compressionFailed_history (s : State) : s.compressionFailed.history = s.history ++
    [.compressAnswer ((s.params.compress s.blockBytes).map List.length), .done 0x04#8] := by
  simp [compressionFailed, ErrorKind.code]

/-- DRAIN asks for one transfer of all that is staged (20_memory.md R61). -/
theorem tick_drain_asks {s : State} (h : s.Inv) (hf : s.fsm = .drain) (hq : s.pending = .none) (h0 : 0 < s.stageLen) :
    tick s = .moved (s.request .sink (.sinkTransfer s.staged)) := by
  have hroom := h.1.stageRoom
  have hmem : s.memRead .stg 0 s.stageLen = .ok s.staged :=
    memRead_eq (by simp [hasAddresses, (h.drain hf).lease.leased]; omega)
  rw [tick_drain hf hq, drainStep, if_neg (by omega), hmem]

/-- Settles O33: EMIT by what its steps leave where the compression succeeds and where it fails, DRAIN by its first step. -/
theorem emitAndDrainAskInOrder : Obligations.EmitAndDrainAskInOrder := by
  unfold Obligations.EmitAndDrainAskInOrder
  constructor
  · intro s source n blk hs hf hq hcr hkr hblk
    rw [← block_location] at hblk
    simp only [Prod.mk.injEq] at hblk
    obtain ⟨rfl, rfl, rfl⟩ := hblk
    constructor
    · intro c hc hle
      obtain ⟨hem, -, hrun⟩ := emit_runs hs.1 hf hq hcr hkr hc hle
      exact ⟨_, hrun 0, hem.fsm, hem.pending, hem.staged, hem.history⟩
    · intro hno
      refine ⟨_, emit_fails hs.1 hf hq hcr hno, compressionFailed_ended _, ?_⟩
      rw [compressionFailed_history, request_history, List.append_assoc]
      rfl
  · intro s hs hf hq h0
    exact ⟨_, tick_drain_asks hs.1 hf hq h0, by simpa using hf, rfl, rfl, rfl⟩

end Sys2Proof.Machine
end

section
/-! PROOFS. A FLUSH form is a barrier, whatever its agents answer (20_memory.md R69, 41_flush.md R140, R147). -/

namespace Sys2Proof.Machine

open State Relation

/-! ### What the sequencer keeps -/

/-- From `s` to `t` a FLUSH form has lost nothing: what the sink has and what it has not been given yet have grown by one chunk
of each block that is no longer to be emitted. Where the command has ended, nothing is accumulated or staged. -/
structure State.Flushes (s t : State) : Prop where
  params : t.params = s.params
  cur : t.cur = s.cur
  stream : ∃ cs, (∀ c ∈ cs, s.params.IsChunk c) ∧ cs.map Prod.fst ++ t.accumulatedBlocks = s.accumulatedBlocks ∧
    t.sinkStream ++ t.undelivered = s.sinkStream ++ s.undelivered ++ s.params.wire cs
  ended : t.busy = false → t.accLen = 0 ∧ t.stageLen = 0 ∧ t.hdrWritten = true ∧ t.alloc = true ∧ t.disposed = false ∧
    t.poisoned = false

/-- Nothing has been emitted. -/
theorem State.Flushes.of_eq {s t : State} (hparams : t.params = s.params) (hcur : t.cur = s.cur)
    (hblocks : t.accumulatedBlocks = s.accumulatedBlocks)
    (hstream : t.sinkStream ++ t.undelivered = s.sinkStream ++ s.undelivered) (hb : t.busy = true) : s.Flushes t where
  params := hparams
  cur := hcur
  stream := ⟨[], by simp, by simpa using hblocks, by simpa [Params.wire] using hstream⟩
  ended hidle := by rw [hb] at hidle; cases hidle

theorem State.Flushes.trans {s t u : State} (h : s.Flushes t) (k : t.Flushes u) : s.Flushes u where
  params := k.params.trans h.params
  cur := k.cur.trans h.cur
  stream := by
    obtain ⟨cs, hcs, hblocks, hstream⟩ := h.stream
    obtain ⟨ds, hds, kblocks, kstream⟩ := k.stream
    rw [h.params] at hds kstream
    refine ⟨cs ++ ds, fun c hc => (List.mem_append.1 hc).elim (hcs c) (hds c), ?_, ?_⟩
    · rw [List.map_append, List.append_assoc, kblocks, hblocks]
    · rw [kstream, hstream, Params.wire_append, List.append_assoc]
  ended := k.ended

theorem accumulatedBlocks_of_empty {s : State} (h : s.accLen = 0) : s.accumulatedBlocks = [] := if_pos h

theorem undelivered_of_staged {s : State} (h : s.hdrWritten = true) : s.undelivered = s.staged := if_pos h

theorem undelivered_congr {s t : State} (hs : s.hdrWritten = true) (ht : t.hdrWritten = true) (h : t.staged = s.staged) :
    t.undelivered = s.undelivered := by
  rw [undelivered_of_staged hs, undelivered_of_staged ht, h]

theorem undelivered_of_unstaged {s : State} (h : s.hdrWritten = false) : s.undelivered = s.params.preamble := by
  simp [undelivered, h]

/-- A command that has failed has not ended with OK. -/
theorem raise_not_ok (e : ErrorKind) (s : State) : ¬ ((s.raise e).busy = true ∨ (s.raise e).err = 0x00#8) := by
  simp [e.code_ne_ok]

/-- The state that completes has emptied both buffers. -/
theorem State.Leased.completes_flushes {s : State} (h : s.Leased) (hacc : s.accLen = 0) (hst : s.stageLen = 0) :
    s.Flushes s.complete where
  params := by simp
  cur := by simp
  stream := ⟨[], by simp, by simp [accumulatedBlocks, hacc], by simp [undelivered, staged, Params.wire]⟩
  ended _ := by simp [hacc, hst, h.hdr, h.leased, h.run.live, h.run.sound]

section
variable {s t : State}

theorem ensureStep_flushes (h : s.BaseInv) (he : s.EnsureInv) (ht : ensureStep s = .moved t) : s.Flushes t := by
  have hb := he.run.busy
  unfold ensureStep at ht
  split at ht
  · split at ht
    · cases ht; exact .of_eq rfl rfl rfl rfl hb
    · rename_i hh
      cases hp : s.stagePreamble with
      | error f => rw [hp] at ht; cases ht
      | ok u =>
        rw [hp] at ht; cases ht
        obtain ⟨rfl, -⟩ := stagePreamble_ok hp
        refine .of_eq rfl rfl rfl (congrArg (s.sinkStream ++ ·) ?_) hb
        rw [undelivered_of_unstaged (Bool.eq_false_iff.2 hh), undelivered_of_staged rfl]
        have hpre := Buffer.bytes_write_same s.stg 0 s.params.preamble
        rwa [paramsWf_preamble h.paramsWf] at hpre
  · cases ht; exact .of_eq rfl rfl rfl rfl hb

theorem poolStep_flushes (h : s.BaseInv) (he : s.EnsureInv) (ha : s.alloc = false) (ht : poolStep s = .moved t)
    (hok : t.busy = true ∨ t.err = 0x00#8) : s.Flushes t := by
  have hh := h.unleased ha he.run.live
  obtain ⟨hacc, -, -⟩ := h.unstaged hh
  unfold poolStep at ht
  split at ht
  · cases ht
  · cases ht
    refine .of_eq rfl rfl ?_ (congrArg (s.sinkStream ++ ·) ?_) he.run.busy
    · rw [accumulatedBlocks_of_empty hacc]
      exact accumulatedBlocks_of_empty hacc
    · rw [undelivered_of_unstaged hh]
      exact undelivered_of_unstaged hh
  · cases ht; exact absurd hok (raise_not_ok _ _)

/-- The packing of a chunk leaves what is staged below it. -/
theorem stgPacked_staged {u : State} {payload : List Byte} (h : s.BaseInv)
    (hu : u.stg = s.stg.scribble (s.stageLen + 8) s.params.stageSize s.draws) (hlen : u.stageLen = s.stageLen) :
    (u.stgPacked payload).bytes 0 u.stageLen = s.staged := by
  rw [hlen]
  exact Buffer.bytes_congr fun i hi => by
    rw [Nat.zero_add]
    exact byte_packed_below h hu hlen hi

theorem compressAnswered_flushes (h : s.BaseInv) (he : s.EmitInv) {blk : List Byte} (ht : compressAnswered blk s = .moved t)
    (hok : t.busy = true ∨ t.err = 0x00#8) : s.Flushes t := by
  unfold compressAnswered at ht
  split at ht
  · cases ht; exact absurd hok (raise_not_ok _ _)
  · rename_i payload _
    split at ht
    · cases ht; exact absurd hok (raise_not_ok _ _)
    · cases hp : ((s.answered (.compressAnswer (some payload.length))).stgScribble (s.stageLen + 8)).packPayload payload with
      | error f => rw [hp] at ht; cases ht
      | ok u =>
        rw [hp] at ht; cases ht
        obtain rfl := packPayload_ok hp
        refine .of_eq rfl rfl rfl (congrArg (s.sinkStream ++ ·) (undelivered_congr he.lease.hdr he.lease.hdr ?_))
          he.lease.run.busy
        exact stgPacked_staged (u := (s.answered (.compressAnswer (some payload.length))).stgScribble (s.stageLen + 8)) h rfl rfl

/-- The chunk of the accumulated block is staged. -/
theorem packChecksum_flushes {cl : Nat} (hop : s.cur.op = .flush) (he : s.EmitInv) (hf : s.Framed)
    (hq : s.pending = .checksum cl) (ht : s.packChecksum cl (s.params.maskedCrc s.blockBytes) = .ok t) : s.Flushes t := by
  obtain rfl := packChecksum_ok ht
  obtain ⟨payload, rfl, hchunk, htype, hlen, hpayload⟩ := hf.header cl hq
  have hstaged := stgChecksummed_staged s.blockBytes htype hlen hpayload
  have hacc : s.accLen ≠ 0 := by
    rcases he.block with ⟨-, hpos, -⟩ | ⟨hw, -⟩ | ⟨hw, -, -⟩
    · omega
    · rw [hop] at hw; cases hw
    · rw [hop] at hw; cases hw
  have hblk : s.blockBytes = s.accumulated := by
    have := block_location s
    simp_all
  have hsp : (s.stgChecksummed payload.length (s.params.maskedCrc s.blockBytes)).blockSpace = .acc := by
    simp [blockSpace, stgChecksummed, hop]
  have hb : (s.stgChecksummed payload.length (s.params.maskedCrc s.blockBytes)).blockTaken.busy = true :=
    (blockTaken_busy _).trans he.lease.run.busy
  have hh : (s.stgChecksummed payload.length (s.params.maskedCrc s.blockBytes)).blockTaken.hdrWritten = true :=
    (blockTaken_hdrWritten _).trans he.lease.hdr
  refine ⟨by simp [stgChecksummed], by simp [stgChecksummed], ⟨[(s.blockBytes, payload)], ?_, ?_, ?_⟩, ?_⟩
  · simpa using hchunk
  · rw [blockTaken_acc hsp, accumulatedBlocks_of_empty rfl, accumulatedBlocks, if_neg hacc, hblk]
    rfl
  · rw [undelivered_of_staged hh, undelivered_of_staged he.lease.hdr, blockTaken_staged, hstaged, blockTaken_sinkStream]
    simp [Params.wire, stgChecksummed]
  · intro hidle; rw [hb] at hidle; cases hidle

theorem afterDrain_of_flush (hop : s.cur.op = .flush) : s.afterDrain = s.complete := by
  simp [afterDrain, hop]

theorem drainStep_flushes (hop : s.cur.op = .flush) (he : s.DrainInv) (ht : drainStep s = .moved t) : s.Flushes t := by
  unfold drainStep at ht
  split at ht
  · rename_i h0
    cases ht
    rw [afterDrain_of_flush hop]
    exact he.lease.completes_flushes (he.flushed hop) h0
  · split at ht
    · cases ht; exact .of_eq rfl rfl rfl rfl he.lease.run.busy
    · cases ht

/-- What was staged is in the sink stream. -/
theorem sinkStep_flushes (hop : s.cur.op = .flush) (he : s.DrainInv) (ht : sinkStep s = .moved t)
    (hok : t.busy = true ∨ t.err = 0x00#8) : s.Flushes t := by
  have hr := he.lease.run
  unfold sinkStep at ht
  split at ht
  · cases ht
  · rename_i a rest _
    split at ht
    · rename_i bytes hm
      cases ht
      obtain ⟨rfl, -⟩ := memRead_ok hm
      cases a with
      | ok =>
        have hu : (s.sinkAccepted rest).Leased := ⟨hr.congr rfl rfl rfl rfl hr.consumedLe, he.lease.leased, he.lease.hdr⟩
        have hsu : s.Flushes (s.sinkAccepted rest) := by
          refine .of_eq rfl rfl rfl ?_ hr.busy
          rw [undelivered_of_staged hu.hdr, undelivered_of_staged he.lease.hdr]
          exact List.append_nil _
        have hdone := (sinkAnswered_ok s rest).trans (afterDrain_of_flush (s := s.sinkAccepted rest) hop)
        exact hdone ▸ hsu.trans (hu.completes_flushes (he.flushed hop) rfl)
      | err kept => exact absurd hok (raise_not_ok _ _)
    · cases ht

/-- A step of a FLUSH form, by phase; SEGMENT is none of its phases. -/
theorem tick_flushes (hs : s.Safe) (hop : s.cur.op = .flush) (ht : tick s = .moved t)
    (hok : t.busy = true ∨ t.err = 0x00#8) : s.Flushes t := by
  obtain ⟨⟨hbase, hp⟩, hframed⟩ := id hs
  rcases tick_moved_cases ht with ⟨hf, -, ht⟩ | ⟨hf, hq, ht⟩ | ⟨hf, -, -⟩ | ⟨hf, -, ht⟩ | ⟨hf, -, ht⟩ | ⟨cl, hf, hq, ht⟩ |
    ⟨hf, -, ht⟩ | ⟨hf, -, ht⟩ <;> simp only [hf] at hp
  · exact ensureStep_flushes hbase hp ht
  · rcases hp.asks with hn | ⟨-, ha⟩
    · rw [hq] at hn; cases hn
    · exact poolStep_flushes hbase hp ha ht hok
  · have hw := hp.writes
    rw [hop] at hw; cases hw
  · cases ht; exact .of_eq rfl rfl rfl rfl hp.lease.run.busy
  · rw [compressorStep, hs.1.block_eq hf] at ht
    split at ht
    · exact compressAnswered_flushes hbase hp ht hok
    · cases ht
  · rw [checksumStep, hs.1.block_eq hf] at ht
    split at ht
    · cases hc : s.packChecksum cl (s.params.maskedCrc s.blockBytes) with
      | error f => simp [hc, Progress.of] at ht
      | ok u =>
        simp only [hc, Progress.of, Progress.moved.injEq] at ht
        subst ht
        exact packChecksum_flushes hop hp hframed hq hc
    · cases ht
  · exact drainStep_flushes hop hp ht
  · exact sinkStep_flushes hop hp ht hok

theorem reaches_flushes (hs : s.Safe) (hb : s.busy = true) (hop : s.cur.op = .flush) (h : ReflTransGen Moves s t)
    (hok : t.busy = true ∨ t.err = 0x00#8) : s.Flushes t := by
  induction h with
  | refl => exact .of_eq rfl rfl rfl rfl hb
  | tail hr hm ih =>
    have hsu := ih (.inl hm.1)
    exact hsu.trans (tick_flushes (reaches_keeps_safe hs hr) (by rw [hsu.cur]; exact hop) hm.2 hok)

/-- What a FLUSH form that has ended with OK leaves (41_flush.md R147). -/
theorem State.Flushes.barrier (h : s.Flushes t) (ht : t.Safe) (hidle : t.busy = false) :
    (t.Ended ∧ t.accLen = 0 ∧ t.stageLen = 0 ∧ t.hdrWritten = true ∧ t.alloc = true ∧ t.disposed = false ∧
      t.poisoned = false) ∧
    ∃ cs, (∀ c ∈ cs, s.params.IsChunk c) ∧ cs.map Prod.fst = s.accumulatedBlocks ∧
      t.sinkStream = s.sinkStream ++ s.undelivered ++ s.params.wire cs := by
  obtain ⟨hacc, hst, hh, ha, hd, hp⟩ := h.ended hidle
  obtain ⟨cs, hcs, hblocks, hstream⟩ := h.stream
  refine ⟨⟨ht.1.ended hidle, hacc, hst, hh, ha, hd, hp⟩, cs, hcs, ?_, ?_⟩
  · simpa [accumulatedBlocks_of_empty hacc] using hblocks
  · simpa [undelivered_of_staged hh, staged, hst] using hstream

end

/-! ### The start of the form -/

/-- A WRITE or FLUSH form that is busy or has ended with OK has started: the acceptance errors and the cancellation have other
codes. -/
theorem starts_of_form_ok {i : Instr} {s t : State} (hop : i.op ≠ .dispose) (h : exec i s = .next t)
    (hok : t.busy = true ∨ t.err = 0x00#8) : s.Starts i ∧ ReflTransGen Moves (s.started i) t := by
  obtain ⟨-, -, hx⟩ := exec_cases h
  cases hx with
  | rejected _ e _ => exact absurd hok (raise_not_ok _ _)
  | cancelled _ _ _ _ _ => exact absurd hok (raise_not_ok _ _)
  | starts hstarts hr => exact ⟨hstarts, reaches_of_resume hr⟩
  | disposes hd _ => exact absurd hd hop
  | disposedAlready hd _ => exact absurd hd hop

/-- What stands before the chunks of a form that starts is the preamble where it is due (42_chunk_emit.md R169). -/
theorem started_undelivered {i : Instr} {s : State} (hs : s.Safe) (h : s.Starts i) :
    (s.started i).undelivered = s.duePreamble := by
  show s.undelivered = s.duePreamble
  have hstart := started_safe_of_starts h hs
  cases hh : s.hdrWritten with
  | true =>
    have ha : s.alloc = true := by
      by_contra ha
      have := hs.1.1.unleased (Bool.eq_false_iff.2 ha) h.live
      rw [hh] at this; cases this
    have hq : (s.started i).pending = .none := (hs.1.ended h.idle).2.2
    obtain ⟨hens, -⟩ := ensure_done hstart rfl hq ha hh
    rw [undelivered_of_staged hh]
    exact hens.staged
  | false =>
    obtain ⟨-, -, hsink⟩ := hs.1.1.unstaged hh
    rw [undelivered_of_unstaged hh, duePreamble, if_pos hsink]

/-- Settles O46: the step that starts the form runs from `started`, a later one from the state behind the world's move; both by
what the sequencer keeps. -/
theorem flushIsABarrier : Obligations.FlushIsABarrier := by
  unfold Obligations.FlushIsABarrier
  constructor
  · intro i s t hop hs hb h
    have hform : i.op ≠ .dispose := by rw [hop]; decide
    have hkeeps : t.busy = true ∨ t.err = 0x00#8 →
        (s.started i).Flushes t ∧ t.Safe ∧ (s.started i).undelivered = s.duePreamble := fun hok => by
      obtain ⟨hstarts, hr⟩ := starts_of_form_ok hform h hok
      have hstart := started_safe_of_starts hstarts hs
      exact ⟨reaches_flushes hstart rfl hop hr hok, reaches_keeps_safe hstart hr, started_undelivered hs hstarts⟩
    constructor
    · intro hidle herr
      obtain ⟨hfl, ht, hdue⟩ := hkeeps (.inr herr)
      obtain ⟨⟨hended, hacc, hst, hh, ha, hd, hp⟩, hstream⟩ := hfl.barrier ht hidle
      rw [hdue] at hstream
      exact ⟨hended, hacc, hst, hh, ha, hd, hp, hstream⟩
    · intro hbusy
      obtain ⟨hfl, -, hdue⟩ := hkeeps (.inl hbusy)
      have hstream := hfl.stream
      rw [hdue] at hstream
      exact hstream
  · intro s t hs hb hop h hok
    obtain ⟨u, hw, hr⟩ := step_busy_reaches hb h
    have hu := hw.keeps_safe hs
    have hfl := reaches_flushes hu (hw.busy.trans hb) (by rw [hw.cur]; exact hop) hr hok
    have hblocks : u.accumulatedBlocks = s.accumulatedBlocks := by
      simp only [accumulatedBlocks, accumulated, hw.accLen, hw.acc]
    have hund : u.undelivered = s.undelivered := by
      simp only [undelivered, staged, hw.hdrWritten, hw.stg, hw.stageLen, hw.params]
    have hstream := hfl.stream
    rw [hblocks, hund, hw.params, hw.sinkStream] at hstream
    exact ⟨fun hidle => (hfl.barrier (reaches_keeps_safe hu hr) hidle).1, hstream⟩

end Sys2Proof.Machine
end

section
/-! PROOFS. The command word and the host's lines (30_encoding.md R80 to R92): the legal words, what an illegal one does, and
that the CSR operations of a line run its command. -/

namespace Sys2Proof

/-! ### Legal and illegal words -/

/-- The illegal words by the fields of 30_encoding.md R80: reserved bits set, a reserved OPC, DISPOSE with ASYNC set (R87). -/
def IllegalWord (w : Word) : Prop :=
  w.extractLsb' 6 26 ≠ 0#26 ∨ w.extractLsb' 0 4 = 0x0#4 ∨ 0x4#4 ≤ w.extractLsb' 0 4 ∨
    (w.extractLsb' 0 4 = 0x3#4 ∧ w.getLsbD 4 = true)

/-- No command's word is illegal. -/
theorem not_illegalWord_encode (i : Instr) : ¬ IllegalWord (encode i) := by
  unfold IllegalWord
  cases i <;> rename_i snk <;> cases snk <;> decide

/-- The decoder rejects every illegal word (30_encoding.md R86, R87). -/
theorem decode_illegalWord {w : Word} (h : IllegalWord w) : ∃ r, decode w = .error r := by
  cases hd : decode w with
  | error r => exact ⟨r, rfl⟩
  | ok i =>
    rw [← encode_of_decode hd] at h
    exact absurd h (not_illegalWord_encode i)

theorem tableWord_toNat (w : Word) : tableWord 32 w.toNat = w := by
  rw [tableWord, Nat.mod_eq_of_lt w.isLt, BitVec.ofNat_toNat, BitVec.setWidth_eq]

/-- The words of R90 are those of the commands. -/
theorem encode_mem_legalWords (i : Instr) :
    encode i ∈ [0x21#32, 0x31#32, 0x22#32, 0x32#32, 0x03#32, 0x23#32, 0x01#32, 0x11#32, 0x02#32, 0x12#32] := by
  cases i <;> rename_i snk <;> cases snk <;> decide

/-- Settles O1: the decoder is the encoder's inverse, on the word and on its four bytes (O2). -/
theorem decodeOfEncode : Obligations.DecodeOfEncode := by
  unfold Obligations.DecodeOfEncode
  intro i _
  have hbytes := (bytesDecodeToExactlyTheirCommand (leBytes 4 (encode i).toNat) [] i).2 (List.append_nil _).symm
  exact ⟨decode_encode i, by rw [decodeTableWord, tableWord_toNat, hbytes]⟩

namespace Machine

open State

/-! ### What an illegal word does -/

theorem step_cmdWrite_illegal {s : State} {w : Word} {rest : List Input} (hw : s.params.wf = true)
    (hin : s.inputs = .csrWrite (s.params.csrBase + Csr.offset .cmd) 4 w :: rest) (h : IllegalWord w) :
    step s = illegalCommand w { s with inputs := rest } := by
  obtain ⟨r, hd⟩ := decode_illegalWord h
  rw [step, nextMove_csrWrite hw hin, csrWrite, csrAt_inputs, csrAt_offset]
  simp only [hd]

theorem illegalCommand_idle {s : State} (w : Word) (hw : s.params.wf = true) (hb : s.busy = false) :
    illegalCommand w s = .next (s.illegallyCommanded w) := by
  rw [illegalCommand, refusal_eq_none.2 ⟨hw, hb⟩]
  rfl

/-- Between commands an illegal word touches `err`, `consumed`, `chunks` and the history only (60_exceptions.md R211). -/
theorem illegallyCommanded_of_ended {s : State} (w : Word) (h : s.Ended) :
    s.illegallyCommanded w = { s with
      err := 0x01#8
      consumed := 0#32
      chunks := 0#32
      history := s.history ++ [.accept w s.srcLen, .done 0x01#8] } := by
  obtain ⟨hbusy, hfsm, hpending⟩ := h
  simp [illegallyCommanded, close, setError, opened, log, ErrorKind.code, ErrorKind.poisons, hbusy, hfsm, hpending]

/-- Settles O4: the decoder rejects the word, and the machine is idle. -/
theorem illegalWordEndsWithoutEffect : Obligations.IllegalWordEndsWithoutEffect := by
  unfold Obligations.IllegalWordEndsWithoutEffect
  intro s w rest hw hended hin hillegal
  rw [step_cmdWrite_illegal hw hin hillegal, illegalCommand_idle (s := { s with inputs := rest }) w hw hended.1,
    illegallyCommanded_of_ended (s := { s with inputs := rest }) w hended]

/-! ### The SNK bit of DISPOSE -/

theorem exec_dispose (snk : Bool) {s : State} (hw : s.params.wf = true) (hb : s.busy = false) :
    exec (.dispose snk) s =
      .next (if s.disposed then (s.accepted (.dispose snk)).complete
        else (s.accepted (.dispose snk)).disposeInstance.complete) := by
  show execDispose snk s = _
  rw [execDispose, refusal_eq_none.2 ⟨hw, hb⟩]
  cases s.disposed <;> rfl

/-- The release effect as one update (43_lifecycle.md R194, R199). -/
theorem disposeInstance_eq (s : State) : s.disposeInstance = { s with
    alloc := false
    disposed := true
    accLen := 0
    stageLen := 0
    acc := if s.alloc then .fresh s.draws else s.acc
    stg := if s.alloc then .fresh s.draws else s.stg
    draws := if s.alloc then s.draws + 1 else s.draws
    history := s.history ++ .compressorTeardown :: if s.alloc then [.poolRelease] else [] } := by
  cases ha : s.alloc <;> simp [disposeInstance, returnBuffers, log, ha]

/-- Without a release effect the two words leave the same but for SNK and history (43_lifecycle.md R195). -/
theorem accepted_dispose_complete_snk (s : State) :
    (s.accepted (.dispose true)).complete =
      { (s.accepted (.dispose false)).complete with
        cur := { (s.accepted (.dispose false)).complete.cur with snk := true }
        history := (s.accepted (.dispose true)).complete.history } := rfl

/-- So they do with it (43_lifecycle.md R194): nothing that DISPOSE releases depends on SNK. -/
theorem accepted_disposeInstance_complete_snk (s : State) :
    (s.accepted (.dispose true)).disposeInstance.complete =
      { (s.accepted (.dispose false)).disposeInstance.complete with
        cur := { (s.accepted (.dispose false)).disposeInstance.complete.cur with snk := true }
        history := (s.accepted (.dispose true)).disposeInstance.complete.history } := by
  rw [disposeInstance_eq, disposeInstance_eq]
  rfl

/-- The events of a DISPOSE behind its `Accept` (43_lifecycle.md R194, R195). -/
def State.disposeEvents (s : State) : List Event :=
  if s.disposed then [.done 0x00#8]
  else .compressorTeardown :: (if s.alloc then [.poolRelease] else []) ++ [.done 0x00#8]

theorem exec_dispose_history {snk : Bool} {s t : State} (h : exec (.dispose snk) s = .next t) :
    t.history = s.history ++ .accept (encode (.dispose snk)) s.srcLen :: s.disposeEvents := by
  obtain ⟨hw, hb, -⟩ := exec_cases h
  rw [exec_dispose snk hw hb] at h
  cases h
  cases hd : s.disposed with
  | true => simp [disposeEvents, hd, accepted]
  | false => cases ha : s.alloc <;> simp [disposeEvents, hd, ha, disposeInstance_history, accepted]

/-- DISPOSE with SNK set (0x23) is DISPOSE (0x03) but for the latched bit and the word in `Accept`. -/
theorem exec_dispose_snk {s t : State} (h : exec (.dispose true) s = .next t) :
    ∃ u, exec (.dispose false) s = .next u ∧ t = { u with cur := { u.cur with snk := true }, history := t.history } := by
  obtain ⟨hw, hb, -⟩ := exec_cases h
  refine ⟨_, exec_dispose false hw hb, ?_⟩
  rw [exec_dispose true hw hb] at h
  cases h
  cases s.disposed with
  | true => exact accepted_dispose_complete_snk s
  | false => exact accepted_disposeInstance_complete_snk s

/-- Settles O3: the words are those of `encode`, and no other word is decoded. -/
theorem legalEncodings : Obligations.LegalEncodings := by
  unfold Obligations.LegalEncodings
  refine ⟨decode_encode (.write true), decode_encode (.writeA true), decode_encode (.flush true), decode_encode (.flushA true),
    decode_encode (.dispose false), decode_encode (.dispose true), decode_encode (.write false), decode_encode (.writeA false),
    decode_encode (.flush false), decode_encode (.flushA false), ?_, ?_⟩
  · intro w i hd
    rw [← encode_of_decode hd]
    exact encode_mem_legalWords i
  · intro s t h
    obtain ⟨u, hu, htu⟩ := exec_dispose_snk h
    exact ⟨u, s.disposeEvents, hu, exec_dispose_history h, exec_dispose_history hu, htu⟩

/-! ### The lines of a host program -/

/-- The command of a WRITE line. -/
theorem commandWord_write (async snk : Bool) :
    commandWord 0x1#4 async snk = encode (if async then .writeA snk else .write snk) := by
  cases async <;> rfl

/-- The command of a FLUSH line. -/
theorem commandWord_flush (async snk : Bool) :
    commandWord 0x2#4 async snk = encode (if async then .flushA snk else .flush snk) := by
  cases async <;> rfl

section
variable {s : State} (hw : s.params.wf = true)
include hw

theorem step_encodeWrite {i : Instr} {rest : List Input}
    (hin : s.inputs = .csrWrite (s.params.csrAddress .cmd) 4 (encode i) :: rest) :
    step s = exec i { s with inputs := rest } :=
  step_cmdWrite hw hin (decode_encode i)

theorem step_lend_idle {data : List Byte} {rest : List Input} (hb : s.busy = false) (hin : s.inputs = .lend data :: rest) :
    step s = .next { s with inputs := rest, src := (Buffer.fresh s.draws).write 0 data, draws := s.draws + 1 } := by
  rw [step, nextMove_lend hw hin]
  simp [lendSrc, hb]

theorem step_srcLenWrite_idle {v : Word} {rest : List Input} (hb : s.busy = false)
    (hin : s.inputs = .csrWrite (s.params.csrAddress .srcLen) 4 v :: rest) :
    step s = .next { s with inputs := rest, srcLen := v } := by
  rw [step_srcLenWrite hw hin, srcLenWrite, if_neg (by simp [hb])]

/-- Two steps lend the input and write its length (30_encoding.md R92). -/
theorem steps_lend {data : List Byte} {rest : List Input} (hb : s.busy = false)
    (hin : s.inputs = .lend data :: .csrWrite (s.params.csrAddress .srcLen) 4 (BitVec.ofNat 32 data.length) :: rest) :
    thenDo (step s) step = .next { s.lends data with inputs := rest } := by
  rw [step_lend_idle hw hb hin, thenDo]
  exact step_srcLenWrite_idle (by exact hw) (by exact hb) rfl

end

theorem thenDo_assoc (o : Host.Outcome State Fault Refusal) (j k : State → Host.Outcome State Fault Refusal) :
    thenDo o (fun s => thenDo (j s) k) = thenDo (thenDo o j) k := by
  cases o <;> rfl

/-- Settles O18: the operands are lent, and the line's word is the encoding of its command. -/
theorem hostLinesRunTheirCommand : Obligations.HostLinesRunTheirCommand := by
  unfold Obligations.HostLinesRunTheirCommand
  intro s polls rest hw hb
  refine ⟨fun async nosink data _ hin => ?_, fun async nosink hin => ?_, fun hin => step_encodeWrite (i := .dispose false) hw hin⟩
  · simp only [Params.expand, commandWord_write, List.cons_append, List.nil_append] at hin
    rw [thenDo_assoc, steps_lend hw hb hin, thenDo]
    exact step_encodeWrite (by exact hw) rfl
  · simp only [Params.expand, commandWord_flush, List.cons_append, List.nil_append] at hin
    exact step_encodeWrite hw hin

end Machine

end Sys2Proof
end

section
/-! PROOFS. The operands of a running command cannot change (30_encoding.md R85, 70_reset_and_hazards.md R256). -/

namespace Sys2Proof.Machine

open State Relation

/-! ### What a step of the sequencer holds -/

/-- From `s` to `t` the sequencer has held the operands of the command in progress: what it has latched stays, and SRC while it
runs (30_encoding.md R85, 70_reset_and_hazards.md R256). -/
structure State.HoldsOperands (s t : State) : Prop where
  cur : t.cur = s.cur
  srcLen : t.srcLen = s.srcLen
  busy : t.busy = true → s.busy = true
  src : t.busy = true → t.src = s.src

namespace State.HoldsOperands

theorem refl (s : State) : s.HoldsOperands s := ⟨rfl, rfl, id, fun _ => rfl⟩

theorem trans {s t u : State} (h : s.HoldsOperands t) (k : t.HoldsOperands u) : s.HoldsOperands u where
  cur := k.cur.trans h.cur
  srcLen := k.srcLen.trans h.srcLen
  busy hu := h.busy (k.busy hu)
  src hu := (k.src hu).trans (h.src (k.busy hu))

theorem log (e : Event) (s : State) : s.HoldsOperands (s.log e) := { refl s with }

theorem request (p : Pending) (e : Event) (s : State) : s.HoldsOperands (s.request p e) := { refl s with }

/-- The loan of SRC ends only with the command. -/
theorem raise (e : ErrorKind) (s : State) : s.HoldsOperands (s.raise e) := by
  constructor <;> simp

theorem complete (s : State) : s.HoldsOperands s.complete := by
  constructor <;> simp

theorem afterDrain (s : State) : s.HoldsOperands s.afterDrain := by
  unfold State.afterDrain
  split
  · split
    · unfold checkpoint
      split
      · exact (log _ s).trans (raise _ _)
      · exact { refl s with }
    · exact { refl s with }
  · exact complete s
  · exact complete s

theorem sinkAnswered (bytes : List Byte) (a : SinkAnswer) (s : State) : s.HoldsOperands (s.sinkAnswered bytes a) := by
  cases a with
  | ok =>
    have hd : s.HoldsOperands ((s.answered (.sinkAnswer true)).delivered bytes) := { refl s with }
    exact hd.trans (afterDrain _)
  | err kept =>
    have hk : s.HoldsOperands ((s.answered (.sinkAnswer false)).keptByFailingSink bytes kept) := { refl s with }
    exact hk.trans (raise _ _)

theorem blockTaken (s : State) : s.HoldsOperands s.blockTaken := by
  unfold State.blockTaken
  split <;> exact { refl s with }

end State.HoldsOperands

theorem Progress.of_eq_moved {x : Except Fault State} {t : State} : Progress.of x = .moved t ↔ x = .ok t := by
  cases x <;> simp [Progress.of]

section
variable {s t : State}

theorem ensureStep_holdsOperands (h : ensureStep s = .moved t) : s.HoldsOperands t := by
  unfold ensureStep at h
  split at h
  · split at h
    · cases h; exact { HoldsOperands.refl s with }
    · obtain ⟨rfl, -⟩ := stagePreamble_ok (Progress.of_eq_moved.1 h)
      exact { HoldsOperands.refl s with }
  · cases h; exact .request _ _ s

theorem poolStep_holdsOperands (h : poolStep s = .moved t) : s.HoldsOperands t := by
  unfold poolStep at h
  split at h
  · cases h
  · cases h; exact { HoldsOperands.refl s with }
  · rename_i rest _
    cases h
    have ha : s.HoldsOperands (State.answered (.poolAnswer .refused) { s with poolAnswers := rest }) :=
      { HoldsOperands.refl s with }
    exact ha.trans (.raise _ _)

theorem segmentStep_holdsOperands (h : segmentStep s = .moved t) : s.HoldsOperands t := by
  unfold segmentStep at h
  split at h
  · split at h
    · cases h; exact { HoldsOperands.refl s with }
    · obtain rfl := copyToAcc_ok (Progress.of_eq_moved.1 h)
      exact { HoldsOperands.refl s with }
  · cases h; exact .complete s

theorem compressAnswered_holdsOperands {blk : List Byte} (h : compressAnswered blk s = .moved t) : s.HoldsOperands t := by
  have hscribble : ∀ e, s.HoldsOperands ((s.answered e).stgScribble (s.stageLen + 8)) := fun _ =>
    { HoldsOperands.refl s with }
  unfold compressAnswered at h
  split at h
  · cases h; exact (hscribble _).trans (.raise _ _)
  · split at h
    · cases h; exact (hscribble _).trans (.raise _ _)
    · obtain rfl := packPayload_ok (Progress.of_eq_moved.1 h)
      exact { HoldsOperands.refl s with }

theorem compressorStep_holdsOperands (h : compressorStep s = .moved t) : s.HoldsOperands t := by
  unfold compressorStep at h
  split at h
  · split at h
    · exact compressAnswered_holdsOperands h
    · cases h
  · cases h

theorem checksumStep_holdsOperands {cl : Nat} (h : checksumStep cl s = .moved t) : s.HoldsOperands t := by
  unfold checksumStep at h
  split at h
  · split at h
    · rename_i blk _
      obtain rfl := packChecksum_ok (Progress.of_eq_moved.1 h)
      have hc : s.HoldsOperands (s.stgChecksummed cl (s.params.maskedCrc blk)) := { HoldsOperands.refl s with }
      exact hc.trans (.blockTaken _)
    · cases h
  · cases h

theorem drainStep_holdsOperands (h : drainStep s = .moved t) : s.HoldsOperands t := by
  unfold drainStep at h
  split at h
  · cases h; exact .afterDrain s
  · split at h
    · cases h; exact .request _ _ s
    · cases h

theorem sinkStep_holdsOperands (h : sinkStep s = .moved t) : s.HoldsOperands t := by
  unfold sinkStep at h
  split at h
  · cases h
  · rename_i a rest _
    split at h
    · cases h
      have hr : s.HoldsOperands { s with sinkAnswers := rest } := { HoldsOperands.refl s with }
      exact hr.trans (.sinkAnswered _ _ _)
    · cases h

/-- Every step of the sequencer holds the operands, by phase and request. -/
theorem tick_holdsOperands (h : tick s = .moved t) : s.HoldsOperands t := by
  rcases tick_moved_cases h with ⟨-, -, h⟩ | ⟨-, -, h⟩ | ⟨-, -, h⟩ | ⟨-, -, h⟩ | ⟨-, -, h⟩ | ⟨cl, -, -, h⟩ | ⟨-, -, h⟩ | ⟨-, -, h⟩
  · exact ensureStep_holdsOperands h
  · exact poolStep_holdsOperands h
  · exact segmentStep_holdsOperands h
  · cases h; exact .request _ _ s
  · exact compressorStep_holdsOperands h
  · exact checksumStep_holdsOperands h
  · exact drainStep_holdsOperands h
  · exact sinkStep_holdsOperands h

theorem reaches_holdsOperands (h : ReflTransGen Moves s t) : s.HoldsOperands t := by
  induction h with
  | refl => exact .refl s
  | tail _ hm ih => exact ih.trans (tick_holdsOperands hm.2)

/-! ### Moves of the world outside -/

/-- A WRITE form that is still busy has SRC as it was, whatever move of the world outside comes before. -/
theorem State.WorldMoves.src_of_write {s u : State} (h : s.WorldMoves u) (hb : s.busy = true) (hop : s.cur.op = .write) :
    u.src = s.src := by
  rcases h.src with hsrc | hidle | hne
  · exact hsrc
  · rw [hb] at hidle; cases hidle
  · exact absurd hop hne

theorem step_lend_duringWrite {data : List Byte} {rest : List Input} (hw : s.params.wf = true) (hb : s.busy = true)
    (hop : s.cur.op = .write) (hin : s.inputs = .lend data :: rest) : step s = .refused .srcWhileBusy := by
  rw [step, nextMove_lend hw hin, lendSrc, if_pos ⟨hb, hop⟩]

end

/-- Settles O17: a step of a busy machine is a move of the world outside, then steps of the sequencer, and each holds the
operands. -/
theorem operandsStableWhileBusy : Obligations.OperandsStableWhileBusy := by
  unfold Obligations.OperandsStableWhileBusy
  intro s hw hb
  refine ⟨fun t h => ?_, fun data rest hop hin => step_lend_duringWrite hw hb hop hin⟩
  obtain ⟨u, hmove, hr⟩ := step_busy_reaches hb h
  have hheld := reaches_holdsOperands hr
  exact ⟨hheld.cur.trans hmove.cur, hheld.srcLen.trans (hmove.srcLen hb),
    fun hop hbusy => (hheld.src hbusy).trans (hmove.src_of_write hb hop)⟩

end Sys2Proof.Machine
end

section
/-! PROOFS. Cancellation of the suspendable forms (40_write.md R111, 42_chunk_emit.md R176, 60_exceptions.md R214, R221). -/

namespace Sys2Proof.Machine

open State

/-! ### Check point 0 -/

/-- A suspendable form that has passed its acceptance checks is cancelled in the step of its `CMD` write. -/
theorem exec_cancelled {i : Instr} {s : State} (ha : i.async = true) (hsnk : i.snk = true) (hw : s.params.wf = true)
    (hb : s.busy = false) (hd : s.disposed = false) (hp : s.poisoned = false) (hc : s.cancelReq = true) :
    exec i s = .next (((s.accepted i).log (.cancelSampled true)).raise .cancelled) := by
  have hop : i.op ≠ .dispose := by
    cases i with
    | dispose snk => cases ha
    | _ => nofun
  have hgo : acceptChecks i s = .goesOn (s.accepted i) := by simp [acceptChecks_eq hw hb, hd, hp, hsnk]
  rw [exec_eq_of_goesOn hop hgo, if_pos ha, launchSuspendable, if_pos (by exact hc), accepted_cancelReq, hc]

/-- Settles O22: the form samples the signal and raises E_CANCELLED, which writes `err` and the history and no more. -/
theorem checkPointZeroCancels : Obligations.CheckPointZeroCancels := by
  unfold Obligations.CheckPointZeroCancels
  intro i s ha hsnk hw hb hd hp hc
  refine ⟨_, exec_cancelled ha hsnk hw hb hd hp hc, ⟨by simp, by simp, by simp⟩, by simp [ErrorKind.code], by simp, by simp,
    ?_, ?_, by simp [ErrorKind.code]⟩
  · constructor <;> simp [ErrorKind.poisons]
  · constructor <;> simp

/-! ### Chunk boundaries -/

/-- The sink's Ok reaches the command: the step takes an input and runs the sequencer, without pause or by one step as its pace
is, from a state that finds the answer. -/
theorem step_sinkOk {s : State} (hw : s.params.wf = true)
    (h : (s.eager = true ∧ s.sinkAnswers = [] ∧ ∃ rest, s.inputs = .sink .ok :: rest) ∨
      (s.eager = false ∧ (∃ rest, s.sinkAnswers = .ok :: rest) ∧ (s.inputs = [] ∨ ∃ rest, s.inputs = .tick :: rest))) :
    ∃ ins rest, step s = if s.eager then resume { s with inputs := ins, sinkAnswers := .ok :: rest }
      else run 1 { s with inputs := ins, sinkAnswers := .ok :: rest } := by
  rcases h with ⟨he, hnone, ins, hin⟩ | ⟨he, ⟨rest, hsome⟩, hin | ⟨ins, hin⟩⟩
  · exact ⟨ins, [], by simp [step, nextMove_sink hw hin, he, hnone]⟩
  · have hsame : ({ s with inputs := [], sinkAnswers := .ok :: rest } : State) = s := by rw [← hin, ← hsome]
    exact ⟨[], rest, by rw [hsame]; simp [step, nextMove_nil hw hin, he, oneTick]⟩
  · exact ⟨ins, rest, by simp [step, nextMove_tick hw hin, he, oneTick, ← hsome]⟩

/-- A chunk boundary with input remaining: the signal cancels a WRITE.A (42_chunk_emit.md R176). -/
theorem afterDrain_cancelled {s : State} (hop : s.cur.op = .write) (ha : s.cur.async = true) (hc : s.cancelReq = true)
    (hlt : s.consumed.toNat < s.cur.len.toNat) :
    s.afterDrain = (s.log (.cancelSampled true)).raise .cancelled := by
  simp [afterDrain, hop, ha, hlt, checkpoint, hc]

/-- Behind its last chunk a WRITE form samples nothing (60_exceptions.md R214). -/
theorem afterDrain_consumed {s : State} (hop : s.cur.op = .write) (hall : s.consumed = s.cur.len) :
    s.afterDrain = { s with fsm := .segment } := by
  simp [afterDrain, hop, hall]

/-- SEGMENT with the input consumed completes (40_write.md R110). -/
theorem tick_segment_completes {s : State} (hf : s.fsm = .segment) (hq : s.pending = .none) (hall : s.consumed = s.cur.len) :
    tick s = .moved s.complete := by
  rw [tick_segment hf hq, segmentStep, if_neg (by simp [hall])]

/-- A step of the sequencer that ends the command is the whole of a run, at either pace. -/
theorem run_ends_of_tick {s v : State} (h : s.Inv) (hb : s.busy = true) (ht : tick s = .moved v) (hv : v.busy = false) :
    (if s.eager then resume s else run 1 s) = .next v := by
  split
  · rename_i he
    exact resume_eq_of_settles h he ⟨.single ⟨hb, ht⟩, not_moves_of_idle hv⟩
  · rw [run_moved hb ht, run_idle _ hv]

/-- Settles O23: the sink's Ok leads to the check point where input remains, which cancels, and else to SEGMENT, which
completes. -/
theorem chunkBoundaryCancels : Obligations.ChunkBoundaryCancels := by
  unfold Obligations.ChunkBoundaryCancels
  intro s hs hf hq hop ha hc hgo
  obtain ⟨ins, rest, hstep⟩ := step_sinkOk hs.1.1.paramsWf hgo
  obtain ⟨u, hu⟩ : ∃ u : State, u = { s with inputs := ins, sinkAnswers := .ok :: rest } := ⟨_, rfl⟩
  have hus : u.Safe := by
    rw [hu]
    exact safe_world hs rfl rfl rfl rfl rfl rfl rfl rfl rfl rfl rfl rfl rfl rfl hs.1.1.srcWf rfl rfl (.inl rfl)
  have hlease := (hs.1.drain hf).lease
  have hub : u.busy = true := by rw [hu]; exact hlease.run.busy
  have htick : tick u = .moved (u.sinkAccepted rest).afterDrain := by
    rw [tick_sinkAnswered hus.1 (by rw [hu]; exact hq) (by rw [hu]), sinkAnswered_ok]
  have hue : u.eager = s.eager := by rw [hu]
  rw [← hu, ← hue] at hstep
  constructor
  · intro hlt
    have hafter : (u.sinkAccepted rest).afterDrain = ((u.sinkAccepted rest).log (.cancelSampled true)).raise .cancelled := by
      subst hu; exact afterDrain_cancelled hop ha hc hlt
    rw [hafter] at htick
    refine ⟨_, hstep.trans (run_ends_of_tick hus.1 hub htick (by simp)), ?_⟩
    subst hu
    simp [Ended, ErrorKind.code, ErrorKind.poisons, sinkAccepted, accumulated, staged, hlease.run.sound, hlease.leased,
      hlease.hdr]
  · intro hall
    obtain ⟨v, hv⟩ : ∃ v : State, v = { u.sinkAccepted rest with fsm := .segment } := ⟨_, rfl⟩
    have hvb : v.busy = true := by rw [hv]; exact hub
    have hafter : (u.sinkAccepted rest).afterDrain = v := by
      subst hv hu; exact afterDrain_consumed hop hall
    rw [hafter] at htick
    have hlast : tick v = .moved v.complete := by
      subst hv hu; exact tick_segment_completes rfl rfl hall
    cases he : s.eager with
    | true =>
      have hset : Settles u v.complete :=
        ⟨.head ⟨hub, htick⟩ (.single ⟨hvb, hlast⟩), not_moves_of_idle (complete_busy v)⟩
      rw [hue, he] at hstep
      refine ⟨_, hstep.trans (resume_eq_of_settles hus.1 (hue.trans he) hset), ?_⟩
      subst hv hu
      simp [Ended, sinkAccepted, staged]
    | false =>
      rw [hue, he] at hstep
      refine ⟨v, hstep.trans (run_moved hub htick), ?_⟩
      have hend : run 1 v = .next v.complete := (run_moved hvb hlast).trans rfl
      subst hv hu
      refine ⟨rfl, rfl, rfl, nofun, fun _ => ⟨hub, rfl, rfl, _, hend, ?_⟩⟩
      simp [Ended, sinkAccepted]

end Sys2Proof.Machine
end

section
/-! PROOFS. The two paths of SEGMENT (40_write.md R113, R114). -/

namespace Sys2Proof.Machine

open State

theorem State.Inv.segment {s : State} (h : s.Inv) (hf : s.fsm = .segment) : s.SegmentInv := by
  obtain ⟨-, hp⟩ := h
  simpa only [hf] using hp

/-! ### The copy path -/

/-- What a turn of the copy path leaves (40_write.md R114, R115). -/
def State.copied (s : State) : State :=
  { s with
    acc := s.acc.write s.accLen (s.src.bytes s.consumed.toNat s.copyLen)
    accLen := s.accLen + s.copyLen
    consumed := s.consumed + BitVec.ofNat 32 s.copyLen
    fsm := if s.accLen + s.copyLen = s.params.block then .emit else .segment }

theorem tick_copies {s : State} (h : s.Inv) (hf : s.fsm = .segment) (hlt : s.consumed.toNat < s.cur.len.toNat)
    (hslow : ¬ (s.accLen = 0 ∧ s.params.block ≤ s.remaining)) : tick s = .moved s.copied := by
  have he := h.segment hf
  rw [tick_segment hf he.quiet, segmentStep, if_pos hlt, if_neg hslow, copyToAcc_eq he]
  rfl

/-- The copied bytes stand at `acc_len`. -/
theorem copied_bytes (s : State) : s.copied.acc.bytes s.accLen s.copyLen = s.src.bytes s.consumed.toNat s.copyLen := by
  have h := Buffer.bytes_write_same s.acc s.accLen (s.src.bytes s.consumed.toNat s.copyLen)
  rwa [Buffer.length_bytes] at h

/-- Every other byte of ACC stays. -/
theorem copied_outside {s : State} {x : Nat} (hx : x < s.accLen ∨ s.accLen + s.copyLen ≤ x) :
    s.copied.acc.byte x = s.acc.byte x :=
  Buffer.byte_write_outside (by rwa [Buffer.length_bytes])

/-- A turn of the copy path takes at least one byte. -/
theorem copyLen_pos {s : State} (he : s.SegmentInv) (hlt : s.consumed.toNat < s.cur.len.toNat) : 1 ≤ s.copyLen := by
  have hacc := he.accPart
  simp only [copyLen, remaining]
  omega

theorem copied_consumed (s : State) : s.copied.consumed.toNat = s.consumed.toNat + s.copyLen := by
  have hle := (copyLen_le s).1
  have hrem : s.remaining = s.cur.len.toNat - s.consumed.toNat := rfl
  by_cases h0 : s.copyLen = 0
  · simp [copied, h0]
  · exact consumed_add (by omega)

/-- Settles O30: the step is one turn of the copy path. -/
theorem copyPath : Obligations.CopyPath := by
  unfold Obligations.CopyPath
  intro s hs hf hlt hslow
  exact ⟨s.copied, s.copyLen, tick_copies hs.1 hf hlt hslow, rfl, copyLen_pos (hs.1.segment hf) hlt, rfl,
    copied_consumed s, copied_bytes s, fun x => copied_outside, rfl, rfl, rfl, rfl, rfl, rfl, rfl⟩

/-! ### The fast path -/

/-- The fast path goes to EMIT, where the block lies in SRC (40_write.md R113, 42_chunk_emit.md R177). -/
theorem tick_fast {s : State} (h : s.Inv) (hf : s.fsm = .segment) (h0 : s.accLen = 0) (hle : s.params.block ≤ s.remaining) :
    tick s = .moved { s with fsm := .emit } := by
  have hB := paramsWf_block h.1.paramsWf
  have hrem : s.remaining = s.cur.len.toNat - s.consumed.toNat := rfl
  rw [tick_segment hf (h.segment hf).quiet, segmentStep, if_pos (by omega), if_pos ⟨h0, hle⟩]

/-- Settles O31: one step to EMIT, three of EMIT. -/
theorem fastPath : Obligations.FastPath := by
  unfold Obligations.FastPath
  intro s c hs hf h0 hle hcr hkr hc hbound
  have he := hs.1.segment hf
  have ht := tick_fast hs.1 hf h0 hle
  have hloc := block_location { s with fsm := .emit }
  rw [if_pos ⟨he.writes, h0⟩] at hloc
  simp only [Prod.mk.injEq] at hloc
  obtain ⟨hsp, hlen, hblk⟩ := hloc
  obtain ⟨hdone, -, hrun⟩ := emit_runs (tick_keeps_inv hs.1 ht) rfl he.quiet hcr hkr (by rw [hblk]; exact hc)
    (by rw [hlen]; exact hbound)
  refine ⟨_, (run_moved he.lease.run.busy ht).trans (hrun 0), hdone.fsm, hdone.acc, hdone.accLen, ?_, hdone.chunks, ?_,
    hdone.sinkStream⟩
  · have hrem : s.consumed.toNat + s.params.block ≤ s.cur.len.toNat := by
      have hB := paramsWf_block hs.1.1.paramsWf
      omega
    rw [hdone.consumed, if_pos hsp]
    exact consumed_add hrem
  · rw [hdone.staged, hblk]
    rfl

end Sys2Proof.Machine
end

section
/-! PROOFS. Every command ends or waits, and no safe state faults (40_write.md R116, 10_state.md R47,
70_reset_and_hazards.md R262). -/

namespace Sys2Proof.Machine

open State Relation

/-! ### The sequencer at rest -/

/-- A command in progress on a safe state, whatever the pace: a next state, at rest where the sequencer runs without pause. -/
theorem resume_rests {s : State} (hs : s.Safe) :
    ∃ t, resume s = .next t ∧ t.Safe ∧ (t.eager = true → t.Ended ∨ (t.busy = true ∧ t.Waiting)) := by
  cases he : s.eager with
  | true =>
    obtain ⟨t, ht, hti, hrest⟩ := resume_ends hs.1 he
    exact ⟨t, ht, resume_keeps_safe hs ht, fun _ => hrest.imp_left hti.ended⟩
  | false => exact ⟨s, resume_paced he, hs, fun h => by rw [he] at h; cases h⟩

theorem settled_of_rests {t : State} (h : t.eager = true → t.Ended ∨ (t.busy = true ∧ t.Waiting)) : t.Settled :=
  fun he => (h he).imp_left fun hended => hended.1

/-- One step of the sequencer on a safe state: a next state; a sequencer at rest stays so. -/
theorem oneTick_rests {s : State} (hs : s.Safe) :
    ∃ t, oneTick s = .next t ∧ t.Safe ∧ t.eager = s.eager ∧ (s.Settled → t.Settled) := by
  have hstays : oneTick s = .next s → ∃ t, oneTick s = .next t ∧ t.Safe ∧ t.eager = s.eager ∧ (s.Settled → t.Settled) :=
    fun h => ⟨s, h, hs, rfl, id⟩
  cases hb : s.busy with
  | false => exact hstays (run_idle 1 hb)
  | true =>
    rcases tick_progress hs.1 hb with ⟨t, ht, -⟩ | ⟨ht, -⟩
    · have he := (tick_advances ht).eager
      refine ⟨t, (run_moved hb ht).trans rfl, tick_keeps_safe hs ht, he, fun hset hte => ?_⟩
      exact absurd ⟨hb, ht⟩ (not_moves_at_rest (hset (he.symm.trans hte)) t)
    · exact hstays (run_waits 1 ht)

/-! ### Commands -/

theorem exec_of_refusal {s : State} {r : Refusal} (h : refusal s = some r) (i : Instr) : exec i s = .refused r := by
  have hc : ∀ j, acceptChecks j s = .isOver (.refused r) := fun j => by simp [acceptChecks, h]
  cases i with
  | dispose snk => simp [exec, execDispose, h]
  | _ => exact exec_eq_of_isOver (by simp [Instr.op]) (hc _)

/-- What a command leaves to the sequencer is safe: it is what the command answers where the sequencer is paced. -/
theorem commanded_safe {i : Instr} {s : State} (hs : s.Safe) (hb : s.busy = false) : (s.commanded i).Safe := by
  have hpaced : ∀ {u : State}, u.Safe → ∀ e, ({ u with eager := e } : State).Safe := fun {u} hu _ =>
    safe_world hu rfl rfl rfl rfl rfl rfl rfl rfl rfl rfl rfl rfl rfl rfl hu.1.1.srcWf rfl rfl (.inl rfl)
  have hx : exec i s.paced = .next (s.commanded i).paced := by
    rw [exec_eq_resume (s := s.paced) hs.1.1.paramsWf hb, paced_commanded, resume_paced rfl]
  exact hpaced (exec_keeps_safe (s := s.paced) (hpaced hs false) hx) (s.commanded i).eager

theorem exec_rests {i : Instr} {s : State} (hs : s.Safe) (hb : s.busy = false) :
    ∃ t, exec i s = .next t ∧ t.Safe ∧ (t.eager = true → t.Ended ∨ (t.busy = true ∧ t.Waiting)) := by
  rw [exec_eq_resume hs.1.1.paramsWf hb]
  exact resume_rests (commanded_safe hs hb)

/-! ### Steps -/

/-- No fault, and a sequencer at rest before is at rest after. -/
def State.KeepsRest (s : State) : Host.Outcome State Fault Refusal → Prop
  | .next t => s.Settled → t.Settled
  | .fault _ => False
  | .refused _ => True

theorem resume_keepsRest {s u : State} (hu : u.Safe) : s.KeepsRest (resume u) := by
  obtain ⟨t, ht, -, hrest⟩ := resume_rests hu
  rw [ht]
  exact fun _ => settled_of_rests hrest

theorem oneTick_keepsRest {s u : State} (hu : u.Safe) (hset : s.Settled → u.Settled) : s.KeepsRest (oneTick u) := by
  obtain ⟨t, ht, -, -, hrest⟩ := oneTick_rests hu
  rw [ht]
  exact hrest ∘ hset

theorem exec_keepsRest {i : Instr} {s u : State} (hu : u.Safe) : s.KeepsRest (exec i u) := by
  cases hb : u.busy with
  | true =>
    rw [exec_of_refusal (r := .commandWhileBusy) (by simp [refusal, hu.1.1.paramsWf, hb])]
    trivial
  | false =>
    obtain ⟨t, ht, -, hrest⟩ := exec_rests (i := i) hu hb
    rw [ht]
    exact fun _ => settled_of_rests hrest

theorem settled_of_idle {t : State} (hb : t.busy = false) : t.Settled := fun _ => .inl hb

theorem illegalCommand_keepsRest (s u : State) (w : Word) : s.KeepsRest (illegalCommand w u) := by
  unfold illegalCommand
  split
  · trivial
  · exact fun _ => settled_of_idle rfl

theorem csrWrite_keepsRest {s : State} {a width : Nat} {v : Word} {rest : List Input} (hs : s.Safe)
    (hin : s.inputs = .csrWrite a width v :: rest) (hu : ({ s with inputs := rest } : State).Safe) :
    s.KeepsRest (step s) := by
  rw [step, nextMove_csrWrite hs.1.1.paramsWf hin]
  rcases csrWrite_cases a width v { s with inputs := rest } with hc | hc | hc | hc <;> rw [hc] <;> simp only
  · split
    · exact exec_keepsRest hu
    · exact illegalCommand_keepsRest s _ v
  · unfold srcLenWrite
    split
    · trivial
    · exact fun hset => hset
  · exact fun hset => hset
  · trivial

/-- What any step of the machine does to a safe state, input by input. -/
theorem step_keepsRest {s : State} (hs : s.Safe) : s.KeepsRest (step s) := by
  have hw := hs.1.1.paramsWf
  have hmove := WorldMoves.takes s
  cases hin : s.inputs with
  | nil =>
    rw [step, nextMove_nil hw hin]
    simp only
    split
    · exact resume_keepsRest hs
    · exact oneTick_keepsRest hs id
  | cons input rest =>
    rw [hin] at hmove
    cases input with
    | csrWrite a width v => exact csrWrite_keepsRest hs hin (hmove.keeps_safe hs)
    | csrRead a width =>
      rw [step, nextMove_csrRead hw hin]
      simp only [csrRead]
      split
      · exact fun hset => hset
      · trivial
    | lend d =>
      rw [step, nextMove_lend hw hin]
      simp only [lendSrc]
      split
      · trivial
      · exact fun hset => hset
    | cancel v => rw [step, nextMove_cancel hw hin]; exact fun hset => hset
    | construct =>
      rw [step, nextMove_construct hw hin]
      simp only [constructInstance]
      split
      · trivial
      · exact fun _ => settled_of_idle rfl
    | pool a =>
      rw [step, nextMove_pool hw hin]
      exact resume_keepsRest (WorldMoves.keeps_safe { hmove with } hs)
    | sink a =>
      rw [step, nextMove_sink hw hin]
      exact resume_keepsRest (WorldMoves.keeps_safe { hmove with } hs)
    | compressor r =>
      rw [step, nextMove_compressor hw hin]
      exact resume_keepsRest (WorldMoves.keeps_safe { hmove with } hs)
    | checksum r =>
      rw [step, nextMove_checksum hw hin]
      exact resume_keepsRest (WorldMoves.keeps_safe { hmove with } hs)
    | pace e =>
      rw [step, nextMove_pace hw hin]
      exact resume_keepsRest (WorldMoves.keeps_safe { hmove with } hs)
    | tick =>
      rw [step, nextMove_tick hw hin]
      exact oneTick_keepsRest (hmove.keeps_safe hs) id

/-- An agent's answer, or the pace, lets the command go on: without pause, or by one step where it is paced and no input is
there. -/
theorem step_of_goesOn {s : State} (hw : s.params.wf = true) (h : s.GoesOn) :
    (s.eager = false ∧ step s = oneTick s) ∨ ∃ u, s.WorldMoves u ∧ step s = resume u := by
  have hmove := WorldMoves.takes s
  have hfrom : ∀ {u : State}, nextMove s = .settled (resume u) → s.WorldMoves u →
      (s.eager = false ∧ step s = oneTick s) ∨ ∃ u, s.WorldMoves u ∧ step s = resume u :=
    fun hn hu => .inr ⟨_, hu, by rw [step, hn]⟩
  rcases h with hin | ⟨a, rest, hin⟩ | ⟨a, rest, hin⟩ | ⟨r, rest, hin⟩ | ⟨r, rest, hin⟩ | ⟨rest, hin⟩ <;>
    rw [hin] at hmove
  · rw [step, nextMove_nil hw hin]
    cases he : s.eager with
    | true => exact .inr ⟨s, { hmove with inputs := by simp [hin] }, by simp⟩
    | false => exact .inl ⟨rfl, by simp⟩
  · exact hfrom (nextMove_pool hw hin) { hmove with }
  · exact hfrom (nextMove_sink hw hin) { hmove with }
  · exact hfrom (nextMove_compressor hw hin) { hmove with }
  · exact hfrom (nextMove_checksum hw hin) { hmove with }
  · exact hfrom (nextMove_pace hw hin) { hmove with }

/-- Settles O56: a command is a run of the sequencer from a safe state, and so is a step that lets one go on; for any other step
by its input. -/
theorem everyCommandEndsOrWaits : Obligations.EveryCommandEndsOrWaits := by
  unfold Obligations.EveryCommandEndsOrWaits
  refine ⟨fun i s hs hb => ?_, fun s hs _ hgo => ?_, fun s f hs h => ?_, fun s t hs hset h => ?_⟩
  · obtain ⟨t, ht, hts, hrest⟩ := exec_rests (i := i) hs hb
    exact ⟨t, ht, hts, fun he => hrest ((exec_advances ht).eager.trans he)⟩
  · rcases step_of_goesOn hs.1.1.paramsWf hgo with ⟨he, hstep⟩ | ⟨u, hmove, hstep⟩
    · obtain ⟨t, ht, hts, hte, -⟩ := oneTick_rests hs
      exact ⟨t, hstep.trans ht, hts, fun h => by rw [hte, he] at h; cases h⟩
    · rw [hstep]
      exact resume_rests (hmove.keeps_safe hs)
  · have hkeeps := step_keepsRest hs
    rw [h] at hkeeps
    exact hkeeps
  · have hkeeps := step_keepsRest hs
    rw [h] at hkeeps
    exact hkeeps hset

end Sys2Proof.Machine
end

section
/-! PROOFS. The WRITE forms whose agents answer (40_write.md R110, R111, R119, R122 to R124). -/

namespace Sys2Proof.Machine

open State Relation

/-! ### A WRITE form on a ready machine -/

/-- WRITE, and WRITE.A where check point 0 does not cancel it, with a sink. -/
def State.Writes (s : State) (i : Instr) : Prop := i = .write true ∨ (i = .writeA true ∧ s.cancelReq = false)

theorem State.Writes.op {s : State} {i : Instr} (h : s.Writes i) : i.op = .write := by
  rcases h with rfl | ⟨rfl, -⟩ <;> rfl

theorem State.Writes.starts {s : State} {i : Instr} (h : s.Writes i) (hr : s.Ready) : s.Starts i where
  form := by rw [h.op]; decide
  snk := by rcases h with rfl | ⟨rfl, -⟩ <;> rfl
  paramsWf := hr.safe.1.1.paramsWf
  idle := hr.idle
  live := hr.live
  sound := hr.sound
  uncancelled ha := by
    rcases h with rfl | ⟨rfl, hc⟩
    · cases ha
    · exact hc

theorem State.Writes.uncancelled {s : State} {i : Instr} (h : s.Writes i) : (s.started i).Uncancelled := by
  rcases h with rfl | ⟨rfl, hc⟩
  · exact .inl rfl
  · exact .inr hc

/-- A ready machine has staged its preamble in this lease, or asks for a lease and gets it. -/
theorem State.Ready.ensures {s : State} (h : s.Ready) :
    s.alloc = true ∧ s.hdrWritten = true ∨ s.alloc = false ∧ ∃ rest, s.poolAnswers = .granted :: rest := by
  cases ha : s.alloc with
  | true => exact .inl ⟨rfl, (h.safe.1.idle_phase h.idle).2.leased ha⟩
  | false => exact .inr ⟨rfl, h.lease.resolve_left (by simp [ha])⟩

/-- ENSURE of a form that starts on a ready machine. -/
theorem started_ensures {i : Instr} {s : State} (h : s.Ready) (hst : s.Starts i) :
    ∃ e, (s.started i).Ensured e ∧ e.Safe ∧ ReflTransGen Moves (s.started i) e := by
  have hq : s.pending = .none := (h.safe.1.ended h.idle).2.2
  obtain ⟨e, k, he, hes, -, hrun⟩ := ensure_runs (started_safe_of_starts hst h.safe) rfl hq h.ensures
  exact ⟨e, he, hes, reaches_of_run (hrun 0)⟩

/-- The bytes that the next WRITE form has to put into the stream, behind what has been delivered (40_write.md R118). -/
def State.toWrite (s : State) : List Byte := s.accumulated ++ s.lent

@[simp] theorem length_toWrite (s : State) : s.toWrite.length = s.accLen + s.srcLen.toNat := by
  simp [toWrite, accumulated, lent]

/-- A WRITE form on a ready machine whose agents answer: ENSURE, then the loop over what there is to write, to its end. -/
theorem write_runs {i : Instr} {s : State} {rest : List SinkAnswer} (hi : s.Writes i) (h : s.Ready)
    (hc : Compresses s.params (fullBlocks s.params.block s.toWrite))
    (ha : s.sinkAnswers = List.replicate (fullBlocks s.params.block s.toWrite).length .ok ++ rest) :
    ∃ e t, (s.started i).Ensured e ∧ e.ahead = s.toWrite ∧ e.LoopDone rest t ∧ exec i s = .next t := by
  have hst := hi.starts h
  obtain ⟨e, he, hes, hreach⟩ := started_ensures h hst
  have hpar : e.params = s.params := he.params
  have hcur : e.cur.op = .write := by rw [he.cur]; exact hi.op
  have hf : e.fsm = .segment := by rw [he.fsm, afterEnsure, show (s.started i).cur.op = .write from hi.op]
  have hrem : e.remaining = s.srcLen.toNat := by rw [remaining, he.cur, he.consumed]; rfl
  have hahead : e.ahead = s.toWrite := by
    rw [ahead, he.accumulated, he.src, he.consumed, hrem]; rfl
  obtain ⟨t, ht, hloop⟩ := loop_runs hes.1 hf
    (by rw [Uncancelled, he.cur, he.sameCancel]; exact hi.uncancelled)
    (he.sameCompressor.trans h.compressor) (he.sameChecksum.trans h.checksum)
    (by rw [hpar, hahead]; exact hc) (by rw [hpar, hahead]; exact he.sinkAnswers.trans ha) (Nat.le_refl _)
  refine ⟨e, t, he, hahead, hloop, ?_⟩
  rw [exec_of_starts hst]
  exact resume_eq_of_settles (started_safe_of_starts hst h.safe).1 h.eager
    ⟨hreach.trans (reaches_of_run ht), not_moves_of_idle hloop.ended.1⟩

/-! ### What it leaves -/

/-- What a WRITE form leaves of a ready machine (40_write.md R122 to R124). -/
structure State.WriteDone (s : State) (rest : List SinkAnswer) (t : State) : Prop where
  ended : t.Ended
  err : t.err = 0x00#8
  poisoned : t.poisoned = false
  disposed : t.disposed = false
  alloc : t.alloc = true
  hdrWritten : t.hdrWritten = true
  params : t.params = s.params
  consumed : t.consumed = s.srcLen
  srcLen : t.srcLen = s.srcLen
  chunks : t.chunks = BitVec.ofNat 32 ((s.accLen + s.srcLen.toNat) / s.params.block)
  transfers : t.transfers = s.transfers + (s.accLen + s.srcLen.toNat) / s.params.block
  accLen : t.accLen = (s.accLen + s.srcLen.toNat) % s.params.block
  accumulated : t.accumulated = tailBytes s.params.block s.toWrite
  stageLen : t.stageLen = if t.sinkStream = [] then 10 else 0
  sinkStream : t.sinkStream = s.sinkStream ++ (if fullBlocks s.params.block s.toWrite = [] then [] else
    s.duePreamble ++ s.params.wire ((fullBlocks s.params.block s.toWrite).map s.params.withPayload))
  sinkAnswers : t.sinkAnswers = rest
  inputs : t.inputs = s.inputs
  cancelReq : t.cancelReq = s.cancelReq
  compressorReady : t.compressorReady = true
  checksumReady : t.checksumReady = true
  eager : t.eager = true

theorem started_transfers (i : Instr) (s : State) : (s.started i).transfers = s.transfers := by
  rw [transfers_append s (u := s.started i) (List.append_assoc _ _ _)]
  split <;> rfl

theorem ensured_transfers {s e : State} (h : s.Ensured e) : e.transfers = s.transfers := by
  rw [transfers_append s h.history]
  split <;> rfl

/-- Between commands a live and sound machine has staged the preamble until the first transfer, and then nothing. -/
theorem State.Safe.idle_stageLen {t : State} (h : t.Safe) (hb : t.busy = false) (hp : t.poisoned = false)
    (hd : t.disposed = false) (hh : t.hdrWritten = true) : t.stageLen = if t.sinkStream = [] then 10 else 0 :=
  (h.1.idle_phase hb).2.stageBase hp hd hh

theorem write_done {i : Instr} {s : State} {rest : List SinkAnswer} (hi : s.Writes i) (h : s.Ready)
    (hc : Compresses s.params (fullBlocks s.params.block s.toWrite))
    (ha : s.sinkAnswers = List.replicate (fullBlocks s.params.block s.toWrite).length .ok ++ rest) :
    ∃ t, exec i s = .next t ∧ s.WriteDone rest t := by
  obtain ⟨e, t, he, hahead, hl, hx⟩ := write_runs hi h hc ha
  have hpar : e.params = s.params := he.params
  have hp : t.poisoned = false := hl.poisoned.trans (he.poisoned.trans h.sound)
  have hd : t.disposed = false := hl.disposed.trans (he.disposed.trans h.live)
  have hh : t.hdrWritten = true := hl.hdrWritten.trans he.hdrWritten
  refine ⟨t, hx, ?_⟩
  constructor
  case ended => exact hl.ended
  case err => rw [hl.err, he.err]; rfl
  case poisoned => exact hp
  case disposed => exact hd
  case alloc => exact hl.alloc.trans he.alloc
  case hdrWritten => exact hh
  case params => exact hl.params.trans hpar
  case consumed => rw [hl.consumed, he.cur]; rfl
  case srcLen => exact hl.srcLen.trans he.srcLen
  case chunks =>
    rw [hl.chunks, he.chunks, hpar, hahead, length_fullBlocks, length_toWrite]
    exact BitVec.zero_add _
  case transfers =>
    rw [hl.transfers, ensured_transfers he, started_transfers, hpar, hahead, length_fullBlocks, length_toWrite]
  case accLen => rw [hl.accLen, hpar, hahead, length_toWrite]
  case accumulated => rw [hl.accumulated, hpar, hahead]
  case stageLen => exact (exec_keeps_safe h.safe hx).idle_stageLen hl.ended.1 hp hd hh
  case sinkStream => rw [hl.sinkStream, hpar, hahead, he.sinkStream, he.staged]; rfl
  case sinkAnswers => exact hl.sinkAnswers
  case inputs => exact hl.sameInputs.trans he.sameInputs
  case cancelReq => exact hl.sameCancel.trans he.sameCancel
  case compressorReady => exact hl.sameCompressor.trans (he.sameCompressor.trans h.compressor)
  case checksumReady => exact hl.sameChecksum.trans (he.sameChecksum.trans h.checksum)
  case eager => exact hl.sameEager.trans (he.sameEager.trans h.eager)

/-- Settles O37: by what the loop leaves behind ENSURE. -/
theorem writeCompletes : Obligations.WriteCompletes := by
  unfold Obligations.WriteCompletes
  intro i s rest hi h hc ha
  obtain ⟨t, hx, hw⟩ := write_done hi h hc (by rw [length_fullBlocks, length_toWrite]; exact ha)
  have hnone : fullBlocks s.params.block s.toWrite = [] ↔ (s.accLen + s.srcLen.toNat) / s.params.block = 0 := by
    rw [← List.length_eq_zero_iff, length_fullBlocks, length_toWrite]
  have hsink := hw.sinkStream
  simp only [hnone] at hsink
  exact ⟨t, hx, hw.ended, hw.err, hw.poisoned, hw.disposed, hw.alloc, hw.hdrWritten, hw.consumed, hw.srcLen, hw.chunks,
    hw.transfers, hw.accLen, hw.accumulated, hw.stageLen, hsink, hw.sinkAnswers, hw.params, hw.inputs, hw.cancelReq,
    hw.compressorReady, hw.checksumReady, hw.eager⟩

/-! ### An empty input -/

/-- Between commands what is staged in a lease is the preamble where it is due (10_state.md R38 e, f). -/
theorem State.Safe.idle_staged {t : State} (h : t.Safe) (hb : t.busy = false) (hp : t.poisoned = false)
    (hd : t.disposed = false) (hh : t.hdrWritten = true) : t.staged = t.duePreamble := by
  have hlen := h.idle_stageLen hb hp hd hh
  by_cases h0 : t.sinkStream = []
  · rw [if_pos h0] at hlen
    rw [duePreamble, if_pos h0]
    exact (h.staged_idle hb hp (by omega)).2.2
  · rw [if_neg h0] at hlen
    rw [duePreamble, if_neg h0, staged, hlen]
    rfl

/-- Settles O38: less than a block is there to write. -/
theorem emptyWriteStagesOnly : Obligations.EmptyWriteStagesOnly := by
  unfold Obligations.EmptyWriteStagesOnly
  intro i s hi h h0
  have hlt : s.accLen < s.params.block := (h.safe.1.idle_phase h.idle).2.accPart h.sound
  have hwrite : s.toWrite = s.accumulated := by simp [toWrite, lent, h0]
  have hlen : s.accumulated.length < s.params.block := by simpa [accumulated] using hlt
  have hnone := fullBlocks_of_lt hlen
  obtain ⟨t, hx, hw⟩ := write_done (rest := s.sinkAnswers) hi h (by rw [hwrite, hnone]; exact nofun)
    (by rw [hwrite, hnone]; rfl)
  have hsink : t.sinkStream = s.sinkStream := by rw [hw.sinkStream, hwrite, if_pos hnone, List.append_nil]
  have hcount : (s.accLen + s.srcLen.toNat) / s.params.block = 0 := by simp [h0, Nat.div_eq_of_lt hlt]
  refine ⟨t, hx, hw.ended, hw.err, hw.consumed.trans h0, ?_, hw.alloc, hw.hdrWritten, ?_, ?_, ?_, hsink, ?_⟩
  · rw [hw.chunks, hcount]
  · rw [(exec_keeps_safe h.safe hx).idle_staged hw.ended.1 hw.poisoned hw.disposed hw.hdrWritten, duePreamble, hsink, hw.params,
      duePreamble]
  · rw [hw.accLen, h0]; exact Nat.mod_eq_of_lt hlt
  · rw [hw.accumulated, hwrite, tailBytes_of_lt hlen]
  · rw [hw.transfers, hcount, Nat.add_zero]

end Sys2Proof.Machine
end

section
/-! PROOFS. However an input is split into WRITE commands, the stream is the same (40_write.md R125). -/

namespace Sys2Proof.Machine

open State Relation

/-! ### A FLUSH on a ready machine -/

/-- DRAIN of a FLUSH form, the sink accepting: the command completes, whether or not anything is staged (41_flush.md R140). -/
theorem drain_completes {s : State} {rest : List SinkAnswer} (h : s.Inv) (hf : s.fsm = .drain) (hq : s.pending = .none)
    (hop : s.cur.op = .flush) (ha : s.sinkAnswers = .ok :: rest) :
    ∃ t, ReflTransGen Moves s t ∧ t.busy = false ∧ t.err = s.err := by
  by_cases h0 : s.stageLen = 0
  · have ht : tick s = .moved s.complete := by
      rw [tick_drain hf hq, drainStep, if_pos h0, afterDrain_of_flush hop]
    exact ⟨_, .single ⟨(h.drain hf).lease.run.busy, ht⟩, by simp, by simp⟩
  · obtain ⟨-, hrun⟩ := drain_runs h hf hq (Nat.pos_of_ne_zero h0) ha
    have hop' : (s.transferred rest).cur.op = .flush := by rw [transferred_cur]; exact hop
    rw [afterDrain_of_flush hop'] at hrun
    exact ⟨_, reaches_of_run (hrun 0), by simp, by simp [transferred]⟩

/-- EMIT and DRAIN of a FLUSH form, the agents answering. -/
theorem emit_completes {s : State} {c : List Byte} {rest : List SinkAnswer} (h : s.Inv) (hf : s.fsm = .emit)
    (hq : s.pending = .none) (hop : s.cur.op = .flush) (hcr : s.compressorReady = true) (hkr : s.checksumReady = true)
    (hc : s.params.compress s.accumulated = some c) (hle : c.length ≤ s.params.maxComp.bound s.accLen)
    (ha : s.sinkAnswers = .ok :: rest) : ∃ t, ReflTransGen Moves s t ∧ t.busy = false ∧ t.err = s.err := by
  have hloc := block_location s
  rw [if_neg (by simp [hop])] at hloc
  simp only [Prod.mk.injEq] at hloc
  obtain ⟨-, hlen, hblk⟩ := hloc
  obtain ⟨hdone, hi, hrun⟩ := emit_runs h hf hq hcr hkr (by rw [hblk]; exact hc) (by rw [hlen]; exact hle)
  obtain ⟨t, hr, hb, herr⟩ := drain_completes hi hdone.fsm hdone.pending (by rw [hdone.cur]; exact hop)
    (hdone.sinkAnswers.trans ha)
  exact ⟨t, (reaches_of_run (hrun 0)).trans hr, hb, herr.trans hdone.err⟩

/-- A FLUSH on a ready machine whose agents answer ends with OK. -/
theorem flush_ends_well {s : State} {rest : List SinkAnswer} (h : s.Ready)
    (hc : s.accLen ≠ 0 → Compresses s.params [s.accumulated]) (ha : s.sinkAnswers = .ok :: rest) :
    ∃ t, exec (.flush true) s = .next t ∧ t.Ended ∧ t.err = 0x00#8 := by
  have hst : s.Starts (.flush true) := ⟨by decide, rfl, h.safe.1.1.paramsWf, h.idle, h.live, h.sound, nofun⟩
  have hsafe := started_safe_of_starts hst h.safe
  obtain ⟨e, he, hes, hreach⟩ := started_ensures h hst
  have hop : e.cur.op = .flush := by rw [he.cur]; rfl
  have hsink : e.sinkAnswers = .ok :: rest := he.sinkAnswers.trans ha
  have hacc : e.accLen = s.accLen := he.accLen
  have hend : ∃ t, ReflTransGen Moves e t ∧ t.busy = false ∧ t.err = e.err := by
    by_cases h0 : s.accLen = 0
    · exact drain_completes hes.1 (by rw [he.fsm]; simp [afterEnsure, started, Instr.op, h0]) he.pending hop hsink
    · obtain ⟨c, hc1, hc2⟩ := hc h0 s.accumulated (by simp)
      have haccd : e.accumulated = s.accumulated := he.accumulated
      have hpar : e.params = s.params := he.params
      exact emit_completes hes.1 (by rw [he.fsm]; simp [afterEnsure, started, Instr.op, Nat.pos_of_ne_zero h0]) he.pending
        hop (he.sameCompressor.trans h.compressor) (he.sameChecksum.trans h.checksum) (by rw [hpar, haccd]; exact hc1)
        (by simpa [hpar, hacc, accumulated] using hc2) hsink
  obtain ⟨t, hr, hb, herr⟩ := hend
  refine ⟨t, ?_, (reaches_keeps_safe hes hr).1.ended hb, herr.trans he.err⟩
  rw [exec_of_starts hst]
  exact resume_eq_of_settles hsafe.1 h.eager ⟨hreach.trans hr, not_moves_of_idle hb⟩

/-- Blocks whose payloads are the compressor's answers. -/
theorem chunks_eq_withPayload {p : Params} {cs : List (List Byte × List Byte)} (h : ∀ c ∈ cs, p.IsChunk c) :
    cs = (cs.map Prod.fst).map p.withPayload := by
  rw [List.map_map]
  refine (List.map_id cs).symm.trans (List.map_congr_left fun c hc => ?_)
  obtain ⟨-, -, hcomp, -⟩ := h c hc
  simp [Params.withPayload, hcomp]

/-- What a FLUSH on a ready machine whose agents answer delivers (41_flush.md R147). -/
theorem flush_delivers {s : State} {rest : List SinkAnswer} (h : s.Ready)
    (hc : s.accLen ≠ 0 → Compresses s.params [s.accumulated]) (ha : s.sinkAnswers = .ok :: rest) :
    ∃ t, exec (.flush true) s = .next t ∧ t.Ended ∧ t.err = 0x00#8 ∧
      t.sinkStream = s.sinkStream ++ s.duePreamble ++ s.params.wire (s.accumulatedBlocks.map s.params.withPayload) := by
  obtain ⟨t, hx, hended, herr⟩ := flush_ends_well h hc ha
  have hbarrier := flushIsABarrier
  unfold Obligations.FlushIsABarrier at hbarrier
  obtain ⟨-, -, -, -, -, -, -, cs, hcs, hblocks, hstream⟩ := (hbarrier.1 _ s t rfl h.safe h.idle hx).1 hended.1 herr
  rw [chunks_eq_withPayload hcs, hblocks] at hstream
  exact ⟨t, hx, hended, herr, hstream⟩

/-! ### WRITE commands one after the other -/

theorem preamble_ne_nil {p : Params} (h : p.wf = true) : p.preamble ≠ [] := by
  have hlen := paramsWf_preamble h
  intro h0
  rw [h0] at hlen
  cases hlen

/-- What has been delivered, with the preamble where that is still due, has grown by the chunks of the full blocks. -/
theorem State.WriteDone.delivered {s t : State} {rest : List SinkAnswer} (hw : s.params.wf = true) (h : s.WriteDone rest t) :
    t.sinkStream ++ t.duePreamble = s.sinkStream ++ s.duePreamble ++
      s.params.wire ((fullBlocks s.params.block s.toWrite).map s.params.withPayload) := by
  have hsink := h.sinkStream
  by_cases h0 : fullBlocks s.params.block s.toWrite = []
  · rw [if_pos h0, List.append_nil] at hsink
    simp [duePreamble, hsink, h.params, h0, Params.wire]
  · rw [if_neg h0] at hsink
    have hne : t.sinkStream ≠ [] := by
      rw [hsink]
      by_cases hs : s.sinkStream = []
      · simp [hs, duePreamble, preamble_ne_nil hw]
      · simp [hs]
    rw [duePreamble, if_neg hne, List.append_nil, hsink, List.append_assoc]

/-- A ready machine stays ready. -/
theorem State.WriteDone.ready {s t : State} {rest : List SinkAnswer} (h : s.WriteDone rest t) (ht : t.Safe) : t.Ready :=
  ⟨ht, h.ended.1, h.disposed, h.poisoned, h.eager, h.compressorReady, h.checksumReady, .inl h.alloc⟩

theorem State.Ready.lends {s : State} (h : s.Ready) (d : List Byte) : (s.lends d).Ready :=
  { h with
    safe := safe_world h.safe rfl rfl rfl rfl rfl rfl rfl rfl rfl rfl rfl rfl rfl rfl (Memory.wf_write rfl _ _) rfl rfl
      (.inr (.inl h.idle)) }

theorem lends_toWrite (s : State) {d : List Byte} (hd : d.length < 2 ^ 32) : (s.lends d).toWrite = s.accumulated ++ d := by
  have hlen : (BitVec.ofNat 32 d.length).toNat = d.length := (BitVec.toNat_ofNat _ _).trans (Nat.mod_eq_of_lt hd)
  have hlent : (s.lends d).lent = d := by
    have h := Buffer.bytes_write_same (Buffer.fresh s.draws) 0 d
    rw [← hlen] at h
    exact h
  rw [toWrite, hlent]
  rfl

/-- What WRITE commands leave of a ready machine that together had the bytes `D` to write behind those accumulated. -/
structure State.Written (s : State) (D : List Byte) (rest : List SinkAnswer) (t : State) : Prop where
  ready : t.Ready
  params : t.params = s.params
  accumulated : t.accumulated = tailBytes s.params.block (s.accumulated ++ D)
  delivered : t.sinkStream ++ t.duePreamble = s.sinkStream ++ s.duePreamble ++
    s.params.wire ((fullBlocks s.params.block (s.accumulated ++ D)).map s.params.withPayload)
  sinkAnswers : t.sinkAnswers = rest

/-- One WRITE command more in front. -/
theorem State.Written.cons {s t u : State} {d D : List Byte} {as rest : List SinkAnswer} (h : s.Written d as t)
    (hu : t.Written D rest u) : s.Written (d ++ D) rest u where
  ready := hu.ready
  params := hu.params.trans h.params
  accumulated := by
    rw [hu.accumulated, h.params, h.accumulated, ← List.append_assoc,
      ← tailBytes_append (paramsWf_block (h.params ▸ h.ready.safe.1.1.paramsWf))]
  delivered := by
    rw [hu.delivered, h.delivered, h.params, h.accumulated, ← List.append_assoc s.accumulated,
      fullBlocks_append (paramsWf_block (h.params ▸ h.ready.safe.1.1.paramsWf)) (s.accumulated ++ d), List.map_append,
      Params.wire_append, ← List.append_assoc]
  sinkAnswers := hu.sinkAnswers

/-- One WRITE command. -/
theorem write_writes {s : State} {d : List Byte} {rest : List SinkAnswer} (h : s.Ready) (hd : d.length < 2 ^ 32)
    (hc : Compresses s.params (fullBlocks s.params.block (s.accumulated ++ d)))
    (ha : s.sinkAnswers = List.replicate (fullBlocks s.params.block (s.accumulated ++ d)).length .ok ++ rest) :
    ∃ t, exec (.write true) (s.lends d) = .next t ∧ s.Written d rest t := by
  have hto := lends_toWrite s hd
  obtain ⟨t, hx, hw⟩ := write_done (s := s.lends d) (rest := rest) (.inl rfl) (h.lends d) (by rw [hto]; exact hc)
    (by rw [hto]; exact ha)
  have hready := hw.ready (exec_keeps_safe (h.lends d).safe hx)
  refine ⟨t, hx, hready, hw.params, ?_, ?_, hw.sinkAnswers⟩
  · rw [hw.accumulated, hto]; rfl
  · rw [hw.delivered (h.lends d).safe.1.1.paramsWf, hto]; rfl

/-- The WRITE commands on the parts of an input, by induction on the parts. -/
theorem writeAll_writes {s : State} {ds : List (List Byte)} {rest : List SinkAnswer} (h : s.Ready)
    (hlen : ds.flatten.length < 2 ^ 32) (hc : Compresses s.params (fullBlocks s.params.block (s.accumulated ++ ds.flatten)))
    (ha : s.sinkAnswers = List.replicate (fullBlocks s.params.block (s.accumulated ++ ds.flatten)).length .ok ++ rest) :
    ∃ t, writeAll ds s = .next t ∧ s.Written ds.flatten rest t := by
  induction ds generalizing s with
  | nil =>
    have hlt : (s.accumulated ++ ([] : List (List Byte)).flatten).length < s.params.block := by
      simpa [accumulated] using (h.safe.1.idle_phase h.idle).2.accPart h.sound
    have hnone := fullBlocks_of_lt hlt
    refine ⟨s, rfl, h, rfl, ?_, ?_, ?_⟩
    · rw [tailBytes_of_lt hlt]; simp
    · rw [hnone]; simp [Params.wire]
    · rw [ha, hnone]; rfl
  | cons d ds ih =>
    have hB := paramsWf_block h.safe.1.1.paramsWf
    have hblocks : fullBlocks s.params.block (s.accumulated ++ (d :: ds).flatten) =
        fullBlocks s.params.block (s.accumulated ++ d) ++
          fullBlocks s.params.block (tailBytes s.params.block (s.accumulated ++ d) ++ ds.flatten) := by
      rw [List.flatten_cons, ← List.append_assoc, fullBlocks_append hB]
    rw [hblocks] at hc ha
    rw [List.flatten_cons, List.length_append] at hlen
    rw [List.length_append, List.replicate_add, List.append_assoc] at ha
    obtain ⟨t, ht, hw⟩ := write_writes h (by omega) (fun b hb => hc b (List.mem_append_left _ hb)) ha
    obtain ⟨u, hu, hwu⟩ := ih hw.ready (by omega)
      (by rw [hw.params, hw.accumulated]; exact fun b hb => hc b (List.mem_append_right _ hb))
      (by rw [hw.params, hw.accumulated]; exact hw.sinkAnswers)
    refine ⟨u, ?_, hw.cons hwu⟩
    rw [writeAll, ht]
    exact hu

/-- The stream that WRITE commands and a FLUSH behind them leave is that of the whole input, however it is split. -/
theorem writeAllThenFlush_delivers {s : State} {ds : List (List Byte)} {rest : List SinkAnswer} (h : s.Ready)
    (hlen : ds.flatten.length < 2 ^ 32) (hc : Compresses s.params (fullBlocks s.params.block (s.accumulated ++ ds.flatten)))
    (hct : tailBytes s.params.block (s.accumulated ++ ds.flatten) ≠ [] →
      Compresses s.params [tailBytes s.params.block (s.accumulated ++ ds.flatten)])
    (ha : s.sinkAnswers = List.replicate ((s.accLen + ds.flatten.length) / s.params.block + 1) .ok ++ rest) :
    ∃ t, writeAllThenFlush ds s = .next t ∧ t.err = 0x00#8 ∧ t.Ended ∧
      t.sinkStream = s.sinkStream ++ s.duePreamble ++
        s.params.wire ((fullBlocks s.params.block (s.accumulated ++ ds.flatten)).map s.params.withPayload) ++
        s.params.wire ((if tailBytes s.params.block (s.accumulated ++ ds.flatten) = [] then []
          else [tailBytes s.params.block (s.accumulated ++ ds.flatten)]).map s.params.withPayload) := by
  have hcount : (fullBlocks s.params.block (s.accumulated ++ ds.flatten)).length =
      (s.accLen + ds.flatten.length) / s.params.block := by
    rw [length_fullBlocks, List.length_append, accumulated, Buffer.length_bytes]
  rw [← hcount, List.replicate_add, List.append_assoc] at ha
  obtain ⟨t, ht, hw⟩ := writeAll_writes h hlen hc ha
  have hempty : t.accLen = 0 ↔ tailBytes s.params.block (s.accumulated ++ ds.flatten) = [] := by
    rw [← hw.accumulated, ← List.length_eq_zero_iff, accumulated, Buffer.length_bytes]
  have hblocks : t.accumulatedBlocks = if tailBytes s.params.block (s.accumulated ++ ds.flatten) = [] then []
      else [tailBytes s.params.block (s.accumulated ++ ds.flatten)] := by
    simp only [accumulatedBlocks, hempty, hw.accumulated]
  obtain ⟨u, hu, hended, herr, hstream⟩ := flush_delivers hw.ready
    (fun hne => by rw [hw.params, hw.accumulated]; exact hct fun h0 => hne (hempty.2 h0)) hw.sinkAnswers
  refine ⟨u, ?_, herr, hended, ?_⟩
  · rw [writeAllThenFlush, ht]
    exact hu
  · rw [hstream, hw.delivered, hw.params, hblocks]

/-- Settles O41: the two streams are one function of the whole input. -/
theorem chunkingInvariance : Obligations.ChunkingInvariance := by
  unfold Obligations.ChunkingInvariance
  intro s ds rest h hlen hc hct ha
  have hwhole : [ds.flatten].flatten = ds.flatten := List.flatten_singleton
  obtain ⟨t, ht, hte, htd, hts⟩ := writeAllThenFlush_delivers h hlen hc hct ha
  obtain ⟨u, hu, hue, hud, hus⟩ := writeAllThenFlush_delivers (ds := [ds.flatten]) h (by rw [hwhole]; exact hlen)
    (by rw [hwhole]; exact hc) (by rw [hwhole]; exact hct) (by rw [hwhole]; exact ha)
  rw [hwhole] at hus
  exact ⟨t, u, ht, hu, hte, hue, htd, hud, hts.trans hus.symm⟩

end Sys2Proof.Machine
end

section
/-! SUPPORT. What a step of the sequencer can store in ACC and STG, said once (40_write.md R114, R121, 42_chunk_emit.md R161,
R169, 43_lifecycle.md R192). -/

namespace Sys2Proof.Machine

open State Relation

/-- From `s` to `t` nothing has been stored: both buffers, what they are leased and used for, the operands and the host's signals
are the same, and where a lease is held no answer of the pool is taken. -/
structure State.SameStores (s t : State) : Prop where
  params : t.params = s.params
  cur : t.cur = s.cur
  alloc : t.alloc = s.alloc
  hdrWritten : t.hdrWritten = s.hdrWritten
  accLen : t.accLen = s.accLen
  consumed : t.consumed = s.consumed
  acc : t.acc = s.acc
  stg : t.stg = s.stg
  cancelReq : t.cancelReq = s.cancelReq
  readData : t.readData = s.readData
  pool : s.alloc = true → t.poolAnswers = s.poolAnswers

namespace State.SameStores

theorem refl (s : State) : s.SameStores s := ⟨rfl, rfl, rfl, rfl, rfl, rfl, rfl, rfl, rfl, rfl, fun _ => rfl⟩

theorem trans {s t u : State} (h : s.SameStores t) (k : t.SameStores u) : s.SameStores u where
  params := k.params.trans h.params
  cur := k.cur.trans h.cur
  alloc := k.alloc.trans h.alloc
  hdrWritten := k.hdrWritten.trans h.hdrWritten
  accLen := k.accLen.trans h.accLen
  consumed := k.consumed.trans h.consumed
  acc := k.acc.trans h.acc
  stg := k.stg.trans h.stg
  cancelReq := k.cancelReq.trans h.cancelReq
  readData := k.readData.trans h.readData
  pool ha := (k.pool (h.alloc.trans ha)).trans (h.pool ha)

theorem setFsm (f : Fsm) (s : State) : s.SameStores { s with fsm := f } := { refl s with }

theorem log (e : Event) (s : State) : s.SameStores (s.log e) := { refl s with }

theorem request (p : Pending) (e : Event) (s : State) : s.SameStores (s.request p e) := { refl s with }

theorem raise (e : ErrorKind) (s : State) : s.SameStores (s.raise e) := by
  constructor <;> simp

theorem complete (s : State) : s.SameStores s.complete := by
  constructor <;> simp

theorem afterDrain (s : State) : s.SameStores s.afterDrain := by
  unfold State.afterDrain
  split
  · split
    · unfold checkpoint
      split
      · exact (log _ s).trans (raise _ _)
      · exact (log _ s).trans (setFsm _ _)
    · exact setFsm _ s
  · exact complete s
  · exact complete s

theorem sinkAnswered (bytes : List Byte) (a : SinkAnswer) (s : State) : s.SameStores (s.sinkAnswered bytes a) := by
  cases a with
  | ok =>
    have hd : s.SameStores ((s.answered (.sinkAnswer true)).delivered bytes) := { refl s with }
    exact hd.trans (afterDrain _)
  | err kept =>
    have hk : s.SameStores ((s.answered (.sinkAnswer false)).keptByFailingSink bytes kept) := { refl s with }
    exact hk.trans (raise _ _)

end State.SameStores

/-- The preamble is staged (43_lifecycle.md R192). -/
def State.preambleStaged (s : State) : State :=
  { s with stg := s.stg.write 0 s.params.preamble, stageLen := preLen, hdrWritten := true, fsm := s.afterEnsure }

/-- What a step of the sequencer can store. -/
inductive State.Stores (s : State) : State → Prop
  /-- Nothing; what is staged changes at a DRAIN only, and but for a FLUSH form with nothing accumulated no DRAIN begins. -/
  | nothing {t : State} (h : s.SameStores t)
    (hstage : s.fsm = .drain ∨ (t.stageLen = s.stageLen ∧ (t.fsm = .drain → s.cur.op = .flush ∧ s.accLen = 0))) : s.Stores t
  /-- The pool grants two new buffers. -/
  | leases (ha : s.alloc = false) (rest : List PoolAnswer) : s.Stores (s.granted rest)
  /-- The preamble goes to STG, where nothing is staged. -/
  | preamble (hh : s.hdrWritten = false) (h0 : s.stageLen = 0) (hlen : s.params.preamble.length = preLen) :
    s.Stores s.preambleStaged
  /-- A turn of the copy path. -/
  | copies (he : s.SegmentInv) (hlt : s.consumed.toNat < s.cur.len.toNat)
    (hslow : ¬ (s.accLen = 0 ∧ s.params.block ≤ s.remaining)) : s.Stores s.copied
  /-- EMIT, with the compressor's answer or its failure: no byte below `stage_len` changes. -/
  | packs (he : s.EmitInv) {stg : Buffer} {t : State} (hstg : ∀ x, x < s.stageLen → stg.byte x = s.stg.byte x)
    (h : ({ s with stg := stg } : State).SameStores t) (hlen : t.stageLen = s.stageLen) (hf : t.fsm ≠ .drain) : s.Stores t
  /-- EMIT, with the checksum: the chunk is staged, its block taken. -/
  | chunk (he : s.EmitInv) (cl : Nat) (crc : Word) : s.Stores (s.stgChecksummed cl crc).blockTaken

section
variable {s t : State}

/-- A step outside DRAIN that stores nothing. -/
theorem State.Stores.of_same (h : s.SameStores t) (hlen : t.stageLen = s.stageLen) (hf : t.fsm ≠ .drain) : s.Stores t :=
  .nothing h (.inr ⟨hlen, fun hd => absurd hd hf⟩)

theorem afterEnsure_eq_drain (h : s.afterEnsure = .drain) : s.cur.op = .flush ∧ s.accLen = 0 := by
  unfold afterEnsure at h
  split at h
  · cases h
  · rename_i hop
    split at h
    · cases h
    · exact ⟨hop, by omega⟩
  · cases h

/-- A command that has asked the pool holds no lease (43_lifecycle.md R190). -/
theorem State.Inv.unleased_of_pool (h : s.Inv) (hf : s.fsm = .ensure) (hq : s.pending = .pool) : s.alloc = false := by
  obtain ⟨-, hp⟩ := h
  simp only [hf] at hp
  rcases hp.asks with hn | ⟨-, ha⟩
  · rw [hq] at hn; cases hn
  · exact ha

theorem ensureStep_stores (h : s.BaseInv) (hf : s.fsm = .ensure) (ht : ensureStep s = .moved t) : s.Stores t := by
  unfold ensureStep at ht
  split at ht
  · split at ht
    · cases ht; exact .nothing (.setFsm _ s) (.inr ⟨rfl, afterEnsure_eq_drain⟩)
    · rename_i hh
      have hh : s.hdrWritten = false := by simpa using hh
      obtain ⟨rfl, -⟩ := stagePreamble_ok (Progress.of_eq_moved.1 ht)
      exact .preamble hh (h.unstaged hh).2.1 (paramsWf_preamble h.paramsWf)
  · cases ht; exact .of_same (.request _ _ s) rfl (by simp [hf])

theorem poolStep_stores (ha : s.alloc = false) (ht : poolStep s = .moved t) : s.Stores t := by
  unfold poolStep at ht
  split at ht
  · cases ht
  · cases ht; exact .leases ha _
  · rename_i rest _
    cases ht
    have hr : s.SameStores (State.answered (.poolAnswer .refused) { s with poolAnswers := rest }) :=
      { SameStores.refl s with pool := fun h => by rw [ha] at h; cases h }
    exact .of_same (hr.trans (.raise _ _)) (by simp) (by simp)

theorem segmentStep_stores (he : s.SegmentInv) (ht : segmentStep s = .moved t) : s.Stores t := by
  unfold segmentStep at ht
  split at ht
  · split at ht
    · cases ht; exact .of_same (.setFsm _ s) rfl nofun
    · rw [copyToAcc_eq he] at ht
      cases ht
      exact .copies he ‹_› ‹_›
  · cases ht; exact .of_same (.complete s) (by simp) (by simp)

theorem compressAnswered_stores {blk : List Byte} (h : s.BaseInv) (he : s.EmitInv) (hf : s.fsm = .emit)
    (ht : compressAnswered blk s = .moved t) : s.Stores t := by
  have hfails : ∀ e : Event, s.Stores (((s.answered e).stgScribble (s.stageLen + 8)).raise .compress) := fun e => by
    refine .packs he (stg := s.stg.scribble (s.stageLen + 8) s.params.stageSize s.draws) (fun x hx => ?_) ?_ (by simp) (by simp)
    · obtain ⟨v, hv⟩ := Option.isSome_iff_exists.1 (h.stgWritten x hx)
      exact Buffer.byte_scribble_outside (by omega) hv
    · have hs : ({ s with stg := s.stg.scribble (s.stageLen + 8) s.params.stageSize s.draws } : State).SameStores
          ((s.answered e).stgScribble (s.stageLen + 8)) := { SameStores.refl _ with }
      exact hs.trans (.raise _ _)
  unfold compressAnswered at ht
  split at ht
  · cases ht; exact hfails _
  · rename_i payload _
    split at ht
    · cases ht; exact hfails _
    · obtain rfl := packPayload_ok (Progress.of_eq_moved.1 ht)
      have hbelow : ∀ x, x < s.stageLen → (s.stgAsked payload).byte x = s.stg.byte x := fun x hx =>
        byte_packed_below (u := { s with stg := s.stg.scribble (s.stageLen + 8) s.params.stageSize s.draws }) h rfl rfl hx
      exact .packs he hbelow { SameStores.refl ({ s with stg := s.stgAsked payload } : State) with } rfl
        (by simp [hf])

theorem compressorStep_stores (h : s.BaseInv) (he : s.EmitInv) (hf : s.fsm = .emit) (ht : compressorStep s = .moved t) :
    s.Stores t := by
  unfold compressorStep at ht
  split at ht
  · split at ht
    · exact compressAnswered_stores h he hf ht
    · cases ht
  · cases ht

theorem checksumStep_stores {cl : Nat} (he : s.EmitInv) (ht : checksumStep cl s = .moved t) : s.Stores t := by
  unfold checksumStep at ht
  split at ht
  · split at ht
    · obtain rfl := packChecksum_ok (Progress.of_eq_moved.1 ht)
      exact .chunk he _ _
    · cases ht
  · cases ht

theorem drainStep_stores (hf : s.fsm = .drain) (ht : drainStep s = .moved t) : s.Stores t := by
  unfold drainStep at ht
  split at ht
  · cases ht; exact .nothing (.afterDrain s) (.inl hf)
  · split at ht
    · cases ht; exact .nothing (.request _ _ s) (.inl hf)
    · cases ht

theorem sinkStep_stores (hf : s.fsm = .drain) (ht : sinkStep s = .moved t) : s.Stores t := by
  unfold sinkStep at ht
  split at ht
  · cases ht
  · rename_i a rest _
    split at ht
    · cases ht
      have hr : s.SameStores { s with sinkAnswers := rest } := { SameStores.refl s with }
      exact .nothing (hr.trans (.sinkAnswered _ _ _)) (.inl hf)
    · cases ht

/-- What any step of the sequencer can store, by phase and request. -/
theorem tick_stores (h : s.Inv) (ht : tick s = .moved t) : s.Stores t := by
  rcases tick_moved_cases ht with ⟨hf, -, ht⟩ | ⟨hf, hq, ht⟩ | ⟨hf, -, ht⟩ | ⟨hf, -, ht⟩ | ⟨hf, -, ht⟩ | ⟨cl, hf, -, ht⟩ |
    ⟨hf, -, ht⟩ | ⟨hf, -, ht⟩
  · exact ensureStep_stores h.1 hf ht
  · exact poolStep_stores (h.unleased_of_pool hf hq) ht
  · exact segmentStep_stores (h.segment hf) ht
  · cases ht; exact .of_same (.request _ _ s) rfl (by simp [hf])
  · exact compressorStep_stores h.1 (h.emit hf) hf ht
  · exact checksumStep_stores (h.emit hf) ht
  · exact drainStep_stores hf ht
  · exact sinkStep_stores hf ht

/-! ### The world outside -/

/-- From `s` to `t` the sequencer has not touched the host's signals; a lease stays, and where one is held no answer of the pool
is taken (43_lifecycle.md R190). -/
structure State.HoldsWorld (s t : State) : Prop where
  cancelReq : t.cancelReq = s.cancelReq
  readData : t.readData = s.readData
  alloc : s.alloc = true → t.alloc = true
  pool : s.alloc = true → t.poolAnswers = s.poolAnswers

theorem State.SameStores.holdsWorld (h : s.SameStores t) : s.HoldsWorld t :=
  ⟨h.cancelReq, h.readData, fun ha => h.alloc.trans ha, h.pool⟩

theorem State.HoldsWorld.trans {u : State} (h : s.HoldsWorld t) (k : t.HoldsWorld u) : s.HoldsWorld u :=
  ⟨k.cancelReq.trans h.cancelReq, k.readData.trans h.readData, fun ha => k.alloc (h.alloc ha),
    fun ha => (k.pool (h.alloc ha)).trans (h.pool ha)⟩

theorem State.Stores.holdsWorld (h : s.Stores t) : s.HoldsWorld t := by
  cases h with
  | nothing h _ => exact h.holdsWorld
  | leases ha _ => exact ⟨rfl, rfl, fun _ => rfl, fun h => by rw [ha] at h; cases h⟩
  | preamble _ _ _ => exact ⟨rfl, rfl, id, fun _ => rfl⟩
  | copies _ _ _ => exact ⟨rfl, rfl, id, fun _ => rfl⟩
  | packs _ _ h _ _ => exact { h.holdsWorld with }
  | chunk he cl crc =>
    rcases blockSpace_of_emit he.block with ⟨hsp, -⟩ | hsp
    · rw [blockTaken_src (u := s.stgChecksummed cl crc) hsp]
      exact ⟨rfl, rfl, id, fun _ => rfl⟩
    · rw [blockTaken_acc (u := s.stgChecksummed cl crc) hsp]
      exact ⟨rfl, rfl, id, fun _ => rfl⟩

theorem reaches_holdsWorld (hs : s.Safe) (h : ReflTransGen Moves s t) : s.HoldsWorld t := by
  induction h with
  | refl => exact (SameStores.refl s).holdsWorld
  | tail hr hm ih => exact ih.trans (tick_stores (reaches_keeps_safe hs hr).1 hm.2).holdsWorld

end

end Sys2Proof.Machine
end

section
/-! SUPPORT. The addresses of ACC and STG that a running WRITE form can still store to, and that it stores to no others
(40_write.md R114, R121, 42_chunk_emit.md R161, R169). -/

namespace Sys2Proof.Machine

open State Relation

/-! ### The addresses that a running WRITE form can still store to -/

/-- The ACC addresses a running WRITE form can still store to. -/
def State.accAhead (s : State) (x : Nat) : Prop := s.accStores s.remaining x

/-- The STG addresses a running WRITE form can still store to. -/
def State.stgAhead (s : State) (x : Nat) : Prop := s.stgStores (s.bytesAhead / s.params.block) x

/-- From `s` to `t` a WRITE form has stored to the addresses ahead only, and it has no others ahead of it now. -/
structure State.StoresAhead (s t : State) : Prop where
  params : t.params = s.params
  acc : ∀ x, ¬ s.accAhead x → t.acc.byte x = s.acc.byte x
  accAhead : ∀ x, t.accAhead x → s.accAhead x
  stg : ∀ x, x < s.params.stageSize → ¬ s.stgAhead x → t.stg.byte x = s.stg.byte x
  stgAhead : ∀ x, t.stgAhead x → s.stgAhead x

theorem State.StoresAhead.refl (s : State) : s.StoresAhead s := ⟨rfl, fun _ _ => rfl, fun _ => id, fun _ _ _ => rfl, fun _ => id⟩

theorem State.StoresAhead.trans {s t u : State} (h : s.StoresAhead t) (k : t.StoresAhead u) : s.StoresAhead u where
  params := k.params.trans h.params
  acc x hx := (k.acc x fun ht => hx (h.accAhead x ht)).trans (h.acc x hx)
  accAhead x hx := h.accAhead x (k.accAhead x hx)
  stg x hlt hx := (k.stg x (by rw [h.params]; exact hlt) fun ht => hx (h.stgAhead x ht)).trans (h.stg x hlt hx)
  stgAhead x hx := h.stgAhead x (k.stgAhead x hx)

section
variable {s t : State}

/-- What is ahead in ACC depends on these fields only. -/
theorem accAhead_congr (hp : t.params = s.params) (hc : t.cur = s.cur) (ha : t.accLen = s.accLen)
    (hn : t.consumed = s.consumed) (x : Nat) : t.accAhead x ↔ s.accAhead x := by
  simp only [State.accAhead, accStores, remaining, hp, hc, ha, hn]

theorem bytesAhead_congr (hc : t.cur = s.cur) (ha : t.accLen = s.accLen) (hn : t.consumed = s.consumed) :
    t.bytesAhead = s.bytesAhead := by
  simp only [bytesAhead, remaining, hc, ha, hn]

/-- What a step that stores nothing has ahead of it was ahead. -/
theorem State.SameStores.storesAhead (h : s.SameStores t) (hop : s.cur.op = .write)
    (hstage : s.fsm = .drain ∨ (t.stageLen = s.stageLen ∧ (t.fsm = .drain → s.cur.op = .flush ∧ s.accLen = 0))) :
    s.StoresAhead t where
  params := h.params
  acc x _ := by rw [h.acc]
  accAhead x := (accAhead_congr h.params h.cur h.accLen h.consumed x).1
  stg x _ _ := by rw [h.stg]
  stgAhead x := by
    unfold State.stgAhead stgStores
    rw [bytesAhead_congr h.cur h.accLen h.consumed, h.params, h.hdrWritten]
    rintro ⟨hlt, hpre | ⟨hn, hx⟩⟩
    · exact ⟨hlt, .inl hpre⟩
    · refine ⟨hlt, .inr ⟨hn, ?_⟩⟩
      rcases hstage with hd | ⟨hlen, hd⟩
      · exact .inr (.inl hd)
      · rcases hx with h2 | htd | hx
        · exact .inl h2
        · have hflush := (hd htd).1
          rw [hop] at hflush; cases hflush
        · exact .inr (.inr (hlen ▸ hx))

/-- The preamble goes to the addresses below its length, and a chunk behind it (42_chunk_emit.md R169). -/
theorem preambleStaged_storesAhead (hh : s.hdrWritten = false) (h0 : s.stageLen = 0) (hlen : s.params.preamble.length = preLen) :
    s.StoresAhead s.preambleStaged where
  params := rfl
  acc _ _ := rfl
  accAhead _ := id
  stg x hlt hx := by
    refine Buffer.byte_write_outside (.inr ?_)
    by_contra hin
    exact hx ⟨hlt, .inl ⟨hh, by omega⟩⟩
  stgAhead x := by
    rintro ⟨hlt, ⟨hpre, -⟩ | ⟨hn, -⟩⟩
    · cases hpre
    · exact ⟨hlt, .inr ⟨hn, .inr (.inr (by omega))⟩⟩

/-- The addresses that a turn of the copy path fills are ahead (40_write.md R114). -/
theorem accAhead_of_copied (hslow : ¬ (s.accLen = 0 ∧ s.params.block ≤ s.remaining)) {x : Nat} (hlo : s.accLen ≤ x)
    (hhi : x < s.accLen + s.copyLen) : s.accAhead x := by
  unfold State.accAhead accStores
  unfold copyLen at hhi
  split
  · rename_i h0
    rw [Nat.mod_eq_of_lt (by omega)]
    omega
  · exact .inl ⟨hlo, by omega⟩

/-- What is ahead of the copy path after a turn was ahead before it. -/
theorem accAhead_of_accAhead_copied (he : s.SegmentInv) (hlt : s.consumed.toNat < s.cur.len.toNat)
    (hslow : ¬ (s.accLen = 0 ∧ s.params.block ≤ s.remaining)) {x : Nat} (hx : s.copied.accAhead x) : s.accAhead x := by
  have hk := copyLen_pos he hlt
  have hle := (copyLen_le s).1
  have hmin : s.copyLen = min s.remaining (s.params.block - s.accLen) := rfl
  have hacc : s.copied.accLen = s.accLen + s.copyLen := rfl
  have hrem : s.copied.remaining = s.remaining - s.copyLen := by
    rw [remaining, copied_consumed, remaining]
    show s.cur.len.toNat - _ = _
    omega
  have hsum : s.accLen + s.copyLen + (s.remaining - s.copyLen) = s.accLen + s.remaining := by omega
  unfold State.accAhead accStores at hx ⊢
  rw [hacc, hrem, hsum, if_neg (by omega), show s.copied.params = s.params from rfl] at hx
  split
  · omega
  · exact hx.imp_left fun ⟨hlo, hhi⟩ => ⟨by omega, hhi⟩

theorem copied_storesAhead (he : s.SegmentInv) (hlt : s.consumed.toNat < s.cur.len.toNat)
    (hslow : ¬ (s.accLen = 0 ∧ s.params.block ≤ s.remaining)) : s.StoresAhead s.copied where
  params := rfl
  acc x hx := by
    refine copied_outside ?_
    by_contra hin
    exact hx (accAhead_of_copied hslow (by omega) (by omega))
  accAhead x := accAhead_of_accAhead_copied he hlt hslow
  stg _ _ _ := rfl
  stgAhead x := by
    have hahead : s.copied.bytesAhead = s.bytesAhead := bytesAhead_copy (copyLen_le s).1 rfl rfl rfl
    have hnot : s.copied.fsm ≠ .drain := by
      unfold copied
      dsimp only
      split <;> nofun
    unfold State.stgAhead stgStores
    rw [hahead]
    rintro ⟨hb, hpre | ⟨hn, h2 | hd | hx⟩⟩
    · exact ⟨hb, .inl hpre⟩
    · exact ⟨hb, .inr ⟨hn, .inl h2⟩⟩
    · exact absurd hd hnot
    · exact ⟨hb, .inr ⟨hn, .inr (.inr hx)⟩⟩

/-- A WRITE form that emits has a block ahead. -/
theorem block_le_bytesAhead (hop : s.cur.op = .write) (hblk : s.BlockReady) : s.params.block ≤ s.bytesAhead := by
  rcases hblk with ⟨hflush, -, -⟩ | ⟨-, hfull⟩ | ⟨-, -, hle⟩
  · rw [hop] at hflush; cases hflush
  · rw [bytesAhead]; omega
  · rw [bytesAhead]; omega

/-- While a WRITE form emits, STG can be stored to from `stage_len` on (42_chunk_emit.md R161). -/
theorem stgAhead_of_emit (hB : 0 < s.params.block) (hop : s.cur.op = .write) (hblk : s.BlockReady) {x : Nat}
    (hlt : x < s.params.stageSize) (hx : s.stageLen ≤ x) : s.stgAhead x :=
  ⟨hlt, .inr ⟨Nat.div_pos (block_le_bytesAhead hop hblk) hB, .inr (.inr hx)⟩⟩

theorem packed_storesAhead (hB : 0 < s.params.block) (hop : s.cur.op = .write) (hblk : s.BlockReady) {stg : Buffer}
    (hstg : ∀ x, x < s.stageLen → stg.byte x = s.stg.byte x) : s.StoresAhead { s with stg := stg } where
  params := rfl
  acc _ _ := rfl
  accAhead _ := id
  stg x hlt hx := hstg x (Nat.lt_of_not_le fun hle => hx (stgAhead_of_emit hB hop hblk hlt hle))
  stgAhead _ := id

/-- What is ahead in ACC behind a block was ahead with it: what is left after the last full block is the same. -/
theorem accAhead_of_accAhead_blockTaken (hB : 0 < s.params.block) (hop : s.cur.op = .write) (hblk : s.BlockReady) {u : State}
    (hparams : u.params = s.params) (hcur : u.cur = s.cur) (hacc : u.accLen = s.accLen) (hcons : u.consumed = s.consumed)
    {x : Nat} (hx : u.blockTaken.accAhead x) : s.accAhead x := by
  have hahead := bytesAhead_blockTaken hB hblk hop hparams hcur hacc hcons
  have hzero : u.blockTaken.accLen = 0 := by
    unfold blockTaken
    rcases hblk with ⟨hflush, -, -⟩ | ⟨-, hfull⟩ | ⟨-, h0, -⟩
    · rw [hop] at hflush; cases hflush
    · have hsp : u.blockSpace = .acc := by simp [blockSpace, hcur, hop, hacc, hfull, Nat.pos_iff_ne_zero.1 hB]
      rw [hsp]
    · have hsp : u.blockSpace = .src := by simp [blockSpace, hcur, hop, hacc, h0]
      rw [hsp]
      exact hacc.trans h0
  have hmod : (s.accLen + s.remaining) % s.params.block = u.blockTaken.remaining % s.params.block := by
    show s.bytesAhead % _ = _
    rw [hahead, Nat.add_mod_right, bytesAhead, hzero, Nat.zero_add]
  have hle := block_le_bytesAhead hop hblk
  unfold State.accAhead accStores at hx ⊢
  rw [if_pos hzero, blockTaken_params, hparams, ← hmod] at hx
  split
  · rename_i h0
    rwa [h0, Nat.zero_add] at hx
  · exact .inr ⟨hle, hx⟩

theorem chunk_storesAhead (hB : 0 < s.params.block) (hop : s.cur.op = .write) (he : s.EmitInv) (cl : Nat) (crc : Word) :
    s.StoresAhead (s.stgChecksummed cl crc).blockTaken where
  params := blockTaken_params _
  acc x _ := by
    unfold blockTaken
    cases (s.stgChecksummed cl crc).blockSpace <;> rfl
  accAhead x := accAhead_of_accAhead_blockTaken (u := s.stgChecksummed cl crc) hB hop he.block rfl rfl rfl rfl
  stg x hlt hx := by
    rw [blockTaken_stg]
    exact Buffer.byte_write_outside
      (.inl (Nat.lt_of_not_le fun hle => hx (stgAhead_of_emit hB hop he.block hlt (by omega))))
  stgAhead x := by
    have hahead := bytesAhead_blockTaken (u := s.stgChecksummed cl crc) hB he.block hop rfl rfl rfl rfl
    unfold State.stgAhead stgStores
    rw [blockTaken_params, blockTaken_hdrWritten, hahead, Nat.add_div_right _ hB]
    rintro ⟨hlt, hpre | ⟨hn, -⟩⟩
    · exact ⟨hlt, .inl hpre⟩
    · exact ⟨hlt, .inr ⟨Nat.le_add_left 1 _, .inl (Nat.succ_le_succ hn)⟩⟩

/-- A step of a WRITE form that holds a lease stores to the addresses ahead only. -/
theorem State.Stores.storesAhead (h : s.Stores t) (hB : 0 < s.params.block) (hop : s.cur.op = .write) (ha : s.alloc = true) :
    s.StoresAhead t := by
  cases h with
  | nothing h hstage => exact h.storesAhead hop hstage
  | leases hno _ => rw [ha] at hno; cases hno
  | preamble hh h0 hlen => exact preambleStaged_storesAhead hh h0 hlen
  | copies he hlt hslow => exact copied_storesAhead he hlt hslow
  | packs he hstg h hlen hf =>
    exact (packed_storesAhead hB hop he.block hstg).trans
      (h.storesAhead hop (.inr ⟨hlen, fun hd => absurd hd hf⟩))
  | chunk he cl crc => exact chunk_storesAhead hB hop he cl crc

/-- So does the sequencer, however far it goes. -/
theorem reaches_storesAhead (hs : s.Safe) (hop : s.cur.op = .write) (ha : s.alloc = true) (h : ReflTransGen Moves s t) :
    s.StoresAhead t := by
  induction h with
  | refl => exact .refl s
  | tail hr hm ih =>
    have hm' := reaches_keeps_safe hs hr
    have hheld := reaches_holdsOperands hr
    exact ih.trans ((tick_stores hm'.1 hm.2).storesAhead (paramsWf_block hm'.1.1.paramsWf) (by rw [hheld.cur]; exact hop)
      ((reaches_holdsWorld hs hr).alloc ha))

end

end Sys2Proof.Machine
end

section
/-! PROOFS. The frame of the WRITE forms (40_write.md R110 to R115, R121), and a WRITE form of one block (R120). -/

namespace Sys2Proof.Machine

open State Relation

/-! ### A step of a busy machine -/

/-- From `s` to `u` the world outside has made a move: it takes an input, and each field of the world changes by its own input
only. -/
structure State.TakesInput (s u : State) : Prop where
  moves : s.WorldMoves u
  world : s.WorldByInput u
  pool : (∀ a, s.inputs.head? ≠ some (.pool a)) → u.poolAnswers = s.poolAnswers

theorem State.TakesInput.takes (s : State) : s.TakesInput { s with inputs := s.inputs.tail } :=
  ⟨.takes s, ⟨rfl, fun _ => rfl, fun _ => rfl, fun _ => rfl, fun _ => rfl, fun _ => rfl⟩, fun _ => rfl⟩

theorem exec_ne_next_of_busy {s t : State} {i : Instr} (hb : s.busy = true) : exec i s ≠ .next t := fun h => by
  obtain ⟨-, hidle, -⟩ := exec_cases h
  rw [hb] at hidle; cases hidle

/-- A busy machine ignores what is written to a register that it does not refuse. -/
theorem step_busy_csrWrite {s t : State} {a width : Nat} {v : Word} {rest : List Input} (hw : s.params.wf = true)
    (hb : s.busy = true) (hin : s.inputs = .csrWrite a width v :: rest) (h : step s = .next t) :
    t = { s with inputs := rest } := by
  rw [step, nextMove_csrWrite hw hin] at h
  rcases csrWrite_cases a width v { s with inputs := rest } with hc | hc | hc | hc <;> rw [hc] at h <;> simp only at h
  · split at h
    · exact absurd h (exec_ne_next_of_busy (by exact hb))
    · have hidle := (illegalCommand_next h).1
      rw [show s.busy = false from hidle] at hb; cases hb
  · rw [srcLenWrite, if_pos (by exact hb)] at h; cases h
  · cases h; rfl
  · cases h

/-- A step of a busy machine: behind a move of the world outside, which its input says, the sequencer goes on. -/
theorem step_busy_takes {s t : State} (hb : s.busy = true) (h : step s = .next t) :
    ∃ u, s.TakesInput u ∧ ReflTransGen Moves u t := by
  obtain ⟨hw, -⟩ := step_cases h
  have hresume : ∀ {u : State}, resume u = .next t → s.TakesInput u → ∃ u, s.TakesInput u ∧ ReflTransGen Moves u t :=
    fun hu ht => ⟨_, ht, reaches_of_resume hu⟩
  have hstay : ∀ {u : State}, (.next u : Host.Outcome State Fault Refusal) = .next t → s.TakesInput u →
      ∃ u, s.TakesInput u ∧ ReflTransGen Moves u t := fun hu ht => by cases hu; exact ⟨_, ht, .refl⟩
  have hhead : ∀ {input : Input} {rest : List Input}, s.inputs = input :: rest → s.inputs.head? = some input :=
    fun hin => by rw [hin]; rfl
  obtain ⟨hmoves, hworld, hpool⟩ := TakesInput.takes s
  cases hin : s.inputs with
  | nil =>
    have hu : s.TakesInput s :=
      ⟨{ hmoves with inputs := by simp [hin] }, { hworld with inputs := by simp [hin] }, fun _ => rfl⟩
    rw [step, nextMove_nil hw hin] at h
    simp only at h
    split at h
    · exact hresume h hu
    · exact ⟨s, hu, reaches_of_run h⟩
  | cons input rest =>
    have htail : s.inputs.tail = rest := by rw [hin]; rfl
    rw [htail] at hmoves hworld hpool
    cases input with
    | csrWrite a width v =>
      obtain rfl := step_busy_csrWrite hw hb hin h
      exact ⟨_, ⟨hmoves, hworld, hpool⟩, .refl⟩
    | csrRead a width =>
      rw [step, nextMove_csrRead hw hin] at h
      simp only [csrRead] at h
      split at h
      · exact hstay h ⟨{ hmoves with }, { hworld with readData := fun hne => absurd (hhead hin) (hne a width) }, hpool⟩
      · cases h
    | lend d =>
      rw [step, nextMove_lend hw hin] at h
      simp only [lendSrc] at h
      split at h
      · cases h
      · rename_i hfree
        exact hstay h ⟨{ hmoves with
          srcWf := fun _ => Memory.wf_write rfl _ _
          src := .inr (.inr fun hop => hfree ⟨hb, hop⟩) }, { hworld with }, hpool⟩
    | cancel v =>
      rw [step, nextMove_cancel hw hin] at h
      exact hstay h ⟨{ hmoves with }, { hworld with cancelReq := fun hne => absurd (hhead hin) (hne v) }, hpool⟩
    | construct =>
      rw [step, nextMove_construct hw hin] at h
      simp only [constructInstance] at h
      rw [if_pos (.inr hb)] at h
      cases h
    | pool a =>
      rw [step, nextMove_pool hw hin] at h
      exact hresume h ⟨{ hmoves with }, { hworld with }, fun hne => absurd (hhead hin) (hne a)⟩
    | sink a =>
      rw [step, nextMove_sink hw hin] at h
      exact hresume h ⟨{ hmoves with }, { hworld with }, hpool⟩
    | compressor r =>
      rw [step, nextMove_compressor hw hin] at h
      exact hresume h ⟨{ hmoves with }, { hworld with compressorReady := fun hne => absurd (hhead hin) (hne r) }, hpool⟩
    | checksum r =>
      rw [step, nextMove_checksum hw hin] at h
      exact hresume h ⟨{ hmoves with }, { hworld with checksumReady := fun hne => absurd (hhead hin) (hne r) }, hpool⟩
    | pace e =>
      rw [step, nextMove_pace hw hin] at h
      exact hresume h ⟨{ hmoves with }, { hworld with eager := fun hne => absurd (hhead hin) (hne e) }, hpool⟩
    | tick =>
      rw [step, nextMove_tick hw hin] at h
      exact ⟨_, ⟨hmoves, hworld, hpool⟩, reaches_of_run h⟩

/-- The sequencer touches no field of the world outside but the agents' answers. -/
theorem State.WorldByInput.of_reaches {s u t : State} (h : s.WorldByInput u) (hu : u.Safe) (hr : ReflTransGen Moves u t) :
    s.WorldByInput t := by
  have hadv := reaches_advances hr
  have hheld := reaches_holdsWorld hu hr
  exact ⟨hadv.inputs.trans h.inputs, fun hne => hheld.cancelReq.trans (h.cancelReq hne),
    fun hne => hadv.compressorReady.trans (h.compressorReady hne), fun hne => hadv.checksumReady.trans (h.checksumReady hne),
    fun hne => hadv.eager.trans (h.eager hne), fun hne => hheld.readData.trans (h.readData hne)⟩

theorem State.LeadsTo.disposed {s t : State} (h : s.LeadsTo t) : t.disposed = s.disposed := by
  cases h with
  | goesOn h => exact h.disposed
  | fails h _ => rw [raise_disposed]; exact h.disposed
  | completes h _ _ => rw [complete_disposed]; exact h.disposed

/-! ### The step that starts a form -/

/-- A form that does not start ends at once, and leaves machine and world as they were (60_exceptions.md R221). -/
theorem exec_form_cases {i : Instr} {s t : State} (hop : i.op ≠ .dispose) (h : exec i s = .next t) :
    (t.busy = false ∧ s.SameInstance t ∧ s.SameWorld t) ∨ (s.Starts i ∧ ReflTransGen Moves (s.started i) t) := by
  obtain ⟨-, -, hx⟩ := exec_cases h
  cases hx with
  | rejected _ e he =>
    refine .inl ⟨by simp, ?_, ?_⟩
    · constructor <;> simp [he]
    · constructor <;> simp
  | cancelled _ _ _ _ _ =>
    refine .inl ⟨by simp, ?_, ?_⟩
    · constructor <;> simp [ErrorKind.poisons]
    · constructor <;> simp
  | starts hst hr => exact .inr ⟨hst, reaches_of_resume hr⟩
  | disposes hd _ => exact absurd hd hop
  | disposedAlready hd _ => exact absurd hd hop

/-! ### The frame -/

/-- The world behind an input has the same addresses ahead. -/
theorem State.WorldMoves.storesAhead {s u : State} (h : s.WorldMoves u) : s.StoresAhead u where
  params := h.params
  acc _ _ := by rw [h.acc]
  accAhead x := (accAhead_congr h.params h.cur h.accLen h.consumed x).1
  stg _ _ _ := by rw [h.stg]
  stgAhead x := by
    unfold State.stgAhead stgStores
    rw [bytesAhead_congr h.cur h.accLen h.consumed, h.params, h.hdrWritten, h.fsm, h.stageLen]
    exact id

/-- A form that starts has the addresses ahead that the idle machine says. -/
theorem stgStores_of_started {i : Instr} {s : State} {x : Nat} (h : (s.started i).stgAhead x) :
    s.stgStores ((s.accLen + s.srcLen.toNat) / s.params.block) x := by
  obtain ⟨hlt, hpre | ⟨hn, h2 | hd | hx⟩⟩ := h
  · exact ⟨hlt, .inl hpre⟩
  · exact ⟨hlt, .inr ⟨hn, .inl h2⟩⟩
  · cases hd
  · exact ⟨hlt, .inr ⟨hn, .inr (.inr hx)⟩⟩

/-- Settles O42: a form that does not start changes nothing; one that does, and one in progress behind the world's move, runs as
the sequencer does, which stores to the addresses ahead only. -/
theorem writeFrame : Obligations.WriteFrame := by
  unfold Obligations.WriteFrame
  constructor
  · intro i s t hop hs hb h
    have hform : i.op ≠ .dispose := by rw [hop]; decide
    rcases exec_form_cases hform h with ⟨hidle, hi, hw⟩ | ⟨hst, hr⟩
    · exact ⟨hi.params, hi.srcLen, hi.disposed, fun hh => hi.hdrWritten.trans hh, fun hp => hi.poisoned.trans hp, hw.cancelReq,
        hw.inputs, hw.compressorReady, hw.checksumReady, hw.eager, hw.readData,
        fun ha => ⟨hi.alloc.trans ha, hi.hdrWritten, hw.poolAnswers, fun x _ => by rw [hi.acc], fun x _ _ => by rw [hi.stg]⟩,
        fun hbusy => absurd hbusy (by simp [hidle]), by rw [hi.sinkStream]⟩
    · have hsafe := started_safe_of_starts hst hs
      have hadv := reaches_advances hr
      have hheld := reaches_holdsOperands hr
      have hworld := reaches_holdsWorld hsafe hr
      have hleads := reaches_leadsTo hsafe hr
      have hflags := hleads.flagsStick
      refine ⟨hadv.params, hheld.srcLen, hleads.disposed, hflags.hdrWritten, hflags.poisoned, hworld.cancelReq, hadv.inputs,
        hadv.compressorReady, hadv.checksumReady, hadv.eager, hworld.readData, fun ha => ?_, hheld.src, hadv.sinkStream⟩
      have hstores := reaches_storesAhead hsafe hop ha hr
      have hh : s.hdrWritten = true := (hs.1.idle_phase hb).2.leased ha
      exact ⟨hworld.alloc ha, (hflags.hdrWritten hh).trans hh.symm, hworld.pool ha, hstores.acc,
        fun x hlt hx => hstores.stg x hlt fun hstg => hx (stgStores_of_started hstg)⟩
  · intro s t hs hb hop h
    obtain ⟨u, ⟨hmoves, hworld, hpool⟩, hr⟩ := step_busy_takes hb h
    have hsafe := hmoves.keeps_safe hs
    have hadv := reaches_advances hr
    have hheld := reaches_holdsOperands hr
    have hseq := reaches_holdsWorld hsafe hr
    have hleads := reaches_leadsTo hsafe hr
    have hflags := hleads.flagsStick
    refine ⟨hadv.params.trans hmoves.params, hheld.srcLen.trans (hmoves.srcLen hb), hheld.cur.trans hmoves.cur,
      hleads.disposed.trans hmoves.disposed, fun hh => hflags.hdrWritten (hmoves.hdrWritten.trans hh),
      fun hp => hflags.poisoned (hmoves.poisoned.trans hp), hworld.of_reaches hsafe hr, fun ha => ?_,
      fun hbusy => (hheld.src hbusy).trans (hmoves.src_of_write hb hop), hmoves.sinkStream ▸ hadv.sinkStream⟩
    have hua : u.alloc = true := hmoves.alloc.trans ha
    have hstores := hmoves.storesAhead.trans (reaches_storesAhead hsafe (by rw [hmoves.cur]; exact hop) hua hr)
    exact ⟨hseq.alloc hua, fun hne => (hseq.pool hua).trans (hpool hne), hstores.acc, hstores.stg⟩

/-! ### A WRITE form of one block -/

/-- From `s` to `t` a WRITE form that has only full blocks to take from SRC has not written ACC: it has the buffer it had, or a
new one where it has got a lease since. -/
structure State.KeepsAcc (s t : State) : Prop where
  alloc : s.alloc = true → t.alloc = true
  accLen : t.accLen = 0
  acc : t.acc.mem = if s.alloc then s.acc.mem else if t.alloc then .empty else s.acc.mem

theorem State.KeepsAcc.of_same {s t : State} (h0 : s.accLen = 0) (ha : t.alloc = s.alloc) (hl : t.accLen = s.accLen)
    (hacc : t.acc = s.acc) : s.KeepsAcc t where
  alloc h := ha.trans h
  accLen := hl.trans h0
  acc := by
    rw [hacc, ha]
    split <;> rfl

theorem State.KeepsAcc.trans {s t u : State} (h : s.KeepsAcc t) (k : t.KeepsAcc u) : s.KeepsAcc u where
  alloc ha := k.alloc (h.alloc ha)
  accLen := k.accLen
  acc := by
    rw [k.acc]
    have hacc := h.acc
    cases hs : s.alloc with
    | true => simpa [hs, h.alloc hs] using hacc
    | false =>
      cases ht : t.alloc with
      | true => simpa [hs, ht, k.alloc ht] using hacc
      | false => simpa [hs, ht] using congrArg (fun m => if u.alloc then Memory.empty else m) hacc

/-- Where less than a block is never left to take, the copy path is never taken (40_write.md R113). -/
theorem State.Stores.keepsAcc {s t : State} (h : s.Stores t) (hop : s.cur.op = .write) (h0 : s.accLen = 0)
    (hmod : s.bytesAhead % s.params.block = 0) : s.KeepsAcc t := by
  cases h with
  | nothing h _ => exact .of_same h0 h.alloc h.accLen h.acc
  | leases ha rest => exact ⟨fun _ => rfl, h0, by rw [if_neg (by simp [ha])]; rfl⟩
  | preamble _ _ _ => exact .of_same h0 rfl rfl rfl
  | copies he hlt hslow =>
    rw [bytesAhead, h0, Nat.zero_add] at hmod
    have hrem : s.remaining = s.cur.len.toNat - s.consumed.toNat := rfl
    rw [Nat.mod_eq_of_lt (by omega)] at hmod
    omega
  | packs _ _ h _ _ => exact .of_same h0 h.alloc h.accLen h.acc
  | chunk he cl crc =>
    have hsp : (s.stgChecksummed cl crc).blockSpace = .src := by
      rw [show (s.stgChecksummed cl crc).blockSpace = s.blockSpace from rfl]
      simp [blockSpace, hop, h0]
    rw [blockTaken_src hsp]
    exact .of_same h0 rfl rfl rfl

theorem reaches_keepsAcc {s t : State} (hs : s.Safe) (hb : s.busy = true) (hop : s.cur.op = .write) (h0 : s.accLen = 0)
    (hmod : s.bytesAhead % s.params.block = 0) (h : ReflTransGen Moves s t) : s.KeepsAcc t := by
  induction h with
  | refl => exact .of_same h0 rfl rfl rfl
  | tail hr hm ih =>
    have hcuts := reaches_cutsInput hs hb hop hr (.inl hm.1)
    refine ih.trans ((tick_stores (reaches_keeps_safe hs hr).1 hm.2).keepsAcc (by rw [hcuts.cur]; exact hop) ih.accLen ?_)
    rw [(reaches_advances hr).params]
    exact hcuts.tail.trans hmod

/-- Settles O39: the one block is the whole input, and the copy path is never taken. -/
theorem oneBlockWriteEmitsOneChunk : Obligations.OneBlockWriteEmitsOneChunk := by
  unfold Obligations.OneBlockWriteEmitsOneChunk
  intro i s c rest hi h h0 hlen hc hle ha
  have hB := paramsWf_block h.safe.1.1.paramsWf
  have hi : s.Writes i := hi
  have hst := hi.starts h
  have hwrite : s.toWrite = s.lent := by simp [toWrite, accumulated, h0]
  have hlent : s.lent.length = s.params.block := by rw [lent, Buffer.length_bytes, hlen]
  have hblocks : fullBlocks s.params.block s.toWrite = [s.lent] := by
    rw [hwrite, fullBlocks_of_le hB (by omega), ← hlent, List.take_length, List.drop_length, hlent,
      fullBlocks_of_lt (by simpa using hB)]
  have hcount : (s.accLen + s.srcLen.toNat) / s.params.block = 1 := by rw [h0, hlen, Nat.zero_add, Nat.div_self hB]
  obtain ⟨t, hx, hw⟩ := write_done (rest := rest) hi h
    (by rw [hblocks]; exact fun b hb => by
          rw [List.mem_singleton] at hb
          rw [hb, hlent]
          exact ⟨c, hc, hle⟩)
    (by rw [hblocks]; exact ha)
  have hsink := hw.sinkStream
  rw [hblocks, if_neg (by simp)] at hsink
  have hdelivered : t.sinkStream = s.sinkStream ++ s.duePreamble ++ s.params.chunk s.lent c := by
    rw [hsink, ← List.append_assoc]
    simp [Params.wire, Params.withPayload, hc]
  have hne : t.sinkStream ≠ [] := by
    have hpos : 0 < (s.params.chunk s.lent c).length := by rw [Params.length_chunk]; omega
    rw [hdelivered]
    exact List.append_ne_nil_of_right_ne_nil _ (List.ne_nil_of_length_pos hpos)
  have hacc : (s.started i).KeepsAcc t := by
    have hmod : (s.accLen + s.srcLen.toNat) % s.params.block = 0 := by rw [h0, hlen, Nat.zero_add, Nat.mod_self]
    exact reaches_keepsAcc (started_safe_of_starts hst h.safe) rfl hi.op h0 hmod
      (reaches_of_resume ((exec_of_starts hst).symm.trans hx))
  refine ⟨t, hx, hw.ended, hw.err, ?_, hacc.accLen, ?_, ?_, ?_, ?_, hdelivered⟩
  · rw [hw.chunks, hcount]
  · rw [hw.stageLen, if_neg hne]
  · rw [hw.consumed, hlen]
  · rw [hw.transfers, hcount]
  · rw [hacc.acc, hw.alloc]
    rfl

end Sys2Proof.Machine
end

section
/-! SUPPORT. What a step of the sequencer in a FLUSH form can ask of the sink, and that it leaves SRC, said once
(41_flush.md R140, R148, 20_memory.md R51). -/

namespace Sys2Proof.Machine

open State Relation

/-- From `s` to `t` nothing has been asked of the sink, and SRC is as it was. -/
structure State.Refrains (s t : State) : Prop where
  src : t.src = s.src
  history : ∃ l, t.history = s.history ++ l ∧ ∀ bs, .sinkTransfer bs ∉ l

theorem releaseSrc_of_flush {s : State} (hop : s.cur.op = .flush) : s.releaseSrc = s := by
  simp [releaseSrc, hop]

namespace State.Refrains

theorem refl (s : State) : s.Refrains s := ⟨rfl, [], by simp⟩

theorem trans {s t u : State} (h : s.Refrains t) (k : t.Refrains u) : s.Refrains u := by
  obtain ⟨l, hl, hln⟩ := h.history
  obtain ⟨m, hm, hmn⟩ := k.history
  exact ⟨k.src.trans h.src, l ++ m, by rw [hm, hl, List.append_assoc], by simp [hln, hmn]⟩

/-- The end of a FLUSH form with an error gives no loan back. -/
theorem raise {s t : State} (h : s.Refrains t) (hop : t.cur.op = .flush) (e : ErrorKind) : s.Refrains (t.raise e) :=
  h.trans ⟨by rw [raise_src, releaseSrc_of_flush hop], [.done e.code], by simp, by simp⟩

/-- Its normal end gives none back either. -/
theorem complete {s t : State} (h : s.Refrains t) (hop : t.cur.op = .flush) : s.Refrains t.complete :=
  h.trans ⟨by rw [complete_src, releaseSrc_of_flush hop], [.done t.err], by simp, by simp⟩

theorem transfers {s t : State} (h : s.Refrains t) : t.transfers = s.transfers := by
  obtain ⟨l, hl, hln⟩ := h.history
  have hnone : l.countP Event.isTransfer = 0 := by
    refine List.countP_eq_zero.2 fun e he hask => ?_
    cases e with
    | sinkTransfer bs => exact hln bs he
    | _ => cases hask
  rw [transfers_append s hl, hnone, Nat.add_zero]

theorem not_asks {s : State} {bs : List Byte} : ¬ s.Refrains (s.request .sink (.sinkTransfer bs)) := fun h => by
  have hcount := h.transfers
  rw [transfers_append s (request_history _ _ s)] at hcount
  simp [Event.isTransfer] at hcount

end State.Refrains

section
variable {s t : State}

theorem ensureStep_refrains (h : ensureStep s = .moved t) : s.Refrains t := by
  unfold ensureStep at h
  split at h
  · split at h
    · cases h; exact { Refrains.refl s with }
    · obtain ⟨rfl, -⟩ := stagePreamble_ok (Progress.of_eq_moved.1 h)
      exact { Refrains.refl s with }
  · cases h; exact ⟨rfl, [_], rfl, by simp⟩

theorem poolStep_refrains (hop : s.cur.op = .flush) (h : poolStep s = .moved t) : s.Refrains t := by
  unfold poolStep at h
  split at h
  · cases h
  · cases h; exact ⟨rfl, [.poolAnswer .granted], rfl, by simp⟩
  · rename_i rest _
    cases h
    have ha : s.Refrains (State.answered (.poolAnswer .refused) { s with poolAnswers := rest }) := ⟨rfl, [_], rfl, by simp⟩
    exact ha.raise hop _

theorem segmentStep_refrains (hop : s.cur.op = .flush) (h : segmentStep s = .moved t) : s.Refrains t := by
  unfold segmentStep at h
  split at h
  · split at h
    · cases h; exact { Refrains.refl s with }
    · obtain rfl := copyToAcc_ok (Progress.of_eq_moved.1 h)
      exact { Refrains.refl s with }
  · cases h; exact (Refrains.refl s).complete hop

theorem compressAnswered_refrains {blk : List Byte} (hop : s.cur.op = .flush) (h : compressAnswered blk s = .moved t) :
    s.Refrains t := by
  have hscribble : ∀ a n, s.Refrains ((s.answered (.compressAnswer a)).stgScribble n) := fun a _ =>
    ⟨rfl, [.compressAnswer a], rfl, by simp⟩
  unfold compressAnswered at h
  split at h
  · cases h; exact (hscribble _ _).raise hop _
  · rename_i payload _
    split at h
    · cases h; exact (hscribble _ _).raise hop _
    · obtain rfl := packPayload_ok (Progress.of_eq_moved.1 h)
      exact (hscribble (some payload.length) (s.stageLen + 8)).trans ⟨rfl, [_], rfl, by simp⟩

theorem compressorStep_refrains (hop : s.cur.op = .flush) (h : compressorStep s = .moved t) : s.Refrains t := by
  unfold compressorStep at h
  split at h
  · split at h
    · exact compressAnswered_refrains hop h
    · cases h
  · cases h

/-- The block of a FLUSH form is what has been accumulated (42_chunk_emit.md R177). -/
theorem stgChecksummed_blockTaken_of_flush (hop : s.cur.op = .flush) {cl : Nat} {crc : Word} :
    (s.stgChecksummed cl crc).blockTaken = { s.stgChecksummed cl crc with accLen := 0, fsm := .drain } :=
  blockTaken_acc (by simp [blockSpace, stgChecksummed, hop])

theorem checksumStep_refrains {cl : Nat} (hop : s.cur.op = .flush) (h : checksumStep cl s = .moved t) : s.Refrains t := by
  unfold checksumStep at h
  split at h
  · split at h
    · rename_i blk _
      obtain rfl := packChecksum_ok (Progress.of_eq_moved.1 h)
      rw [stgChecksummed_blockTaken_of_flush hop]
      exact ⟨rfl, [.crcAnswer (s.params.maskedCrc blk)], rfl, by simp⟩
    · cases h
  · cases h

/-- DRAIN completes the form, or asks the sink for all that is staged (42_chunk_emit.md R172, R173). -/
theorem drainStep_flush_cases (hop : s.cur.op = .flush) (h : drainStep s = .moved t) :
    t = s.complete ∨ t = s.request .sink (.sinkTransfer s.staged) := by
  unfold drainStep at h
  split at h
  · cases h; exact .inl (afterDrain_of_flush hop)
  · split at h
    · rename_i bytes hm
      cases h
      obtain ⟨rfl, -⟩ := memRead_ok hm
      exact .inr rfl
    · cases h

/-- The sink's answer ends the form (41_flush.md R140, R146). -/
theorem sinkStep_flush_ends (hop : s.cur.op = .flush) (h : sinkStep s = .moved t) : t.busy = false ∧ s.Refrains t := by
  unfold sinkStep at h
  split at h
  · cases h
  · rename_i a rest _
    split at h
    · rename_i bytes _
      cases h
      cases a with
      | ok =>
        have hu : s.Refrains ((State.answered (.sinkAnswer true) { s with sinkAnswers := rest }).delivered bytes) :=
          ⟨rfl, [.sinkAnswer true], rfl, by simp⟩
        rw [sinkAnswered, afterDrain_of_flush (by exact hop)]
        exact ⟨complete_busy _, hu.complete hop⟩
      | err kept =>
        have hu : s.Refrains ((State.answered (.sinkAnswer false) { s with sinkAnswers := rest }).keptByFailingSink bytes kept) :=
          ⟨rfl, [.sinkAnswer false], rfl, by simp⟩
        rw [sinkAnswered]
        exact ⟨raise_busy _ _, hu.raise hop _⟩
    · cases h

/-- What a step of the sequencer in a FLUSH form can ask of the sink: DRAIN makes the one transfer, the sink's answer ends the
form, and every other step neither asks nor delivers. -/
inductive State.FlushTick (s : State) : State → Prop
  | asks (hf : s.fsm = .drain) (hq : s.pending = .none) : s.FlushTick (s.request .sink (.sinkTransfer s.staged))
  | answered {t : State} (hb : t.busy = false) (h : s.Refrains t) : s.FlushTick t
  | other {t : State} (h : s.Refrains t) (hs : s.pending ≠ .sink) (ht : t.pending ≠ .sink)
    (hstream : t.sinkStream = s.sinkStream) : s.FlushTick t

theorem tick_flushTick (hop : s.cur.op = .flush) (h : tick s = .moved t) : s.FlushTick t := by
  have hother : s.pending ≠ .sink → s.Refrains t → s.FlushTick t := fun hs href => by
    cases tick_output h with
    | nothing hd hq => exact .other href hs hq hd.sinkStream
    | asks => exact absurd href Refrains.not_asks
    | answered a rest hq => exact absurd hq hs
  rcases tick_moved_cases h with ⟨-, hq, h⟩ | ⟨-, hq, h⟩ | ⟨-, hq, h⟩ | ⟨-, hq, h⟩ | ⟨-, hq, h⟩ | ⟨cl, -, hq, h⟩ |
    ⟨hf, hq, h⟩ | ⟨-, -, h⟩
  · exact hother (by simp [hq]) (ensureStep_refrains h)
  · exact hother (by simp [hq]) (poolStep_refrains hop h)
  · exact hother (by simp [hq]) (segmentStep_refrains hop h)
  · cases h; exact hother (by simp [hq]) ⟨rfl, [_], rfl, by simp⟩
  · exact hother (by simp [hq]) (compressorStep_refrains hop h)
  · exact hother (by simp [hq]) (checksumStep_refrains hop h)
  · rcases drainStep_flush_cases hop h with rfl | rfl
    · exact hother (by simp [hq]) ((Refrains.refl s).complete hop)
    · exact .asks hf hq
  · obtain ⟨hidle, href⟩ := sinkStep_flush_ends hop h
    exact .answered hidle href

theorem State.FlushTick.src (h : s.FlushTick t) : t.src = s.src := by
  cases h with
  | asks _ _ => rfl
  | answered _ href => exact href.src
  | other href _ _ _ => exact href.src

/-- The sequencer leaves SRC alone in a FLUSH form, its end included. -/
theorem reaches_src_of_flush (hop : s.cur.op = .flush) (h : ReflTransGen Moves s t) : t.src = s.src := by
  induction h with
  | refl => rfl
  | tail hr hm ih =>
    exact (tick_flushTick (by rw [(reaches_holdsOperands hr).cur]; exact hop) hm.2).src.trans ih

/-- A FLUSH form that does not start ends at once, and asks nothing (60_exceptions.md R221). -/
theorem exec_flush_cases {i : Instr} (hop : i.op = .flush) (h : exec i s = .next t) :
    (t.busy = false ∧ s.SameInstance t ∧ s.SameWorld t ∧ s.Refrains t ∧ t.consumed = 0#32) ∨
      (s.Starts i ∧ ReflTransGen Moves (s.started i) t) := by
  have hform : i.op ≠ .dispose := by rw [hop]; decide
  rcases exec_form_cases hform h with ⟨hidle, hi, hw⟩ | hst
  · have hacc : s.Refrains (s.accepted i) := ⟨rfl, [.accept (encode i) s.srcLen], rfl, by simp⟩
    obtain ⟨-, -, hx⟩ := exec_cases h
    cases hx with
    | rejected _ e _ => exact .inl ⟨hidle, hi, hw, hacc.raise hop e, by simp [accepted, opened, latch]⟩
    | cancelled _ _ _ _ _ =>
      have hsampled : (s.accepted i).Refrains ((s.accepted i).log (.cancelSampled s.cancelReq)) := ⟨rfl, [_], rfl, by simp⟩
      exact .inl ⟨hidle, hi, hw, (hacc.trans hsampled).raise hop _, by simp [accepted, opened, latch]⟩
    | starts hst hr => exact .inr ⟨hst, reaches_of_resume hr⟩
    | disposes hd _ => exact absurd hd hform
    | disposedAlready hd _ => exact absurd hd hform
  · exact .inr hst

end

end Sys2Proof.Machine
end

section
/-! PROOFS. The frame of the FLUSH forms (41_flush.md R140, R141, 42_chunk_emit.md R161, R169, 43_lifecycle.md R192). -/

namespace Sys2Proof.Machine

open State Relation

/-! ### The STG addresses that a running FLUSH form can still store to -/

/-- The STG addresses a running FLUSH form can still store to. -/
def State.flushAhead (s : State) (x : Nat) : Prop := s.stgStores s.accumulatedBlocks.length x

/-- A FLUSH form has at most one chunk to pack. -/
theorem flushAhead_iff {s : State} {x : Nat} : s.flushAhead x ↔
    x < s.params.stageSize ∧
      ((s.hdrWritten = false ∧ x < preLen) ∨ (s.accLen ≠ 0 ∧ (s.fsm = .drain ∨ s.stageLen ≤ x))) := by
  unfold State.flushAhead stgStores accumulatedBlocks
  by_cases h0 : s.accLen = 0 <;> simp [h0]

/-- From `s` to `t` a FLUSH form has left ACC alone and stored to the STG addresses ahead only, and it has no others ahead of it
now. -/
structure State.FlushStores (s t : State) : Prop where
  params : t.params = s.params
  acc : t.acc = s.acc
  stg : ∀ x, x < s.params.stageSize → ¬ s.flushAhead x → t.stg.byte x = s.stg.byte x
  ahead : ∀ x, t.flushAhead x → s.flushAhead x

theorem State.FlushStores.refl (s : State) : s.FlushStores s := ⟨rfl, rfl, fun _ _ _ => rfl, fun _ => id⟩

theorem State.FlushStores.trans {s t u : State} (h : s.FlushStores t) (k : t.FlushStores u) : s.FlushStores u where
  params := k.params.trans h.params
  acc := k.acc.trans h.acc
  stg x hlt hx := (k.stg x (by rw [h.params]; exact hlt) fun ht => hx (h.ahead x ht)).trans (h.stg x hlt hx)
  ahead x hx := h.ahead x (k.ahead x hx)

section
variable {s t : State}

/-- What a step that stores nothing has ahead of it was ahead: where a DRAIN begins or goes on, nothing is accumulated. -/
theorem State.SameStores.flushStores (h : s.SameStores t)
    (hstage : s.accLen = 0 ∨ (t.stageLen = s.stageLen ∧ t.fsm ≠ .drain)) : s.FlushStores t where
  params := h.params
  acc := h.acc
  stg _ _ _ := by rw [h.stg]
  ahead x := by
    rw [flushAhead_iff, flushAhead_iff, h.params, h.hdrWritten, h.accLen]
    rintro ⟨hlt, hpre | ⟨hacc, hx⟩⟩
    · exact ⟨hlt, .inl hpre⟩
    · rcases hstage with h0 | ⟨hlen, hd⟩
      · exact absurd h0 hacc
      · exact ⟨hlt, .inr ⟨hacc, .inr (hlen ▸ hx.resolve_left hd)⟩⟩

/-- The preamble goes to the addresses below its length, and a chunk behind it (42_chunk_emit.md R169). -/
theorem preambleStaged_flushStores (hh : s.hdrWritten = false) (h0 : s.stageLen = 0)
    (hlen : s.params.preamble.length = preLen) : s.FlushStores s.preambleStaged where
  params := rfl
  acc := rfl
  stg x hlt hx := by
    refine Buffer.byte_write_outside (.inr ?_)
    by_contra hin
    exact hx ⟨hlt, .inl ⟨hh, by omega⟩⟩
  ahead x := by
    rw [flushAhead_iff, flushAhead_iff]
    rintro ⟨hlt, ⟨hpre, -⟩ | ⟨hacc, -⟩⟩
    · cases hpre
    · exact ⟨hlt, .inr ⟨hacc, .inr (by omega)⟩⟩

/-- A FLUSH form that emits takes its block from ACC (42_chunk_emit.md R177). -/
theorem State.EmitInv.accumulated_of_flush (he : s.EmitInv) (hop : s.cur.op = .flush) : s.accLen ≠ 0 := by
  rcases he.block with ⟨-, hpos, -⟩ | ⟨hw, -⟩ | ⟨hw, -, -⟩
  · omega
  · rw [hop] at hw; cases hw
  · rw [hop] at hw; cases hw

/-- While a FLUSH form emits, STG can be stored to from `stage_len` on (42_chunk_emit.md R161). -/
theorem flushAhead_of_emit (he : s.EmitInv) (hop : s.cur.op = .flush) {x : Nat} (hlt : x < s.params.stageSize)
    (hx : s.stageLen ≤ x) : s.flushAhead x :=
  flushAhead_iff.2 ⟨hlt, .inr ⟨he.accumulated_of_flush hop, .inr hx⟩⟩

theorem packed_flushStores (he : s.EmitInv) (hop : s.cur.op = .flush) {stg : Buffer}
    (hstg : ∀ x, x < s.stageLen → stg.byte x = s.stg.byte x) : s.FlushStores { s with stg := stg } where
  params := rfl
  acc := rfl
  stg x hlt hx := hstg x (Nat.lt_of_not_le fun hle => hx (flushAhead_of_emit he hop hlt hle))
  ahead _ := id

/-- With the chunk staged, nothing is left to pack. -/
theorem chunk_flushStores (he : s.EmitInv) (hop : s.cur.op = .flush) (cl : Nat) (crc : Word) :
    s.FlushStores (s.stgChecksummed cl crc).blockTaken := by
  rw [stgChecksummed_blockTaken_of_flush hop]
  refine ⟨rfl, rfl, fun x hlt hx => ?_, fun x => ?_⟩
  · exact Buffer.byte_write_outside
      (.inl (Nat.lt_of_not_le fun hle => hx (flushAhead_of_emit he hop hlt (by omega))))
  · rw [flushAhead_iff, flushAhead_iff]
    rintro ⟨hlt, hpre | ⟨hacc, -⟩⟩
    · exact ⟨hlt, .inl hpre⟩
    · exact absurd rfl hacc

/-- SEGMENT is no phase of a FLUSH form (41_flush.md R140). -/
theorem State.SegmentInv.not_flush (he : s.SegmentInv) : s.cur.op ≠ .flush := by
  rw [he.writes]
  decide

/-- A step of a FLUSH form that holds a lease stores to the addresses ahead only. -/
theorem State.Stores.flushStores (h : s.Stores t) (hi : s.Inv) (hop : s.cur.op = .flush) (ha : s.alloc = true) :
    s.FlushStores t := by
  cases h with
  | nothing h hstage =>
    refine h.flushStores ?_
    rcases hstage with hd | ⟨hlen, hd⟩
    · exact .inl ((hi.drain hd).flushed hop)
    · by_cases htd : t.fsm = .drain
      · exact .inl (hd htd).2
      · exact .inr ⟨hlen, htd⟩
  | leases hno _ => rw [ha] at hno; cases hno
  | preamble hh h0 hlen => exact preambleStaged_flushStores hh h0 hlen
  | copies he _ _ => exact absurd hop he.not_flush
  | packs he hstg h hlen hf => exact (packed_flushStores he hop hstg).trans (h.flushStores (.inr ⟨hlen, hf⟩))
  | chunk he cl crc => exact chunk_flushStores he hop cl crc

/-- So does the sequencer, however far it goes. -/
theorem reaches_flushStores (hs : s.Safe) (hop : s.cur.op = .flush) (ha : s.alloc = true) (h : ReflTransGen Moves s t) :
    s.FlushStores t := by
  induction h with
  | refl => exact .refl s
  | tail hr hm ih =>
    have hi := (reaches_keeps_safe hs hr).1
    exact ih.trans ((tick_stores hi hm.2).flushStores hi (by rw [(reaches_holdsOperands hr).cur]; exact hop)
      ((reaches_holdsWorld hs hr).alloc ha))

/-- A FLUSH form consumes nothing of SRC. -/
theorem State.Stores.consumed_of_flush (h : s.Stores t) (hop : s.cur.op = .flush) : t.consumed = s.consumed := by
  cases h with
  | nothing h _ => exact h.consumed
  | leases _ _ => rfl
  | preamble _ _ _ => rfl
  | copies he _ _ => exact absurd hop he.not_flush
  | packs _ _ h _ _ => exact h.consumed
  | chunk he cl crc => rw [stgChecksummed_blockTaken_of_flush hop]; rfl

theorem reaches_consumed_of_flush (hs : s.Safe) (hop : s.cur.op = .flush) (h : ReflTransGen Moves s t) :
    t.consumed = s.consumed := by
  induction h with
  | refl => rfl
  | tail hr hm ih =>
    refine ((tick_stores (reaches_keeps_safe hs hr).1 hm.2).consumed_of_flush ?_).trans ih
    rw [(reaches_holdsOperands hr).cur]; exact hop

end

/-! ### A step of a busy machine -/

/-- A step of a busy machine whose input is no loan: SRC is as it was when the sequencer goes on. -/
theorem step_busy_keeps_src {s t : State} (hb : s.busy = true) (hne : ∀ d, s.inputs.head? ≠ some (.lend d))
    (h : step s = .next t) : ∃ u, ReflTransGen Moves u t ∧ u.cur = s.cur ∧ u.src = s.src := by
  obtain ⟨hw, -⟩ := step_cases h
  have hresume : ∀ {u : State}, resume u = .next t → u.cur = s.cur → u.src = s.src →
      ∃ u, ReflTransGen Moves u t ∧ u.cur = s.cur ∧ u.src = s.src :=
    fun hu hcur hsrc => ⟨_, reaches_of_resume hu, hcur, hsrc⟩
  cases hin : s.inputs with
  | nil =>
    rw [step, nextMove_nil hw hin] at h
    simp only at h
    split at h
    · exact hresume h rfl rfl
    · exact ⟨s, reaches_of_run h, rfl, rfl⟩
  | cons input rest =>
    cases input with
    | csrWrite a width v => cases step_busy_csrWrite hw hb hin h; exact ⟨_, .refl, rfl, rfl⟩
    | csrRead a width =>
      rw [step, nextMove_csrRead hw hin] at h
      simp only [csrRead] at h
      split at h
      · cases h; exact ⟨_, .refl, rfl, rfl⟩
      · cases h
    | lend d => exact absurd (by rw [hin]; rfl) (hne d)
    | cancel v => rw [step, nextMove_cancel hw hin] at h; cases h; exact ⟨_, .refl, rfl, rfl⟩
    | construct =>
      rw [step, nextMove_construct hw hin] at h
      simp only [constructInstance] at h
      rw [if_pos (.inr hb)] at h
      cases h
    | pool a => rw [step, nextMove_pool hw hin] at h; exact hresume h rfl rfl
    | sink a => rw [step, nextMove_sink hw hin] at h; exact hresume h rfl rfl
    | compressor r => rw [step, nextMove_compressor hw hin] at h; exact hresume h rfl rfl
    | checksum r => rw [step, nextMove_checksum hw hin] at h; exact hresume h rfl rfl
    | pace e => rw [step, nextMove_pace hw hin] at h; exact hresume h rfl rfl
    | tick => rw [step, nextMove_tick hw hin] at h; exact ⟨_, reaches_of_run h, rfl, rfl⟩

/-- The world behind an input has the same addresses ahead. -/
theorem State.WorldMoves.flushStores {s u : State} (h : s.WorldMoves u) : s.FlushStores u where
  params := h.params
  acc := h.acc
  stg _ _ _ := by rw [h.stg]
  ahead x := by
    rw [flushAhead_iff, flushAhead_iff, h.params, h.hdrWritten, h.accLen, h.fsm, h.stageLen]
    exact id

/-- A form that starts has the addresses ahead that the idle machine says. -/
theorem stgStores_of_started_flush {i : Instr} {s : State} {x : Nat} (h : (s.started i).flushAhead x) :
    s.stgStores s.accumulatedBlocks.length x := by
  obtain ⟨hlt, hpre | ⟨hacc, hx⟩⟩ := flushAhead_iff.1 h
  · exact flushAhead_iff.2 ⟨hlt, .inl hpre⟩
  · exact flushAhead_iff.2 ⟨hlt, .inr ⟨hacc, .inr (hx.resolve_left nofun)⟩⟩

/-! ### The frame -/

/-- Settles O48: a form that does not start changes nothing; one that does, and one in progress behind the world's move, runs as
the sequencer does, which leaves ACC and SRC alone and stores to the addresses ahead only. -/
theorem flushFrame : Obligations.FlushFrame := by
  unfold Obligations.FlushFrame
  constructor
  · intro i s t hop hs hb h
    rcases exec_flush_cases hop h with ⟨-, hi, hw, hrefrains, hcons⟩ | ⟨hst, hr⟩
    · exact ⟨hi.params, hi.srcLen, hrefrains.src, hcons, hi.disposed, fun hh => hi.hdrWritten.trans hh,
        fun hp => hi.poisoned.trans hp, hw.cancelReq, hw.inputs, hw.compressorReady, hw.checksumReady, hw.eager, hw.readData,
        fun ha => ⟨hi.alloc.trans ha, hi.hdrWritten, hw.poolAnswers, hi.acc, fun x _ _ => by rw [hi.stg]⟩,
        by rw [hi.sinkStream]⟩
    · have hsafe := started_safe_of_starts hst hs
      have hadv := reaches_advances hr
      have hworld := reaches_holdsWorld hsafe hr
      have hleads := reaches_leadsTo hsafe hr
      have hflags := hleads.flagsStick
      refine ⟨hadv.params, (reaches_holdsOperands hr).srcLen, reaches_src_of_flush (s := s.started i) hop hr,
        reaches_consumed_of_flush hsafe hop hr, hleads.disposed, hflags.hdrWritten, hflags.poisoned, hworld.cancelReq,
        hadv.inputs, hadv.compressorReady, hadv.checksumReady, hadv.eager, hworld.readData, fun ha => ?_, hadv.sinkStream⟩
      have hstores := reaches_flushStores hsafe hop ha hr
      have hh : s.hdrWritten = true := (hs.1.idle_phase hb).2.leased ha
      exact ⟨hworld.alloc ha, (hflags.hdrWritten hh).trans hh.symm, hworld.pool ha, hstores.acc,
        fun x hlt hx => hstores.stg x hlt fun hstg => hx (stgStores_of_started_flush hstg)⟩
  · intro s t hs hb hop h
    obtain ⟨u, ⟨hmoves, hworld, hpool⟩, hr⟩ := step_busy_takes hb h
    have hsafe := hmoves.keeps_safe hs
    have huop : u.cur.op = .flush := by rw [hmoves.cur]; exact hop
    have hadv := reaches_advances hr
    have hheld := reaches_holdsOperands hr
    have hseq := reaches_holdsWorld hsafe hr
    have hleads := reaches_leadsTo hsafe hr
    have hflags := hleads.flagsStick
    refine ⟨hadv.params.trans hmoves.params, hheld.srcLen.trans (hmoves.srcLen hb),
      (reaches_consumed_of_flush hsafe huop hr).trans hmoves.consumed, hheld.cur.trans hmoves.cur,
      hleads.disposed.trans hmoves.disposed, fun hne => ?_, fun hh => hflags.hdrWritten (hmoves.hdrWritten.trans hh),
      fun hp => hflags.poisoned (hmoves.poisoned.trans hp), hworld.of_reaches hsafe hr, fun ha => ?_,
      hmoves.sinkStream ▸ hadv.sinkStream⟩
    · obtain ⟨v, hv, hcur, hsrc⟩ := step_busy_keeps_src hb hne h
      exact (reaches_src_of_flush (by rw [hcur]; exact hop) hv).trans hsrc
    · have hua : u.alloc = true := hmoves.alloc.trans ha
      have hstores := hmoves.flushStores.trans (reaches_flushStores hsafe huop hua hr)
      exact ⟨hseq.alloc hua, fun hne => (hseq.pool hua).trans (hpool hne), hstores.acc, hstores.stg⟩

end Sys2Proof.Machine
end

section
/-! PROOFS. A FLUSH form makes at most one transfer, of at most one chunk (41_flush.md R148). -/

namespace Sys2Proof.Machine

open State Relation

/-- The bytes are those that a FLUSH form in this state has to transfer: what is undelivered, with a chunk of the block still to
emit, if any. -/
def State.Owes (s : State) (bs : List Byte) : Prop :=
  ∃ cs, (∀ c ∈ cs, s.params.IsChunk c) ∧ cs.map Prod.fst = s.accumulatedBlocks ∧ bs = s.undelivered ++ s.params.wire cs

/-- From `s` to `t` a FLUSH form has made at most one transfer, none where one was outstanding, and of the bytes it had to; one
that it has made is outstanding as long as it is busy, and nothing is delivered before it ends. -/
structure State.AsksOnce (s t : State) : Prop where
  transfers : t.transfers ≤ s.transfers + if s.pending = .sink then 0 else 1
  outstanding : t.busy = true → s.pending = .sink ∨ t.transfers = s.transfers + 1 → t.pending = .sink
  stream : t.busy = true → t.sinkStream = s.sinkStream
  owed : ∃ l, t.history = s.history ++ l ∧ ∀ bs, .sinkTransfer bs ∈ l → s.Owes bs

section
variable {s t u : State}

theorem State.AsksOnce.refl (s : State) : s.AsksOnce s :=
  ⟨Nat.le_add_right _ _, fun _ h => h.elim id fun h => absurd h (by omega), fun _ => rfl, [], by simp⟩

/-- A step that asks nothing keeps this, if it ends the form or no transfer is outstanding. -/
theorem State.AsksOnce.refrains (h : s.AsksOnce t) (href : t.Refrains u)
    (hend : u.busy = false ∨ (t.busy = true ∧ t.pending ≠ .sink ∧ u.sinkStream = t.sinkStream)) : s.AsksOnce u where
  transfers := by rw [href.transfers]; exact h.transfers
  outstanding hb ho := by
    rw [href.transfers] at ho
    rcases hend with hidle | ⟨htb, hq, -⟩
    · rw [hb] at hidle; cases hidle
    · exact absurd (h.outstanding htb ho) hq
  stream hb := by
    rcases hend with hidle | ⟨htb, -, hstream⟩
    · rw [hb] at hidle; cases hidle
    · exact hstream.trans (h.stream htb)
  owed := by
    obtain ⟨l, hl, howed⟩ := h.owed
    obtain ⟨m, hm, hnone⟩ := href.history
    exact ⟨l ++ m, by rw [hm, hl, List.append_assoc],
      fun bs hbs => howed bs ((List.mem_append.1 hbs).resolve_right (hnone bs))⟩

/-- What is staged when DRAIN begins is what the form had to transfer: its block, if any, is no longer to be emitted. -/
theorem State.Flushes.staged_owed (h : s.Flushes t) (hd : t.DrainInv) (hop : t.cur.op = .flush)
    (hstream : t.sinkStream = s.sinkStream) : s.Owes t.staged := by
  obtain ⟨cs, hcs, hblocks, hbytes⟩ := h.stream
  rw [accumulatedBlocks_of_empty (hd.flushed hop), List.append_nil] at hblocks
  rw [undelivered_of_staged hd.lease.hdr, hstream, List.append_assoc, List.append_cancel_left_eq] at hbytes
  exact ⟨cs, hcs, hblocks, hbytes⟩

/-- The request of DRAIN is the first: one made before would be outstanding. -/
theorem State.AsksOnce.asks (h : s.AsksOnce t) (hb : t.busy = true) (hq : t.pending = .none) (howed : s.Owes t.staged) :
    s.AsksOnce (t.request .sink (.sinkTransfer t.staged)) := by
  have hnot : ¬ (s.pending = .sink ∨ t.transfers = s.transfers + 1) := fun ho => by
    have hsink := h.outstanding hb ho
    rw [hq] at hsink; cases hsink
  obtain ⟨hs, hcount⟩ := not_or.1 hnot
  have hle := h.transfers
  rw [if_neg hs] at hle
  have hone : (t.request .sink (.sinkTransfer t.staged)).transfers = t.transfers + 1 :=
    transfers_append t (request_history _ _ t)
  obtain ⟨l, hl, hl'⟩ := h.owed
  refine ⟨by rw [hone, if_neg hs]; omega, fun _ _ => rfl, fun _ => h.stream hb, l ++ [.sinkTransfer t.staged], ?_,
    fun bs hbs => ?_⟩
  · rw [request_history, hl, List.append_assoc]
  · rcases List.mem_append.1 hbs with hbs | hbs
    · exact hl' bs hbs
    · cases List.mem_singleton.1 hbs
      exact howed

/-- The sequencer asks the sink at most once in a FLUSH form, however far it goes. -/
theorem reaches_asksOnce (hs : s.Safe) (hb : s.busy = true) (hop : s.cur.op = .flush) (h : ReflTransGen Moves s t) :
    s.AsksOnce t := by
  induction h with
  | refl => exact .refl s
  | tail hr hm ih =>
    have hmop := (congrArg Command.op (reaches_holdsOperands hr).cur).trans hop
    cases tick_flushTick hmop hm.2 with
    | asks hf hq =>
      exact ih.asks hm.1 hq ((reaches_flushes hs hb hop hr (.inl hm.1)).staged_owed
        ((reaches_keeps_safe hs hr).1.drain hf) hmop (ih.stream hm.1))
    | answered hidle href => exact ih.refrains href (.inl hidle)
    | other href hq _ hstream => exact ih.refrains href (.inr ⟨hm.1, hq, hstream⟩)

end

theorem length_accumulatedBlocks_le (s : State) : s.accumulatedBlocks.length ≤ 1 := by
  unfold accumulatedBlocks
  split <;> simp

theorem started_refrains (i : Instr) (s : State) : s.Refrains (s.started i) :=
  ⟨rfl, .accept (encode i) s.srcLen :: (if i.async then [.cancelSampled false] else []), by simp [started],
    by cases i.async <;> simp⟩

/-- The move of the world behind an input changes nothing of what is owed. -/
theorem State.WorldMoves.owes {s u : State} (h : s.WorldMoves u) {bs : List Byte} (hbs : u.Owes bs) : s.Owes bs := by
  have hblocks : u.accumulatedBlocks = s.accumulatedBlocks := by simp only [accumulatedBlocks, accumulated, h.accLen, h.acc]
  have hund : u.undelivered = s.undelivered := by simp only [undelivered, staged, h.hdrWritten, h.stg, h.stageLen, h.params]
  unfold Owes at hbs
  rwa [hblocks, hund, h.params] at hbs

/-- Settles O47: the form that starts is followed from `started`, one in progress from the state behind the world's move. -/
theorem oneTransferPerFlush : Obligations.OneTransferPerFlush := by
  unfold Obligations.OneTransferPerFlush
  constructor
  · intro i s t hop hs hb h
    rcases exec_flush_cases hop h with ⟨hidle, -, -, href, -⟩ | ⟨hst, hr⟩
    · obtain ⟨l, hl, hnone⟩ := href.history
      exact ⟨by rw [href.transfers]; omega, fun hbusy => absurd hbusy (by simp [hidle]), l, hl,
        fun bs hbs => absurd hbs (hnone bs)⟩
    · have hsafe := started_safe_of_starts hst hs
      have honce := reaches_asksOnce hsafe rfl hop hr
      have href := started_refrains i s
      have hq : (s.started i).pending ≠ .sink := by
        show s.pending ≠ .sink
        simp [(hs.1.ended hb).2.2]
      have hle := honce.transfers
      rw [href.transfers, if_neg hq] at hle
      obtain ⟨l, hl, howed⟩ := honce.owed
      obtain ⟨m, hm, hnone⟩ := href.history
      refine ⟨hle, fun hbusy hone => honce.outstanding hbusy (.inr (by rw [href.transfers]; exact hone)), m ++ l,
        by rw [hl, hm, List.append_assoc], fun bs hbs => ?_⟩
      obtain ⟨cs, hcs, hblocks, rfl⟩ := howed bs ((List.mem_append.1 hbs).resolve_left (hnone bs))
      refine ⟨cs, ?_, hcs, by rw [started_undelivered hs hst]; rfl⟩
      rw [← List.length_map (f := Prod.fst), hblocks]
      exact length_accumulatedBlocks_le _
  · intro s t hs hb hop h
    obtain ⟨u, hw, hr⟩ := step_busy_reaches hb h
    have honce := reaches_asksOnce (hw.keeps_safe hs) (hw.busy.trans hb) (by rw [hw.cur]; exact hop) hr
    have hcount : u.transfers = s.transfers := by simp only [transfers, hw.history]
    have hle := honce.transfers
    have hout := honce.outstanding
    rw [hcount, hw.pending] at hle hout
    obtain ⟨l, hl, howed⟩ := honce.owed
    rw [hw.history] at hl
    exact ⟨hle, hout, l, hl, fun bs hbs => hw.owes (howed bs hbs)⟩

end Sys2Proof.Machine
end

section
/-! PROOFS. The FLUSH forms whose agents answer (41_flush.md R140, R141, R144, R145). -/

namespace Sys2Proof.Machine

open State Relation

/-! ### What EMIT and DRAIN do -/

/-- From `s` a FLUSH form comes to its end in `t`, having packed `n` chunks, with these events and these answers of the sink
left. -/
structure State.FlushEnds (s : State) (n : Word) (events : List Event) (rest : List SinkAnswer) (t : State) : Prop where
  reaches : ReflTransGen Moves s t
  idle : t.busy = false
  err : t.err = s.err
  chunks : t.chunks = s.chunks + n
  sinkAnswers : t.sinkAnswers = rest
  history : t.history = s.history ++ events

/-- Where nothing is staged, DRAIN ends the form with no transfer (42_chunk_emit.md R172). -/
theorem tick_drain_of_unstaged {s : State} (hf : s.fsm = .drain) (hq : s.pending = .none) (hop : s.cur.op = .flush)
    (h0 : s.stageLen = 0) : tick s = .moved s.complete := by
  rw [tick_drain hf hq, drainStep, if_pos h0, afterDrain_of_flush hop]

/-- DRAIN of a FLUSH form, the sink accepting where anything is staged. -/
theorem drain_flushEnds {s : State} {rest : List SinkAnswer} (h : s.Inv) (hf : s.fsm = .drain) (hq : s.pending = .none)
    (hop : s.cur.op = .flush) (ha : s.sinkAnswers = (if s.stageLen = 0 then [] else [.ok]) ++ rest) :
    ∃ t, s.FlushEnds 0#32
      ((if s.stageLen = 0 then [] else [.sinkTransfer s.staged, .sinkAnswer true]) ++ [.done s.err]) rest t := by
  by_cases h0 : s.stageLen = 0
  · rw [if_pos h0] at ha ⊢
    exact ⟨s.complete, .single ⟨(h.drain hf).lease.run.busy, tick_drain_of_unstaged hf hq hop h0⟩, by simp, by simp, by simp,
      by simpa using ha, by simp⟩
  · rw [if_neg h0] at ha ⊢
    obtain ⟨-, hrun⟩ := drain_runs (rest := rest) h hf hq (Nat.pos_of_ne_zero h0) ha
    rw [afterDrain_of_flush (s := s.transferred rest) (by rw [transferred_cur]; exact hop)] at hrun
    exact ⟨(s.transferred rest).complete, reaches_of_run (hrun 0), by simp, by simp [transferred], by simp [transferred],
      by simp [transferred], by simp [transferred]⟩

/-- EMIT and DRAIN of a FLUSH form, the agents answering. -/
theorem emit_flushEnds {s : State} {c : List Byte} {rest : List SinkAnswer} (h : s.Inv) (hf : s.fsm = .emit)
    (hq : s.pending = .none) (hop : s.cur.op = .flush) (hcr : s.compressorReady = true) (hkr : s.checksumReady = true)
    (hc : s.params.compress s.accumulated = some c) (hle : c.length ≤ s.params.maxComp.bound s.accLen)
    (ha : s.sinkAnswers = .ok :: rest) :
    ∃ t, s.FlushEnds 1#32
      [.compressReq .acc s.accLen (s.stageLen + 8), .compressAnswer (some c.length), .crcReq .acc s.accLen,
        .crcAnswer (s.params.maskedCrc s.accumulated), .sinkTransfer (s.staged ++ s.params.chunk s.accumulated c),
        .sinkAnswer true, .done s.err] rest t := by
  have hloc := block_location s
  rw [if_neg (by simp [hop])] at hloc
  simp only [Prod.mk.injEq] at hloc
  obtain ⟨hsp, hlen, hblk⟩ := hloc
  obtain ⟨hem, hi, hrun⟩ := emit_runs h hf hq hcr hkr (by rw [hblk]; exact hc) (by rw [hlen]; exact hle)
  have hne : (s.chunkWritten c).stageLen ≠ 0 := by rw [hem.stageLen]; omega
  obtain ⟨t, ht⟩ := drain_flushEnds (rest := rest) hi hem.fsm hem.pending (by rw [hem.cur]; exact hop)
    (by rw [if_neg hne]; exact hem.sinkAnswers.trans ha)
  refine ⟨t, (reaches_of_run (hrun 0)).trans ht.reaches, ht.idle, ht.err.trans hem.err, ?_, ht.sinkAnswers, ?_⟩
  · rw [ht.chunks, hem.chunks, BitVec.add_zero]
  · rw [ht.history, if_neg hne, hem.history, hem.err, hem.staged, hsp, hlen, hblk]
    simp

/-! ### A FLUSH form whose agents answer -/

/-- FLUSH, and FLUSH.A where check point 0 does not cancel it, with a sink. -/
def State.IssuesFlush (s : State) (i : Instr) : Prop := i = .flush true ∨ (i = .flushA true ∧ s.cancelReq = false)

theorem State.IssuesFlush.op {s : State} {i : Instr} (h : s.IssuesFlush i) : i.op = .flush := by
  rcases h with rfl | ⟨rfl, -⟩ <;> rfl

theorem State.IssuesFlush.starts {s : State} {i : Instr} (h : s.IssuesFlush i) (hw : s.params.wf = true)
    (hb : s.busy = false) (hd : s.disposed = false) (hp : s.poisoned = false) : s.Starts i where
  form := by rw [h.op]; decide
  snk := by rcases h with rfl | ⟨rfl, -⟩ <;> rfl
  paramsWf := hw
  idle := hb
  live := hd
  sound := hp
  uncancelled ha := by
    rcases h with rfl | ⟨rfl, hc⟩
    · cases ha
    · exact hc

/-- The chunk of what has been accumulated, if anything has. -/
def State.lastChunk (s : State) : List Byte :=
  if s.accLen = 0 then [] else s.params.wire [s.params.withPayload s.accumulated]

/-- The events of a FLUSH form behind ENSURE, its agents answering (41_flush.md R140, 20_memory.md R60). -/
def State.flushEvents (s : State) : List Event :=
  (if s.accLen = 0 then [] else
    [.compressReq .acc s.accLen (s.preambleDue + 8),
      .compressAnswer (some ((s.params.compress s.accumulated).getD []).length),
      .crcReq .acc s.accLen, .crcAnswer (s.params.maskedCrc s.accumulated)]) ++
  (if s.accLen = 0 ∧ s.sinkStream ≠ [] then [] else [.sinkTransfer (s.duePreamble ++ s.lastChunk), .sinkAnswer true]) ++
  [.done 0x00#8]

theorem preambleDue_eq_zero {s : State} : s.preambleDue = 0 ↔ s.sinkStream ≠ [] := by
  unfold preambleDue preLen
  split <;> simp [*]

/-- A FLUSH form behind ENSURE, its agents answering. -/
theorem ensured_flushEnds {i : Instr} {s e : State} {rest : List SinkAnswer} (hop : i.op = .flush) (h : s.Ready)
    (he : (s.started i).Ensured e) (hes : e.Inv) (hc : s.accLen ≠ 0 → Compresses s.params [s.accumulated])
    (ha : s.sinkAnswers = (if s.accLen = 0 ∧ s.sinkStream ≠ [] then [] else [.ok]) ++ rest) :
    ∃ t, e.FlushEnds (if s.accLen = 0 then 0#32 else 1#32) s.flushEvents rest t := by
  have hpar : e.params = s.params := he.params
  have hcur : e.cur.op = .flush := by rw [he.cur]; exact hop
  have hacc : e.accLen = s.accLen := he.accLen
  have haccd : e.accumulated = s.accumulated := he.accumulated
  have hlen : e.stageLen = s.preambleDue := he.stageLen
  have hstaged : e.staged = s.duePreamble := he.staged
  have herr : e.err = 0x00#8 := he.err
  have hsink : e.sinkAnswers = s.sinkAnswers := he.sinkAnswers
  have hf : e.fsm = if 0 < s.accLen then .emit else .drain := by
    rw [he.fsm, afterEnsure, show (s.started i).cur.op = .flush from hop]
    rfl
  by_cases h0 : s.accLen = 0
  · have hdue : e.stageLen = 0 ↔ s.sinkStream ≠ [] := by rw [hlen, preambleDue_eq_zero]
    have hends := drain_flushEnds (rest := rest) hes (by simpa [h0] using hf) he.pending hcur
      (by simpa only [hdue, h0, true_and, hsink] using ha)
    simpa only [flushEvents, lastChunk, h0, hdue, hstaged, herr, true_and, if_true, List.nil_append, List.append_nil] using hends
  · obtain ⟨c, hc1, hc2⟩ := hc h0 s.accumulated (by simp)
    have hends := emit_flushEnds (rest := rest) hes (by simpa [Nat.pos_of_ne_zero h0] using hf) he.pending hcur
      (he.sameCompressor.trans h.compressor) (he.sameChecksum.trans h.checksum) (by rw [hpar, haccd]; exact hc1)
      (by simpa [hpar, hacc, accumulated] using hc2) (by simpa [h0, hsink] using ha)
    simpa [flushEvents, lastChunk, h0, hc1, hpar, hacc, haccd, hlen, hstaged, herr, Params.wire, Params.withPayload] using hends

/-- A FLUSH form on a ready machine whose agents answer. -/
theorem flush_runs {i : Instr} {s : State} {rest : List SinkAnswer} (hi : s.IssuesFlush i) (h : s.Ready)
    (hc : s.accLen ≠ 0 → Compresses s.params [s.accumulated])
    (ha : s.sinkAnswers = (if s.accLen = 0 ∧ s.sinkStream ≠ [] then [] else [.ok]) ++ rest) :
    ∃ e t, (s.started i).Ensured e ∧ e.FlushEnds (if s.accLen = 0 then 0#32 else 1#32) s.flushEvents rest t ∧
      exec i s = .next t := by
  have hst := hi.starts h.safe.1.1.paramsWf h.idle h.live h.sound
  obtain ⟨e, he, hes, hreach⟩ := started_ensures h hst
  obtain ⟨t, ht⟩ := ensured_flushEnds hi.op h he hes.1 hc ha
  refine ⟨e, t, he, ht, ?_⟩
  rw [exec_of_starts hst]
  exact resume_eq_of_settles (started_safe_of_starts hst h.safe).1 h.eager ⟨hreach.trans ht.reaches, not_moves_of_idle ht.idle⟩

theorem wire_accumulatedBlocks (s : State) : s.params.wire (s.accumulatedBlocks.map s.params.withPayload) = s.lastChunk := by
  unfold accumulatedBlocks lastChunk
  split <;> rfl

theorem started_history (i : Instr) (s : State) : (s.started i).history =
    s.history ++ [.accept (encode i) s.srcLen] ++ (if i.async then [.cancelSampled false] else []) := rfl

/-- Settles O43: the end, the count and the events by the steps of the form; what it leaves by the barrier that every FLUSH form
is, and by its frame. -/
theorem flushCompletes : Obligations.FlushCompletes := by
  unfold Obligations.FlushCompletes
  intro i s rest hi h hc ha
  have hi : s.IssuesFlush i := hi
  obtain ⟨e, t, he, ht, hx⟩ := flush_runs hi h hc ha
  have herr : t.err = 0x00#8 := ht.err.trans he.err
  have hbarrier := flushIsABarrier
  unfold Obligations.FlushIsABarrier at hbarrier
  obtain ⟨hended, hacc, hstage, hhdr, halloc, hdisposed, hpoisoned, cs, hcs, hblocks, hstream⟩ :=
    (hbarrier.1 i s t hi.op h.safe h.idle hx).1 ht.idle herr
  rw [chunks_eq_withPayload hcs, hblocks, wire_accumulatedBlocks] at hstream
  have hframe := flushFrame
  unfold Obligations.FlushFrame at hframe
  obtain ⟨hparams, hsrcLen, -, hconsumed, -, -, -, hcancel, hinputs, -⟩ := hframe.1 i s t hi.op h.safe h.idle hx
  refine ⟨t, s.lastChunk, hx, rfl, hended, herr, hpoisoned, hdisposed, halloc, hhdr, hconsumed, ?_, hacc, hstage, hstream,
    hsrcLen, ht.sinkAnswers, hparams, hinputs, hcancel, ?_⟩
  · rw [ht.chunks, he.chunks]
    exact BitVec.zero_add _
  · rw [ht.history, he.history, started_history]
    simp only [flushEvents, List.append_assoc]
    rfl

/-! ### A FLUSH form as the first command -/

/-- A fresh machine has neither leased nor staged anything (43_lifecycle.md R200). -/
theorem fresh_iff {s : State} : s.lifecycle = some .fresh ↔
    s.alloc = false ∧ s.hdrWritten = false ∧ s.disposed = false ∧ s.poisoned = false := by
  unfold lifecycle
  cases s.alloc <;> cases s.hdrWritten <;> cases s.disposed <;> cases s.poisoned <;> simp

/-- Settles O44: nothing is accumulated, and the preamble is due. -/
theorem firstFlushDeliversThePreamble : Obligations.FirstFlushDeliversThePreamble := by
  unfold Obligations.FirstFlushDeliversThePreamble
  intro i s rest hi h hfresh ha
  obtain ⟨halloc, hhdr, -, -⟩ := fresh_iff.1 hfresh
  obtain ⟨hacc, -, hsink⟩ := h.safe.1.1.unstaged hhdr
  have hcompletes := flushCompletes
  unfold Obligations.FlushCompletes at hcompletes
  obtain ⟨t, last, hx, hlast, hended, herr, hpoisoned, hdisposed, htalloc, hthdr, -, hchunks, htacc, hstage, hstream, -, -, -, -,
    -, hhistory⟩ := hcompletes i s rest hi h (fun hne => absurd hacc hne) (by rw [ha, if_neg (by simp [hsink])]; rfl)
  rw [if_pos hacc] at hlast hchunks
  subst hlast
  refine ⟨t, hx, hended, herr, by simp [lifecycle, htalloc, hthdr, hdisposed, hpoisoned], hchunks, htacc, hstage, ?_, ?_⟩
  · simpa [hsink, duePreamble] using hstream
  · simp only [List.append_assoc] at hhistory
    rw [transfers_append s hhistory]
    cases i.async <;> simp [halloc, hacc, hsink, List.countP_cons, Event.isTransfer]

/-! ### A FLUSH form that has nothing to do -/

/-- Settles O45: ENSURE finds the preamble staged, and DRAIN finds nothing staged. -/
theorem noOpFlush : Obligations.NoOpFlush := by
  unfold Obligations.NoOpFlush
  intro i s hi hs hb hd hp heager hacc hstage hh
  have hi : s.IssuesFlush i := hi
  have hst := hi.starts hs.1.1.paramsWf hb hd hp
  have hsafe := started_safe_of_starts hst hs
  have hop : (s.started i).cur.op = .flush := hi.op
  have hq : s.pending = .none := (hs.1.ended hb).2.2
  have ha : s.alloc = true := by
    by_contra ha
    have hno := hs.1.1.unleased (Bool.eq_false_iff.2 ha) hd
    rw [hh] at hno; cases hno
  obtain ⟨-, hensure⟩ := ensure_done hsafe rfl hq ha hh
  have hf : (s.started i).afterEnsure = .drain := by
    rw [afterEnsure, hop]
    simp [started, accepted, opened, latch, hacc]
  rw [hf] at hensure
  have hdrain := tick_drain_of_unstaged (s := { s.started i with fsm := .drain }) rfl hq hop hstage
  have hreach : ReflTransGen Moves (s.started i) ({ s.started i with fsm := .drain } : State).complete :=
    (ReflTransGen.single ⟨rfl, hensure⟩).tail ⟨rfl, hdrain⟩
  refine ⟨_, (exec_of_starts hst).trans (resume_eq_of_settles hsafe.1 heager ⟨hreach, not_moves_of_idle (by simp)⟩),
    by simp [Ended], by rw [complete_err]; rfl, by rw [complete_consumed]; rfl, by rw [complete_chunks]; rfl, ?_, ?_, ?_, ?_⟩
  · constructor <;> simp <;> rfl
  · constructor <;> simp <;> rfl
  · rw [complete_src, releaseSrc_of_flush (by exact hop)]; rfl
  · rw [complete_history]; rfl

end Sys2Proof.Machine
end

section
/-! PROOFS. What EMIT leaves in the staging buffer, a failing compressor, and the sink's two answers (42_chunk_emit.md R162, R166,
R167, R174, R175, 60_exceptions.md R215, R216). -/

namespace Sys2Proof

/-- A chunk is its header of eight bytes and the payload (30_encoding.md R93, 42_chunk_emit.md R166). -/
theorem Params.chunk_eq (p : Params) (blk payload : List Byte) :
    p.chunk blk payload = (p.ctype :: (le24 (payload.length + 4) ++ le32 (p.maskedCrc blk))) ++ payload := rfl

namespace Machine

open State

/-! ### The staging buffer after EMIT -/

/-- Two buffers with the same string of bytes agree at each of its addresses. -/
theorem Buffer.byte_eq_of_bytes_eq {b c : Buffer} {a n i : Nat} (h : b.bytes a n = c.bytes a n) (hi : i < n) :
    b.byte (a + i) = c.byte (a + i) := by
  have hget : (b.bytes a n)[i]? = (c.bytes a n)[i]? := by rw [h]
  simpa [Buffer.bytes, hi] using hget

/-- EMIT keeps what was staged and puts the chunk behind it (42_chunk_emit.md R166, R167). -/
theorem State.Emitted.stg_bytes {s t : State} {c : List Byte} (h : s.Emitted c t) :
    t.stg.bytes 0 s.stageLen = s.stg.bytes 0 s.stageLen ∧
    t.stg.bytes s.stageLen (8 + c.length) = s.params.chunk s.blockBytes c := by
  have hstaged : t.stg.bytes 0 t.stageLen = s.stg.bytes 0 s.stageLen ++ s.params.chunk s.blockBytes c := h.staged
  rw [h.stageLen, Nat.add_assoc, Buffer.bytes_append, Nat.zero_add] at hstaged
  exact List.append_inj hstaged (by simp)

/-- Type, length and checksum stand before the payload. -/
theorem State.Emitted.header_payload {s t : State} {c : List Byte} (h : s.Emitted c t) :
    t.stg.bytes s.stageLen 8 = s.params.ctype :: (le24 (c.length + 4) ++ le32 (s.params.maskedCrc s.blockBytes)) ∧
    t.stg.bytes (s.stageLen + 8) c.length = c := by
  have hchunk := h.stg_bytes.2
  rw [Buffer.bytes_append, Params.chunk_eq] at hchunk
  exact List.append_inj' hchunk (by simp)

/-- Settles O32: three steps of EMIT leave the chunk behind what was staged, and the chunk falls into header and payload. -/
theorem emitWritesTheChunk : Obligations.EmitWritesTheChunk := by
  unfold Obligations.EmitWritesTheChunk
  intro s c hs hf hq hcr hkr hc hle
  obtain ⟨hem, -, hrun⟩ := emit_runs hs.1 hf hq hcr hkr hc (by simpa using hle)
  obtain ⟨hbefore, hchunk⟩ := hem.stg_bytes
  obtain ⟨hheader, hpayload⟩ := hem.header_payload
  refine ⟨s.chunkWritten c, hrun 0, hem.fsm, hheader, hpayload, hchunk, fun x hx => ?_, hem.stageLen, hem.chunks, hem.accLen,
    hem.acc, hem.sinkStream, hem.err, hem.poisoned⟩
  simpa using Buffer.byte_eq_of_bytes_eq hbefore hx

/-! ### A failing compressor -/

@[simp] theorem compressionFailed_err (s : State) : s.compressionFailed.err = 0x04#8 := by
  simp [compressionFailed, ErrorKind.code]
@[simp] theorem compressionFailed_poisoned (s : State) : s.compressionFailed.poisoned = true := by
  simp [compressionFailed, ErrorKind.poisons]
@[simp] theorem compressionFailed_alloc (s : State) : s.compressionFailed.alloc = s.alloc := by simp [compressionFailed]
@[simp] theorem compressionFailed_hdrWritten (s : State) : s.compressionFailed.hdrWritten = s.hdrWritten := by
  simp [compressionFailed]
@[simp] theorem compressionFailed_disposed (s : State) : s.compressionFailed.disposed = s.disposed := by
  simp [compressionFailed]
@[simp] theorem compressionFailed_sinkStream (s : State) : s.compressionFailed.sinkStream = s.sinkStream := by
  simp [compressionFailed]
@[simp] theorem compressionFailed_transfers (s : State) : s.compressionFailed.transfers = s.transfers :=
  transfers_append s (compressionFailed_history s)

/-- The request to the compressor is no transfer. -/
theorem transfers_compressReq (source : Space) (n dst : Nat) (s : State) :
    (s.request .compressor (.compressReq source n dst)).transfers = s.transfers :=
  transfers_append s (request_history _ _ s)

/-- Settles O34: the request to the compressor, and then the error, which keeps the lease and delivers nothing. -/
theorem compressionFailurePoisons : Obligations.CompressionFailurePoisons := by
  unfold Obligations.CompressionFailurePoisons
  intro s hs hf hq hcr hno
  have hlease := (hs.1.emit hf).lease
  have hfails : s.CompressionFails := by simpa [CompressionFails] using hno
  refine ⟨_, emit_fails hs.1 hf hq hcr hfails, compressionFailed_ended _, ?_⟩
  simp [transfers_compressReq, hlease.leased, hlease.hdr, hlease.run.live]

/-! ### The sink's answers -/

/-- What follows DRAIN neither stages nor takes an answer of the sink (42_chunk_emit.md R176, 40_write.md R112). -/
theorem afterDrain_keeps (s : State) :
    s.afterDrain.stageLen = s.stageLen ∧ s.afterDrain.sinkStream = s.sinkStream ∧ s.afterDrain.sinkAnswers = s.sinkAnswers := by
  unfold afterDrain
  cases s.cur.op with
  | write =>
    dsimp only
    split
    · unfold checkpoint
      split <;> simp
    · simp
  | flush => simp
  | dispose => simp

/-- Settles O35: the answer empties the staging buffer into the stream, and what follows DRAIN leaves both. -/
theorem sinkAccepts : Obligations.SinkAccepts := by
  unfold Obligations.SinkAccepts
  intro s rest hs hf hq ha
  have htick := tick_sinkAnswered hs.1 hq ha
  rw [sinkAnswered_ok] at htick
  obtain ⟨hstage, hstream, hanswers⟩ := afterDrain_keeps (s.sinkAccepted rest)
  have hnone : (s.sinkAccepted rest).afterDrain.stageLen = 0 := hstage
  exact ⟨_, htick, hnone, hstream, by rw [staged, hnone, Buffer.bytes_zero], hanswers⟩

/-- Settles O36: the answer ends the command with E_SINK, and what the sink kept is in the stream. -/
theorem sinkFailurePoisons : Obligations.SinkFailurePoisons := by
  unfold Obligations.SinkFailurePoisons
  intro s kept rest hs hf hq ha
  have hlease := (hs.1.drain hf).lease
  refine ⟨_, tick_sinkAnswered hs.1 hq ha, ?_⟩
  simp [sinkAnswered, Ended, ErrorKind.code, ErrorKind.poisons, hlease.leased, hlease.run.live]

end Machine

end Sys2Proof
end

section
/-! PROOFS. DISPOSE, and the preamble that ENSURE stages (43_lifecycle.md R190 to R199). -/

namespace Sys2Proof.Machine

open State

/-! ### DISPOSE -/

/-- Buffers that are not leased have no addresses (20_memory.md R52, R53, 43_lifecycle.md R199). -/
theorem hasAddresses_unleased {s : State} (h : s.alloc = false) (a n : Nat) :
    s.hasAddresses .acc a n = false ∧ s.hasAddresses .stg a n = false := by
  simp [hasAddresses, h]

@[simp] theorem disposeInstance_accLen (s : State) : s.disposeInstance.accLen = 0 := rfl
@[simp] theorem disposeInstance_stageLen (s : State) : s.disposeInstance.stageLen = 0 := rfl

theorem releaseSrc_dispose {s : State} (hop : s.cur.op = .dispose) : s.releaseSrc = s := by
  simp [releaseSrc, hop]

/-- DISPOSE leaves the world outside as it is. -/
theorem sameWorld_disposes (i : Instr) (s : State) : s.SameWorld (s.accepted i).disposeInstance.complete := by
  rw [disposeInstance_eq]
  constructor <;> simp

/-- DISPOSE holds no loan of SRC, and keeps it. -/
theorem disposes_src (snk : Bool) (s : State) :
    (s.accepted (.dispose snk)).disposeInstance.complete.src = s.src := by
  rw [complete_src, releaseSrc_dispose (by rw [disposeInstance_eq]; rfl), disposeInstance_src, accepted_src]

/-- Settles O49: acceptance, the release effect and completion, field by field. -/
theorem disposeCompletes : Obligations.DisposeCompletes := by
  unfold Obligations.DisposeCompletes
  intro s snk hw hb hlive
  have hx : exec (.dispose snk) s = .next (s.accepted (.dispose snk)).disposeInstance.complete := by
    rw [exec_dispose snk hw hb, hlive]
    rfl
  refine ⟨_, hx, ⟨by simp, by simp, by simp⟩, by simp, by simp, by simp, by simp, by simp, by simp [disposeInstance_eq],
    by simp [disposeInstance_eq], by simp, by simp, by simp, by simp [disposeInstance_eq], disposes_src snk s, by simp,
    sameWorld_disposes _ s, fun a n _ => hasAddresses_unleased (by simp) a n, ?_⟩
  simpa [disposeEvents, hlive] using exec_dispose_history hx

/-- Settles O50: acceptance and completion touch `err`, `consumed`, `chunks` and the history. -/
theorem secondDisposeDoesNothing : Obligations.SecondDisposeDoesNothing := by
  unfold Obligations.SecondDisposeDoesNothing
  intro s snk hw hb hd
  have hx : exec (.dispose snk) s = .next (s.accepted (.dispose snk)).complete := by
    rw [exec_dispose snk hw hb, if_pos hd]
  refine ⟨_, hx, ⟨⟨by simp, by simp, by simp⟩, by simp, by simp, by simp, ?_, ?_, by simp⟩⟩
  · constructor <;> simp
  · constructor <;> simp

/-! ### The preamble -/

/-- ENSURE with a lease and the preamble not yet staged: one step stages it. -/
theorem tick_stagesPreamble {s : State} (hp : s.params.wf = true) (hf : s.fsm = .ensure) (hq : s.pending = .none)
    (ha : s.alloc = true) (hh : s.hdrWritten = false) : tick s = .moved s.preambleStaged := by
  have hfits : 0 + s.params.preamble.length ≤ s.params.stageSize := by
    rw [paramsWf_preamble hp, stageSize_eq]
    omega
  rw [tick_ensure hf hq, ensureStep, if_pos ha, if_neg (by simp [hh]), stagePreamble, stgWrite_eq ha hfits]
  rfl

/-- Settles O25: the preamble has ten bytes, which are written at the start of STG. -/
theorem preambleStaged : Obligations.PreambleStaged := by
  unfold Obligations.PreambleStaged
  intro s hs hf hq ha hh
  have hten := paramsWf_preamble hs.1.1.paramsWf
  refine ⟨(hs.1.1.unstaged hh).2.1, s.preambleStaged, tick_stagesPreamble hs.1.1.paramsWf hf hq ha hh, ?_, rfl, rfl, rfl, rfl,
    rfl, fun x hx => Buffer.byte_write_outside (.inr (by omega))⟩
  show (s.stg.write 0 s.params.preamble).bytes 0 10 = s.params.preamble
  rw [← hten, Buffer.bytes_write_same]

end Sys2Proof.Machine
end

section
/-! PROOFS. The lifecycle (43_lifecycle.md R200): how a command in progress ends, and the lifecycle state over a step. -/

namespace Sys2Proof.Machine

open State Relation

/-! ### The lifecycle state by the flags -/

theorem active_iff {s : State} : s.lifecycle = some .active ↔
    s.alloc = true ∧ s.hdrWritten = true ∧ s.disposed = false ∧ s.poisoned = false := by
  unfold lifecycle
  cases s.alloc <;> cases s.hdrWritten <;> cases s.disposed <;> cases s.poisoned <;> simp

theorem poisoned_iff {s : State} : s.lifecycle = some .poisoned ↔ s.disposed = false ∧ s.poisoned = true := by
  unfold lifecycle
  cases s.alloc <;> cases s.hdrWritten <;> cases s.disposed <;> cases s.poisoned <;> simp

theorem lifecycle_of_disposed {s : State} (hd : s.disposed = true) (ha : s.alloc = false) :
    s.lifecycle = some (if s.poisoned then .disposedPoisoned else .disposed) := by
  unfold lifecycle
  rw [ha, hd]
  cases s.hdrWritten <;> cases s.poisoned <;> rfl

theorem lifecycle_congr {s t : State} (ha : t.alloc = s.alloc) (hh : t.hdrWritten = s.hdrWritten)
    (hd : t.disposed = s.disposed) (hp : t.poisoned = s.poisoned) : t.lifecycle = s.lifecycle := by
  unfold lifecycle
  rw [ha, hh, hd, hp]

/-- Between commands an instance neither disposed nor poisoned is FRESH or ACTIVE: the lease and the preamble come together. -/
theorem State.Safe.fresh_or_active {s : State} (hs : s.Safe) (hb : s.busy = false) (hlive : s.disposed = false)
    (hsound : s.poisoned = false) : s.lifecycle = some .fresh ∨ s.lifecycle = some .active := by
  obtain ⟨-, hi⟩ := hs.1.idle_phase hb
  cases ha : s.alloc with
  | false => exact .inl (fresh_iff.2 ⟨ha, hs.1.1.unleased ha hlive, hlive, hsound⟩)
  | true => exact .inr (active_iff.2 ⟨ha, hi.leased ha, hlive, hsound⟩)

/-- Between commands the flags are one of the five states. -/
theorem State.Safe.exists_lifecycle {s : State} (hs : s.Safe) (hb : s.busy = false) : ∃ a, s.lifecycle = some a := by
  cases hd : s.disposed with
  | true => exact ⟨_, lifecycle_of_disposed hd (hs.unleased_of_disposed hd)⟩
  | false =>
    cases hp : s.poisoned with
    | true => exact ⟨_, poisoned_iff.2 ⟨hd, hp⟩⟩
    | false => rcases hs.fresh_or_active hb hd hp with h | h <;> exact ⟨_, h⟩

/-! ### How a command in progress ends -/

/-- How a command that ENSURE has started ends: in ACTIVE, or in POISONED, with the lease after a failing compressor or sink and
without one where the pool has refused it (60_exceptions.md R218, R220). -/
inductive State.CommandOver (t : State) : Prop
  | active (h : t.lifecycle = some .active)
  | failed (h : t.lifecycle = some .poisoned) (ha : t.alloc = true) (herr : t.err = 0x04#8 ∨ t.err = 0x05#8)
  | leaseRefused (h : t.lifecycle = some .poisoned) (ha : t.alloc = false) (hh : t.hdrWritten = false) (herr : t.err = 0x08#8)

section
variable {s t : State}

theorem State.Leased.complete_over (h : s.Leased) : s.complete.CommandOver :=
  .active (active_iff.2 (by simp [h.leased, h.hdr, h.run.live, h.run.sound]))

/-- E_CANCELLED does not poison (60_exceptions.md R214). -/
theorem State.Leased.cancelled_over (h : s.Leased) : (s.raise .cancelled).CommandOver :=
  .active (active_iff.2 (by simp [h.leased, h.hdr, h.run.live, h.run.sound, ErrorKind.poisons]))

theorem State.Leased.compress_over (h : s.Leased) : (s.raise .compress).CommandOver :=
  .failed (poisoned_iff.2 (by simp [h.run.live, ErrorKind.poisons])) (by simp [h.leased]) (.inl (by simp [ErrorKind.code]))

theorem State.Leased.sink_over (h : s.Leased) : (s.raise .sink).CommandOver :=
  .failed (poisoned_iff.2 (by simp [h.run.live, ErrorKind.poisons])) (by simp [h.leased]) (.inr (by simp [ErrorKind.code]))

theorem ensureStep_busy (ht : ensureStep s = .moved t) : t.busy = s.busy := by
  unfold ensureStep at ht
  split at ht
  · split at ht
    · cases ht; rfl
    · obtain ⟨rfl, -⟩ := stagePreamble_ok (Progress.of_eq_moved.1 ht)
      rfl
  · cases ht; rfl

variable (hidle : t.busy = false)
include hidle

theorem poolStep_over (hr : s.Running) (ha : s.alloc = false) (hh : s.hdrWritten = false) (ht : poolStep s = .moved t) :
    t.CommandOver := by
  unfold poolStep at ht
  split at ht
  · cases ht
  · cases ht; simp [hr.busy] at hidle
  · cases ht
    exact .leaseRefused (poisoned_iff.2 (by simp [hr.live, ErrorKind.poisons])) (by simp [ha]) (by simp [hh])
      (by simp [ErrorKind.code])

theorem segmentStep_over (h : s.Leased) (ht : segmentStep s = .moved t) : t.CommandOver := by
  unfold segmentStep at ht
  split at ht
  · split at ht
    · cases ht; simp [h.run.busy] at hidle
    · obtain rfl := copyToAcc_ok (Progress.of_eq_moved.1 ht)
      simp [h.run.busy] at hidle
  · cases ht; exact h.complete_over

theorem compressAnswered_over {blk : List Byte} (h : s.Leased) (ht : compressAnswered blk s = .moved t) :
    t.CommandOver := by
  have hscribble : ∀ e, ((s.answered e).stgScribble (s.stageLen + 8)).Leased := fun _ => { h with run := { h.run with } }
  unfold compressAnswered at ht
  split at ht
  · cases ht; exact (hscribble _).compress_over
  · split at ht
    · cases ht; exact (hscribble _).compress_over
    · obtain rfl := packPayload_ok (Progress.of_eq_moved.1 ht)
      simp [h.run.busy] at hidle

theorem compressorStep_over (h : s.Leased) (ht : compressorStep s = .moved t) : t.CommandOver := by
  unfold compressorStep at ht
  split at ht
  · split at ht
    · exact compressAnswered_over hidle h ht
    · cases ht
  · cases ht

omit hidle in
theorem checksumStep_busy {cl : Nat} (ht : checksumStep cl s = .moved t) : t.busy = s.busy := by
  unfold checksumStep at ht
  split at ht
  · split at ht
    · obtain rfl := packChecksum_ok (Progress.of_eq_moved.1 ht)
      exact blockTaken_busy _
    · cases ht
  · cases ht

omit hidle in
/-- What follows DRAIN ends the command with OK or at a check point (41_flush.md R140, 42_chunk_emit.md R176). -/
theorem afterDrain_over (h : s.Leased) (hidle : s.afterDrain.busy = false) : s.afterDrain.CommandOver := by
  have hsampled : ∀ e, (s.log e).Leased := fun _ => { h with run := { h.run with } }
  unfold afterDrain at hidle ⊢
  cases hop : s.cur.op with
  | write =>
    simp only [hop] at hidle ⊢
    split at hidle
    · rename_i hboundary
      rw [if_pos hboundary]
      unfold checkpoint at hidle ⊢
      split at hidle
      · rename_i hc; rw [if_pos hc]; exact (hsampled _).cancelled_over
      · simp [h.run.busy] at hidle
    · simp [h.run.busy] at hidle
  | flush => exact h.complete_over
  | dispose => exact h.complete_over

theorem drainStep_over (h : s.Leased) (ht : drainStep s = .moved t) : t.CommandOver := by
  unfold drainStep at ht
  split at ht
  · cases ht; exact afterDrain_over h hidle
  · split at ht
    · cases ht; simp [h.run.busy] at hidle
    · cases ht

theorem sinkStep_over (h : s.Leased) (ht : sinkStep s = .moved t) : t.CommandOver := by
  unfold sinkStep at ht
  split at ht
  · cases ht
  · rename_i a rest _
    split at ht
    · rename_i bytes _
      cases ht
      cases a with
      | ok =>
        have hd : ((State.answered (.sinkAnswer true) { s with sinkAnswers := rest }).delivered bytes).Leased :=
          { h with run := { h.run with } }
        exact afterDrain_over hd hidle
      | err kept =>
        have hk : ((State.answered (.sinkAnswer false) { s with sinkAnswers := rest }).keptByFailingSink bytes kept).Leased :=
          { h with run := { h.run with } }
        exact hk.sink_over
    · cases ht

/-- The sequencer's last step of a command, by its phase. -/
theorem tick_over (h : s.Inv) (hb : s.busy = true) (ht : tick s = .moved t) : t.CommandOver := by
  have hstays : t.busy ≠ s.busy := by simp [hidle, hb]
  rcases tick_moved_cases ht with ⟨-, -, ht⟩ | ⟨hf, hq, ht⟩ | ⟨hf, -, ht⟩ | ⟨-, -, ht⟩ | ⟨hf, -, ht⟩ | ⟨cl, -, -, ht⟩ |
    ⟨hf, -, ht⟩ | ⟨hf, -, ht⟩
  · exact absurd (ensureStep_busy ht) hstays
  · have hr := h.running hb
    have ha := h.unleased_of_pool hf hq
    exact poolStep_over hidle hr ha (h.1.unleased ha hr.live) ht
  · exact segmentStep_over hidle (h.segment hf).lease ht
  · cases ht; exact absurd rfl hstays
  · exact compressorStep_over hidle (h.emit hf).lease ht
  · exact absurd (checksumStep_busy ht) hstays
  · exact drainStep_over hidle (h.drain hf).lease ht
  · exact sinkStep_over hidle (h.drain hf).lease ht

/-- However many steps a command takes to its end. -/
theorem reaches_over (hs : s.Safe) (hb : s.busy = true) (h : ReflTransGen Moves s t) : t.CommandOver := by
  cases h with
  | refl => simp [hb] at hidle
  | tail hr hm => exact tick_over hidle (reaches_keeps_safe hs hr).1 hm.1 hm.2

end

/-! ### The lifecycle state over a step -/

/-- The pair is a transition of the table, or no change (43_lifecycle.md R200). -/
def State.Transits (s t : State) : Prop :=
  ∃ a b, s.lifecycle = some a ∧ t.lifecycle = some b ∧ a.mayBecome b = true

theorem Lifecycle.mayBecome_self (a : Lifecycle) : a.mayBecome a = true := by
  cases a <;> rfl

section
variable {s t : State} (hs : s.Safe) (hb : s.busy = false)
include hs hb

theorem transits_of_same (h : t.lifecycle = s.lifecycle) : s.Transits t := by
  obtain ⟨a, ha⟩ := hs.exists_lifecycle hb
  exact ⟨a, a, ha, h.trans ha, a.mayBecome_self⟩

/-- From FRESH or ACTIVE a command that has started goes to ACTIVE or POISONED. -/
theorem transits_of_over (hlive : s.disposed = false) (hsound : s.poisoned = false) (h : t.CommandOver) : s.Transits t := by
  have hends : t.lifecycle = some .active ∨ t.lifecycle = some .poisoned := by
    cases h with
    | active h => exact .inl h
    | failed h _ _ => exact .inr h
    | leaseRefused h _ _ _ => exact .inr h
  rcases hs.fresh_or_active hb hlive hsound with ha | ha <;> rcases hends with hz | hz <;> exact ⟨_, _, ha, hz, rfl⟩

/-- The first DISPOSE ends each state in the disposed one with the same `poisoned` (43_lifecycle.md R196). -/
theorem transits_of_disposes (hlive : s.disposed = false) (i : Instr) :
    s.Transits (s.accepted i).disposeInstance.complete := by
  have hz : (s.accepted i).disposeInstance.complete.lifecycle =
      some (if s.poisoned then .disposedPoisoned else .disposed) :=
    (lifecycle_of_disposed (by simp) (by simp)).trans (by simp)
  cases hp : s.poisoned with
  | true => rw [hp] at hz; exact ⟨_, _, poisoned_iff.2 ⟨hlive, hp⟩, hz, rfl⟩
  | false =>
    rw [hp] at hz
    rcases hs.fresh_or_active hb hlive hp with ha | ha <;> exact ⟨_, _, ha, hz, rfl⟩

theorem exec_transits {i : Instr} (h : exec i s = .next t) (hidle : t.busy = false) : s.Transits t := by
  obtain ⟨-, -, hx⟩ := exec_cases h
  cases hx with
  | rejected _ e he => exact transits_of_same hs hb (lifecycle_congr (by simp) (by simp) (by simp) (by simp [he]))
  | cancelled _ _ _ _ _ =>
    exact transits_of_same hs hb (lifecycle_congr (by simp) (by simp) (by simp) (by simp [ErrorKind.poisons]))
  | starts hstarts hr =>
    exact transits_of_over hs hb hstarts.live hstarts.sound
      (reaches_over hidle (started_safe_of_starts hstarts hs) rfl (reaches_of_resume hr))
  | disposes _ hlive => exact transits_of_disposes hs hb hlive i
  | disposedAlready _ _ => exact transits_of_same hs hb (lifecycle_congr (by simp) (by simp) (by simp) (by simp))

end

/-- The world outside changes no flag. -/
theorem State.WorldMoves.lifecycle {s u : State} (h : s.WorldMoves u) : u.lifecycle = s.lifecycle :=
  lifecycle_congr h.alloc h.hdrWritten h.disposed h.poisoned

/-- An illegal word does not poison (60_exceptions.md R211). -/
theorem illegallyCommanded_lifecycle (s : State) (w : Word) : (s.illegallyCommanded w).lifecycle = s.lifecycle :=
  lifecycle_congr rfl rfl rfl (Bool.or_false s.poisoned)

/-- An idle sequencer stays where it is. -/
theorem eq_of_reaches_idle {s t : State} (hb : s.busy = false) (h : ReflTransGen Moves s t) : t = s := by
  rcases h.cases_head with heq | ⟨v, hm, -⟩
  · exact heq.symm
  · exact absurd hm (not_moves_of_idle hb v)

section
variable {s t : State} (hs : s.Safe) (hin : s.inputs.head? ≠ some .construct) (h : step s = .next t)
include hs hin h

/-- A step between commands, or one that starts and ends a command. -/
theorem step_transits (hb : s.busy = false) (hidle : t.busy = false) : s.Transits t := by
  obtain ⟨-, hx⟩ := step_cases h
  cases hx with
  | @goesOn u _ hw hr =>
    obtain rfl := eq_of_reaches_idle (hw.busy.trans hb) hr
    exact transits_of_same hs hb hw.lifecycle
  | command hw hx =>
    obtain ⟨a, b, ha, hz, hab⟩ := exec_transits (hw.keeps_safe hs) (hw.busy.trans hb) hx hidle
    exact ⟨a, b, hw.lifecycle ▸ ha, hz, hab⟩
  | illegal w hw _ =>
    exact transits_of_same hs hb ((illegallyCommanded_lifecycle _ w).trans hw.lifecycle)
  | construct hc _ _ => exact absurd hc hin

omit hs in
/-- A step that starts a command which is then still in progress: the command has passed the acceptance checks. -/
theorem step_starts (hb : s.busy = false) (hbusy : t.busy = true) : s.disposed = false ∧ s.poisoned = false := by
  obtain ⟨-, hx⟩ := step_cases h
  cases hx with
  | @goesOn u _ hw hr =>
    obtain rfl := eq_of_reaches_idle (hw.busy.trans hb) hr
    rw [hw.busy, hb] at hbusy; cases hbusy
  | command hw hx =>
    have hstarts := starts_of_exec_busy hx hbusy
    exact ⟨hw.disposed ▸ hstarts.live, hw.poisoned ▸ hstarts.sound⟩
  | illegal w _ _ => cases hbusy
  | construct hc _ _ => exact absurd hc hin

/-- The step in which a command in progress ends. -/
theorem step_over (hb : s.busy = true) (hidle : t.busy = false) : t.CommandOver := by
  obtain ⟨-, hx⟩ := step_cases h
  cases hx with
  | goesOn hw hr => exact reaches_over hidle (hw.keeps_safe hs) (hw.busy.trans hb) hr
  | command hw hx =>
    obtain ⟨-, hfree, -⟩ := exec_cases hx
    rw [hw.busy, hb] at hfree; cases hfree
  | illegal w _ hfree => rw [hb] at hfree; cases hfree
  | construct hc _ _ => exact absurd hc hin

/-- ACTIVE stays over a step behind which a command is in progress. -/
theorem step_keeps_active (hbusy : t.busy = true) (ha : s.lifecycle = some .active) : t.lifecycle = some .active := by
  have hr := (stepKeepsSafe s t hs h).1.running hbusy
  obtain ⟨hsalloc, hshdr, -, -⟩ := active_iff.1 ha
  obtain ⟨hhdr, -, -, halloc⟩ := step_flagsStick hs hin h
  exact active_iff.2 ⟨(halloc hsalloc).resolve_right (by simp [hr.live]), hhdr hshdr, hr.live, hr.sound⟩

end

/-- Settles O52: idle to idle by what the step can come to; behind a step that leaves a command in progress the machine runs, and
flags do not fall; the step in which it ends is the sequencer's last one. -/
theorem lifecycleTransitions : Obligations.LifecycleTransitions := by
  unfold Obligations.LifecycleTransitions
  intro s t hs hin h
  have hrun : t.busy = true → t.disposed = false ∧ t.poisoned = false := fun hbusy =>
    have hr := (stepKeepsSafe s t hs h).1.running hbusy
    ⟨hr.live, hr.sound⟩
  have hlease : s.alloc = true → t.alloc = true ∨ t.disposed = true := (step_flagsStick hs hin h).alloc
  refine ⟨step_transits hs hin h, fun hb hbusy => ?_, fun _ hbusy => ?_, fun hb hidle => ?_⟩
  · obtain ⟨hlive, hsound⟩ := step_starts hin h hb hbusy
    have hstart := hs.fresh_or_active hb hlive hsound
    obtain ⟨htlive, htsound⟩ := hrun hbusy
    refine ⟨hstart, htlive, htsound, fun ha => step_keeps_active hs hin h hbusy (hstart.resolve_left fun hf => ?_)⟩
    rw [(fresh_iff.1 hf).1] at ha; cases ha
  · obtain ⟨htlive, htsound⟩ := hrun hbusy
    exact ⟨htlive, htsound, step_keeps_active hs hin h hbusy⟩
  · cases step_over hs hin h hb hidle with
    | active ha =>
      have halloc := (active_iff.1 ha).1
      exact ⟨.inl ha, fun hn => by simp [halloc] at hn, fun hp => by simp [ha] at hp⟩
    | failed hp halloc herr => exact ⟨.inr hp, fun hn => by simp [halloc] at hn, fun _ => herr.imp_right .inl⟩
    | leaseRefused hp halloc hhdr herr =>
      have hnone : s.alloc = false := Bool.eq_false_iff.2 fun ha => by
        have := hlease ha
        simp [halloc, (poisoned_iff.1 hp).1] at this
      exact ⟨.inr hp, fun _ => ⟨hnone, hhdr, herr⟩, fun _ => .inr (.inr herr)⟩

end Sys2Proof.Machine
end

section
/-! PROOFS. The idle machine, the register writes that a busy one refuses, and the errors at acceptance and of the pool
(60_exceptions.md R212, R213, R217 to R221, R228, R235). -/

namespace Sys2Proof.Machine

open State

/-! ### The machine without a command or an input -/

/-- Settles O6: the sequencer of an idle machine takes no step, at either pace. -/
theorem idleStaysAsItIs : Obligations.IdleStaysAsItIs := by
  unfold Obligations.IdleStaysAsItIs
  intro s hw hb hin
  have hgo : (if s.eager then resume s else oneTick s) = .next s := by
    split
    · exact resume_idle hb
    · exact run_idle 1 hb
  rw [step, nextMove_nil hw hin]
  exact hgo

/-! ### Writes while busy -/

theorem refusal_of_busy {s : State} (hw : s.params.wf = true) (hb : s.busy = true) :
    refusal s = some .commandWhileBusy := by
  simp [refusal, hw, hb]

/-- A busy machine refuses every word that is written to `CMD`, legal or not. -/
theorem step_cmdWrite_busy {s : State} {w : Word} {rest : List Input} (hw : s.params.wf = true) (hb : s.busy = true)
    (hin : s.inputs = .csrWrite (s.params.csrBase + Csr.offset .cmd) 4 w :: rest) :
    step s = .refused .commandWhileBusy := by
  have hr : refusal { s with inputs := rest } = some .commandWhileBusy := refusal_of_busy hw hb
  cases hd : decode w with
  | ok i => rw [step_cmdWrite hw hin hd, exec_of_refusal hr]
  | error e =>
    rw [step, nextMove_csrWrite hw hin, csrWrite, csrAt_inputs, csrAt_offset]
    simp only [hd, illegalCommand, hr]

/-- Settles O7: neither acceptance nor the write of `SRC_LEN` passes a busy machine. -/
theorem writesWhileBusyRefused : Obligations.WritesWhileBusyRefused := by
  unfold Obligations.WritesWhileBusyRefused
  intro s v rest hw hb
  refine ⟨step_cmdWrite_busy hw hb, fun hin => ?_⟩
  rw [step_srcLenWrite hw hin, srcLenWrite, if_pos (by exact hb)]

/-! ### Errors at acceptance -/

/-- An error that does not poison, raised at acceptance, changes `err`, `consumed` and `chunks` only (60_exceptions.md R221). -/
theorem accepted_raise_endsAtOnce (i : Instr) (s : State) (e : ErrorKind) (he : e.poisons = false) :
    s.EndsAtOnce i e.code ((s.accepted i).raise e) where
  ended := ⟨raise_busy _ _, raise_fsm _ _, raise_pending _ _⟩
  err := raise_err _ _
  consumed := by simp
  chunks := by simp
  same := by constructor <;> simp [he]
  world := by constructor <;> simp
  events := by simp

section
variable {i : Instr} {s : State} (hop : i.op ≠ .dispose) (hw : s.params.wf = true) (hb : s.busy = false)
include hop hw hb

theorem exec_form_disposed (hd : s.disposed = true) : exec i s = .next ((s.accepted i).raise .disposed) :=
  exec_eq_of_isOver hop (by simp [acceptChecks_eq hw hb, hd])

theorem exec_form_poisoned (hd : s.disposed = false) (hp : s.poisoned = true) :
    exec i s = .next ((s.accepted i).raise .poisoned) :=
  exec_eq_of_isOver hop (by simp [acceptChecks_eq hw hb, hd, hp])

theorem exec_form_withoutSink (hd : s.disposed = false) (hp : s.poisoned = false) (hsnk : i.snk = false) :
    exec i s = .next ((s.accepted i).raise .nullSink) :=
  exec_eq_of_isOver hop (by simp [acceptChecks_eq hw hb, hd, hp, hsnk])

end

/-- DISPOSE raises no error, in whatever lifecycle state it is accepted (43_lifecycle.md R194, R195). -/
theorem exec_dispose_err {snk : Bool} {s t : State} (h : exec (.dispose snk) s = .next t) : t.err = 0x00#8 := by
  obtain ⟨-, -, hx⟩ := exec_cases h
  cases hx with
  | rejected hop _ _ => exact absurd rfl hop
  | cancelled hop _ _ _ _ => exact absurd rfl hop
  | starts hst _ => exact absurd rfl hst.form
  | disposes _ _ => simp
  | disposedAlready _ _ => simp

/-- Settles O19: E_DISPOSED is the first check, and DISPOSE completes. -/
theorem formsAfterDisposeEnd : Obligations.FormsAfterDisposeEnd := by
  unfold Obligations.FormsAfterDisposeEnd
  exact ⟨fun i s hop hw hb hd => ⟨_, exec_form_disposed hop hw hb hd, accepted_raise_endsAtOnce i s .disposed rfl⟩,
    fun _ _ _ => exec_dispose_err⟩

/-- Settles O20: E_POISONED is the second check. -/
theorem formsOnPoisonedInstanceEnd : Obligations.FormsOnPoisonedInstanceEnd := by
  unfold Obligations.FormsOnPoisonedInstanceEnd
  exact fun i s hop hw hb hd hp => ⟨_, exec_form_poisoned hop hw hb hd hp, accepted_raise_endsAtOnce i s .poisoned rfl⟩

/-- Settles O21: E_NULL_SINK is the last check, and the length is not looked at. -/
theorem formsWithoutSinkEnd : Obligations.FormsWithoutSinkEnd := by
  unfold Obligations.FormsWithoutSinkEnd
  exact fun i s hop hsnk hw hb hd hp =>
    ⟨_, exec_form_withoutSink hop hw hb hd hp hsnk, accepted_raise_endsAtOnce i s .nullSink rfl⟩

/-! ### The pool refuses -/

/-- The form has asked the pool, and the pool has refused (60_exceptions.md R218). -/
def State.leaseRefused (i : Instr) (s : State) (rest : List PoolAnswer) : State :=
  (({ s.poolAsked i with poolAnswers := rest } : State).answered (.poolAnswer .refused)).raise .alloc

/-- ENSURE asks the pool, takes its refusal and ends the command. -/
theorem exec_lease_refused {i : Instr} {s : State} {rest : List PoolAnswer} (hstarts : s.Starts i) (hs : s.Safe)
    (ha : s.alloc = false) (he : s.eager = true) (hp : s.poolAnswers = .refused :: rest) :
    exec i s = .next (s.leaseRefused i rest) := by
  have hask : tick (s.started i) = .moved (s.poolAsked i) := by
    rw [tick_ensure (s := s.started i) rfl (hs.1.ended hstarts.idle).2.2, ensureStep, if_neg (by exact Bool.eq_false_iff.1 ha)]
    rfl
  have hpool : (s.poolAsked i).poolAnswers = .refused :: rest := hp
  have hrefuse : tick (s.poolAsked i) = .moved (s.leaseRefused i rest) := by
    rw [tick_pool (s := s.poolAsked i) rfl rfl, poolStep, hpool]
    rfl
  rw [exec_of_starts hstarts]
  exact resume_eq_of_settles (started_safe_of_starts hstarts hs).1 he
    ⟨.head ⟨rfl, hask⟩ (.single ⟨rfl, hrefuse⟩), not_moves_of_idle (raise_busy _ _)⟩

/-- Settles O26: without a lease nothing is accumulated, staged or delivered, and the refusal leaves it so. -/
theorem poolRefusalPoisons : Obligations.PoolRefusalPoisons := by
  unfold Obligations.PoolRefusalPoisons
  intro i s rest hop hsnk hc hs hb hd hp he ha hpool
  have hx := exec_lease_refused ⟨hop, hsnk, hs.1.1.paramsWf, hb, hd, hp, hc⟩ hs ha he hpool
  have hhdr := hs.1.1.unleased ha hd
  obtain ⟨hacc, hstage, hsink⟩ := hs.1.1.unstaged hhdr
  refine ⟨_, hx, ⟨raise_busy _ _, raise_fsm _ _, raise_pending _ _⟩, raise_err _ _, ?_⟩
  simp [leaseRefused, poolAsked, started, ErrorKind.poisons, ha, hd, hhdr, hacc, hstage, hsink]

end Sys2Proof.Machine
end

section
/-! PROOFS. The blocking forms do not look at `cancel_req` (42_chunk_emit.md R173, 60_exceptions.md R226). -/

namespace Sys2Proof.Machine

open State Relation

/-- The state in which the host drives `cancel_req` to `v`. -/
def State.driven (v : Bool) (s : State) : State := { s with cancelReq := v }

section
variable (v : Bool)

/-! ### The operations of the model commute with the signal -/

theorem driven_complete (s : State) : (s.driven v).complete = s.complete.driven v := by
  cases h : s.cur.op <;> simp [complete, releaseSrc, close, log, driven, h]

theorem driven_raise (e : ErrorKind) (s : State) : (s.driven v).raise e = (s.raise e).driven v := by
  cases h : s.cur.op <;> simp [raise, releaseSrc, setError, close, log, driven, h]

theorem driven_accWrite (s : State) (a : Nat) (bs : List Byte) :
    (s.driven v).accWrite a bs = (s.accWrite a bs).map (driven v) := by
  simp only [accWrite, apply_ite (Except.map (driven v))]
  rfl

theorem driven_stgWrite (s : State) (a : Nat) (bs : List Byte) :
    (s.driven v).stgWrite a bs = (s.stgWrite a bs).map (driven v) := by
  simp only [stgWrite, apply_ite (Except.map (driven v))]
  rfl

theorem driven_blockTaken (s : State) : (s.driven v).blockTaken = s.blockTaken.driven v := by
  have hsp : (s.driven v).blockSpace = s.blockSpace := rfl
  unfold blockTaken
  rw [hsp]
  cases s.blockSpace <;> rfl

/-- The one place where the sequencer could sample the signal; a blocking form does not. -/
theorem driven_afterDrain {s : State} (ha : s.cur.async = false) : (s.driven v).afterDrain = s.afterDrain.driven v := by
  have hcur : (s.driven v).cur = s.cur := rfl
  unfold afterDrain
  rw [hcur, ha, driven_complete]
  cases s.cur.op <;> rfl

theorem driven_sinkAnswered (bytes : List Byte) (a : SinkAnswer) {s : State} (ha : s.cur.async = false) :
    (s.driven v).sinkAnswered bytes a = (s.sinkAnswered bytes a).driven v := by
  cases a with
  | ok => exact driven_afterDrain v (s := (s.answered _).delivered bytes) ha
  | err kept => exact driven_raise v .sink ((s.answered _).keptByFailingSink bytes kept)

theorem driven_stagePreamble (s : State) : (s.driven v).stagePreamble = s.stagePreamble.map (driven v) :=
  bind_map (driven_stgWrite v s _ _) fun _ => rfl

theorem driven_copyToAcc (s : State) : (s.driven v).copyToAcc = s.copyToAcc.map (driven v) := by
  have hread : (s.driven v).memRead .src (s.driven v).consumed.toNat (s.driven v).copyLen =
    s.memRead .src s.consumed.toNat s.copyLen := rfl
  unfold copyToAcc
  rw [hread]
  cases s.memRead .src s.consumed.toNat s.copyLen with
  | error f => rfl
  | ok bs => exact bind_map (driven_accWrite v s _ _) fun _ => rfl

theorem driven_packPayload (payload : List Byte) (s : State) :
    (s.driven v).packPayload payload = (s.packPayload payload).map (driven v) :=
  bind_map (driven_stgWrite v s _ _) fun t => bind_map (driven_stgWrite v t _ _) fun u =>
    bind_map (driven_stgWrite v u _ _) fun _ => rfl

theorem driven_packChecksum (cl : Nat) (crc : Word) (s : State) :
    (s.driven v).packChecksum cl crc = (s.packChecksum cl crc).map (driven v) :=
  bind_map (driven_stgWrite v (s.answered (.crcAnswer crc)) _ _) fun t =>
    congrArg Except.ok (driven_blockTaken v (t.chunkStaged cl))

/-! ### The steps of the sequencer -/

theorem driven_ensureStep (s : State) : ensureStep (s.driven v) = (ensureStep s).map (driven v) := by
  simp only [ensureStep, apply_ite (Progress.map (driven v)), ← Progress.of_map, ← driven_stagePreamble]
  rfl

theorem driven_poolStep (s : State) : poolStep (s.driven v) = (poolStep s).map (driven v) := by
  have hp : (s.driven v).poolAnswers = s.poolAnswers := rfl
  unfold poolStep
  rw [hp]
  split
  · rfl
  · rfl
  · rename_i rest _
    exact congrArg Progress.moved (driven_raise v .alloc (State.answered (.poolAnswer .refused) { s with poolAnswers := rest }))

theorem driven_segmentStep (s : State) : segmentStep (s.driven v) = (segmentStep s).map (driven v) := by
  simp only [segmentStep, apply_ite (Progress.map (driven v)), ← Progress.of_map, ← driven_copyToAcc, driven_complete]
  rfl

theorem driven_compressAnswered (blk : List Byte) (s : State) :
    compressAnswered blk (s.driven v) = (compressAnswered blk s).map (driven v) := by
  have hparams : (s.driven v).params = s.params := rfl
  have hfail : ∀ a,
      (((s.driven v).answered (.compressAnswer a)).stgScribble ((s.driven v).stageLen + 8)).raise .compress =
        (((s.answered (.compressAnswer a)).stgScribble (s.stageLen + 8)).raise .compress).driven v := fun _ =>
    driven_raise v .compress ((s.answered _).stgScribble _)
  unfold compressAnswered
  rw [hparams]
  split
  · rw [hfail]; rfl
  · rename_i payload _
    rw [apply_ite (Progress.map (driven v)), hfail, ← Progress.of_map, ← driven_packPayload]
    rfl

theorem driven_compressorStep (s : State) : compressorStep (s.driven v) = (compressorStep s).map (driven v) := by
  have hblk : (s.driven v).block = s.block := rfl
  unfold compressorStep
  rw [hblk, apply_ite (Progress.map (driven v))]
  cases s.block with
  | ok blk => simp only [driven_compressAnswered]; rfl
  | error f => rfl

theorem driven_checksumStep (cl : Nat) (s : State) : checksumStep cl (s.driven v) = (checksumStep cl s).map (driven v) := by
  have hblk : (s.driven v).block = s.block := rfl
  unfold checksumStep
  rw [hblk, apply_ite (Progress.map (driven v))]
  cases s.block with
  | ok blk => simp only [driven_packChecksum, Progress.of_map]; rfl
  | error f => rfl

theorem driven_drainStep {s : State} (ha : s.cur.async = false) : drainStep (s.driven v) = (drainStep s).map (driven v) := by
  have hread : (s.driven v).memRead .stg 0 (s.driven v).stageLen = s.memRead .stg 0 s.stageLen := rfl
  unfold drainStep
  rw [driven_afterDrain v ha, hread, apply_ite (Progress.map (driven v))]
  cases s.memRead .stg 0 s.stageLen <;> rfl

theorem driven_sinkStep {s : State} (ha : s.cur.async = false) : sinkStep (s.driven v) = (sinkStep s).map (driven v) := by
  have hk : (s.driven v).sinkAnswers = s.sinkAnswers := rfl
  have hread : (s.driven v).memRead .stg 0 (s.driven v).stageLen = s.memRead .stg 0 s.stageLen := rfl
  unfold sinkStep
  rw [hk, hread]
  split
  · rfl
  · rename_i a rest _
    cases s.memRead .stg 0 s.stageLen with
    | ok bytes => exact congrArg Progress.moved (driven_sinkAnswered v bytes a (s := { s with sinkAnswers := rest }) ha)
    | error f => rfl

/-- No step of the sequencer inside a blocking form looks at the signal: it moves, waits or stops as it does without it. -/
theorem driven_tick {s : State} (ha : s.cur.async = false) : tick (s.driven v) = (tick s).map (driven v) := by
  have hf : (s.driven v).fsm = s.fsm := rfl
  have hq : (s.driven v).pending = s.pending := rfl
  unfold tick
  rw [hf, hq]
  split
  · exact driven_ensureStep v s
  · exact driven_poolStep v s
  · exact driven_segmentStep v s
  · rfl
  · exact driven_compressorStep v s
  · exact driven_checksumStep v _ s
  · exact driven_drainStep v ha
  · exact driven_sinkStep v ha
  · rfl

/-! ### Runs -/

theorem driven_run (n : Nat) {s : State} (ha : s.cur.async = false) :
    run n (s.driven v) = thenDo (run n s) (.next ∘ driven v) := by
  induction n generalizing s with
  | zero => rfl
  | succ n ih =>
    cases hb : s.busy with
    | false => rw [run_idle _ hb, run_idle (s := s.driven v) _ hb]; rfl
    | true =>
      have htick := driven_tick v ha
      cases hs : tick s with
      | moved t =>
        rw [hs] at htick
        rw [run_moved hb hs, run_moved (s := s.driven v) hb htick]
        exact ih (by rw [(tick_holdsOperands hs).cur]; exact ha)
      | waits =>
        rw [hs] at htick
        rw [run_waits _ hs, run_waits _ htick]
        rfl
      | stops f =>
        have hbv : (s.driven v).busy = true := hb
        rw [hs] at htick
        simp [run, hb, hs, hbv, htick, Progress.map, thenDo]

theorem driven_resume {s : State} (ha : s.cur.async = false) :
    resume (s.driven v) = thenDo (resume s) (.next ∘ driven v) := by
  cases he : s.eager with
  | false => rw [resume_paced he, resume_paced (s := s.driven v) he]; rfl
  | true =>
    rw [resume, resume, if_pos he, if_pos (by exact he)]
    exact driven_run v s.fuel ha

/-! ### Commands -/

theorem driven_disposeInstance (s : State) : (s.driven v).disposeInstance = s.disposeInstance.driven v := by
  rw [disposeInstance_eq, disposeInstance_eq]
  rfl

/-- Acceptance of a blocking form has no check point. -/
theorem driven_commanded {i : Instr} (ha : i.async = false) (s : State) :
    (s.driven v).commanded i = (s.commanded i).driven v := by
  simp only [commanded, ha, Bool.false_and, apply_ite (driven v), ← driven_raise, ← driven_complete,
    ← driven_disposeInstance]
  rfl

theorem commanded_cur (i : Instr) (s : State) : (s.commanded i).cur = (s.accepted i).cur := by
  simp only [commanded, apply_ite State.cur, raise_cur, complete_cur, log_cur, disposeInstance_eq, started, ite_self]

/-- A blocking command answers what it answers without the signal. -/
theorem driven_exec {i : Instr} (ha : i.async = false) (s : State) :
    exec i (s.driven v) = thenDo (exec i s) (.next ∘ driven v) := by
  cases hr : refusal s with
  | some r => rw [exec_of_refusal hr, exec_of_refusal (s := s.driven v) hr]; rfl
  | none =>
    obtain ⟨hw, hb⟩ := refusal_eq_none.1 hr
    rw [exec_eq_resume hw hb, exec_eq_resume (s := s.driven v) hw hb, driven_commanded v ha]
    exact driven_resume v (by rw [commanded_cur]; exact ha)

/-! ### Steps of a busy machine -/

section
variable {s : State} (hw : s.params.wf = true) (hb : s.busy = true)
include hw hb

/-- A busy machine refuses every word that is written to `CMD`, so that no write has an effect the signal could change. -/
theorem driven_step_csrWrite {a width : Nat} {w : Word} {rest : List Input} (hin : s.inputs = .csrWrite a width w :: rest) :
    step (s.driven v) = thenDo (step s) (.next ∘ driven v) := by
  have hr : refusal { s with inputs := rest } = some .commandWhileBusy := refusal_of_busy hw hb
  have hrv : refusal { s.driven v with inputs := rest } = some .commandWhileBusy := refusal_of_busy hw hb
  have hcsr : (s.driven v).csrAt a width = s.csrAt a width := rfl
  rw [step, step, nextMove_csrWrite hw hin, nextMove_csrWrite (s := s.driven v) hw hin, csrWrite, csrWrite, csrAt_inputs s rest,
    csrAt_inputs (s.driven v) rest, hcsr]
  cases s.csrAt a width with
  | none => rfl
  | some r =>
    cases r with
    | cmd =>
      cases hd : decode w with
      | ok i => simp only [hd, exec_of_refusal hr, exec_of_refusal hrv]; rfl
      | error e => simp only [hd, illegalCommand, hr, hrv]; rfl
    | srcLen =>
      simp only [srcLenWrite, apply_ite (thenDo · (.next ∘ driven v))]
      rfl
    | _ => rfl

omit hb in
theorem driven_step_csrRead {a width : Nat} {rest : List Input} (hin : s.inputs = .csrRead a width :: rest) :
    step (s.driven v) = thenDo (step s) (.next ∘ driven v) := by
  have hcsr : (s.driven v).csrAt a width = s.csrAt a width := rfl
  rw [step, step, nextMove_csrRead hw hin, nextMove_csrRead (s := s.driven v) hw hin, csrRead, csrRead, csrAt_inputs s rest,
    csrAt_inputs (s.driven v) rest, hcsr]
  cases s.csrAt a width <;> rfl

theorem driven_step (ha : s.cur.async = false) (hne : ∀ w, s.inputs.head? ≠ some (.cancel w)) :
    step (s.driven v) = thenDo (step s) (.next ∘ driven v) := by
  cases hin : s.inputs with
  | nil =>
    rw [step, step, nextMove_nil hw hin, nextMove_nil (s := s.driven v) hw hin]
    simp only [oneTick, apply_ite (thenDo · (.next ∘ driven v)), ← driven_resume v ha, ← driven_run v 1 ha]
    rfl
  | cons input rest =>
    cases input with
    | csrWrite a width w => exact driven_step_csrWrite v hw hb hin
    | csrRead a width => exact driven_step_csrRead v hw hin
    | lend d =>
      rw [step, step, nextMove_lend hw hin, nextMove_lend (s := s.driven v) hw hin]
      simp only [lendSrc, apply_ite (thenDo · (.next ∘ driven v))]
      rfl
    | cancel w => exact absurd (by rw [hin]; rfl) (hne w)
    | construct =>
      rw [step, step, nextMove_construct hw hin, nextMove_construct (s := s.driven v) hw hin]
      simp only [constructInstance, apply_ite (thenDo · (.next ∘ driven v))]
      rfl
    | pool a =>
      rw [step, step, nextMove_pool hw hin, nextMove_pool (s := s.driven v) hw hin]
      exact driven_resume v (s := { s with inputs := rest, poolAnswers := s.poolAnswers ++ [a] }) ha
    | sink a =>
      rw [step, step, nextMove_sink hw hin, nextMove_sink (s := s.driven v) hw hin]
      exact driven_resume v (s := { s with inputs := rest, sinkAnswers := s.sinkAnswers ++ [a] }) ha
    | compressor r =>
      rw [step, step, nextMove_compressor hw hin, nextMove_compressor (s := s.driven v) hw hin]
      exact driven_resume v (s := { s with inputs := rest, compressorReady := r }) ha
    | checksum r =>
      rw [step, step, nextMove_checksum hw hin, nextMove_checksum (s := s.driven v) hw hin]
      exact driven_resume v (s := { s with inputs := rest, checksumReady := r }) ha
    | pace e =>
      rw [step, step, nextMove_pace hw hin, nextMove_pace (s := s.driven v) hw hin]
      exact driven_resume v (s := { s with inputs := rest, eager := e }) ha
    | tick =>
      rw [step, step, nextMove_tick hw hin, nextMove_tick (s := s.driven v) hw hin]
      exact driven_run v 1 (s := { s with inputs := rest }) ha

end

end

/-- Settles O24: a blocking command and a later step of it answer the same with the signal driven, and the host's move on the
signal is an input of its own. -/
theorem blockingFormsIgnoreCancellation : Obligations.BlockingFormsIgnoreCancellation := by
  unfold Obligations.BlockingFormsIgnoreCancellation
  refine ⟨fun i s t v ha h => ?_, fun s t v hb ha hne h => ⟨?_, ?_⟩, fun s v w rest hw _ _ hin => ?_⟩
  · exact (driven_exec v ha s).trans (by rw [h]; rfl)
  · rw [((operandsStableWhileBusy s (step_cases h).1 hb).1 t h).1]
    exact ha
  · exact (driven_step v (step_cases h).1 hb ha hne).trans (by rw [h]; rfl)
  · rw [step, nextMove_cancel (s := { s with cancelReq := v }) hw hin]

end Sys2Proof.Machine
end

section
/-! PROOFS. The state after reset, and the construction of a new instance (70_reset_and_hazards.md R250 to R252). -/

namespace Sys2Proof.Machine

open State

/-! ### Reset -/

theorem step_cancel {s : State} (hw : s.params.wf = true) {v : Bool} {rest : List Input} (hin : s.inputs = .cancel v :: rest) :
    step s = .next { s with inputs := rest, cancelReq := v } := by
  rw [step, nextMove_cancel hw hin]

theorem reset_params_wf : State.reset.params.wf = true := by decide

/-- The registers but the two of the parameters hold 0 after reset (10_state.md R40, 70_reset_and_hazards.md R251). -/
theorem reset_csrValue_eq_zero {r : Csr} (hblock : r ≠ .paramBlock) (hstage : r ≠ .paramStage) :
    State.reset.csrValue r = 0#32 := by
  cases r with
  | paramBlock => exact absurd rfl hblock
  | paramStage => exact absurd rfl hstage
  | status => decide
  | _ => rfl

/-- The seven offsets are those of the registers but the two of the parameters. -/
theorem reset_readsAs_zero {off : Nat} (hoff : off ∈ [0x00, 0x04, 0x08, 0x0C, 0x10, 0x14, 0x18]) :
    State.reset.ReadsAs off 0#32 := by
  have hmem : off ∈ [Csr.cmd, .srcLen, .status, .accLen, .stageLen, .consumed, .chunks].map Csr.offset := hoff
  obtain ⟨r, hr, rfl⟩ := List.mem_map.1 hmem
  have hzero : State.reset.csrValue r = 0#32 :=
    reset_csrValue_eq_zero (by rintro rfl; simp at hr) (by rintro rfl; simp at hr)
  exact hzero ▸ readsAs_csrValue reset_params_wf r

/-- Settles O13: the fields by the definition of the state after reset, each register by what a read of it returns. -/
theorem resetValues : Obligations.ResetValues := by
  unfold Obligations.ResetValues
  exact ⟨rfl, rfl, rfl, rfl, rfl, rfl, rfl, rfl, rfl, rfl, rfl, rfl,
    fun a n _ => hasAddresses_unleased rfl a n,
    fun _ => reset_readsAs_zero,
    readsAs_csrValue reset_params_wf .paramBlock, readsAs_csrValue reset_params_wf .paramStage,
    by decide, rfl,
    fun v rest => step_cancel (s := { State.reset with inputs := .cancel v :: rest }) reset_params_wf rfl⟩

/-! ### A new instance -/

theorem step_construct {s : State} (hw : s.params.wf = true) {rest : List Input} (hin : s.inputs = .construct :: rest) :
    step s = constructInstance { s with inputs := rest } := by
  rw [step, nextMove_construct hw hin]

/-- A construction is refused exactly where it would drop a lease or a running command (70_reset_and_hazards.md R252). -/
theorem constructInstance_refused_iff (s : State) :
    constructInstance s = .refused .resetOfLiveInstance ↔ s.alloc = true ∨ s.busy = true := by
  unfold constructInstance
  split
  · exact iff_of_true rfl ‹_›
  · exact iff_of_false nofun ‹_›

/-- Settles O14: the step is the construction, in the state behind the input. -/
theorem resetOfLiveInstanceRefused : Obligations.ResetOfLiveInstanceRefused := by
  unfold Obligations.ResetOfLiveInstanceRefused
  intro s rest hw hin
  rw [step_construct hw hin]
  exact constructInstance_refused_iff { s with inputs := rest }

/-- Settles O15: the construction is not refused, and it answers the state after reset in the same world. -/
theorem newInstanceIsFresh : Obligations.NewInstanceIsFresh := by
  unfold Obligations.NewInstanceIsFresh
  intro s rest hw hin halloc hbusy
  have hfree : ¬ (s.alloc = true ∨ s.busy = true) := by simp [halloc, hbusy]
  rw [step_construct hw hin, constructInstance, if_neg hfree]
  exact ⟨_, rfl, ⟨rfl, rfl, rfl⟩, rfl, rfl, rfl, rfl, rfl, rfl, rfl, rfl, rfl, rfl,
    ⟨rfl, rfl, rfl, rfl, rfl, rfl, rfl, rfl⟩⟩

end Sys2Proof.Machine
end
